-- ==== Sys2Proof/Word.lean ====
section
/-! DEFINITION. The word types of the machine (spec 10_state.md R11 to R18, 00_scope.md R8): every quantity is
unsigned; a cursor is an unbounded natural (92_eei_decisions.md D3). -/

namespace Sys2Proof

/-- One byte of a memory, and the register `prev` (R17, R40). -/
abbrev Byte := BitVec 8

/-- The 32-bit registers `range`, `code`, `rep[k]`, `dictSize`, and a zero-based distance (R11, R12, R15, R18). -/
abbrev Word := BitVec 32

/-- An adaptive counter: an 11-bit probability that the next decision is 0 (R21). -/
abbrev Prob := BitVec 11

/-- The register `state`: the index 0 to 11 of the format's state machine (R16). -/
abbrev StateIndex := Fin 12

/-- `posState`, the low `pb` bits of the output position, at most 15 (R151). -/
abbrev PosState := Fin 16

/-- A handle operand: `none` is the null handle, which names no instance (R184). -/
abbrev Handle := Option Nat

end Sys2Proof
end

