-- ==== Sys2Proof/Config.lean ====
section
/-! DEFINITION. What an implementation fixes (00_scope.md R7) and the free values: constants without a body, of which
nothing can be proved. The format's own constants (00_scope.md section 5) stand here too. -/

namespace Sys2Proof

/-- `DICT_MIN_POLICY` (R7, D6): what CREATE does with a dictionary size below 4096. -/
inductive DictMinPolicy where
  | clamp
  | reject
  deriving DecidableEq, Repr

/-- `INIT_BYTE0_POLICY` (R7, D9): what RC_INIT does with a first stream byte that is not 0. -/
inductive InitByte0Policy where
  | ignore
  | reject
  deriving DecidableEq, Repr

/-- The open parameters of R7 that change what a command does. A field of the machine's state that no instruction
writes (log 17), so that every statement holds for every choice. -/
structure Params where
  /-- `DICT_MIN_POLICY` (D6). -/
  dictMin : DictMinPolicy
  /-- `INIT_BYTE0_POLICY` (D9). -/
  initByte0 : InitByte0Policy
  /-- `USIZE_BITS` (D3): the width of `srcLen` and `destCapacity`; `none` is unbounded. -/
  usizeBits : Option Nat
  deriving DecidableEq, Repr

/-- The defaults the spec gives the parameters (R7). -/
def Params.default : Params := { dictMin := .clamp, initByte0 := .ignore, usizeBits := none }

/-- `kTop`, the normalisation threshold 2^24 (section 5 of 00_scope.md). -/
def Config.top : Word := 0x1000000

/-- `kEOS`, the distance that is the end marker (R69). -/
def Config.eosDistance : Word := 0xFFFFFFFF

/-- `kDictMin`, the format minimum of the dictionary size (R182). -/
def Config.dictMin : Nat := 4096

/-- `kProbInit`, the midpoint every counter is reset to (R21). -/
def Config.probInit : Prob := 1024

/-- FREE VALUE (log 8). The answer of `ALLOC_OK` at a draw the environment has lined up no answer for (R183, D5). -/
opaque Config.allocOk : Nat → Bool

/-- FREE VALUE (log 9, log 10). The byte of OUT at an index that the state does not list, by the epoch of the
unspecified contents and the index (R26, D14, U4, U8). -/
opaque Config.freeOutByte : Nat → Nat → Byte

/-- FREE VALUE (log 10). The byte of SRC at an index the state does not list; no run reaches one below `srcLen`. -/
opaque Config.freeSrcByte : Nat → Nat → Byte

end Sys2Proof
end

