-- ==== Sys2Proof/Syntax.lean ====
section
/-! DEFINITION. The syntax: counters of the probability file (10_state.md R23), the instructions (one constructor per
row of spec/opcode_table.json), the packets as the spec's listing writes them (30_encoding.md R74), and the requests in
which an instruction's word is handed to the machine (30_encoding.md R60, R73). -/

namespace Sys2Proof

/-- The two length coders (R120): coder 0 is MATCH and EOS, coder 1 is LONGREP0 to LONGREP3. -/
inductive Coder where
  | forMatch
  | forRep
  deriving DecidableEq, Repr

/-- One adaptive counter `P.<array>[...]` of the probability file, by its array and indices (R23). The index types are
the arrays' dimensions, so no index is out of its array. -/
inductive Counter where
  | isMatch (s : StateIndex) (ps : PosState)
  | isRep (s : StateIndex)
  | isRepG0 (s : StateIndex)
  | isRepG1 (s : StateIndex)
  | isRepG2 (s : StateIndex)
  | isRep0Long (s : StateIndex) (ps : PosState)
  | posSlot (ls : Fin 4) (m : Fin 64)
  | specPos (i : Fin 115)
  | align (m : Fin 16)
  | choice (c : Coder)
  | choice2 (c : Coder)
  | low (c : Coder) (ps : PosState) (m : Fin 8)
  | mid (c : Coder) (ps : PosState) (m : Fin 8)
  | high (c : Coder) (m : Fin 256)
  | lit (ctx : Fin 256) (j : Fin 768)
  deriving DecidableEq, Repr

/-- A counter array that a bit-tree operation walks: the operand `T` of R95 and R96. -/
inductive Tree where
  | posSlot (ls : Fin 4)
  | specPos
  | align
  | low (c : Coder) (ps : PosState)
  | mid (c : Coder) (ps : PosState)
  | high (c : Coder)
  | lit (ctx : Fin 256)
  deriving DecidableEq, Repr

/-- The instructions: the rows of spec/opcode_table.json in the table's order. A packet's or a format's operands are
read from the stream by its meaning; what stands here is what the rule names as operands of the caller. -/
inductive Instr where
  /-- CREATE (R180): the four properties. -/
  | create (lc lp pb : Nat) (dictSize : Word)
  /-- DESTROY (R185). -/
  | destroy (h : Handle)
  /-- RESET (R186). -/
  | reset (h : Handle)
  /-- DECOMPRESS (R187). -/
  | decompress (h : Handle) (src : List Byte) (destCapacity : Nat)
  /-- HDR (R61): the bytes of the properties header. -/
  | hdr (bytes : List Byte)
  /-- STREAM.INIT (R63, R90). -/
  | streamInit
  /-- LIT (R153). -/
  | lit
  /-- MATCH (R154). -/
  | newMatch
  /-- EOS (R155). -/
  | eos
  /-- SHORTREP (R156). -/
  | shortRep
  /-- LONGREP0 (R157). -/
  | longRep0
  /-- LONGREP1 (R158). -/
  | longRep1
  /-- LONGREP2 (R159). -/
  | longRep2
  /-- LONGREP3 (R160). -/
  | longRep3
  /-- LITERAL.PLAIN (R112). -/
  | literalPlain
  /-- LITERAL.MATCHED (R113). -/
  | literalMatched
  /-- LEN.LOW (R122). -/
  | lenLow (c : Coder) (ps : PosState)
  /-- LEN.MID (R123). -/
  | lenMid (c : Coder) (ps : PosState)
  /-- LEN.HIGH (R124). -/
  | lenHigh (c : Coder)
  /-- DIST.S0 (R127): the distance of slot 0. -/
  | distS0
  /-- DIST.S1 (R127): the distance of slot 1. -/
  | distS1
  /-- DIST.S2 (R127): the distance of slot 2. -/
  | distS2
  /-- DIST.S3 (R127): the distance of slot 3. -/
  | distS3
  /-- DIST.S4 (R128): the distance of slot 4. -/
  | distS4
  /-- DIST.S5 (R128): the distance of slot 5. -/
  | distS5
  /-- DIST.S6 (R128): the distance of slot 6. -/
  | distS6
  /-- DIST.S7 (R128): the distance of slot 7. -/
  | distS7
  /-- DIST.S8 (R128): the distance of slot 8. -/
  | distS8
  /-- DIST.S9 (R128): the distance of slot 9. -/
  | distS9
  /-- DIST.S10 (R128): the distance of slot 10. -/
  | distS10
  /-- DIST.S11 (R128): the distance of slot 11. -/
  | distS11
  /-- DIST.S12 (R128): the distance of slot 12. -/
  | distS12
  /-- DIST.S13 (R128): the distance of slot 13. -/
  | distS13
  /-- DIST.S14 (R129): the distance of slot 14. -/
  | distS14
  /-- DIST.S15 (R129): the distance of slot 15. -/
  | distS15
  /-- DIST.S16 (R129): the distance of slot 16. -/
  | distS16
  /-- DIST.S17 (R129): the distance of slot 17. -/
  | distS17
  /-- DIST.S18 (R129): the distance of slot 18. -/
  | distS18
  /-- DIST.S19 (R129): the distance of slot 19. -/
  | distS19
  /-- DIST.S20 (R129): the distance of slot 20. -/
  | distS20
  /-- DIST.S21 (R129): the distance of slot 21. -/
  | distS21
  /-- DIST.S22 (R129): the distance of slot 22. -/
  | distS22
  /-- DIST.S23 (R129): the distance of slot 23. -/
  | distS23
  /-- DIST.S24 (R129): the distance of slot 24. -/
  | distS24
  /-- DIST.S25 (R129): the distance of slot 25. -/
  | distS25
  /-- DIST.S26 (R129): the distance of slot 26. -/
  | distS26
  /-- DIST.S27 (R129): the distance of slot 27. -/
  | distS27
  /-- DIST.S28 (R129): the distance of slot 28. -/
  | distS28
  /-- DIST.S29 (R129): the distance of slot 29. -/
  | distS29
  /-- DIST.S30 (R129): the distance of slot 30. -/
  | distS30
  /-- DIST.S31 (R129): the distance of slot 31. -/
  | distS31
  /-- DIST.S32 (R129): the distance of slot 32. -/
  | distS32
  /-- DIST.S33 (R129): the distance of slot 33. -/
  | distS33
  /-- DIST.S34 (R129): the distance of slot 34. -/
  | distS34
  /-- DIST.S35 (R129): the distance of slot 35. -/
  | distS35
  /-- DIST.S36 (R129): the distance of slot 36. -/
  | distS36
  /-- DIST.S37 (R129): the distance of slot 37. -/
  | distS37
  /-- DIST.S38 (R129): the distance of slot 38. -/
  | distS38
  /-- DIST.S39 (R129): the distance of slot 39. -/
  | distS39
  /-- DIST.S40 (R129): the distance of slot 40. -/
  | distS40
  /-- DIST.S41 (R129): the distance of slot 41. -/
  | distS41
  /-- DIST.S42 (R129): the distance of slot 42. -/
  | distS42
  /-- DIST.S43 (R129): the distance of slot 43. -/
  | distS43
  /-- DIST.S44 (R129): the distance of slot 44. -/
  | distS44
  /-- DIST.S45 (R129): the distance of slot 45. -/
  | distS45
  /-- DIST.S46 (R129): the distance of slot 46. -/
  | distS46
  /-- DIST.S47 (R129): the distance of slot 47. -/
  | distS47
  /-- DIST.S48 (R129): the distance of slot 48. -/
  | distS48
  /-- DIST.S49 (R129): the distance of slot 49. -/
  | distS49
  /-- DIST.S50 (R129): the distance of slot 50. -/
  | distS50
  /-- DIST.S51 (R129): the distance of slot 51. -/
  | distS51
  /-- DIST.S52 (R129): the distance of slot 52. -/
  | distS52
  /-- DIST.S53 (R129): the distance of slot 53. -/
  | distS53
  /-- DIST.S54 (R129): the distance of slot 54. -/
  | distS54
  /-- DIST.S55 (R129): the distance of slot 55. -/
  | distS55
  /-- DIST.S56 (R129): the distance of slot 56. -/
  | distS56
  /-- DIST.S57 (R129): the distance of slot 57. -/
  | distS57
  /-- DIST.S58 (R129): the distance of slot 58. -/
  | distS58
  /-- DIST.S59 (R129): the distance of slot 59. -/
  | distS59
  /-- DIST.S60 (R129): the distance of slot 60. -/
  | distS60
  /-- DIST.S61 (R129): the distance of slot 61. -/
  | distS61
  /-- DIST.S62 (R129): the distance of slot 62. -/
  | distS62
  /-- DIST.S63 (R129): the distance of slot 63. -/
  | distS63
  /-- RC_INIT (R90). -/
  | rcInit
  /-- NEXTBYTE (R91). -/
  | nextByte
  /-- DECODEBIT (R93): the counter. -/
  | decodeBit (c : Counter)
  /-- NORMALIZE (R97). -/
  | normalize
  /-- DECODEDIRECT (R94): how many decisions. -/
  | decodeDirect (n : Nat)
  /-- DECODETREE (R95): the array and the number of bits. -/
  | decodeTree (t : Tree) (n : Nat)
  /-- DECODETREEREVERSE (R96): the array, the offset into it and the number of bits. -/
  | decodeTreeReverse (t : Tree) (base n : Nat)
  /-- LIT_DECODE (R114). -/
  | litDecode
  /-- LEN_DECODE (R120). -/
  | lenDecode (c : Coder) (ps : PosState)
  /-- DIST_DECODE (R126): the length just decoded. -/
  | distDecode (length : Nat)
  /-- PUTBYTE (R140). -/
  | putByte (b : Byte)
  /-- GETBYTE (R141): a zero-based distance. -/
  | getByte (distance : Word)
  /-- COPYMATCH (R142): a zero-based distance and a length. -/
  | copyMatch (distance : Word) (length : Nat)
  /-- RUN (R150). -/
  | run
  deriving DecidableEq, Repr

/-- A packet with its operands, as a line of the spec's listing has it (R74). -/
inductive Packet where
  | lit (b : Byte)
  | newMatch (length : Nat) (distance : Word)
  | eos (length : Nat)
  | shortRep
  | longRep (k : Fin 4) (length : Nat)
  deriving DecidableEq, Repr

/-- Which of the stream's formats a word of decisions is in (R60). A length stands in the context of its coder and
`posState`; a literal in the mode of R111. -/
inductive Format where
  | init
  | packet
  | literal (matched : Bool)
  | len (c : Coder) (ps : PosState)
  | dist
  deriving DecidableEq, Repr

/-- What the host can send: a host command as its code and operands (R73), or the bytes of a header to the header decoder
in front of CREATE (R61). The four commands are the whole system-level interface (R193). -/
inductive HostRequest where
  | command (code : Nat) (handle : Handle) (nums : List Nat) (bytes : List Byte)
  | header (bytes : List Byte)
  deriving DecidableEq, Repr

/-- The decisions that select a row of one of the stream's formats (R60, R64, log 3). -/
structure RowWord where
  format : Format
  ds : List Bool
  deriving DecidableEq, Repr

/-- A word of any format of R60, as the decoder takes it. `command`: a host command as its code and operands (R73).
`header`: the bytes of HDR (R61). `stream`: the decisions that select a row of one of the stream's formats (R64). -/
inductive Request where
  | command (code : Nat) (handle : Handle) (nums : List Nat) (bytes : List Byte)
  | header (bytes : List Byte)
  | stream (f : Format) (ds : List Bool)
  deriving DecidableEq, Repr

/-- The word of a host request. -/
def HostRequest.word : HostRequest → Request
  | .command code handle nums bytes => .command code handle nums bytes
  | .header bytes => .header bytes

/-- The word of a row. -/
def RowWord.word (w : RowWord) : Request := .stream w.format w.ds

end Sys2Proof
end

