-- ==== Sys2Proof/WellFormed.lean ====
section
/-! DEFINITION. Which instructions are well formed: the operand ranges the spec states for the caller of an internal
operation. A property out of range is no ill-formed CREATE: it is InvalidProperties (45_host_commands.md R181). -/

namespace Sys2Proof

/-- The lengths the format can spell, 2 to 273 (R67). -/
def lengthOk (n : Nat) : Bool := decide (2 ≤ n) && decide (n ≤ 273)

/-- The operand ranges of R94 (0 to 26 direct decisions), R95 (1 to 8 bits), R96 (1 to 5 bits), R125 (a length) and
R142 (a copy of 1 to 273 bytes), and the header's 5 bytes (R61; fewer is a header that cannot be parsed, R203).
The step asks it of a request; `exec` does not (log 38). -/
def Instr.wellFormed : Instr → Bool
  | .hdr bytes => decide (bytes.length ≤ 5)
  | .decodeDirect n => decide (n ≤ 26)
  | .decodeTree _ n => decide (1 ≤ n) && decide (n ≤ 8)
  | .decodeTreeReverse _ _ n => decide (1 ≤ n) && decide (n ≤ 5)
  | .distDecode n => lengthOk n
  | .copyMatch _ n => decide (1 ≤ n) && decide (n ≤ 273)
  | _ => true

/-- A packet with operands the format can spell (R67, R69). -/
def Packet.wellFormed : Packet → Bool
  | .lit _ => true
  | .newMatch n d => lengthOk n && d != Config.eosDistance
  | .eos n => lengthOk n
  | .shortRep => true
  | .longRep _ n => lengthOk n

end Sys2Proof
end

