-- ==== Sys2Proof/Decode.lean ====
section
/-! DEFINITION. Decoding and encoding. The stream's formats are written in decisions (30_encoding.md R64), so a format
is a decision program: which decision is asked next, given the answers so far. One program serves twice: `Dec.read`
reads it against a list of decisions (what the encoding tables of 30_encoding.md say), and the machine runs it through
the range decoder (Machine/Ops.lean, `runDec`). After the decoders stand the encoders of the same tables. -/

namespace Sys2Proof

/-! ## Decision programs -/

/-- Where a decision comes from (R64): one `DecodeBit` of a counter, or one step of `DecodeDirect`. -/
inductive Query where
  | adaptive (c : Counter)
  | direct
  deriving DecidableEq, Repr

/-- A decision program with result `α`. -/
inductive Dec (α : Type) where
  | done (a : α)
  | ask (q : Query) (k : Bool → Dec α)

/-- Run the program `f` chooses after `d`. -/
def Dec.bind {α β : Type} : Dec α → (α → Dec β) → Dec β
  | .done a, f => f a
  | .ask q k, f => .ask q fun b => (k b).bind f

/-- Change the result of a program. -/
def Dec.map {α β : Type} (f : α → β) (d : Dec α) : Dec β := d.bind fun a => .done (f a)

/-- Read a program against a list of decisions: its result and the decisions left over, or `none` when they run out. -/
def Dec.read {α : Type} : Dec α → List Bool → Option (α × List Bool)
  | .done a, ds => some (a, ds)
  | .ask _ _, [] => none
  | .ask _ k, b :: ds => (k b).read ds

/-- `DecodeBit(P.x[i])` as a program (R93). -/
def bitDec (c : Counter) : Dec Bool := .ask (.adaptive c) .done

/-! ## The counters of a tree -/

/-- How many entries the array of a tree has (R23). -/
def Tree.size : Tree → Nat
  | .posSlot _ => 64
  | .specPos => 115
  | .align => 16
  | .low _ _ => 8
  | .mid _ _ => 8
  | .high _ => 256
  | .lit _ => 768

/-- The counter at entry `k` of a tree's array (R23). Every rule's `k` is below the array's size (R98). -/
def Tree.counter (t : Tree) (k : Nat) : Counter :=
  match t with
  | .posSlot ls => .posSlot ls (Fin.ofNat 64 k)
  | .specPos => .specPos (Fin.ofNat 115 k)
  | .align => .align (Fin.ofNat 16 k)
  | .low c ps => .low c ps (Fin.ofNat 8 k)
  | .mid c ps => .mid c ps (Fin.ofNat 8 k)
  | .high c => .high c (Fin.ofNat 256 k)
  | .lit ctx => .lit ctx (Fin.ofNat 768 k)

/-! ## Bit trees and direct decisions (R94 to R96) -/

/-- The walk of `DecodeTree`: `n` more decisions from node `m`; the last node reached. -/
def treeWalk (t : Tree) : Nat → Nat → Dec Nat
  | 0, m => .done m
  | n + 1, m => .ask (.adaptive (t.counter m)) fun b => treeWalk t n (2 * m + b.toNat)

/-- `DecodeTree(T, n)` (R95): most significant decision first. -/
def treeDec (t : Tree) (n : Nat) : Dec Nat := (treeWalk t n 1).map fun m => m - 2 ^ n

/-- The walk of `DecodeTreeReverse`: `n` more decisions from node `m`, the next of weight `w`, value so far `v`. -/
def reverseWalk (t : Tree) (base : Nat) : Nat → Nat → Nat → Nat → Dec Nat
  | 0, _, _, v => .done v
  | n + 1, m, w, v =>
    .ask (.adaptive (t.counter (base + m))) fun b => reverseWalk t base n (2 * m + b.toNat) (2 * w) (v + b.toNat * w)

/-- `DecodeTreeReverse(T, base, n)` (R96): least significant decision first. -/
def reverseDec (t : Tree) (base n : Nat) : Dec Nat := reverseWalk t base n 1 1 0

/-- The steps of `DecodeDirect`: `n` more decisions, value so far `v`. -/
def directWalk : Nat → Nat → Dec Nat
  | 0, v => .done v
  | n + 1, v => .ask .direct fun b => directWalk n (2 * v + b.toNat)

/-- `DecodeDirect(n)` (R94): most significant decision first. -/
def directDec (n : Nat) : Dec Nat := directWalk n 0

/-! ## The literal operand (R66, R110 to R113) -/

/-- How a literal is decoded (R111): plain, or matched against the byte at the most recent match position. -/
inductive LitMode where
  | plain
  | matched (matchByte : Byte)
  deriving DecidableEq, Repr

/-- A plain literal (R112): `DecodeTree(P.lit[ctx], 8)`. -/
def plainDec (ctx : Fin 256) : Dec Byte := (treeDec (.lit ctx) 8).map (BitVec.ofNat 8)

/-- The walk of a matched literal (R113): `n` more decisions, `symbol` so far, `mb` the match byte shifted so far. The
counter is biased by the match bit until the first disagreement, then the walk is the plain one. -/
def matchedWalk (ctx : Fin 256) : Nat → Nat → Nat → Dec Nat
  | 0, symbol, _ => .done symbol
  | n + 1, symbol, mb =>
    .ask (.adaptive ((Tree.lit ctx).counter ((1 + mb / 128 % 2) * 256 + symbol))) fun b =>
      if b.toNat = mb / 128 % 2 then matchedWalk ctx n (2 * symbol + b.toNat) (2 * mb % 256)
      else treeWalk (.lit ctx) n (2 * symbol + b.toNat)

/-- A matched literal (R113). -/
def matchedDec (ctx : Fin 256) (mb : Byte) : Dec Byte := (matchedWalk ctx 8 1 mb.toNat).map (BitVec.ofNat 8)

/-- A literal in a mode (R114). -/
def litDec (ctx : Fin 256) : LitMode → Dec Byte
  | .plain => plainDec ctx
  | .matched mb => matchedDec ctx mb

/-! ## The length operand (R67, R120 to R124) -/

/-- LEN_LOW (R122). -/
def lowDec (c : Coder) (ps : PosState) : Dec Nat := (treeDec (.low c ps) 3).map (2 + ·)

/-- LEN_MID (R123). -/
def midDec (c : Coder) (ps : PosState) : Dec Nat := (treeDec (.mid c ps) 3).map (10 + ·)

/-- LEN_HIGH (R124). -/
def highDec (c : Coder) : Dec Nat := (treeDec (.high c) 8).map (18 + ·)

/-- LEN_DECODE (R120): the class decisions of R121, then the tree of the class. -/
def lenDec (c : Coder) (ps : PosState) : Dec Nat :=
  (bitDec (.choice c)).bind fun b =>
    if b then (bitDec (.choice2 c)).bind fun b2 => if b2 then highDec c else midDec c ps
    else lowDec c ps

/-! ## The distance operand (R68, R125 to R131) -/

/-- `lenState = min(length - 2, 3)` (R125). -/
def lenState (length : Nat) : Fin 4 := if length ≤ 2 then 0 else if length = 3 then 1 else if length = 4 then 2 else 3

/-- How many extra bits a slot has: `(slot >> 1) - 1` (R126). -/
def slotBits (slot : Nat) : Nat := slot / 2 - 1

/-- The smallest distance of a slot from 4 up (R131). -/
def slotBase (slot : Nat) : Nat := (2 + slot % 2) * 2 ^ slotBits slot

/-- What follows the slot's decisions (R126): nothing (R127), the footer tree (R128), or direct bits and the aligned
tree (R129). -/
def slotDec (slot : Nat) : Dec Nat :=
  if slot < 4 then .done slot
  else if slot < 14 then
    (reverseDec .specPos (slotBase slot - slot) (slotBits slot)).map (slotBase slot + ·)
  else
    (directDec (slotBits slot - 4)).bind fun d => (reverseDec .align 0 4).map fun a => slotBase slot + d * 16 + a

/-- DIST_DECODE (R126). -/
def distDec (length : Nat) : Dec Nat := (treeDec (.posSlot (lenState length)) 6).bind slotDec

/-- The operands of MATCH and EOS (R154, R155): a length of coder 0, then a distance. -/
def matchOperandsDec (ps : PosState) : Dec (Nat × Word) :=
  (lenDec .forMatch ps).bind fun n => (distDec n).map fun d => (n, BitVec.ofNat 32 d)

/-! ## Packets (R65, R151, R152) -/

/-- What the naming decisions of a packet can name (R65). `1 0` names MATCH and EOS alike: which it is shows only in the
decoded distance (R69). -/
inductive PacketKind where
  | lit
  | newMatch
  | shortRep
  | longRep (k : Fin 4)
  deriving DecidableEq, Repr

/-- The row of a packet kind. -/
def PacketKind.instr : PacketKind → Instr
  | .lit => .lit
  | .newMatch => .newMatch
  | .shortRep => .shortRep
  | .longRep 0 => .longRep0
  | .longRep 1 => .longRep1
  | .longRep 2 => .longRep2
  | .longRep 3 => .longRep3

/-- The decisions that name a packet (R151, R152). -/
def kindDec (s : StateIndex) (ps : PosState) : Dec PacketKind :=
  (bitDec (.isMatch s ps)).bind fun m =>
    if !m then .done .lit
    else (bitDec (.isRep s)).bind fun r =>
      if !r then .done .newMatch
      else (bitDec (.isRepG0 s)).bind fun g0 =>
        if !g0 then (bitDec (.isRep0Long s ps)).bind fun l => .done (if l then .longRep 0 else .shortRep)
        else (bitDec (.isRepG1 s)).bind fun g1 =>
          if !g1 then .done (.longRep 1)
          else (bitDec (.isRepG2 s)).bind fun g2 => .done (.longRep (if g2 then 3 else 2))

/-- The architectural state that a packet's decoding depends on (R72): `state`, `posState`, the literal context and the
literal mode. -/
structure PacketContext where
  st : StateIndex
  ps : PosState
  ctx : Fin 256
  mode : LitMode
  deriving DecidableEq, Repr

/-- What follows the naming decisions of a packet (the operand column of R65). -/
def operandsDec (x : PacketContext) : PacketKind → Dec Packet
  | .lit => (litDec x.ctx x.mode).map .lit
  | .newMatch =>
    (matchOperandsDec x.ps).map fun nd => if nd.2 = Config.eosDistance then .eos nd.1 else .newMatch nd.1 nd.2
  | .shortRep => .done .shortRep
  | .longRep k => (lenDec .forRep x.ps).map (.longRep k)

/-- A whole packet, its naming decisions and its operands (R65). -/
def packetDec (x : PacketContext) : Dec Packet := (kindDec x.st x.ps).bind (operandsDec x)

/-! ## The properties header (R61, R62, R41) -/

/-- The four fields of a header: `lc`, `lp`, `pb`, `dictSize` (R61). -/
structure Properties where
  lc : Nat
  lp : Nat
  pb : Nat
  dictSize : Word
  deriving DecidableEq, Repr

/-- Four bytes as a little-endian number (R41). -/
def le32 (b1 b2 b3 b4 : Byte) : Word :=
  b1.setWidth 32 ||| b2.setWidth 32 <<< 8 ||| b3.setWidth 32 <<< 16 ||| b4.setWidth 32 <<< 24

/-- Parse a header (R61, R62). `none` is a malformed header: fewer than 5 bytes, or a first byte of 225 or more
(R203). -/
def parseHeader : List Byte → Option Properties
  | d :: b1 :: b2 :: b3 :: b4 :: _ =>
    if 225 ≤ d.toNat then none
    else some { lc := d.toNat % 9, lp := d.toNat / 9 % 5, pb := d.toNat / 45, dictSize := le32 b1 b2 b3 b4 }
  | _ => none

/-- The header of given properties (R61, R62). -/
def headerOf (p : Properties) : List Byte :=
  [BitVec.ofNat 8 ((p.pb * 5 + p.lp) * 9 + p.lc), p.dictSize.setWidth 8, (p.dictSize >>> 8).setWidth 8,
    (p.dictSize >>> 16).setWidth 8, (p.dictSize >>> 24).setWidth 8]

/-! ## From a request to an instruction -/

/-- Why a request decodes to no instruction. -/
inductive DecodeError where
  /-- a command code other than 0 to 3 (R73) -/
  | unknownCode
  /-- a command with operands other than its own (R73) -/
  | badOperands
  /-- the decisions end inside the word -/
  | truncated
  /-- decisions are left over after the word -/
  | trailing
  deriving DecidableEq, Repr

/-- The answer of the decoder: an instruction, or the reason there is none. -/
inductive Decoded where
  | instr (i : Instr)
  | bad (e : DecodeError)
  deriving DecidableEq, Repr

/-- The host commands by code (R73, D20): CREATE 0, DESTROY 1, RESET 2, DECOMPRESS 3. DESIGN CHOICE (log 39): a CREATE
whose `dictSize` is no 32-bit number is rejected here, since R181 gives the width and no answer to a wider one; so is a
command with operands that are not its own. -/
def decodeCommand (code : Nat) (h : Handle) (nums : List Nat) (bytes : List Byte) : Decoded :=
  match code with
  | 0 =>
    match h, nums, bytes with
    | none, [lc, lp, pb, d], [] => if d < 2 ^ 32 then .instr (.create lc lp pb (BitVec.ofNat 32 d)) else .bad .badOperands
    | _, _, _ => .bad .badOperands
  | 1 =>
    match nums, bytes with
    | [], [] => .instr (.destroy h)
    | _, _ => .bad .badOperands
  | 2 =>
    match nums, bytes with
    | [], [] => .instr (.reset h)
    | _, _ => .bad .badOperands
  | 3 =>
    match nums with
    | [cap] => .instr (.decompress h bytes cap)
    | _ => .bad .badOperands
  | _ => .bad .unknownCode

/-- A packet word (R65): the naming decisions alone; or, for EOS, which shares them with MATCH, the naming decisions
with a complete length and the end marker's distance after them (R69). -/
def decodePacketWord (ds : List Bool) : Decoded :=
  match (kindDec 0 0).read ds with
  | none => .bad .truncated
  | some (k, []) => .instr k.instr
  | some (k, rest) =>
    if k = .newMatch then
      match (matchOperandsDec 0).read rest with
      | some ((_, d), []) => if d = Config.eosDistance then .instr .eos else .bad .trailing
      | some (_, _ :: _) => .bad .trailing
      | none => .bad .truncated
    else .bad .trailing

/-- A length word: the class decisions (R67, R121). DESIGN CHOICE (log 40): its row has the `ps` its word names, whatever
`posState` will be. -/
def decodeLenWord (c : Coder) (ps : PosState) : List Bool → Decoded
  | [false] => .instr (.lenLow c ps)
  | [true, false] => .instr (.lenMid c ps)
  | [true, true] => .instr (.lenHigh c)
  | [] => .bad .truncated
  | [true] => .bad .truncated
  | _ => .bad .trailing

/-- The rows DIST.S0 to DIST.S63 in the order of the slots (R68). -/
def slotRows : List Instr :=
  List.flatten [
    [.distS0, .distS1, .distS2, .distS3, .distS4, .distS5, .distS6, .distS7],
    [.distS8, .distS9, .distS10, .distS11, .distS12, .distS13, .distS14, .distS15],
    [.distS16, .distS17, .distS18, .distS19, .distS20, .distS21, .distS22, .distS23],
    [.distS24, .distS25, .distS26, .distS27, .distS28, .distS29, .distS30, .distS31],
    [.distS32, .distS33, .distS34, .distS35, .distS36, .distS37, .distS38, .distS39],
    [.distS40, .distS41, .distS42, .distS43, .distS44, .distS45, .distS46, .distS47],
    [.distS48, .distS49, .distS50, .distS51, .distS52, .distS53, .distS54, .distS55],
    [.distS56, .distS57, .distS58, .distS59, .distS60, .distS61, .distS62, .distS63]]

/-- The row of a slot. -/
def slotInstr (slot : Fin 64) : Instr := slotRows.getD slot.val .distS0

/-- A distance word: the six slot decisions, most significant first (R68). -/
def decodeDistWord (ds : List Bool) : Decoded :=
  match (treeDec (.posSlot 0) 6).read ds with
  | none => .bad .truncated
  | some (slot, []) => .instr (slotInstr (Fin.ofNat 64 slot))
  | some (_, _ :: _) => .bad .trailing

/-- Decode a word of one of the stream's formats (R60). The initialisation bytes and a literal have no selecting
decisions of their own; a literal's row is the mode its word names, whatever `state` will be (log 36). -/
def decodeStream : Format → List Bool → Decoded
  | .packet, ds => decodePacketWord ds
  | .len c ps, ds => decodeLenWord c ps ds
  | .dist, ds => decodeDistWord ds
  | .init, [] => .instr .streamInit
  | .literal false, [] => .instr .literalPlain
  | .literal true, [] => .instr .literalMatched
  | .init, _ :: _ => .bad .trailing
  | .literal _, _ :: _ => .bad .trailing

/-- THE DECODER: total on any request, rejecting by name. -/
def decode : Request → Decoded
  | .command code h nums bytes => decodeCommand code h nums bytes
  | .header bytes => .instr (.hdr bytes)
  | .stream f ds => decodeStream f ds

/-! ## Encoders -/

/-- The low `n` bits of `v`, most significant first (R43). -/
def bitsMsb : Nat → Nat → List Bool
  | 0, _ => []
  | n + 1, v => v.testBit n :: bitsMsb n v

/-- The low `n` bits of `v`, least significant first (R43). -/
def bitsLsb : Nat → Nat → List Bool
  | 0, _ => []
  | n + 1, v => v.testBit 0 :: bitsLsb n (v / 2)

/-- The decisions of a length (R67). -/
def spellLength (n : Nat) : List Bool :=
  if n < 10 then false :: bitsMsb 3 (n - 2)
  else if n < 18 then true :: false :: bitsMsb 3 (n - 10)
  else true :: true :: bitsMsb 8 (n - 18)

/-- The slot of a distance: itself below 4, else its length in bits and the bit below the top one (R131). -/
def slotOf (d : Nat) : Nat := if d < 4 then d else 2 * d.log2 + d / 2 ^ (d.log2 - 1) % 2

/-- The decisions that follow a slot (R68), for an extra value. -/
def spellExtra (slot extra : Nat) : List Bool :=
  if slot < 4 then []
  else if slot < 14 then bitsLsb (slotBits slot) extra
  else bitsMsb (slotBits slot - 4) (extra / 16) ++ bitsLsb 4 (extra % 16)

/-- The decisions of a distance (R68). -/
def spellDistance (d : Nat) : List Bool :=
  bitsMsb 6 (slotOf d) ++ spellExtra (slotOf d) (d - slotBase (slotOf d))

/-- The naming decisions of the long reps (R65). -/
def spellLongRep (k : Fin 4) : List Bool :=
  match k with
  | 0 => [true, true, false, true]
  | 1 => [true, true, true, false]
  | 2 => [true, true, true, true, false]
  | 3 => [true, true, true, true, true]

/-- All the decisions of a packet (R65 to R69). -/
def spell : Packet → List Bool
  | .lit b => false :: bitsMsb 8 b.toNat
  | .newMatch n d => true :: false :: (spellLength n ++ spellDistance d.toNat)
  | .eos n => true :: false :: (spellLength n ++ spellDistance Config.eosDistance.toNat)
  | .shortRep => [true, true, false, false]
  | .longRep k n => spellLongRep k ++ spellLength n

/-- The word of a slot's row (R68). -/
def encodeSlot (slot : Nat) : Request := .stream .dist (bitsMsb 6 slot)

/-- The slot of a distance row. -/
def Instr.slot : Instr → Option Nat
  | .distS0 => some 0
  | .distS1 => some 1
  | .distS2 => some 2
  | .distS3 => some 3
  | .distS4 => some 4
  | .distS5 => some 5
  | .distS6 => some 6
  | .distS7 => some 7
  | .distS8 => some 8
  | .distS9 => some 9
  | .distS10 => some 10
  | .distS11 => some 11
  | .distS12 => some 12
  | .distS13 => some 13
  | .distS14 => some 14
  | .distS15 => some 15
  | .distS16 => some 16
  | .distS17 => some 17
  | .distS18 => some 18
  | .distS19 => some 19
  | .distS20 => some 20
  | .distS21 => some 21
  | .distS22 => some 22
  | .distS23 => some 23
  | .distS24 => some 24
  | .distS25 => some 25
  | .distS26 => some 26
  | .distS27 => some 27
  | .distS28 => some 28
  | .distS29 => some 29
  | .distS30 => some 30
  | .distS31 => some 31
  | .distS32 => some 32
  | .distS33 => some 33
  | .distS34 => some 34
  | .distS35 => some 35
  | .distS36 => some 36
  | .distS37 => some 37
  | .distS38 => some 38
  | .distS39 => some 39
  | .distS40 => some 40
  | .distS41 => some 41
  | .distS42 => some 42
  | .distS43 => some 43
  | .distS44 => some 44
  | .distS45 => some 45
  | .distS46 => some 46
  | .distS47 => some 47
  | .distS48 => some 48
  | .distS49 => some 49
  | .distS50 => some 50
  | .distS51 => some 51
  | .distS52 => some 52
  | .distS53 => some 53
  | .distS54 => some 54
  | .distS55 => some 55
  | .distS56 => some 56
  | .distS57 => some 57
  | .distS58 => some 58
  | .distS59 => some 59
  | .distS60 => some 60
  | .distS61 => some 61
  | .distS62 => some 62
  | .distS63 => some 63
  | _ => none

/-- THE ENCODER: the word of an instruction, from the tables of 30_encoding.md (R61, R65, R67, R68, R73). An internal
operation has none ("none: internal operation, invoked by other rules, not spelled in the stream", the table's rows
RC_INIT to RUN). EOS has the word of its whole spelling with length 2, since `1 0` alone names MATCH (R69). -/
def encode (i : Instr) : Option Request :=
  match i with
  | .create lc lp pb d => some (.command 0 none [lc, lp, pb, d.toNat] [])
  | .destroy h => some (.command 1 h [] [])
  | .reset h => some (.command 2 h [] [])
  | .decompress h src cap => some (.command 3 h [cap] src)
  | .hdr bytes => some (.header bytes)
  | .streamInit => some (.stream .init [])
  | .lit => some (.stream .packet [false])
  | .newMatch => some (.stream .packet [true, false])
  | .eos => some (.stream .packet (spell (.eos 2)))
  | .shortRep => some (.stream .packet [true, true, false, false])
  | .longRep0 => some (.stream .packet (spellLongRep 0))
  | .longRep1 => some (.stream .packet (spellLongRep 1))
  | .longRep2 => some (.stream .packet (spellLongRep 2))
  | .longRep3 => some (.stream .packet (spellLongRep 3))
  | .literalPlain => some (.stream (.literal false) [])
  | .literalMatched => some (.stream (.literal true) [])
  | .lenLow c ps => some (.stream (.len c ps) [false])
  | .lenMid c ps => some (.stream (.len c ps) [true, false])
  | .lenHigh c => some (.stream (.len c 0) [true, true])
  | _ => i.slot.map encodeSlot

/-! ## The opcode table's numbering -/

/-- The word of a table row numbered as spec/opcode_table.json numbers it. The table gives numbers to two formats, and
the numbers overlap (a word means something only in its format, R60): a number below 4 is a command's code (R73), every
other one is a slot in its low 6 bits (R68). Operands are zeros: the handle is handle 0 (log 4). -/
def tableRequest (nbits w : Nat) : Request :=
  match w % 2 ^ nbits with
  | 0 => .command 0 none [0, 0, 0, 0] []
  | 1 => .command 1 (some 0) [] []
  | 2 => .command 2 (some 0) [] []
  | 3 => .command 3 (some 0) [0] []
  | v => .stream .dist (bitsMsb 6 v)

/-- The instruction the decoder reads from a word of the opcode table. -/
def decodeTableWord (nbits w : Nat) : Option Instr :=
  match decode (tableRequest nbits w) with
  | .instr i => some i
  | .bad _ => none

end Sys2Proof
end

