-- ==== Sys2Proof/Machine/State.lean ====
section
/-! DEFINITION. The state of the machine as plain data (spec 10_state.md), its faults and refusals, and the state after
reset. -/

namespace Sys2Proof.Machine

/-- The six errors (60_exceptions.md R200). -/
inductive Err where
  | allocationFailed
  | invalidProperties
  | inputExhausted
  | distanceOutOfRange
  | outputOverflow
  | formatMismatch
  deriving DecidableEq, Repr

/-- `status`, the tagged result of the last command (R10, R20, R205). -/
inductive Status where
  | ok
  | error (e : Err)
  deriving DecidableEq, Repr

/-- `endReason`: why a run of the packet loop ended without error (R20, R165). -/
inductive EndReason where
  | outputFull
  | endMarker
  deriving DecidableEq, Repr

/-- `phase` (R20), read off the state by `State.phase`. -/
inductive Phase where
  | absent
  | ready
  | busy
  deriving DecidableEq, Repr

/-- What an operation returns (log 7): nothing, an error (R205), a decision, a byte, a number (a length, a distance or a
symbol), a handle (R180), `bytesWritten` (R187), the four properties of a header (R61), or the triple of RUN (R150). -/
inductive Value where
  | none
  | error (e : Err)
  | bit (b : Bool)
  | byte (b : Byte)
  | num (n : Nat)
  | handle (n : Nat)
  | written (n : Nat)
  | props (p : Properties)
  | ran (op ip : Nat) (why : EndReason)
  deriving DecidableEq, Repr

/-- A memory: its listed bytes, addresses strictly rising (R40). An unlisted index holds no byte (log 10). -/
abbrev Memory := List Host.Cell

/-- The probability file: the counters that do not hold 1024, by flat index, indices strictly rising (R21, log 16). -/
abbrev ProbFile := List (Nat × Prob)

/-- One instance: a DecoderState and what it owns (10_state.md R10). -/
structure Inst where
  /-- range-coder register (R11) -/
  range : Word
  /-- range-coder register (R12) -/
  code : Word
  /-- the input cursor, this hardware's program counter (R13) -/
  ip : Nat
  /-- the output cursor (R14) -/
  op : Nat
  /-- the most recently used distance (R15) -/
  rep0 : Word
  /-- the second most recently used distance (R15) -/
  rep1 : Word
  /-- the third most recently used distance (R15) -/
  rep2 : Word
  /-- the fourth most recently used distance (R15) -/
  rep3 : Word
  /-- the register `state` (R16) -/
  st : StateIndex
  /-- the last byte written (R17) -/
  prev : Byte
  /-- literalContextBits (R18) -/
  lc : BitVec 4
  /-- literalPositionBits (R18) -/
  lp : BitVec 3
  /-- positionBits (R18) -/
  pb : BitVec 3
  /-- dictionarySize as CREATE was given it (R18) -/
  dictSize : Word
  /-- the length of the latched stream (R19) -/
  srcLen : Nat
  /-- the latched capacity (R19) -/
  destCapacity : Nat
  /-- whether a DECOMPRESS is running: `phase` is Busy, else Ready (R20) -/
  busy : Bool
  /-- the tagged result of the instance's last command (R10, R20, log 34) -/
  status : Status
  /-- why the last run of the packet loop ended (R20) -/
  endReason : EndReason
  /-- the probability file (R21 to R24) -/
  probs : ProbFile
  /-- the memory SRC (R25) -/
  src : Memory
  /-- the memory OUT, window and destination (R26) -/
  out : Memory
  /-- the model's own: which unspecified contents the unlisted bytes of OUT are (log 9, log 10) -/
  epoch : Nat
  deriving DecidableEq, Repr

/-- The state: the instances by handle, what the last operation returned, and what the host and the environment have
lined up. The instances share nothing (R51, R216). -/
structure State where
  /-- the live instances by handle, handles strictly rising (R184) -/
  insts : List (Nat × Inst)
  /-- the handle the next CREATE returns (log 5) -/
  nextHandle : Nat
  /-- the handle of the instance that packets and internal operations act on (log 6) -/
  cur : Nat
  /-- what the last operation returned to the host, a value or an error (log 7) -/
  ret : Value
  /-- the `status` that CREATE leaves while `phase` is Absent (R20, R205, log 34): the result of the last CREATE; it is no
  instance's, whose own is `Inst.status` -/
  createStatus : Status
  /-- the memory HDR (R40, R61) -/
  hdr : Memory
  /-- the host's pending requests, the next one first (R192, R193, log 2) -/
  port : List HostRequest
  /-- the model's own: rows of the stream's formats placed to be run by themselves (log 3); empty at reset, and no step
  adds to it -/
  rows : List RowWord
  /-- the answers of `ALLOC_OK` the environment has lined up (R183, log 8) -/
  allocIn : List Bool
  /-- the model's own: how many free values have been drawn (log 8, log 9) -/
  draws : Nat
  /-- the open parameters (R7, log 17) -/
  params : Params
  deriving DecidableEq, Repr

/-- The machine's faults. -/
inductive Fault where
  /-- Raised by DECODEBIT, DECODETREE and DECODETREEREVERSE when their operand names a counter outside the probability
  file of the instance (U16 of 93_implementation_defined.md). SAFE: the machine stops; no rule forms such an operand. -/
  | noSuchCounter
  deriving DecidableEq, Repr

/-- The machine's refusals: situations for which the spec gives a model no move. All are SAFE: the machine stops. -/
inductive Refusal where
  /-- Raised by an arm of `exec` whose instruction has no meaning yet. -/
  | notModelled (mnemonic : String)
  /-- Raised by the step on a request that decodes to no instruction (R73: the codes are 0 to 3). -/
  | undecodable (e : DecodeError)
  /-- Raised by the step on an instruction with an operand outside the range its rule states. -/
  | illFormed
  /-- Raised by a packet, a format or an internal operation when the current handle names no instance: before a CREATE
  and after DESTROY nothing of an instance exists (R29). -/
  | noInstance
  /-- Raised by RUN on an instance that is not at its RESET values: RUN is entered after RESET (R150), and a model that
  exposes it by itself carries that as a precondition (R241, log 37). -/
  | notReset
  /-- Raised by RESET and DECOMPRESS on the null handle (R184, D27, U13). -/
  | nullHandle
  /-- Raised by DESTROY, RESET and DECOMPRESS on a handle that names no live instance (R184, R185, D27, U13). -/
  | deadHandle (n : Nat)
  /-- Raised by DESTROY, RESET and DECOMPRESS on an instance whose DECOMPRESS is running (R242, D28, U14). -/
  | instanceBusy (n : Nat)
  /-- Raised by DECOMPRESS when `srcLen` or `destCapacity` does not fit in `USIZE_BITS` (D3, U10). -/
  | operandTooWide
  deriving DecidableEq, Repr

/-- The machine right after reset: before any CREATE no instance exists (R29, R230). The parameters are the spec's
defaults (R7); the model's own fields hold the values of logs 2, 3, 5, 6, 7 and 8, `createStatus` that of log 34. -/
def State.reset : State :=
  { insts := [], nextHandle := 0, cur := 0, ret := .none, createStatus := .ok, hdr := [], port := [], rows := [],
    allocIn := [], draws := 0, params := Params.default }

end Sys2Proof.Machine
end

