-- ==== Sys2Proof/Machine/Table.lean ====
section
/-! DEFINITION. Sparse tables by natural key in one canonical form, keys strictly rising: the memories (key: index), the
probability file (key: flat counter index) and the instances (key: handle). -/

namespace Sys2Proof.Machine

/-- The value listed at a key. -/
def Table.get {β : Type} : List (Nat × β) → Nat → Option β
  | [], _ => none
  | (k, v) :: t, a => if a = k then some v else Table.get t a

/-- List a value at a key, in its place. -/
def Table.set {β : Type} : List (Nat × β) → Nat → β → List (Nat × β)
  | [], a, v => [(a, v)]
  | (k, w) :: t, a, v =>
    if a < k then (a, v) :: (k, w) :: t
    else if a = k then (a, v) :: t
    else (k, w) :: Table.set t a v

/-- Take a key off the list. -/
def Table.erase {β : Type} : List (Nat × β) → Nat → List (Nat × β)
  | [], _ => []
  | (k, w) :: t, a => if a = k then Table.erase t a else (k, w) :: Table.erase t a

/-- Every listed key is above a bound, and the keys rise strictly. -/
def Table.rising {β : Type} : List (Nat × β) → Bool
  | [] => true
  | (k, _) :: t => t.all (fun e => decide (k < e.1)) && Table.rising t

/-- The canonical form of a memory: addresses strictly rising (an unlisted index holds no byte, so no entry can equal
what an unlisted index holds). -/
abbrev Memory.wf (m : Memory) : Bool := Table.rising m

/-- The byte a memory lists at an index, or none. -/
abbrev Memory.read (m : Memory) (a : Nat) : Option Byte := Table.get m a

/-- Write one byte. -/
abbrev Memory.write (m : Memory) (a : Nat) (b : Byte) : Memory := Table.set m a b

/-- The memory that holds a list of bytes from an index up. -/
def Memory.ofBytesAt : Nat → List Byte → Memory
  | _, [] => []
  | n, b :: bs => (n, b) :: Memory.ofBytesAt (n + 1) bs

/-- The memory that holds a list of bytes from index 0. -/
def Memory.ofBytes (bs : List Byte) : Memory := Memory.ofBytesAt 0 bs

end Sys2Proof.Machine
end

