-- ==== Sys2Proof/Machine/Ops.lean ====
section
/-! DEFINITION. The named operations: counters of the probability file, the range decoder (40_range_decoder.md), the
window (43_window.md), RESET, taking an exception (60_exceptions.md R205), and the frame in which a packet or internal
operation acts on the current instance. -/

namespace Sys2Proof.Machine

/-! ## Results of an operation on one instance -/

/-- What an operation on an instance answers: a value, or one of the errors, each with the instance as far as the
rules had taken it (R205, R206). -/
inductive Res (α : Type) where
  | ok (a : α) (i : Inst)
  | raised (e : Err) (i : Inst)
  deriving DecidableEq, Repr

/-- Sequence two operations; an error ends the sequence (R205). -/
def Res.bind {α β : Type} (r : Res α) (f : α → Inst → Res β) : Res β :=
  match r with
  | .ok a i => f a i
  | .raised e i => .raised e i

/-- Change the value an operation returns. -/
def Res.map {α β : Type} (f : α → β) (r : Res α) : Res β :=
  match r with
  | .ok a i => .ok (f a) i
  | .raised e i => .raised e i

/-! ## The probability file (R21 to R24, R98) -/

/-- The number of a coder (R120). -/
def coderNum : Coder → Nat
  | .forMatch => 0
  | .forRep => 1

/-- The flat index of a counter in the sparse file: the arrays of R23 laid end to end in R23's order, the choice
counters before the length trees, the literal array last. The layout is the model's own and nothing observes it (R22, log 16). -/
def counterIndex : Counter → Nat
  | .isMatch s ps => s.val * 16 + ps.val
  | .isRep s => 192 + s.val
  | .isRepG0 s => 204 + s.val
  | .isRepG1 s => 216 + s.val
  | .isRepG2 s => 228 + s.val
  | .isRep0Long s ps => 240 + s.val * 16 + ps.val
  | .posSlot ls m => 432 + ls.val * 64 + m.val
  | .specPos i => 688 + i.val
  | .align m => 803 + m.val
  | .choice c => 819 + coderNum c
  | .choice2 c => 821 + coderNum c
  | .low c ps m => 823 + coderNum c * 128 + ps.val * 8 + m.val
  | .mid c ps m => 1079 + coderNum c * 128 + ps.val * 8 + m.val
  | .high c m => 1335 + coderNum c * 256 + m.val
  | .lit ctx j => 1847 + ctx.val * 768 + j.val

/-- The value of a counter: 1024 where the file lists none (R21, R29). -/
def Inst.prob (i : Inst) (c : Counter) : Prob := (Table.get i.probs (counterIndex c)).getD Config.probInit

/-- Write a counter, keeping the file canonical: a counter at 1024 is not listed. -/
def ProbFile.write (f : ProbFile) (c : Counter) (p : Prob) : ProbFile :=
  if p = Config.probInit then Table.erase f (counterIndex c) else Table.set f (counterIndex c) p

/-- The canonical form of the probability file: indices strictly rising and no entry at 1024. -/
def ProbFile.wf (f : ProbFile) : Bool := Table.rising f && f.all fun e => e.2 != Config.probInit

/-- `numLitCtx = 1 << (lc + lp)` (R18). -/
def Inst.numLitCtx (i : Inst) : Nat := 2 ^ (i.lc.toNat + i.lp.toNat)

/-- How many counters the instance has (R24). -/
def Inst.numCounters (i : Inst) : Nat := 1847 + 768 * i.numLitCtx

/-- `dictEff`, the dictionary size of the distance check (R182, D18). Under `reject` CREATE lets no smaller size in. -/
def Inst.dictEff (i : Inst) : Nat := max i.dictSize.toNat Config.dictMin

/-- The adaptive update (R92). -/
def probAfter (p : Prob) (bit : Bool) : Prob :=
  if bit then BitVec.ofNat 11 (p.toNat - p.toNat / 32) else BitVec.ofNat 11 (p.toNat + (2048 - p.toNat) / 32)

/-! ## Fetch and the range decoder (R90 to R97) -/

/-- `SRC[a]` (R25). -/
def Inst.srcByte (i : Inst) (a : Nat) : Byte := (Memory.read i.src a).getD (Config.freeSrcByte i.epoch a)

/-- `NextByte()` (R91). -/
def nextByte (i : Inst) : Res Byte :=
  if i.srcLen ≤ i.ip then .raised .inputExhausted i else .ok (i.srcByte i.ip) { i with ip := i.ip + 1 }

/-- Shift one stream byte into `code` from below (R42). -/
def shiftIn (code : Word) (b : Byte) : Word := code <<< 8 ||| b.setWidth 32

/-- `Normalize()` (R97). -/
def normalize (i : Inst) : Res Unit :=
  if i.range < Config.top then
    (nextByte i).bind fun b i1 => .ok () { i1 with range := i1.range <<< 8, code := shiftIn i1.code b }
  else .ok () i

/-- `bound = (range >> 11) * p` (R93). -/
def boundOf (range : Word) (p : Prob) : Word := (range >>> 11) * p.setWidth 32

/-- `DecodeBit(P.x[i])` (R93): update first, then normalise. -/
def decodeBit (c : Counter) (i : Inst) : Res Bool :=
  if i.code < boundOf i.range (i.prob c) then
    (normalize { i with
      range := boundOf i.range (i.prob c)
      probs := ProbFile.write i.probs c (probAfter (i.prob c) false) }).map fun _ => false
  else
    (normalize { i with
      range := i.range - boundOf i.range (i.prob c)
      code := i.code - boundOf i.range (i.prob c)
      probs := ProbFile.write i.probs c (probAfter (i.prob c) true) }).map fun _ => true

/-- One step of `DecodeDirect` (R94). -/
def directBit (i : Inst) : Res Bool :=
  if i.range >>> 1 ≤ i.code then
    (normalize { i with range := i.range >>> 1, code := i.code - i.range >>> 1 }).map fun _ => true
  else (normalize { i with range := i.range >>> 1 }).map fun _ => false

/-- One decision from where a program asks for it (R64). -/
def decision : Query → Inst → Res Bool
  | .adaptive c => decodeBit c
  | .direct => directBit

/-- Run a decision program through the range decoder. -/
def runDec {α : Type} : Dec α → Inst → Res α
  | .done a, i => .ok a i
  | .ask q k, i =>
    match decision q i with
    | .ok b i1 => runDec (k b) i1
    | .raised e i1 => .raised e i1

/-- `n` stream bytes shifted into `code` (the loop of R90). -/
def loadCode : Nat → Inst → Res Unit
  | 0, i => .ok () i
  | n + 1, i => (nextByte i).bind fun b i1 => loadCode n { i1 with code := shiftIn i1.code b }

/-- `RC_INIT()` (R90): five bytes into `code`; under `INIT_BYTE0_POLICY = reject` a first byte that is not 0 is
FormatMismatch after the five reads (D9). -/
def rcInit (pol : InitByte0Policy) (i : Inst) : Res Unit :=
  (loadCode 5 { i with range := 0xFFFFFFFF, code := 0 }).bind fun _ i1 =>
    if pol = .reject ∧ i.srcByte 0 ≠ 0 then .raised .formatMismatch i1 else .ok () i1

/-! ## The window (R140 to R142) -/

/-- `OUT[a]` (R26). -/
def Inst.outByte (i : Inst) (a : Nat) : Byte := (Memory.read i.out a).getD (Config.freeOutByte i.epoch a)

/-- PUTBYTE (R140). -/
def putByte (b : Byte) (i : Inst) : Res Unit :=
  if i.destCapacity ≤ i.op then .raised .outputOverflow i
  else .ok () { i with out := Memory.write i.out i.op b, prev := b, op := i.op + 1 }

/-- The distance check of GETBYTE and COPYMATCH (R141 to R143). -/
def Inst.badDistance (i : Inst) (d : Word) : Bool := decide (i.op ≤ d.toNat) || decide (i.dictEff ≤ d.toNat)

/-- The byte a zero-based distance back from the cursor: `OUT[op - distance - 1]` (R141). -/
def Inst.back (i : Inst) (d : Word) : Byte := i.outByte (i.op - d.toNat - 1)

/-- GETBYTE (R141). -/
def getByte (d : Word) (i : Inst) : Res Byte :=
  if i.badDistance d then .raised .distanceOutOfRange i else .ok (i.back d) i

/-- The loop of COPYMATCH: `n` more bytes, one at a time, from the lowest index up (R142, R144). -/
def copyLoop (d : Word) : Nat → Inst → Res Unit
  | 0, i => .ok () i
  | n + 1, i => (putByte (i.back d) i).bind fun _ i1 => copyLoop d n i1

/-- COPYMATCH (R142): the distance check once, on entry, then the copy. -/
def copyMatch (d : Word) (length : Nat) (i : Inst) : Res Unit :=
  if i.badDistance d then .raised .distanceOutOfRange i else copyLoop d length i

/-! ## RESET and a new instance (R186, R180, R29) -/

/-- RESET of an instance (R186). -/
def resetInst (i : Inst) : Inst :=
  { i with probs := [], rep0 := 0, rep1 := 0, rep2 := 0, rep3 := 0, st := 0, prev := 0, op := 0, ip := 0 }

/-- Whether an instance stands at its RESET values: RESET would change nothing (R186). -/
def Inst.atReset (i : Inst) : Bool := decide (resetInst i = i)

/-- The instance CREATE builds (R180, R29): the properties, and every other register at its RESET value or at the value
logs 12, 13 and 14 name. -/
def freshInst (lc lp pb : Nat) (dictSize : Word) (epoch : Nat) : Inst :=
  { range := 0, code := 0, ip := 0, op := 0, rep0 := 0, rep1 := 0, rep2 := 0, rep3 := 0, st := 0, prev := 0,
    lc := BitVec.ofNat 4 lc, lp := BitVec.ofNat 3 lp, pb := BitVec.ofNat 3 pb, dictSize := dictSize,
    srcLen := 0, destCapacity := 0, busy := false, status := .ok, endReason := .outputFull, probs := [], src := [], out := [],
    epoch := epoch }

/-! ## The machine's frame -/

/-- `phase` of a handle (R20): Absent where no instance is live. -/
def State.phase (s : State) (n : Nat) : Phase :=
  match Table.get s.insts n with
  | none => .absent
  | some i => if i.busy then .busy else .ready

/-- Put an instance back under its handle. -/
def State.putInst (s : State) (n : Nat) (i : Inst) : State := { s with insts := Table.set s.insts n i }

/-- An instance whose command was abandoned (R205, R206, R190): `status` is the error, it is Ready again, its registers as
the rules had left them (log 11), and nothing known of OUT (`FAIL_OUT`, D14): its bytes are the free values of a fresh
epoch (log 9). -/
def Inst.abandoned (i : Inst) (e : Err) (epoch : Nat) : Inst :=
  { i with busy := false, status := .error e, out := [], epoch := epoch }

/-- TAKING AN EXCEPTION (R205): the command ends and returns `Error(e)`, and the instance it ran on, if there is one, has
the error for its `status` and is Ready with its OUT untrusted. CREATE, and the header decoder in front of it (R200), raise
with no instance: `phase` stays Absent and the `status` written is `createStatus` (log 34). There is no return from an
exception (R212): the next command runs as usual and its result replaces `status`. -/
def takeException (e : Err) (who : Handle) (s : State) : State :=
  match who with
  | none => { s with createStatus := .error e, ret := .error e }
  | some n =>
    match Table.get s.insts n with
    | none => { s with ret := .error e }
    | some i =>
      { s with
        insts := Table.set s.insts n (i.abandoned e s.draws)
        ret := .error e
        draws := s.draws + 1 }

/-- The state after an operation on the instance of handle `n`: its value returned, or its exception taken. -/
def settle (n : Nat) (s : State) : Res Value → State
  | .ok v i => { s with insts := Table.set s.insts n i, ret := v }
  | .raised e i => takeException e (some n) (s.putInst n i)

/-- A packet or an internal operation acts on the current instance (log 6). -/
def onCurrent (f : Inst → Res Value) (s : State) : Host.Outcome State Fault Refusal :=
  match Table.get s.insts s.cur with
  | none => .refused .noInstance
  | some i => .next (settle s.cur s (f i))

/-- An internal operation whose operand names counters: they must be counters of the instance (U16). -/
def onCounters (ok : Inst → Bool) (f : Inst → Res Value) (s : State) : Host.Outcome State Fault Refusal :=
  match Table.get s.insts s.cur with
  | none => .refused .noInstance
  | some i => if ok i then .next (settle s.cur s (f i)) else .fault .noSuchCounter

/-- An operation that is entered after RESET only (R150, R241, log 37). -/
def onReset (f : Inst → Res Value) (s : State) : Host.Outcome State Fault Refusal :=
  match Table.get s.insts s.cur with
  | none => .refused .noInstance
  | some i => if i.atReset then .next (settle s.cur s (f i)) else .refused .notReset

end Sys2Proof.Machine
end

