-- ==== Sys2Proof/Machine/Operands.lean ====
section
/-! DEFINITION. The operands of a packet and the architectural state they depend on: posState (44_packets.md R151), the
literal context and mode (41_literal.md R110, R111), and the literal, the length and the distance read through the
range decoder (R114, R120, R126). -/

namespace Sys2Proof.Machine

/-- `posState`: the low `pb` bits of the output position (R151). -/
def Inst.posState (i : Inst) : PosState := Fin.ofNat 16 (i.op % 2 ^ i.pb.toNat)

/-- The literal context (R110): the top `lc` bits of the previous byte above the low `lp` bits of the output position. -/
def Inst.litContextNat (i : Inst) : Nat :=
  i.prev.toNat / 2 ^ (8 - i.lc.toNat) * 2 ^ i.lp.toNat + i.op % 2 ^ i.lp.toNat

/-- The literal context as an index of `P.lit` (R110). -/
def Inst.litContext (i : Inst) : Fin 256 := Fin.ofNat 256 i.litContextNat

/-- Whether the next literal is matched: states 7 to 11 (R111). -/
def matchedState (s : StateIndex) : Bool := decide (7 ≤ s.val)

/-- A plain literal of the instance (R112). -/
def literalPlain (i : Inst) : Res Byte := runDec (plainDec i.litContext) i

/-- A matched literal of the instance (R113): the match byte first (R111). -/
def literalMatched (i : Inst) : Res Byte :=
  (getByte i.rep0 i).bind fun mb i1 => runDec (matchedDec i1.litContext mb) i1

/-- LIT_DECODE (R114). -/
def litDecode (i : Inst) : Res Byte := if matchedState i.st then literalMatched i else literalPlain i

/-- LEN_DECODE (R120). -/
def lenDecode (c : Coder) (ps : PosState) (i : Inst) : Res Nat := runDec (lenDec c ps) i

/-- DIST_DECODE (R126). -/
def distDecode (length : Nat) (i : Inst) : Res Nat := runDec (distDec length) i

/-- What follows a slot's decisions (R127, R128, R129). -/
def slotDecode (slot : Nat) (i : Inst) : Res Nat := runDec (slotDec slot) i

/-- The operands of MATCH and EOS (R154, R155), `posState` sampled before anything is decoded. -/
def matchOperands (i : Inst) : Res (Nat × Word) := runDec (matchOperandsDec i.posState) i

/-- A literal table entry exists when its context is below `numLitCtx`; every other array is there whatever the
properties are (R23, R24). -/
def Inst.hasCounter (i : Inst) (c : Counter) : Bool := decide (counterIndex c < i.numCounters)

/-- The entries below `n` of a tree's array exist. -/
def Inst.hasEntries (i : Inst) (t : Tree) (n : Nat) : Bool := decide (n ≤ t.size) && i.hasCounter (t.counter (n - 1))

end Sys2Proof.Machine
end

