-- ==== Sys2Proof/Machine/Flags.lean ====
section
/-! DEFINITION. The condition-like state. The hardware has no flags (10_state.md R20): what stands here is the state
index of the packet machine and its transitions (44_packets.md R163), the movements of the rep registers (R161), the
end of a run (R165), and the exact-size check that decides a DECOMPRESS (45_host_commands.md R189). -/

namespace Sys2Proof.Machine

/-- `LitNext[s]` (R163). -/
def litNext (s : StateIndex) : StateIndex :=
  if s.val < 4 then 0 else if s.val < 10 then Fin.ofNat 12 (s.val - 3) else Fin.ofNat 12 (s.val - 6)

/-- `MatchNext[s]` (R163). -/
def matchNext (s : StateIndex) : StateIndex := if s.val < 7 then 7 else 10

/-- `RepNext[s]` (R163). -/
def repNext (s : StateIndex) : StateIndex := if s.val < 7 then 8 else 11

/-- `ShortRepNext[s]` (R163). -/
def shortRepNext (s : StateIndex) : StateIndex := if s.val < 7 then 9 else 11

/-- The rep registers after MATCH with distance `x`: `(x, a, b, c)` (R161). -/
def Inst.pushRep (i : Inst) (x : Word) : Inst := { i with rep0 := x, rep1 := i.rep0, rep2 := i.rep1, rep3 := i.rep2 }

/-- The distance that long rep `k` selects (R157 to R160). -/
def Inst.repAt (i : Inst) (k : Fin 4) : Word :=
  match k with
  | 0 => i.rep0
  | 1 => i.rep1
  | 2 => i.rep2
  | 3 => i.rep3

/-- The rep registers after long rep `k`: the selected one moves to the front (R161). -/
def Inst.rotateRep (i : Inst) (k : Fin 4) : Inst :=
  match k with
  | 0 => i
  | 1 => { i with rep0 := i.rep1, rep1 := i.rep0 }
  | 2 => { i with rep0 := i.rep2, rep1 := i.rep0, rep2 := i.rep1 }
  | 3 => { i with rep0 := i.rep3, rep1 := i.rep0, rep2 := i.rep1, rep3 := i.rep2 }

/-- The numeric value of a status: the table `ERRNUM` (R201, D4). No rule depends on it. -/
def Status.num : Status → Nat
  | .ok => 0
  | .error .allocationFailed => 1
  | .error .invalidProperties => 2
  | .error .inputExhausted => 3
  | .error .distanceOutOfRange => 4
  | .error .outputOverflow => 5
  | .error .formatMismatch => 6

/-- The exact-size check at the end of a run (R189): every input byte consumed and every output byte produced, else
FormatMismatch. On success the instance is Ready, its `status` is Ok and `bytesWritten` is `op` (R187). -/
def sizeCheck (i : Inst) : Res Nat :=
  if i.ip ≠ i.srcLen ∨ i.op ≠ i.destCapacity then .raised .formatMismatch i else .ok i.op { i with busy := false, status := .ok }

end Sys2Proof.Machine
end

