-- ==== Sys2Proof/Machine/Packets.lean ====
section
/-! DEFINITION. The packets LIT, MATCH, EOS, SHORTREP, LONGREP0 to LONGREP3 (44_packets.md R153 to R160). Each meaning
starts where the packet's naming decisions (R151, R152) end, as the rules write it: the operands are read from the
stream, then the effect is committed. `state` and `posState` are sampled before anything is decoded. -/

namespace Sys2Proof.Machine

/-- LIT on an instance (R153). -/
def litPacket (i : Inst) : Res Unit :=
  (litDecode i).bind fun b i1 => (putByte b i1).bind fun _ i2 => .ok () { i2 with st := litNext i.st }

/-- The effect of MATCH once its operands are known (R154): registers first, then the copy (D29). -/
def commitMatch (length : Nat) (dist : Word) (i : Inst) : Res Unit :=
  copyMatch dist length { i.pushRep dist with st := matchNext i.st }

/-- The effect of EOS (R155): the run ends with `endReason = EndMarker` and nothing else is written. -/
def endRun (i : Inst) : Inst := { i with endReason := .endMarker }

/-- MATCH or EOS on an instance (R152, R154, R155): one spelling, told apart by the decoded distance. The answer says
whether it was the end marker. -/
def matchOrEos (i : Inst) : Res Bool :=
  (matchOperands i).bind fun nd i1 =>
    if nd.2 = Config.eosDistance then .ok true (endRun i1) else (commitMatch nd.1 nd.2 i1).map fun _ => false

/-- SHORTREP on an instance (R156). -/
def shortRepPacket (i : Inst) : Res Unit := copyMatch i.rep0 1 { i with st := shortRepNext i.st }

/-- LONGREP`k` on an instance (R157 to R160): the registers are permuted, the length decoded, then the copy. -/
def longRepPacket (k : Fin 4) (i : Inst) : Res Unit :=
  (lenDecode .forRep i.posState (i.rotateRep k)).bind fun n i1 =>
    copyMatch (i.repAt k) n { i1 with st := repNext i.st }

/-- The packet of a kind (R153 to R160); the answer says whether it was the end marker. -/
def packetOf : PacketKind → Inst → Res Bool
  | .lit, i => (litPacket i).map fun _ => false
  | .newMatch, i => matchOrEos i
  | .shortRep, i => (shortRepPacket i).map fun _ => false
  | .longRep k, i => (longRepPacket k i).map fun _ => false

/-- The naming decisions of the next packet (R151, R152). -/
def nextKind (i : Inst) : Res PacketKind := runDec (kindDec i.st i.posState) i

/-- `DecodePacket()` (R150): one whole packet. -/
def decodePacket (i : Inst) : Res Bool := (nextKind i).bind packetOf

/-- The packet loop (R150), at most `n` more packets. Every packet but EOS writes a byte, so `destCapacity` packets
fill the output (R164, log 26). -/
def packets : Nat → Inst → Res Unit
  | 0, i => .ok () i
  | n + 1, i =>
    if i.op < i.destCapacity then
      (decodePacket i).bind fun ended i1 => if ended then .ok () i1 else packets n i1
    else .ok () i

/-- RUN on an instance (R150). -/
def runInst (pol : InitByte0Policy) (i : Inst) : Res Unit :=
  (rcInit pol i).bind fun _ i1 => packets i1.destCapacity { i1 with endReason := .outputFull }

/-- LIT (R153). -/
def execLit (s : State) : Host.Outcome State Fault Refusal :=
  onCurrent (fun i => (litPacket i).map fun _ => .none) s

/-- MATCH (R154). Its distance may turn out to be the end marker; then it is EOS. -/
def execMatch (s : State) : Host.Outcome State Fault Refusal :=
  onCurrent (fun i => (matchOrEos i).map fun _ => .none) s

/-- EOS (R155). It is spelled as MATCH; if the distance is no end marker it is MATCH. -/
def execEos (s : State) : Host.Outcome State Fault Refusal :=
  onCurrent (fun i => (matchOrEos i).map fun _ => .none) s

/-- SHORTREP (R156). -/
def execShortRep (s : State) : Host.Outcome State Fault Refusal :=
  onCurrent (fun i => (shortRepPacket i).map fun _ => .none) s

/-- LONGREP0 (R157). -/
def execLongRep0 (s : State) : Host.Outcome State Fault Refusal :=
  onCurrent (fun i => (longRepPacket 0 i).map fun _ => .none) s

/-- LONGREP1 (R158). -/
def execLongRep1 (s : State) : Host.Outcome State Fault Refusal :=
  onCurrent (fun i => (longRepPacket 1 i).map fun _ => .none) s

/-- LONGREP2 (R159). -/
def execLongRep2 (s : State) : Host.Outcome State Fault Refusal :=
  onCurrent (fun i => (longRepPacket 2 i).map fun _ => .none) s

/-- LONGREP3 (R160). -/
def execLongRep3 (s : State) : Host.Outcome State Fault Refusal :=
  onCurrent (fun i => (longRepPacket 3 i).map fun _ => .none) s

end Sys2Proof.Machine
end

