-- ==== Sys2Proof/Machine/Commands.lean ====
section
/-! DEFINITION. The host commands CREATE, DESTROY, RESET, DECOMPRESS (45_host_commands.md) and the header decoder in front of CREATE
(30_encoding.md R61). A command is one atomic transaction (D2). -/

namespace Sys2Proof.Machine

/-- Whether CREATE takes the properties (R181, and R182 under `DICT_MIN_POLICY = reject`). -/
def propertiesOk (pol : DictMinPolicy) (lc lp pb : Nat) (dictSize : Word) : Bool :=
  decide (lc ≤ 8) && decide (lp ≤ 4) && decide (pb ≤ 4) && decide (lc + lp ≤ 8) &&
    (pol == .clamp || decide (Config.dictMin ≤ dictSize.toNat))

/-- The answer of `ALLOC_OK` (R183): the next one the environment has lined up, else a free value. -/
def State.allocAnswer (s : State) : Bool :=
  match s.allocIn with
  | b :: _ => b
  | [] => Config.allocOk s.draws

/-- The state once `ALLOC_OK` has been consulted (R183: once per CREATE, after validation). -/
def State.allocDrawn (s : State) : State :=
  match s.allocIn with
  | _ :: r => { s with allocIn := r }
  | [] => { s with draws := s.draws + 1 }

/-- The state with a new instance, its `status` Ok (R29), under a new handle, which is returned (R180). The CREATE that
built it ended Ok (R20). -/
def State.built (s : State) (lc lp pb : Nat) (dictSize : Word) : State :=
  { s with
    insts := Table.set s.insts s.nextHandle (freshInst lc lp pb dictSize s.draws)
    nextHandle := s.nextHandle + 1
    cur := s.nextHandle
    ret := .handle s.nextHandle
    createStatus := .ok
    draws := s.draws + 1 }

/-- CREATE (R180): validate, normalise, allocate, build, in this order. -/
def execCreate (lc lp pb : Nat) (dictSize : Word) (s : State) : Host.Outcome State Fault Refusal :=
  .next
    (if propertiesOk s.params.dictMin lc lp pb dictSize then
      if s.allocAnswer then s.allocDrawn.built lc lp pb dictSize
      else takeException .allocationFailed none s.allocDrawn
    else takeException .invalidProperties none s)

/-- A command on a handle acts on a live instance that no command is running on (R184, D27, R242, D28). -/
def onHandle (h : Handle) (s : State) (f : Nat → Inst → Host.Outcome State Fault Refusal) :
    Host.Outcome State Fault Refusal :=
  match h with
  | none => .refused .nullHandle
  | some n =>
    match Table.get s.insts n with
    | none => .refused (.deadHandle n)
    | some i => if i.busy then .refused (.instanceBusy n) else f n i

/-- DESTROY (R185): the instance ceases to exist; nothing happens on the null handle. It returns no result. -/
def execDestroy (h : Handle) (s : State) : Host.Outcome State Fault Refusal :=
  match h with
  | none => .next { s with ret := .none }
  | some n => onHandle (some n) s fun n _ => .next { s with insts := Table.erase s.insts n, ret := .none }

/-- RESET (R186). It returns no result and leaves the instance's `status` alone (R29). -/
def execReset (h : Handle) (s : State) : Host.Outcome State Fault Refusal :=
  onHandle h s fun n i => .next { s with insts := Table.set s.insts n (resetInst i), cur := n, ret := .none }

/-- Whether an operand fits in `USIZE_BITS` (D3). -/
def fitsUsize (p : Params) (v : Nat) : Bool :=
  match p.usizeBits with
  | none => true
  | some b => decide (v < 2 ^ b)

/-- An instance at the start of a DECOMPRESS (R187, R231): Busy, the operands latched, a destination whose bytes are
unspecified, then RESET. -/
def Inst.begun (i : Inst) (src : List Byte) (destCapacity epoch : Nat) : Inst :=
  resetInst
    { i with
      busy := true
      src := Memory.ofBytes src
      srcLen := src.length
      destCapacity := destCapacity
      out := []
      epoch := epoch }

/-- DECOMPRESS on an instance (R187): begin, RUN, the exact-size check. -/
def decompressInst (pol : InitByte0Policy) (src : List Byte) (destCapacity epoch : Nat) (i : Inst) : Res Nat :=
  (runInst pol (i.begun src destCapacity epoch)).bind fun _ i1 => sizeCheck i1

/-- The state after a DECOMPRESS of handle `n` (R187, R190): Ok with `bytesWritten`, or its exception taken. -/
def decompressed (n : Nat) (s : State) : Res Nat → State
  | .ok w i => { s with insts := Table.set s.insts n i, ret := .written w }
  | .raised e i => takeException e (some n) (s.putInst n i)

/-- DECOMPRESS (R187). -/
def execDecompress (h : Handle) (src : List Byte) (destCapacity : Nat) (s : State) : Host.Outcome State Fault Refusal :=
  onHandle h s fun n i =>
    if fitsUsize s.params src.length && fitsUsize s.params destCapacity then
      .next
        (decompressed n { s with cur := n, draws := s.draws + 1 }
          (decompressInst s.params.initByte0 src destCapacity s.draws i))
    else .refused .operandTooWide

/-- HDR (R61, R62): the header decoder in front of CREATE. The bytes stand in the memory HDR; the four fields are
returned for CREATE, and a malformed header raises InvalidProperties, as CREATE would (R200, R203, log 35). No instance's
`status` changes. -/
def execHdr (bytes : List Byte) (s : State) : Host.Outcome State Fault Refusal :=
  .next
    (match parseHeader bytes with
    | some p => { s with hdr := Memory.ofBytes bytes, ret := .props p }
    | none => takeException .invalidProperties none { s with hdr := Memory.ofBytes bytes })

end Sys2Proof.Machine
end

