-- ==== Sys2Proof/Machine/Formats.lean ====
section
/-! DEFINITION. The rows of the stream's operand formats: STREAM.INIT (30_encoding.md R63), LITERAL.PLAIN and
LITERAL.MATCHED (41_literal.md), LEN.LOW, LEN.MID, LEN.HIGH and DIST.S0 to DIST.S63 (42_length_distance.md). Each reads
what follows its selecting decisions through the range decoder and returns the operand. -/

namespace Sys2Proof.Machine

/-- STREAM.INIT (R63, R90): the five initialisation bytes start the range decoder. -/
def execStreamInit (s : State) : Host.Outcome State Fault Refusal :=
  onCurrent (fun i => (rcInit s.params.initByte0 i).map fun _ => .none) s

/-- LITERAL.PLAIN (R112). Asked for by itself it decodes plain whatever `state` is (log 36). -/
def execLiteralPlain (s : State) : Host.Outcome State Fault Refusal :=
  onCurrent (fun i => (literalPlain i).map .byte) s

/-- LITERAL.MATCHED (R113). Asked for by itself it decodes matched whatever `state` is (log 36). -/
def execLiteralMatched (s : State) : Host.Outcome State Fault Refusal :=
  onCurrent (fun i => (literalMatched i).map .byte) s

/-- LEN.LOW (R122). DESIGN CHOICE (log 40): asked for by itself it decodes in the row `ps` it names, whatever `posState`
is. -/
def execLenLow (c : Coder) (ps : PosState) (s : State) : Host.Outcome State Fault Refusal :=
  onCurrent (fun i => (runDec (lowDec c ps) i).map .num) s

/-- LEN.MID (R123). DESIGN CHOICE (log 40): asked for by itself it decodes in the row `ps` it names, whatever `posState`
is. -/
def execLenMid (c : Coder) (ps : PosState) (s : State) : Host.Outcome State Fault Refusal :=
  onCurrent (fun i => (runDec (midDec c ps) i).map .num) s

/-- LEN.HIGH (R124). -/
def execLenHigh (c : Coder) (s : State) : Host.Outcome State Fault Refusal :=
  onCurrent (fun i => (runDec (highDec c) i).map .num) s

/-- The distance of a slot (R126 after the slot's decisions): the shared operation of the DIST rows. -/
def execSlot (slot : Nat) (s : State) : Host.Outcome State Fault Refusal :=
  onCurrent (fun i => (slotDecode slot i).map .num) s

/-- DIST.S0 (R127). -/
def execDistS0 (s : State) : Host.Outcome State Fault Refusal := execSlot 0 s

/-- DIST.S1 (R127). -/
def execDistS1 (s : State) : Host.Outcome State Fault Refusal := execSlot 1 s

/-- DIST.S2 (R127). -/
def execDistS2 (s : State) : Host.Outcome State Fault Refusal := execSlot 2 s

/-- DIST.S3 (R127). -/
def execDistS3 (s : State) : Host.Outcome State Fault Refusal := execSlot 3 s

/-- DIST.S4 (R128). -/
def execDistS4 (s : State) : Host.Outcome State Fault Refusal := execSlot 4 s

/-- DIST.S5 (R128). -/
def execDistS5 (s : State) : Host.Outcome State Fault Refusal := execSlot 5 s

/-- DIST.S6 (R128). -/
def execDistS6 (s : State) : Host.Outcome State Fault Refusal := execSlot 6 s

/-- DIST.S7 (R128). -/
def execDistS7 (s : State) : Host.Outcome State Fault Refusal := execSlot 7 s

/-- DIST.S8 (R128). -/
def execDistS8 (s : State) : Host.Outcome State Fault Refusal := execSlot 8 s

/-- DIST.S9 (R128). -/
def execDistS9 (s : State) : Host.Outcome State Fault Refusal := execSlot 9 s

/-- DIST.S10 (R128). -/
def execDistS10 (s : State) : Host.Outcome State Fault Refusal := execSlot 10 s

/-- DIST.S11 (R128). -/
def execDistS11 (s : State) : Host.Outcome State Fault Refusal := execSlot 11 s

/-- DIST.S12 (R128). -/
def execDistS12 (s : State) : Host.Outcome State Fault Refusal := execSlot 12 s

/-- DIST.S13 (R128). -/
def execDistS13 (s : State) : Host.Outcome State Fault Refusal := execSlot 13 s

/-- DIST.S14 (R129). -/
def execDistS14 (s : State) : Host.Outcome State Fault Refusal := execSlot 14 s

/-- DIST.S15 (R129). -/
def execDistS15 (s : State) : Host.Outcome State Fault Refusal := execSlot 15 s

/-- DIST.S16 (R129). -/
def execDistS16 (s : State) : Host.Outcome State Fault Refusal := execSlot 16 s

/-- DIST.S17 (R129). -/
def execDistS17 (s : State) : Host.Outcome State Fault Refusal := execSlot 17 s

/-- DIST.S18 (R129). -/
def execDistS18 (s : State) : Host.Outcome State Fault Refusal := execSlot 18 s

/-- DIST.S19 (R129). -/
def execDistS19 (s : State) : Host.Outcome State Fault Refusal := execSlot 19 s

/-- DIST.S20 (R129). -/
def execDistS20 (s : State) : Host.Outcome State Fault Refusal := execSlot 20 s

/-- DIST.S21 (R129). -/
def execDistS21 (s : State) : Host.Outcome State Fault Refusal := execSlot 21 s

/-- DIST.S22 (R129). -/
def execDistS22 (s : State) : Host.Outcome State Fault Refusal := execSlot 22 s

/-- DIST.S23 (R129). -/
def execDistS23 (s : State) : Host.Outcome State Fault Refusal := execSlot 23 s

/-- DIST.S24 (R129). -/
def execDistS24 (s : State) : Host.Outcome State Fault Refusal := execSlot 24 s

/-- DIST.S25 (R129). -/
def execDistS25 (s : State) : Host.Outcome State Fault Refusal := execSlot 25 s

/-- DIST.S26 (R129). -/
def execDistS26 (s : State) : Host.Outcome State Fault Refusal := execSlot 26 s

/-- DIST.S27 (R129). -/
def execDistS27 (s : State) : Host.Outcome State Fault Refusal := execSlot 27 s

/-- DIST.S28 (R129). -/
def execDistS28 (s : State) : Host.Outcome State Fault Refusal := execSlot 28 s

/-- DIST.S29 (R129). -/
def execDistS29 (s : State) : Host.Outcome State Fault Refusal := execSlot 29 s

/-- DIST.S30 (R129). -/
def execDistS30 (s : State) : Host.Outcome State Fault Refusal := execSlot 30 s

/-- DIST.S31 (R129). -/
def execDistS31 (s : State) : Host.Outcome State Fault Refusal := execSlot 31 s

/-- DIST.S32 (R129). -/
def execDistS32 (s : State) : Host.Outcome State Fault Refusal := execSlot 32 s

/-- DIST.S33 (R129). -/
def execDistS33 (s : State) : Host.Outcome State Fault Refusal := execSlot 33 s

/-- DIST.S34 (R129). -/
def execDistS34 (s : State) : Host.Outcome State Fault Refusal := execSlot 34 s

/-- DIST.S35 (R129). -/
def execDistS35 (s : State) : Host.Outcome State Fault Refusal := execSlot 35 s

/-- DIST.S36 (R129). -/
def execDistS36 (s : State) : Host.Outcome State Fault Refusal := execSlot 36 s

/-- DIST.S37 (R129). -/
def execDistS37 (s : State) : Host.Outcome State Fault Refusal := execSlot 37 s

/-- DIST.S38 (R129). -/
def execDistS38 (s : State) : Host.Outcome State Fault Refusal := execSlot 38 s

/-- DIST.S39 (R129). -/
def execDistS39 (s : State) : Host.Outcome State Fault Refusal := execSlot 39 s

/-- DIST.S40 (R129). -/
def execDistS40 (s : State) : Host.Outcome State Fault Refusal := execSlot 40 s

/-- DIST.S41 (R129). -/
def execDistS41 (s : State) : Host.Outcome State Fault Refusal := execSlot 41 s

/-- DIST.S42 (R129). -/
def execDistS42 (s : State) : Host.Outcome State Fault Refusal := execSlot 42 s

/-- DIST.S43 (R129). -/
def execDistS43 (s : State) : Host.Outcome State Fault Refusal := execSlot 43 s

/-- DIST.S44 (R129). -/
def execDistS44 (s : State) : Host.Outcome State Fault Refusal := execSlot 44 s

/-- DIST.S45 (R129). -/
def execDistS45 (s : State) : Host.Outcome State Fault Refusal := execSlot 45 s

/-- DIST.S46 (R129). -/
def execDistS46 (s : State) : Host.Outcome State Fault Refusal := execSlot 46 s

/-- DIST.S47 (R129). -/
def execDistS47 (s : State) : Host.Outcome State Fault Refusal := execSlot 47 s

/-- DIST.S48 (R129). -/
def execDistS48 (s : State) : Host.Outcome State Fault Refusal := execSlot 48 s

/-- DIST.S49 (R129). -/
def execDistS49 (s : State) : Host.Outcome State Fault Refusal := execSlot 49 s

/-- DIST.S50 (R129). -/
def execDistS50 (s : State) : Host.Outcome State Fault Refusal := execSlot 50 s

/-- DIST.S51 (R129). -/
def execDistS51 (s : State) : Host.Outcome State Fault Refusal := execSlot 51 s

/-- DIST.S52 (R129). -/
def execDistS52 (s : State) : Host.Outcome State Fault Refusal := execSlot 52 s

/-- DIST.S53 (R129). -/
def execDistS53 (s : State) : Host.Outcome State Fault Refusal := execSlot 53 s

/-- DIST.S54 (R129). -/
def execDistS54 (s : State) : Host.Outcome State Fault Refusal := execSlot 54 s

/-- DIST.S55 (R129). -/
def execDistS55 (s : State) : Host.Outcome State Fault Refusal := execSlot 55 s

/-- DIST.S56 (R129). -/
def execDistS56 (s : State) : Host.Outcome State Fault Refusal := execSlot 56 s

/-- DIST.S57 (R129). -/
def execDistS57 (s : State) : Host.Outcome State Fault Refusal := execSlot 57 s

/-- DIST.S58 (R129). -/
def execDistS58 (s : State) : Host.Outcome State Fault Refusal := execSlot 58 s

/-- DIST.S59 (R129). -/
def execDistS59 (s : State) : Host.Outcome State Fault Refusal := execSlot 59 s

/-- DIST.S60 (R129). -/
def execDistS60 (s : State) : Host.Outcome State Fault Refusal := execSlot 60 s

/-- DIST.S61 (R129). -/
def execDistS61 (s : State) : Host.Outcome State Fault Refusal := execSlot 61 s

/-- DIST.S62 (R129). -/
def execDistS62 (s : State) : Host.Outcome State Fault Refusal := execSlot 62 s

/-- DIST.S63 (R129). -/
def execDistS63 (s : State) : Host.Outcome State Fault Refusal := execSlot 63 s

end Sys2Proof.Machine
end

