-- ==== Sys2Proof/Machine/Internal.lean ====
section
/-! DEFINITION. The internal operations of the opcode table (format UOP): invoked by other rules, not spelled in the
stream. Each acts on the current instance and returns its value (log 7). An operand outside the range its rule states
runs the rule's algorithm as it stands (log 38). -/

namespace Sys2Proof.Machine

/-- RC_INIT (R90). -/
def execRcInit (s : State) : Host.Outcome State Fault Refusal :=
  onCurrent (fun i => (rcInit s.params.initByte0 i).map fun _ => .none) s

/-- NEXTBYTE (R91). -/
def execNextByte (s : State) : Host.Outcome State Fault Refusal :=
  onCurrent (fun i => (nextByte i).map .byte) s

/-- DECODEBIT (R93). -/
def execDecodeBit (c : Counter) (s : State) : Host.Outcome State Fault Refusal :=
  onCounters (fun i => i.hasCounter c) (fun i => (decodeBit c i).map .bit) s

/-- NORMALIZE (R97). -/
def execNormalize (s : State) : Host.Outcome State Fault Refusal :=
  onCurrent (fun i => (normalize i).map fun _ => .none) s

/-- DECODEDIRECT (R94). DESIGN CHOICE (log 38): with `n` above 26 the loop runs `n` times all the same. -/
def execDecodeDirect (n : Nat) (s : State) : Host.Outcome State Fault Refusal :=
  onCurrent (fun i => (runDec (directDec n) i).map .num) s

/-- DECODETREE (R95): the array must have `2^n` entries. DESIGN CHOICE (log 38): `n` of 0 reads nothing and gives 0, and
an `n` above 8 runs where the array has the entries. -/
def execDecodeTree (t : Tree) (n : Nat) (s : State) : Host.Outcome State Fault Refusal :=
  onCounters (fun i => i.hasEntries t (2 ^ n)) (fun i => (runDec (treeDec t n) i).map .num) s

/-- DECODETREEREVERSE (R96): the array must have `base + 2^n` entries. DESIGN CHOICE (log 38): `n` of 0 reads nothing and
gives 0, and an `n` above 5 runs where the array has the entries. -/
def execDecodeTreeReverse (t : Tree) (base n : Nat) (s : State) : Host.Outcome State Fault Refusal :=
  onCounters (fun i => i.hasEntries t (base + 2 ^ n)) (fun i => (runDec (reverseDec t base n) i).map .num) s

/-- LIT_DECODE (R114). -/
def execLitDecode (s : State) : Host.Outcome State Fault Refusal :=
  onCurrent (fun i => (litDecode i).map .byte) s

/-- LEN_DECODE (R120). DESIGN CHOICE (log 40): asked for by itself it decodes with the `ps` it is handed, whatever
`posState` is. -/
def execLenDecode (c : Coder) (ps : PosState) (s : State) : Host.Outcome State Fault Refusal :=
  onCurrent (fun i => (lenDecode c ps i).map .num) s

/-- DIST_DECODE (R126). DESIGN CHOICE (log 38): a length below 2 counts as 2, one above 273 as every other from 5 up. -/
def execDistDecode (length : Nat) (s : State) : Host.Outcome State Fault Refusal :=
  onCurrent (fun i => (distDecode length i).map .num) s

/-- PUTBYTE (R140). -/
def execPutByte (b : Byte) (s : State) : Host.Outcome State Fault Refusal :=
  onCurrent (fun i => (putByte b i).map fun _ => .none) s

/-- GETBYTE (R141). -/
def execGetByte (distance : Word) (s : State) : Host.Outcome State Fault Refusal :=
  onCurrent (fun i => (getByte distance i).map .byte) s

/-- COPYMATCH (R142). DESIGN CHOICE (log 38): a length of 0 makes the distance check and copies nothing, one above 273
is copied as any other. -/
def execCopyMatch (distance : Word) (length : Nat) (s : State) : Host.Outcome State Fault Refusal :=
  onCurrent (fun i => (copyMatch distance length i).map fun _ => .none) s

/-- What RUN returns: `(op, ip, endReason)` (R150). -/
def ranOf : Res Unit → Res Value
  | .ok _ i => .ok (.ran i.op i.ip i.endReason) i
  | .raised e i => .raised e i

/-- RUN (R150), with the precondition of R241: the instance has been reset (log 37). -/
def execRun (s : State) : Host.Outcome State Fault Refusal :=
  onReset (fun i => ranOf (runInst s.params.initByte0 i)) s

end Sys2Proof.Machine
end

