-- ==== Sys2Proof/Machine/Dispatch.lean ====
section
/-! DEFINITION. The dispatch: one arm per instruction, in the order of spec/opcode_table.json. -/

namespace Sys2Proof.Machine

def exec (i : Instr) (s : State) : Host.Outcome State Fault Refusal :=
  match i with
  | .create lc lp pb dictSize => Sys2Proof.Machine.execCreate lc lp pb dictSize s
  | .destroy h => Sys2Proof.Machine.execDestroy h s
  | .reset h => Sys2Proof.Machine.execReset h s
  | .decompress h src destCapacity => Sys2Proof.Machine.execDecompress h src destCapacity s
  | .hdr bytes => Sys2Proof.Machine.execHdr bytes s
  | .streamInit => Sys2Proof.Machine.execStreamInit s
  | .lit => Sys2Proof.Machine.execLit s
  | .newMatch => Sys2Proof.Machine.execMatch s
  | .eos => Sys2Proof.Machine.execEos s
  | .shortRep => Sys2Proof.Machine.execShortRep s
  | .longRep0 => Sys2Proof.Machine.execLongRep0 s
  | .longRep1 => Sys2Proof.Machine.execLongRep1 s
  | .longRep2 => Sys2Proof.Machine.execLongRep2 s
  | .longRep3 => Sys2Proof.Machine.execLongRep3 s
  | .literalPlain => Sys2Proof.Machine.execLiteralPlain s
  | .literalMatched => Sys2Proof.Machine.execLiteralMatched s
  | .lenLow c ps => Sys2Proof.Machine.execLenLow c ps s
  | .lenMid c ps => Sys2Proof.Machine.execLenMid c ps s
  | .lenHigh c => Sys2Proof.Machine.execLenHigh c s
  | .distS0 => Sys2Proof.Machine.execDistS0 s
  | .distS1 => Sys2Proof.Machine.execDistS1 s
  | .distS2 => Sys2Proof.Machine.execDistS2 s
  | .distS3 => Sys2Proof.Machine.execDistS3 s
  | .distS4 => Sys2Proof.Machine.execDistS4 s
  | .distS5 => Sys2Proof.Machine.execDistS5 s
  | .distS6 => Sys2Proof.Machine.execDistS6 s
  | .distS7 => Sys2Proof.Machine.execDistS7 s
  | .distS8 => Sys2Proof.Machine.execDistS8 s
  | .distS9 => Sys2Proof.Machine.execDistS9 s
  | .distS10 => Sys2Proof.Machine.execDistS10 s
  | .distS11 => Sys2Proof.Machine.execDistS11 s
  | .distS12 => Sys2Proof.Machine.execDistS12 s
  | .distS13 => Sys2Proof.Machine.execDistS13 s
  | .distS14 => Sys2Proof.Machine.execDistS14 s
  | .distS15 => Sys2Proof.Machine.execDistS15 s
  | .distS16 => Sys2Proof.Machine.execDistS16 s
  | .distS17 => Sys2Proof.Machine.execDistS17 s
  | .distS18 => Sys2Proof.Machine.execDistS18 s
  | .distS19 => Sys2Proof.Machine.execDistS19 s
  | .distS20 => Sys2Proof.Machine.execDistS20 s
  | .distS21 => Sys2Proof.Machine.execDistS21 s
  | .distS22 => Sys2Proof.Machine.execDistS22 s
  | .distS23 => Sys2Proof.Machine.execDistS23 s
  | .distS24 => Sys2Proof.Machine.execDistS24 s
  | .distS25 => Sys2Proof.Machine.execDistS25 s
  | .distS26 => Sys2Proof.Machine.execDistS26 s
  | .distS27 => Sys2Proof.Machine.execDistS27 s
  | .distS28 => Sys2Proof.Machine.execDistS28 s
  | .distS29 => Sys2Proof.Machine.execDistS29 s
  | .distS30 => Sys2Proof.Machine.execDistS30 s
  | .distS31 => Sys2Proof.Machine.execDistS31 s
  | .distS32 => Sys2Proof.Machine.execDistS32 s
  | .distS33 => Sys2Proof.Machine.execDistS33 s
  | .distS34 => Sys2Proof.Machine.execDistS34 s
  | .distS35 => Sys2Proof.Machine.execDistS35 s
  | .distS36 => Sys2Proof.Machine.execDistS36 s
  | .distS37 => Sys2Proof.Machine.execDistS37 s
  | .distS38 => Sys2Proof.Machine.execDistS38 s
  | .distS39 => Sys2Proof.Machine.execDistS39 s
  | .distS40 => Sys2Proof.Machine.execDistS40 s
  | .distS41 => Sys2Proof.Machine.execDistS41 s
  | .distS42 => Sys2Proof.Machine.execDistS42 s
  | .distS43 => Sys2Proof.Machine.execDistS43 s
  | .distS44 => Sys2Proof.Machine.execDistS44 s
  | .distS45 => Sys2Proof.Machine.execDistS45 s
  | .distS46 => Sys2Proof.Machine.execDistS46 s
  | .distS47 => Sys2Proof.Machine.execDistS47 s
  | .distS48 => Sys2Proof.Machine.execDistS48 s
  | .distS49 => Sys2Proof.Machine.execDistS49 s
  | .distS50 => Sys2Proof.Machine.execDistS50 s
  | .distS51 => Sys2Proof.Machine.execDistS51 s
  | .distS52 => Sys2Proof.Machine.execDistS52 s
  | .distS53 => Sys2Proof.Machine.execDistS53 s
  | .distS54 => Sys2Proof.Machine.execDistS54 s
  | .distS55 => Sys2Proof.Machine.execDistS55 s
  | .distS56 => Sys2Proof.Machine.execDistS56 s
  | .distS57 => Sys2Proof.Machine.execDistS57 s
  | .distS58 => Sys2Proof.Machine.execDistS58 s
  | .distS59 => Sys2Proof.Machine.execDistS59 s
  | .distS60 => Sys2Proof.Machine.execDistS60 s
  | .distS61 => Sys2Proof.Machine.execDistS61 s
  | .distS62 => Sys2Proof.Machine.execDistS62 s
  | .distS63 => Sys2Proof.Machine.execDistS63 s
  | .rcInit => Sys2Proof.Machine.execRcInit s
  | .nextByte => Sys2Proof.Machine.execNextByte s
  | .decodeBit c => Sys2Proof.Machine.execDecodeBit c s
  | .normalize => Sys2Proof.Machine.execNormalize s
  | .decodeDirect n => Sys2Proof.Machine.execDecodeDirect n s
  | .decodeTree t n => Sys2Proof.Machine.execDecodeTree t n s
  | .decodeTreeReverse t base n => Sys2Proof.Machine.execDecodeTreeReverse t base n s
  | .litDecode => Sys2Proof.Machine.execLitDecode s
  | .lenDecode c ps => Sys2Proof.Machine.execLenDecode c ps s
  | .distDecode length => Sys2Proof.Machine.execDistDecode length s
  | .putByte b => Sys2Proof.Machine.execPutByte b s
  | .getByte distance => Sys2Proof.Machine.execGetByte distance s
  | .copyMatch distance length => Sys2Proof.Machine.execCopyMatch distance length s
  | .run => Sys2Proof.Machine.execRun s

end Sys2Proof.Machine
end

