-- ==== Sys2Proof/Machine/Fetch.lean ====
section
/-! DEFINITION. What the step does next (log 2, log 23). While the current instance is Busy the host takes no step (00_scope.md R4):
the next packet is fetched from its stream through the range decoder, or, when the loop of 44_packets.md R150 has ended,
the exact-size check ends the command. Otherwise a row placed to be run by itself is taken (log 3), else the host's first
pending request; with neither the machine holds its state (60_exceptions.md R219). -/

namespace Sys2Proof.Machine

/-- What there is to do. -/
inductive Fetched where
  /-- an instruction, and the state it executes in -/
  | instr (i : Instr) (s : State)
  /-- no instruction: the state that follows -/
  | settled (s : State)
  /-- a request that is refused -/
  | refused (r : Refusal)
  deriving DecidableEq, Repr

/-- Whether the packet loop goes on (R150): room in the output and no end marker seen. -/
def Inst.running (i : Inst) : Bool := decide (i.op < i.destCapacity) && i.endReason == .outputFull

/-- The next packet of a running instance, or the end of its DECOMPRESS. -/
def fetchPacket (i : Inst) (s : State) : Fetched :=
  if i.running then
    match nextKind i with
    | .ok k i1 => .instr k.instr (s.putInst s.cur i1)
    | .raised e i1 => .settled (takeException e (some s.cur) (s.putInst s.cur i1))
  else .settled (decompressed s.cur s (sizeCheck i))

/-- A word, decoded, to be executed in a state. -/
def fetchWord (r : Request) (s : State) : Fetched :=
  match decode r with
  | .bad e => .refused (.undecodable e)
  | .instr i => if i.wellFormed then .instr i s else .refused .illFormed

/-- The host's next request, taken off the port. -/
def fetchRequest (s : State) : Fetched :=
  match s.port with
  | [] => .settled s
  | r :: rest => fetchWord r.word { s with port := rest }

/-- What there is to do while no DECOMPRESS runs: a placed row, else the host's next request. -/
def fetchIdle (s : State) : Fetched :=
  match s.rows with
  | [] => fetchRequest s
  | w :: rest => fetchWord w.word { s with rows := rest }

/-- The next thing to do. -/
def fetch (s : State) : Fetched :=
  match Table.get s.insts s.cur with
  | none => fetchIdle s
  | some i => if i.busy then fetchPacket i s else fetchIdle s

/-- An instance whose range decoder has just started on a stream of zeros, for `placed` (log 3). -/
def zeroStreamInst : Inst :=
  { freshInst 0 0 0 0 0 with range := 0xFFFFFFFF, src := Memory.ofBytes [0, 0, 0, 0, 0, 0, 0, 0], srcLen := 8 }

/-- The state with nothing running. -/
def State.idle (s : State) : State := { s with insts := s.insts.map fun e => (e.1, { e.2 with busy := false }) }

/-- The state with an instance under handle 0 that runs no command, made the current one (log 3). -/
def State.withInst (s : State) : State :=
  { s with
    insts := Table.set s.insts 0 { (Table.get s.insts 0).getD zeroStreamInst with busy := false }
    nextHandle := max s.nextHandle 1
    cur := 0 }

/-- A state in which the next fetch takes the given word. A word other than CREATE finds a live instance under handle 0
and as the current one (log 3). -/
def State.placed (s : State) (r : Request) : State :=
  match r with
  | .command 0 h nums bytes => { s.idle with port := .command 0 h nums bytes :: s.port, rows := [] }
  | .command code h nums bytes => { s.withInst with port := .command code h nums bytes :: s.port, rows := [] }
  | .header bytes => { s.withInst with port := .header bytes :: s.port, rows := [] }
  | .stream f ds => { s.withInst with rows := ⟨f, ds⟩ :: s.rows }

end Sys2Proof.Machine
end

