-- ==== Sys2Proof/Machine/Step.lean ====
section
/-! DEFINITION. One step of the machine: fetch (Machine/Fetch.lean), then execute. -/

namespace Sys2Proof.Machine

/-- One step. -/
def step (s : State) : Host.Outcome State Fault Refusal :=
  match fetch s with
  | .instr i t => exec i t
  | .settled t => .next t
  | .refused r => .refused r

/-- The state with a word of the opcode table placed where the step fetches its next instruction (log 2, log 3). -/
def State.withFetchWord (s : State) (nbits w : Nat) : State := s.placed (tableRequest nbits w)

end Sys2Proof.Machine
end

