-- ==== Sys2Proof/Safety.lean ====
section
/-! DEFINITION. What counts as a safe state, and the words the statements use: the current instance, the state an
operation or an exception of it leaves, and which part of an instance an operation may have touched. -/

namespace Sys2Proof.Machine

/-- The instance that packets and internal operations act on. -/
def State.current (s : State) : Option Inst := Table.get s.insts s.cur

/-- The state with the current instance replaced and a value returned, everything else as it was. -/
def State.after (s : State) (i : Inst) (v : Value) : State :=
  { s with insts := Table.set s.insts s.cur i, ret := v }

/-- The state in which the current instance, having got as far as `i`, has raised `e` (R205, R190): `e` is its `status`
and what is returned. -/
def State.trapped (s : State) (i : Inst) (e : Err) : State :=
  { s with
    insts := Table.set s.insts s.cur (i.abandoned e s.draws)
    ret := .error e
    draws := s.draws + 1 }

/-- The part of an instance the range decoder may change: `range`, `code`, `ip` and the counters. `i` and `j` agree in
everything else. -/
def sameButDecoder (i j : Inst) : Prop :=
  j = { i with range := j.range, code := j.code, ip := j.ip, probs := j.probs }

/-- The part of an instance the window may change: `OUT`, `op` and `prev`. -/
def sameButWindow (i j : Inst) : Prop := j = { i with out := j.out, op := j.op, prev := j.prev }

/-- `j` is `i` with `n` bytes appended by a copy from zero-based distance `d` (R142, R144): the byte at `op + k` is the one
`d + 1` back, with that period where the copy overlaps itself; every other index lists what it did. -/
def copied (i j : Inst) (d n : Nat) : Prop :=
  j.op = i.op + n ∧
    (∀ k, k < n → Memory.read j.out (i.op + k) = some (i.outByte (i.op - d - 1 + k % (d + 1)))) ∧
    (∀ a, a < i.op ∨ i.op + n ≤ a → Memory.read j.out a = Memory.read i.out a) ∧
    (0 < n → j.prev = i.outByte (i.op - d - 1 + (n - 1) % (d + 1)))

/-- The distances of a slot (R127 to R131): the slot itself below 4, else from its base up by its extra bits. -/
def inSlot (slot d : Nat) : Prop :=
  if slot < 4 then d = slot else slotBase slot ≤ d ∧ d < slotBase slot + 2 ^ slotBits slot

/-- A counter of a tree's array. -/
def ofTree (t : Tree) (c : Counter) : Prop := ∃ k, c = t.counter k

/-- What a decision program asks, in order, while it is read against a list of decisions. -/
def Dec.asked {α : Type} : Dec α → List Bool → List Query
  | .done _, _ => []
  | .ask _ _, [] => []
  | .ask q k, b :: ds => q :: Dec.asked (k b) ds

/-- The handle whose instance an instruction may create, change or destroy: a command's own, else the current one
(log 6). HDR names none. -/
def Instr.target (i : Instr) (s : State) : Handle :=
  match i with
  | .create _ _ _ _ => some s.nextHandle
  | .destroy h => h
  | .reset h => h
  | .decompress h _ _ => h
  | .hdr _ => none
  | _ => some s.cur

/-- The rows and internal operations that only read the stream: of the instance they change the range decoder's part
(R91 to R97, R112 to R114, R120 to R129), or, as GETBYTE, nothing (R141). -/
def Instr.decodesOnly (i : Instr) : Bool :=
  match i with
  | .streamInit | .rcInit | .nextByte | .normalize | .decodeBit _ | .decodeDirect _ | .decodeTree _ _ => true
  | .decodeTreeReverse _ _ _ | .literalPlain | .literalMatched | .litDecode | .getByte _ => true
  | .lenLow _ _ | .lenMid _ _ | .lenHigh _ | .lenDecode _ _ | .distDecode _ => true
  | _ => i.slot.isSome

/-- The rows that append to OUT, each with how many bytes from `op` up it may write and with its operation on the
instance: PUTBYTE one byte (R140), COPYMATCH its length (R142), LIT and SHORTREP one (R153, R156), a copying packet at most
273 (R67). -/
def Instr.appender (i : Instr) : Option (Nat × (Inst → Res Unit)) :=
  match i with
  | .putByte b => some (1, putByte b)
  | .copyMatch d n => some (n, copyMatch d n)
  | .lit => some (1, litPacket)
  | .shortRep => some (1, shortRepPacket)
  | .newMatch | .eos => some (273, fun j => (matchOrEos j).map fun _ => ())
  | .longRep0 => some (273, longRepPacket 0)
  | .longRep1 => some (273, longRepPacket 1)
  | .longRep2 => some (273, longRepPacket 2)
  | .longRep3 => some (273, longRepPacket 3)
  | _ => none

/-- What the host can send: a command (R73) or a header (R61). Every other instruction acts on the current instance. -/
def Instr.ofHost (i : Instr) : Bool :=
  match i with
  | .create _ _ _ _ | .destroy _ | .reset _ | .decompress _ _ _ | .hdr _ => true
  | _ => false

/-- `j` is `i` with its stream cut, or continued, to `n` bytes: it stands where `i` does and reads the bytes of `i` below
`n` (R25, R204). -/
def cutTo (i j : Inst) (n : Nat) : Prop :=
  j = { i with src := j.src, srcLen := n } ∧ ∀ a, a < n → j.srcByte a = i.srcByte a

/-- The operands a packet reads from the stream before it does anything else to OUT: a literal (R153), a length and a
distance (R154, R155), a length (R157 to R160). SHORTREP has none (R156). -/
def Instr.operands (i : Instr) : Option (Inst → Res Unit) :=
  match i with
  | .lit => some fun j => (litDecode j).map fun _ => ()
  | .newMatch | .eos => some fun j => (matchOperands j).map fun _ => ()
  | .longRep0 | .longRep1 | .longRep2 | .longRep3 => some fun j => (lenDecode .forRep j.posState j).map fun _ => ()
  | _ => none

/-- An operation leaves the instance `j`: as it completes, or as it stands when its error is raised. -/
def Res.leaves {α : Type} (r : Res α) (j : Inst) : Prop := (∃ a, r = .ok a j) ∨ ∃ e, r = .raised e j

/-- Every counter a program asks, whatever the decisions, is a counter of the instance (R24, R98). -/
def Dec.asksWithin {α : Type} (d : Dec α) (i : Inst) : Prop :=
  ∀ ds c, .adaptive c ∈ Dec.asked d ds → i.hasCounter c = true

/-- What LONGREP0 to LONGREP3 select and how they move the rep registers of `i` (R157 to R161): row `row` is long rep `k`,
copies from `dist`, and leaves the registers at `(dist, r1, r2, r3)`. -/
def longRepMoves (i : Inst) (row : Instr) (k : Fin 4) (dist r1 r2 r3 : Word) : Prop :=
  row = .longRep0 ∧ k = 0 ∧ (dist, r1, r2, r3) = (i.rep0, i.rep1, i.rep2, i.rep3) ∨
    row = .longRep1 ∧ k = 1 ∧ (dist, r1, r2, r3) = (i.rep1, i.rep0, i.rep2, i.rep3) ∨
    row = .longRep2 ∧ k = 2 ∧ (dist, r1, r2, r3) = (i.rep2, i.rep0, i.rep1, i.rep3) ∨
    row = .longRep3 ∧ k = 3 ∧ (dist, r1, r2, r3) = (i.rep3, i.rep0, i.rep1, i.rep2)

/-- No run is in progress on the current instance, so the step turns to the placed rows and the port (R4, log 2). -/
def State.noRun (s : State) : Prop := ∀ i, s.current = some i → i.busy = false

/-- The node `DecodeTreeReverse` stands at after `n` decisions that read the value `v`, least significant first (R96). -/
def reverseNode : Nat → Nat → Nat
  | 0, _ => 1
  | n + 1, v => 2 * reverseNode n v + (v.testBit n).toNat

/-- A counter in the range the update keeps (R21, R92). -/
def probOk (p : Prob) : Prop := 31 ≤ p.toNat ∧ p.toNat ≤ 2017

/-- The properties are ones CREATE takes (R18, R181). -/
def Inst.propsLegal (i : Inst) : Prop :=
  i.lc.toNat ≤ 8 ∧ i.lp.toNat ≤ 4 ∧ i.pb.toNat ≤ 4 ∧ i.lc.toNat + i.lp.toNat ≤ 8

/-- The cursors are within their buffers (R13, R14). -/
def Inst.cursorsLegal (i : Inst) : Prop := i.ip ≤ i.srcLen ∧ i.op ≤ i.destCapacity

/-- The probability file is canonical, inside the instance's counters, and every counter is in range (R21, R24). -/
def Inst.probsLegal (i : Inst) : Prop :=
  ProbFile.wf i.probs = true ∧ ∀ e ∈ i.probs, e.1 < i.numCounters ∧ probOk e.2

/-- The memories are canonical; SRC holds exactly its `srcLen` bytes (R25), and OUT nothing at or beyond
`destCapacity` (R40, R47). -/
def Inst.memoryLegal (i : Inst) : Prop :=
  Memory.wf i.src = true ∧ Memory.wf i.out = true ∧ (∀ a, (Memory.read i.src a).isSome ↔ a < i.srcLen) ∧
    ∀ a, (Memory.read i.out a).isSome → a < i.destCapacity

/-- A rep register between packets (R207): below `dictEff`, and the reset value or a distance already in reach. -/
def Inst.repLegal (i : Inst) (d : Word) : Prop := d.toNat < i.dictEff ∧ (d = 0 ∨ d.toNat < i.op)

/-- What holds besides between the packets of a running DECOMPRESS: `range` is normalised (R11), every byte produced so
far is there (R26), `prev` is the last of them or 0 (R17), the rep registers are in reach (R207), and in a matched
state `rep[0]` is (R111). -/
def Inst.runLegal (i : Inst) : Prop :=
  0x1000000 ≤ i.range.toNat ∧ (∀ a, a < i.op → (Memory.read i.out a).isSome) ∧
    i.prev = (if i.op = 0 then 0 else i.outByte (i.op - 1)) ∧
    (i.repLegal i.rep0 ∧ i.repLegal i.rep1 ∧ i.repLegal i.rep2 ∧ i.repLegal i.rep3) ∧
    (7 ≤ i.st.val → i.rep0.toNat < i.op)

/-- A legal instance. -/
def Inst.legal (i : Inst) : Prop :=
  i.propsLegal ∧ i.cursorsLegal ∧ i.probsLegal ∧ i.memoryLegal ∧ (i.busy = true → i.runLegal)

/-- THE INVARIANT: handles rise strictly and stay below the next one (R184), every live instance is legal, and the
header's memory is canonical. -/
def State.Inv (s : State) : Prop :=
  Table.rising s.insts = true ∧ (∀ e ∈ s.insts, e.1 < s.nextHandle ∧ e.2.legal) ∧ Memory.wf s.hdr = true

/-- Two instances with the same properties (R18). -/
def sameProps (i j : Inst) : Prop := i.lc = j.lc ∧ i.lp = j.lp ∧ i.pb = j.pb ∧ i.dictSize = j.dictSize

/-- `j` has the properties, the latched operands and the stream of `i` (R18, R19, R25), and is running as `i` is. -/
def sameCall (i j : Inst) : Prop :=
  sameProps i j ∧ j.srcLen = i.srcLen ∧ j.destCapacity = i.destCapacity ∧ j.busy = i.busy ∧ j.src = i.src

end Sys2Proof.Machine
end

