-- ==== Sys2Proof/Certificates/Slice0/Obligations.lean ====
section
/-! DEFINITION. The statements for the provers. `s.after i v` is `s` with its current instance replaced by `i` and the
value `v` returned; `s.trapped i e` is `s` after exception `e` of its current instance, which had got as far as `i`
(Safety.lean). Both leave every other field of the state and every other instance alone. What a statement says of the
model's own fields is the model's choice, not a rule of the spec: `ret`, `cur`, `nextHandle`, `draws` and `epoch`
(logs 5 to 9), `port` (log 2) and `rows` (log 3). So is what `s.trapped i e` says of the abandoned instance
besides its `status`: its registers stay as the rules had left them (log 11), which R206 and U6 leave open, and its OUT
is FAIL_OUT (log 9). So is what a statement says of an internal operation with an operand outside the range its rule
gives (R94, R95, R96, R125, R142): it runs as it stands (log 38). `status` is a register of each instance (R10), and
`createStatus` the `status` that CREATE leaves while there is none (R205, log 34); what an operation returns, an error
too, stands in `ret`. -/

open Sys2Proof Sys2Proof.Machine

/-! ## Encoding -/

/-- Words written out from the encodings of R61, R65, R67, R68 and R73 decode to their rows; and the words the opcode table
numbers: a command's code, and from 4 up a slot (the numbers 0 to 3 are read as commands, log 4). -/
def Obligations.WrittenWordsDecode : Prop :=
  decode (.command 0 none [3, 0, 2, 0x100000] []) = .instr (.create 3 0 2 0x100000) ∧
  decode (.command 3 (some 4) [10] [0x00, 0x20]) = .instr (.decompress (some 4) [0x00, 0x20] 10) ∧
  decode (.command 4 none [] []) = .bad .unknownCode ∧
  decode (.header [0x5D, 0x00, 0x00, 0x10, 0x00]) = .instr (.hdr [0x5D, 0x00, 0x00, 0x10, 0x00]) ∧
  decode (.stream .packet [false]) = .instr .lit ∧
  decode (.stream .packet [true, false]) = .instr .newMatch ∧
  decode (.stream .packet [true, true, false, false]) = .instr .shortRep ∧
  decode (.stream .packet [true, true, true, true, false]) = .instr .longRep2 ∧
  decode (.stream (.len .forRep 5) [true, false]) = .instr (.lenMid .forRep 5) ∧
  decode (.stream .dist [false, false, true, true, true, false]) = .instr .distS14 ∧
  decodeTableWord 8 0 = some (.create 0 0 0 0) ∧ decodeTableWord 8 1 = some (.destroy (some 0)) ∧
  decodeTableWord 8 2 = some (.reset (some 0)) ∧ decodeTableWord 8 3 = some (.decompress (some 0) [] 0) ∧
  ∀ slot : Fin 64, 4 ≤ slot.val → decodeTableWord 8 slot.val = some (slotInstr slot)

/-- DECODE AND ENCODE AGREE on requests: the word of a well-formed instruction decodes to it, for every instruction that
has a word (R61, R65, R67, R68, R73). -/
def Obligations.RequestsReadBack : Prop :=
  ∀ (i : Instr) (r : Request), i.wellFormed = true → encode i = some r → decode r = .instr i

/-- DECODE AND ENCODE AGREE on packets: reading the decisions of a packet gives the packet back, whatever follows it and
in whatever state it is read (R65 to R69). -/
def Obligations.SpelledPacketsReadBack : Prop :=
  ∀ (x : PacketContext) (p : Packet) (rest : List Bool), p.wellFormed = true →
    (packetDec x).read (spell p ++ rest) = some (p, rest)

/-- The converse, and completeness of the code: whatever the decoder reads as a packet is a well-formed packet, read from
that packet's own spelling; and any 48 decisions contain a packet (R65, R66, R67, R68, R72). -/
def Obligations.ReadPacketsAreSpelled : Prop :=
  ∀ (x : PacketContext) (ds : List Bool),
    (∀ p rest, (packetDec x).read ds = some (p, rest) → p.wellFormed = true ∧ ds = spell p ++ rest) ∧
    (48 ≤ ds.length → ∃ p rest, (packetDec x).read ds = some (p, rest))

/-- How many decisions a packet has: SHORTREP 4, LIT 9, a copying packet or EOS at most 48, and 48 is reached (R72). -/
def Obligations.PacketDecisionCounts : Prop :=
  (∀ p : Packet, p.wellFormed = true →
    4 ≤ (spell p).length ∧ (spell p).length ≤ 48 ∧
    (p = .shortRep → (spell p).length = 4) ∧ (∀ b, p = .lit b → (spell p).length = 9)) ∧
  (spell (.newMatch 273 0x80000000)).length = 48

/-- Trees and direct decisions give the most significant bit first, reverse trees the least (R43, R94, R95, R96). -/
def Obligations.BitOrders : Prop :=
  ∀ (t : Tree) (base n v : Nat) (rest : List Bool), v < 2 ^ n →
    (treeDec t n).read (bitsMsb n v ++ rest) = some (v, rest) ∧
    (directDec n).read (bitsMsb n v ++ rest) = some (v, rest) ∧
    (reverseDec t base n).read (bitsLsb n v ++ rest) = some (v, rest)

/-- HDR: 5 bytes whose first is below 225 give the fields of R62 and the little-endian dictionary size of R41, and
return them; a first byte of 225 or more, or fewer than 5 bytes, is InvalidProperties (R62, R203; that HDR itself
raises it is log 22). Nothing else of the machine changes but the memory HDR, what is returned (the model's own, log
7), and for the error the `status` a failed CREATE writes (R200 lists a malformed header under CREATE; log 35). A header
written from legal properties parses back to them. -/
def Obligations.HeaderRule : Prop :=
  ∀ (s : State) (d b1 b2 b3 b4 : Byte) (short : List Byte) (q : Properties),
    (d.toNat < 225 → ∃ p : Properties,
      exec (.hdr [d, b1, b2, b3, b4]) s =
        .next { s with hdr := Memory.ofBytes [d, b1, b2, b3, b4], ret := .props p } ∧
      p.lc = d.toNat % 9 ∧ p.lp = d.toNat / 9 % 5 ∧ p.pb = d.toNat / 45 ∧
      p.dictSize.toNat = b1.toNat + b2.toNat * 256 + b3.toNat * 65536 + b4.toNat * 16777216) ∧
    (225 ≤ d.toNat → exec (.hdr [d, b1, b2, b3, b4]) s =
      .next { s with
        hdr := Memory.ofBytes [d, b1, b2, b3, b4], ret := .error .invalidProperties
        createStatus := .error .invalidProperties }) ∧
    (short.length < 5 → exec (.hdr short) s =
      .next { s with
        hdr := Memory.ofBytes short, ret := .error .invalidProperties, createStatus := .error .invalidProperties }) ∧
    (q.lc ≤ 8 → q.lp ≤ 4 → q.pb ≤ 4 → parseHeader (headerOf q) = some q)

/-! ## The step -/

/-- A STEP RUNS THE DECODED INSTRUCTION: with no run in progress and no row placed, the host's first pending request,
if it decodes to a well-formed instruction, is taken off the port and executed. It is one of the four commands or a
header, the whole of what the host can send (R73, R193). That requests wait on a port and the first is taken is the
model's choice (log 2; the spec gives no command queue). A row placed to be run by itself is taken before the port,
and no step places one (log 3, the model's own). -/
def Obligations.StepRunsRequest : Prop :=
  ∀ s : State,
    (s.noRun → s.rows = [] → ∀ r rest i, s.port = r :: rest → decode r.word = .instr i → i.wellFormed = true →
      step s = exec i { s with port := rest } ∧ Instr.ofHost i = true) ∧
    (s.noRun → ∀ w more i, s.rows = w :: more → decode w.word = .instr i → i.wellFormed = true →
      step s = exec i { s with rows := more }) ∧
    (s.rows = [] → ∀ t, step s = .next t → t.rows = [])

/-- Every other step. During a run the step executes the packet that the naming decisions of the stream select, in the
state in which those decisions have been read (R150, R151, R152), or takes the exception when the stream ends inside
them (R205); when the packet loop has ended it makes the exact-size check (R189). That a step of a running instance is
one packet is the model's choice (log 23). With no run, no row and no request pending the machine holds its state (R219;
the port is log 2). -/
def Obligations.StepRunsPacket : Prop :=
  ∀ s : State,
    (s.noRun → s.rows = [] → s.port = [] → step s = .next s) ∧
    ∀ i, s.current = some i → i.busy = true →
      (i.op < i.destCapacity → i.endReason = .outputFull →
        (∀ k j, nextKind i = .ok k j → step s = exec k.instr (s.putInst s.cur j)) ∧
        ∀ e j, nextKind i = .raised e j → step s = .next (s.trapped j e)) ∧
      (i.destCapacity ≤ i.op ∨ i.endReason = .endMarker →
        (i.ip = i.srcLen ∧ i.op = i.destCapacity →
          step s = .next (s.after { i with busy := false, status := .ok } (.written i.op))) ∧
        (i.ip ≠ i.srcLen ∨ i.op ≠ i.destCapacity → step s = .next (s.trapped i .formatMismatch)))

/-- Before any CREATE no handle names an instance (R29, R230), and the state after reset is legal. -/
def Obligations.ResetIsLegalAndEmpty : Prop :=
  (∀ n, State.reset.phase n = .absent) ∧ State.reset.Inv

/-- THE INVARIANT IS KEPT by every step from every legal state. -/
def Obligations.StepKeepsInv : Prop :=
  ∀ s t : State, s.Inv → step s = .next t → t.Inv

/-- No index of the probability file that a packet or a format forms is outside it (R98, R220 item 4): with legal
properties, every counter that a packet, a literal, a length or a distance asks is one of the instance, whatever the
decisions; and no array index wraps on the way: a tree of `n` bits forms nodes below `2^n` from its offset, a matched
literal the entries of AskedCounters, below 768, and in every use they are below the size of the array, below which
different indices are different counters. So no step faults, from any state. Only an internal operation handed a
counter outside the file stops, by name (U16, log 24). -/
def Obligations.StepNeverFaults : Prop :=
  (∀ (i : Inst) (st : StateIndex) (ps : PosState) (mode : LitMode) (c : Coder) (n slot : Nat), i.propsLegal →
    Dec.asksWithin (packetDec ⟨st, ps, i.litContext, mode⟩) i ∧ Dec.asksWithin (kindDec st ps) i ∧
    Dec.asksWithin (litDec i.litContext mode) i ∧ Dec.asksWithin (lenDec c ps) i ∧
    Dec.asksWithin (distDec n) i ∧ Dec.asksWithin (slotDec slot) i) ∧
  (∀ (t : Tree) (base n k k' : Nat) (mb b : Byte) (ds : List Bool) (c : Counter),
    (.adaptive c ∈ Dec.asked (treeDec t n) ds → ∃ m, 1 ≤ m ∧ m < 2 ^ n ∧ c = t.counter m) ∧
    (.adaptive c ∈ Dec.asked (reverseDec t base n) ds → ∃ m, 1 ≤ m ∧ m < 2 ^ n ∧ c = t.counter (base + m)) ∧
    (k < 8 → (1 + mb.toNat / 2 ^ (7 - k) % 2) * 256 + (2 ^ k + b.toNat / 2 ^ (8 - k)) < 768) ∧
    (k < t.size → k' < t.size → t.counter k = t.counter k' → k = k')) ∧
  (∀ (c : Coder) (ps : PosState) (ls : Fin 4) (ctx : Fin 256) (slot : Nat),
    2 ^ 3 ≤ (Tree.low c ps).size ∧ 2 ^ 3 ≤ (Tree.mid c ps).size ∧ 2 ^ 8 ≤ (Tree.high c).size ∧
    2 ^ 6 ≤ (Tree.posSlot ls).size ∧ 2 ^ 4 ≤ Tree.align.size ∧ 768 ≤ (Tree.lit ctx).size ∧
    (4 ≤ slot → slot < 14 → slotBase slot - slot + 2 ^ slotBits slot ≤ Tree.specPos.size)) ∧
  ∀ (s : State) (f : Fault), step s ≠ .fault f ∧
    ∀ (i : Inst) (c : Counter) (t : Tree) (base n : Nat), s.current = some i →
      (i.hasCounter c = false → exec (.decodeBit c) s = .fault .noSuchCounter) ∧
      (i.hasEntries t (2 ^ n) = false → exec (.decodeTree t n) s = .fault .noSuchCounter) ∧
      (i.hasEntries t (base + 2 ^ n) = false → exec (.decodeTreeReverse t base n) s = .fault .noSuchCounter)

/-- FRAME of every instruction: instances share nothing (R51), so those other than its target are left alone, their
`status` too, and so are the port, the placed rows and the parameters; HDR alone writes the memory HDR; CREATE alone
takes a handle or consults `ALLOC_OK` (R183, R215, R216); CREATE and the header decoder in front of it alone write
`createStatus` (R205; of HDR log 35). -/
def Obligations.InstructionFrame : Prop :=
  ∀ (i : Instr) (s t : State), exec i s = .next t →
    (∀ n, some n ≠ Instr.target i s → Table.get t.insts n = Table.get s.insts n) ∧
    t.port = s.port ∧ t.rows = s.rows ∧ t.params = s.params ∧
    ((∀ bytes, i ≠ .hdr bytes) → t.hdr = s.hdr) ∧
    ((∀ lc lp pb d, i ≠ .create lc lp pb d) → t.nextHandle = s.nextHandle ∧ t.allocIn = s.allocIn ∧
      ((∀ bytes, i ≠ .hdr bytes) → t.createStatus = s.createStatus))

/-- FRAME of the operations on an instance. Those that only decode leave all but the decoder's part alone. Those that
append, and the packet loop, write, whether they complete or raise, no byte of OUT below `op`, beyond the bytes they
append or at or beyond `destCapacity`; PUTBYTE and COPYMATCH touch nothing but OUT, `op` and `prev`; none changes the
properties, SRC or the latched operands (R18, R19, R25, R26, R47, R91, R140). This is said of the instance at the
moment the operation ends: once an exception is taken, OUT is FAIL_OUT (D14, log 9). -/
def Obligations.OperationFrame : Prop :=
  ∀ (row : Instr) (s : State) (i : Inst), s.current = some i →
    (Instr.decodesOnly row = true → ∀ t, exec row s = .next t →
      ∃ j, sameButDecoder i j ∧ ((∃ v, t = s.after j v) ∨ ∃ e, t = s.trapped j e)) ∧
    (∀ n f, Instr.appender row = some (n, f) →
      (∀ j, f i = .ok () j → exec row s = .next (s.after j .none)) ∧
      (∀ e j, f i = .raised e j → exec row s = .next (s.trapped j e)) ∧
      ∀ j, (f i).leaves j → sameCall i j ∧
        (∀ a, a < i.op ∨ i.op + n ≤ a ∨ i.destCapacity ≤ a → Memory.read j.out a = Memory.read i.out a) ∧
        ((∃ b, row = .putByte b) ∨ (∃ d m, row = .copyMatch d m) → sameButWindow i j)) ∧
    (row = .run →
      (∀ t, exec row s = .next t → ∃ j, (runInst s.params.initByte0 i).leaves j ∧
        ((∃ v, t = s.after j v) ∨ ∃ e, t = s.trapped j e)) ∧
      ∀ j, (runInst s.params.initByte0 i).leaves j → sameCall i j ∧
        ∀ a, a < i.op ∨ i.destCapacity ≤ a → Memory.read j.out a = Memory.read i.out a)

/-- No step changes the properties of an instance (R18, R215, R234). -/
def Obligations.PropertiesAreImmutable : Prop :=
  ∀ (s t : State) (n : Nat) (i j : Inst), s.Inv → step s = .next t →
    Table.get s.insts n = some i → Table.get t.insts n = some j → sameProps i j

/-! ## The range decoder -/

/-- The adaptive update (R92): both formulas, its corner cases, and that the range 31 to 2017 is kept, which the spec
marks as its own inference. -/
def Obligations.AdaptiveUpdate : Prop :=
  ∀ p : Prob,
    (probAfter p false).toNat = p.toNat + (2048 - p.toNat) / 32 ∧
    (probAfter p true).toNat = p.toNat - p.toNat / 32 ∧
    (31 ≤ p.toNat ∧ p.toNat ≤ 2017 → ∀ b, 31 ≤ (probAfter p b).toNat ∧ (probAfter p b).toNat ≤ 2017) ∧
    (p.toNat = 2017 → probAfter p false = p) ∧ (p.toNat = 31 → probAfter p true = p) ∧
    (p.toNat = 1024 → (probAfter p false).toNat = 1056 ∧ (probAfter p true).toNat = 992)

/-- DECODEBIT (R93, R97): the outcome, the update of the asked counter alone, and the normalisation after it. -/
def Obligations.DecodeBitRule : Prop :=
  ∀ (s : State) (i : Inst) (c : Counter) (bound range code : Nat),
    s.current = some i → i.hasCounter c = true →
    bound = i.range.toNat / 2048 * (i.prob c).toNat →
    range = (if i.code.toNat < bound then bound else i.range.toNat - bound) →
    code = (if i.code.toNat < bound then i.code.toNat else i.code.toNat - bound) →
    (0x1000000 ≤ range ∨ i.ip < i.srcLen) →
    ∃ j, exec (.decodeBit c) s = .next (s.after j (.bit (decide (bound ≤ i.code.toNat)))) ∧
      sameButDecoder i j ∧ j.prob c = probAfter (i.prob c) (decide (bound ≤ i.code.toNat)) ∧
      (∀ d, d ≠ c → j.prob d = i.prob d) ∧
      (if 0x1000000 ≤ range then j.range.toNat = range ∧ j.code.toNat = code ∧ j.ip = i.ip
        else j.range.toNat = range * 256 ∧ j.code.toNat = (code * 256 + (i.srcByte i.ip).toNat) % 2 ^ 32 ∧
          j.ip = i.ip + 1)

/-- DECODEDIRECT (R94, R97): none decoded touches nothing; the arithmetic of one; it completes with a byte for each
decision left, its value is below `2^n` and no counter changes; and one decision more doubles the value and adds the
bit.
The spec gives `n` up to 26; that a larger one runs the same loop is log 38. -/
def Obligations.DecodeDirectRule : Prop :=
  ∀ (s : State) (i : Inst) (n range code : Nat), s.current = some i → range = i.range.toNat / 2 →
    code = (if range ≤ i.code.toNat then i.code.toNat - range else i.code.toNat) →
    exec (.decodeDirect 0) s = .next (s.after i (.num 0)) ∧
    (0x1000000 ≤ range ∨ i.ip < i.srcLen →
      ∃ j, exec (.decodeDirect 1) s = .next (s.after j (.num (decide (range ≤ i.code.toNat)).toNat)) ∧
        sameButDecoder i j ∧ j.probs = i.probs ∧
        (if 0x1000000 ≤ range then j.range.toNat = range ∧ j.code.toNat = code ∧ j.ip = i.ip
          else j.range.toNat = range * 256 ∧ j.code.toNat = (code * 256 + (i.srcByte i.ip).toNat) % 2 ^ 32 ∧
            j.ip = i.ip + 1)) ∧
    (i.ip + n ≤ i.srcLen → ∃ v j, exec (.decodeDirect n) s = .next (s.after j (.num v)) ∧ v < 2 ^ n ∧
      sameButDecoder i j ∧ j.probs = i.probs ∧ i.ip ≤ j.ip ∧ j.ip ≤ i.ip + n) ∧
    ∀ v j b k, exec (.decodeDirect n) s = .next (s.after j (.num v)) →
      exec (.decodeDirect 1) (s.after j (.num v)) = .next (s.after k (.num b)) →
      exec (.decodeDirect (n + 1)) s = .next (s.after k (.num (2 * v + b)))

/-- DECODETREE (R95): it completes with a byte for each decision left, its value is below `2^n`, only the counters `T[1]`
to `T[2^n - 1]` change; and one decision more asks the counter of the node reached.
No decision, from which these build up, gives 0 and touches nothing. The spec gives `n` from 1 to 8; 0 and more are log
38. -/
def Obligations.DecodeTreeRule : Prop :=
  ∀ (s : State) (i : Inst) (t : Tree) (n : Nat), s.current = some i →
    (i.hasEntries t 1 = true → exec (.decodeTree t 0) s = .next (s.after i (.num 0))) ∧
    (i.hasEntries t (2 ^ n) = true → i.ip + n ≤ i.srcLen →
      ∃ v j, exec (.decodeTree t n) s = .next (s.after j (.num v)) ∧ v < 2 ^ n ∧ sameButDecoder i j ∧
        i.ip ≤ j.ip ∧ j.ip ≤ i.ip + n ∧
        ∀ c, (∀ m, 1 ≤ m → m < 2 ^ n → c ≠ t.counter m) → j.prob c = i.prob c) ∧
    ∀ v j b k, i.hasEntries t (2 ^ (n + 1)) = true → exec (.decodeTree t n) s = .next (s.after j (.num v)) →
      exec (.decodeBit (t.counter (2 ^ n + v))) (s.after j (.num v)) = .next (s.after k (.bit b)) →
      exec (.decodeTree t (n + 1)) s = .next (s.after k (.num (2 * v + b.toNat)))

/-- DECODETREEREVERSE (R96): it completes with a byte for each decision left, its value is below `2^n`, and only the
counters `T[base + 1]` to `T[base + 2^n - 1]` change; and one decision more, which asks the counter of the node that the
`n` decisions before it lead to, adds its bit with weight `2^n` to the value.
No decision, from which these build up, gives 0 and touches nothing. The spec gives `n` from 1 to 5; 0 and more are log
38. -/
def Obligations.DecodeTreeReverseRule : Prop :=
  ∀ (s : State) (i : Inst) (t : Tree) (base n : Nat), s.current = some i →
    (i.hasEntries t (base + 1) = true → exec (.decodeTreeReverse t base 0) s = .next (s.after i (.num 0))) ∧
    (i.hasEntries t (base + 2 ^ n) = true → i.ip + n ≤ i.srcLen →
      ∃ v j, exec (.decodeTreeReverse t base n) s = .next (s.after j (.num v)) ∧ v < 2 ^ n ∧ sameButDecoder i j ∧
        i.ip ≤ j.ip ∧ j.ip ≤ i.ip + n ∧
        ∀ c, (∀ m, 1 ≤ m → m < 2 ^ n → c ≠ t.counter (base + m)) → j.prob c = i.prob c) ∧
    ∀ v j b k, i.hasEntries t (base + 2 ^ (n + 1)) = true →
      exec (.decodeTreeReverse t base n) s = .next (s.after j (.num v)) →
      exec (.decodeBit (t.counter (base + reverseNode n v))) (s.after j (.num v)) = .next (s.after k (.bit b)) →
      exec (.decodeTreeReverse t base (n + 1)) s = .next (s.after k (.num (v + b.toNat * 2 ^ n)))

/-- NEXTBYTE (R91) and NORMALIZE (R97) when they complete. -/
def Obligations.FetchRule : Prop :=
  ∀ (s : State) (i : Inst), s.current = some i →
    (i.ip < i.srcLen →
      exec .nextByte s = .next (s.after { i with ip := i.ip + 1 } (.byte (i.srcByte i.ip)))) ∧
    (0x1000000 ≤ i.range.toNat → exec .normalize s = .next (s.after i .none)) ∧
    (i.range.toNat < 0x1000000 → i.ip < i.srcLen →
      ∃ j, exec .normalize s = .next (s.after j .none) ∧ sameButDecoder i j ∧ j.probs = i.probs ∧
        j.range.toNat = i.range.toNat * 256 ∧
        j.code.toNat = (i.code.toNat * 256 + (i.srcByte i.ip).toNat) % 2 ^ 32 ∧ j.ip = i.ip + 1)

/-- InputExhausted (R91, R204, R205): a byte needed at the end of the stream ends the command. Under NORMALIZE `range`
and `code` are left unshifted; under DECODEBIT the decision, 0 or 1, and its counter update have been made (R93, R97),
under DECODEDIRECT the direct decision (R94), and only the shift is missing. And for every row and internal operation that
reads the stream, the packets and the naming decisions too: where it raises, it is InputExhausted at the end of the
stream, but for a distance that GETBYTE or the match byte cannot reach (R111, R141) and a rejected first byte (R90). Where it completes on a stream, it completes alike on
every stream with the same bytes as far as it read, and on a stream cut off before that it raises InputExhausted at the
cut; a packet raises what its operands raise before it writes a byte, whatever its copy would have done (R211). -/
def Obligations.InputExhaustedTraps : Prop :=
  (∀ (s : State) (i : Inst) (c : Counter) (n bound : Nat), s.current = some i → i.srcLen ≤ i.ip →
    bound = i.range.toNat / 2048 * (i.prob c).toNat →
    exec .nextByte s = .next (s.trapped i .inputExhausted) ∧
    (i.range.toNat < 0x1000000 → exec .normalize s = .next (s.trapped i .inputExhausted)) ∧
    (i.hasCounter c = true → i.code.toNat < bound → bound < 0x1000000 →
      ∃ j, exec (.decodeBit c) s = .next (s.trapped j .inputExhausted) ∧ sameButDecoder i j ∧
        j.range.toNat = bound ∧ j.code = i.code ∧ j.ip = i.ip ∧
        j.prob c = probAfter (i.prob c) false ∧ ∀ d, d ≠ c → j.prob d = i.prob d) ∧
    (i.hasCounter c = true → bound ≤ i.code.toNat → i.range.toNat - bound < 0x1000000 →
      ∃ j, exec (.decodeBit c) s = .next (s.trapped j .inputExhausted) ∧ sameButDecoder i j ∧
        j.range.toNat = i.range.toNat - bound ∧ j.code.toNat = i.code.toNat - bound ∧ j.ip = i.ip ∧
        j.prob c = probAfter (i.prob c) true ∧ ∀ d, d ≠ c → j.prob d = i.prob d) ∧
    (i.range.toNat / 2 < 0x1000000 →
      ∃ j, exec (.decodeDirect (n + 1)) s = .next (s.trapped j .inputExhausted) ∧ sameButDecoder i j ∧
        j.probs = i.probs ∧ j.range.toNat = i.range.toNat / 2 ∧ j.ip = i.ip ∧
        j.code.toNat = (if i.range.toNat / 2 ≤ i.code.toNat then i.code.toNat - i.range.toNat / 2 else i.code.toNat))) ∧
  ∀ (s : State) (i : Inst) (row : Instr), s.current = some i →
    (Instr.decodesOnly row = true →
      (∀ e j, exec row s = .next (s.trapped j e) →
        e = .inputExhausted ∧ i.srcLen ≤ j.ip ∧ (i.ip ≤ i.srcLen → j.ip = i.srcLen) ∨
        e = .distanceOutOfRange ∧
          ((∃ d, row = .getByte d) ∨ row = .literalMatched ∨ row = .litDecode ∧ 7 ≤ i.st.val) ∨
        e = .formatMismatch ∧ (row = .rcInit ∨ row = .streamInit) ∧ s.params.initByte0 = .reject) ∧
      ∀ i' n v j, cutTo i i' n → i.ip ≤ n → exec row s = .next (s.after j v) →
        (j.ip ≤ n → ∃ k, exec row (s.putInst s.cur i') = .next (s.after k v) ∧ cutTo j k n) ∧
        (n < j.ip → ∃ k, exec row (s.putInst s.cur i') = .next (s.trapped k .inputExhausted) ∧ k.ip = n)) ∧
    (∀ f, Instr.operands row = some f →
      (∀ e j, f i = .raised e j →
        (e = .inputExhausted ∧ i.srcLen ≤ j.ip ∨ e = .distanceOutOfRange ∧ row = .lit ∧ 7 ≤ i.st.val) ∧
        ∃ k, exec row s = .next (s.trapped k e) ∧ k.ip = j.ip ∧ k.op = i.op) ∧
      ∀ i' n j, cutTo i i' n → i.ip ≤ n → n < j.ip → f i = .ok () j →
        ∃ k, exec row (s.putInst s.cur i') = .next (s.trapped k .inputExhausted) ∧ k.ip = n ∧ k.op = i.op) ∧
    (∀ e j, nextKind i = .raised e j → e = .inputExhausted ∧ i.srcLen ≤ j.ip) ∧
    ∀ i' n k j, cutTo i i' n → i.ip ≤ n → n < j.ip → nextKind i = .ok k j →
      ∃ j', nextKind i' = .raised .inputExhausted j' ∧ j'.ip = n

/-- `range` is at least 2^24 after RC_INIT, STREAM.INIT and after every completed adaptive or direct decision, whatever
the end of the stream (R11). -/
def Obligations.RangeStaysNormalised : Prop :=
  ∀ (s : State) (i j : Inst) (v : Value), s.current = some i →
    (exec .rcInit s = .next (s.after j v) → 0x1000000 ≤ j.range.toNat) ∧
    (exec .streamInit s = .next (s.after j v) → 0x1000000 ≤ j.range.toNat) ∧
    (0x1000000 ≤ i.range.toNat → i.probsLegal →
      (∀ c, exec (.decodeBit c) s = .next (s.after j v) → 0x1000000 ≤ j.range.toNat) ∧
      ∀ n, exec (.decodeDirect n) s = .next (s.after j v) → 0x1000000 ≤ j.range.toNat)

/-- RC_INIT and STREAM.INIT (R63, R90): five bytes, the last four of which are `code`, the first examined only under
`INIT_BYTE0_POLICY = reject`. They trap with fewer than 5 bytes left (InputExhausted, at the end of the stream, R204,
R211) and on a rejected first byte (FormatMismatch, after the five reads). -/
def Obligations.StreamStartRule : Prop :=
  ∀ (s : State) (i : Inst), s.current = some i →
    (i.ip + 5 ≤ i.srcLen → s.params.initByte0 = .ignore ∨ i.srcByte 0 = 0 →
      ∃ j, exec .rcInit s = .next (s.after j .none) ∧ exec .streamInit s = .next (s.after j .none) ∧
        sameButDecoder i j ∧ j.probs = i.probs ∧ j.range = 0xFFFFFFFF ∧ j.ip = i.ip + 5 ∧
        j.code.toNat = (((i.srcByte (i.ip + 1)).toNat * 256 + (i.srcByte (i.ip + 2)).toNat) * 256 +
          (i.srcByte (i.ip + 3)).toNat) * 256 + (i.srcByte (i.ip + 4)).toNat) ∧
    (i.ip ≤ i.srcLen → i.srcLen < i.ip + 5 → ∃ j, j.ip = i.srcLen ∧ sameButDecoder i j ∧
      exec .rcInit s = .next (s.trapped j .inputExhausted) ∧
      exec .streamInit s = .next (s.trapped j .inputExhausted)) ∧
    (i.ip + 5 ≤ i.srcLen → s.params.initByte0 = .reject → i.srcByte 0 ≠ 0 →
      ∃ j, j.ip = i.ip + 5 ∧ sameButDecoder i j ∧
        exec .rcInit s = .next (s.trapped j .formatMismatch) ∧
        exec .streamInit s = .next (s.trapped j .formatMismatch))

/-- The first packet of a stream (R232): right after the start of a DECOMPRESS it is a LIT exactly when `code` is below
0x7FFFFC00, and the context of a first literal is 0. -/
def Obligations.FirstPacketRule : Prop :=
  ∀ (pol : InitByte0Policy) (i j : Inst) (src : List Byte) (cap epoch : Nat),
    rcInit pol (i.begun src cap epoch) = .ok () j →
    (j.code.toNat < 0x7FFFFC00 ↔ ∃ k, nextKind j = .ok .lit k) ∧ j.litContext = 0 ∧ j.posState = 0 ∧
      j.prob (.isMatch 0 0) = 1024

/-! ## Literals -/

/-- The literal context (R110). -/
def Obligations.LiteralContextRule : Prop :=
  ∀ i : Inst, i.propsLegal →
    i.litContext.val = (i.prev.toNat >>> (8 - i.lc.toNat)) <<< i.lp.toNat ||| (i.op &&& (2 ^ i.lp.toNat - 1)) ∧
    i.litContext.val < 2 ^ (i.lc.toNat + i.lp.toNat)

/-- Which counters decisions ask. The naming decisions of a packet started in state `st` at `ps` ask those of R65 in
order. A plain literal asks the node reached (R112); a matched one, as long as the bits agree with the match byte,
that node in the block the match bit selects, and the plain node after the first disagreement (R113). And they are
asked of the instance as it stands: `posState` is the low `pb` bits of `op`, and the naming decisions of the next
packet are DECODEBIT after DECODEBIT of the counters of `state` and `posState` at its start (R151, R152). -/
def Obligations.AskedCounters : Prop :=
  (∀ (st : StateIndex) (ps : PosState),
    Dec.asked (kindDec st ps) [false] = [.adaptive (.isMatch st ps)] ∧
    Dec.asked (kindDec st ps) [true, false] = [.adaptive (.isMatch st ps), .adaptive (.isRep st)] ∧
    (∀ b, Dec.asked (kindDec st ps) [true, true, false, b] =
      [.adaptive (.isMatch st ps), .adaptive (.isRep st), .adaptive (.isRepG0 st), .adaptive (.isRep0Long st ps)]) ∧
    Dec.asked (kindDec st ps) [true, true, true, false] =
      [.adaptive (.isMatch st ps), .adaptive (.isRep st), .adaptive (.isRepG0 st), .adaptive (.isRepG1 st)] ∧
    ∀ b, Dec.asked (kindDec st ps) [true, true, true, true, b] =
      [.adaptive (.isMatch st ps), .adaptive (.isRep st), .adaptive (.isRepG0 st), .adaptive (.isRepG1 st),
        .adaptive (.isRepG2 st)]) ∧
  (∀ (ctx : Fin 256) (mb b : Byte),
    Dec.asked (plainDec ctx) (bitsMsb 8 b.toNat) =
      (List.range 8).map (fun k => .adaptive ((Tree.lit ctx).counter (2 ^ k + b.toNat / 2 ^ (8 - k)))) ∧
    Dec.asked (matchedDec ctx mb) (bitsMsb 8 b.toNat) =
      (List.range 8).map (fun k => .adaptive ((Tree.lit ctx).counter
        ((if b.toNat / 2 ^ (8 - k) = mb.toNat / 2 ^ (8 - k) then (1 + mb.toNat / 2 ^ (7 - k) % 2) * 256 else 0) +
          (2 ^ k + b.toNat / 2 ^ (8 - k)))))) ∧
  ∀ i : Inst,
    (i.propsLegal → i.posState.val = i.op &&& (2 ^ i.pb.toNat - 1)) ∧
    nextKind i =
      (decodeBit (.isMatch i.st i.posState) i).bind fun m i1 =>
        if m = false then .ok .lit i1
        else (decodeBit (.isRep i.st) i1).bind fun r i2 =>
          if r = false then .ok .newMatch i2
          else (decodeBit (.isRepG0 i.st) i2).bind fun g0 i3 =>
            if g0 = false then
              (decodeBit (.isRep0Long i.st i.posState) i3).bind fun l i4 => .ok (if l = true then .longRep 0 else .shortRep) i4
            else (decodeBit (.isRepG1 i.st) i3).bind fun g1 i4 =>
              if g1 = false then .ok (.longRep 1) i4
              else (decodeBit (.isRepG2 i.st) i4).bind fun g2 i5 => .ok (.longRep (if g2 = true then 3 else 2)) i5

/-- LITERAL.PLAIN completes with a byte for each of its 8 decisions left and is DECODETREE of the literal context
(R112); LITERAL.MATCHED completes too when the match position is in reach (R111, R113). Only counters of the context
change. Either row decodes in the mode it names whatever `state` is: outside the states of its mode that is the
model's choice (log 36), since R111 ties the mode to `state`. -/
def Obligations.LiteralRowsComplete : Prop :=
  ∀ (s : State) (i : Inst), s.current = some i → i.ip + 8 ≤ i.srcLen →
    (∃ b j, exec .literalPlain s = .next (s.after j (.byte b)) ∧ sameButDecoder i j ∧ j.ip ≤ i.ip + 8 ∧
      (i.propsLegal → exec (.decodeTree (.lit i.litContext) 8) s = .next (s.after j (.num b.toNat))) ∧
      ∀ c, ¬ofTree (.lit i.litContext) c → j.prob c = i.prob c) ∧
    (i.rep0.toNat < i.op → i.rep0.toNat < i.dictEff →
      ∃ b j, exec .literalMatched s = .next (s.after j (.byte b)) ∧ sameButDecoder i j ∧ j.ip ≤ i.ip + 8 ∧
        runDec (matchedDec i.litContext (i.outByte (i.op - i.rep0.toNat - 1))) i = .ok b j ∧
        ∀ c, ¬ofTree (.lit i.litContext) c → j.prob c = i.prob c)

/-- LIT_DECODE is LITERAL.PLAIN below state 7 and LITERAL.MATCHED from 7 up (R111, R114). It and LIT complete with 8
bytes left, room for a byte, and in a matched state the match position in reach; LIT appends the byte and follows
`LitNext` (R153). -/
def Obligations.LitCompletes : Prop :=
  ∀ (s : State) (i : Inst), s.current = some i →
    exec .litDecode s = (if i.st.val < 7 then exec .literalPlain s else exec .literalMatched s) ∧
    (i.ip + 8 ≤ i.srcLen → i.op < i.destCapacity →
      (7 ≤ i.st.val → i.rep0.toNat < i.op ∧ i.rep0.toNat < i.dictEff) →
      ∃ b j, exec .litDecode s = .next (s.after j (.byte b)) ∧ sameButDecoder i j ∧ j.ip ≤ i.ip + 8 ∧
        (∀ c, ¬ofTree (.lit i.litContext) c → j.prob c = i.prob c) ∧
        exec .lit s =
          .next (s.after { j with out := Memory.write i.out i.op b, prev := b, op := i.op + 1, st := litNext i.st } .none) ∧
        ∀ a, a ≠ i.op → Memory.read (Memory.write i.out i.op b) a = Memory.read i.out a)

/-- Between the packets of a run a matched literal never fails for its match position, and a LIT has room (R111, R140,
R153). -/
def Obligations.LiteralsNeverOutOfReach : Prop :=
  ∀ (s : State) (i : Inst), s.Inv → s.current = some i → i.busy = true → i.op < i.destCapacity →
    ∀ j, exec .lit s ≠ .next (s.trapped j .distanceOutOfRange) ∧ exec .lit s ≠ .next (s.trapped j .outputOverflow)

/-! ## Lengths -/

/-- LEN.LOW, LEN.MID and LEN.HIGH complete with a byte for each tree decision left; each is its base plus DECODETREE of
its tree, in its range, and no other counter changes (R67, R122, R123, R124). R67 and R120 have `ps = posState`; that a
row asked for with another one decodes with that is the model's choice (log 40). -/
def Obligations.LengthRowsComplete : Prop :=
  ∀ (s : State) (i : Inst) (c : Coder) (ps : PosState), s.current = some i →
    (i.ip + 3 ≤ i.srcLen → ∃ n j, exec (.lenLow c ps) s = .next (s.after j (.num n)) ∧ 2 ≤ n ∧ n ≤ 9 ∧
      exec (.decodeTree (.low c ps) 3) s = .next (s.after j (.num (n - 2))) ∧ sameButDecoder i j ∧ j.ip ≤ i.ip + 3 ∧
      ∀ d, ¬ofTree (.low c ps) d → j.prob d = i.prob d) ∧
    (i.ip + 3 ≤ i.srcLen → ∃ n j, exec (.lenMid c ps) s = .next (s.after j (.num n)) ∧ 10 ≤ n ∧ n ≤ 17 ∧
      exec (.decodeTree (.mid c ps) 3) s = .next (s.after j (.num (n - 10))) ∧ sameButDecoder i j ∧ j.ip ≤ i.ip + 3 ∧
      ∀ d, ¬ofTree (.mid c ps) d → j.prob d = i.prob d) ∧
    (i.ip + 8 ≤ i.srcLen → ∃ n j, exec (.lenHigh c) s = .next (s.after j (.num n)) ∧ 18 ≤ n ∧ n ≤ 273 ∧
      exec (.decodeTree (.high c) 8) s = .next (s.after j (.num (n - 18))) ∧ sameButDecoder i j ∧ j.ip ≤ i.ip + 8 ∧
      ∀ d, ¬ofTree (.high c) d → j.prob d = i.prob d)

/-- LEN_DECODE (R120, R121): the class decisions, then the row of the class; it completes with 10 bytes left, with a
length of 2 to 273, and only the coder's own counters change. R120 has `ps = posState`; that another one is taken as it
stands is the model's choice (log 40). -/
def Obligations.LenDecodeRule : Prop :=
  ∀ (s : State) (i : Inst) (c : Coder) (ps : PosState), s.current = some i →
    (∀ n j k, exec (.decodeBit (.choice c)) s = .next (s.after j (.bit false)) →
      exec (.lenLow c ps) (s.after j (.bit false)) = .next (s.after k (.num n)) →
      exec (.lenDecode c ps) s = .next (s.after k (.num n))) ∧
    (∀ n j j2 k, exec (.decodeBit (.choice c)) s = .next (s.after j (.bit true)) →
      exec (.decodeBit (.choice2 c)) (s.after j (.bit true)) = .next (s.after j2 (.bit false)) →
      exec (.lenMid c ps) (s.after j2 (.bit false)) = .next (s.after k (.num n)) →
      exec (.lenDecode c ps) s = .next (s.after k (.num n))) ∧
    (∀ n j j2 k, exec (.decodeBit (.choice c)) s = .next (s.after j (.bit true)) →
      exec (.decodeBit (.choice2 c)) (s.after j (.bit true)) = .next (s.after j2 (.bit true)) →
      exec (.lenHigh c) (s.after j2 (.bit true)) = .next (s.after k (.num n)) →
      exec (.lenDecode c ps) s = .next (s.after k (.num n))) ∧
    (i.ip + 10 ≤ i.srcLen → ∃ n j, exec (.lenDecode c ps) s = .next (s.after j (.num n)) ∧ 2 ≤ n ∧ n ≤ 273 ∧
      sameButDecoder i j ∧ j.ip ≤ i.ip + 10 ∧
      ∀ d, d ≠ .choice c → d ≠ .choice2 c → ¬ofTree (.low c ps) d → ¬ofTree (.mid c ps) d → ¬ofTree (.high c) d →
        j.prob d = i.prob d)

/-- `lenState` (R125). -/
def Obligations.LenStateRule : Prop :=
  ∀ n : Nat, 2 ≤ n → (lenState n).val = min (n - 2) 3

/-! ## Distances -/

/-- DIST.S0 to DIST.S3 (R127): the distance is the slot, and nothing of the instance is touched. -/
def Obligations.LowSlotDistances : Prop :=
  ∀ (s : State) (i : Inst), s.current = some i →
    exec .distS0 s = .next (s.after i (.num 0)) ∧ exec .distS1 s = .next (s.after i (.num 1)) ∧
    exec .distS2 s = .next (s.after i (.num 2)) ∧ exec .distS3 s = .next (s.after i (.num 3))

/-- DIST.S0 to DIST.S63 (R127, R128, R129, R131): each row completes with a byte for each extra decision left, gives a
distance of its slot, and changes no counter outside the footer and align trees. -/
def Obligations.SlotRowsComplete : Prop :=
  ∀ (row : Instr) (slot : Nat) (s : State) (i : Inst), row.slot = some slot → s.current = some i →
    (4 ≤ slot → i.ip + slotBits slot ≤ i.srcLen) →
    ∃ d j, exec row s = .next (s.after j (.num d)) ∧ inSlot slot d ∧ sameButDecoder i j ∧
      j.ip ≤ i.ip + slotBits slot ∧ ∀ c, ¬ofTree .specPos c → ¬ofTree .align c → j.prob c = i.prob c

/-- How a slot's extra bits are read: slots 4 to 13 by the footer tree at offset `base - slot` (R128), slots 14 to 63 by
direct decisions and then the align tree (R129). -/
def Obligations.SlotRowsByParts : Prop :=
  ∀ (row : Instr) (slot : Nat) (s : State) (i : Inst), row.slot = some slot → s.current = some i →
    (4 ≤ slot → slot < 14 → ∀ v j,
      exec (.decodeTreeReverse .specPos (slotBase slot - slot) (slotBits slot)) s = .next (s.after j (.num v)) →
      exec row s = .next (s.after j (.num (slotBase slot + v)))) ∧
    (14 ≤ slot → ∀ v a j k, exec (.decodeDirect (slotBits slot - 4)) s = .next (s.after j (.num v)) →
      exec (.decodeTreeReverse .align 0 4) (s.after j (.num v)) = .next (s.after k (.num a)) →
      exec row s = .next (s.after k (.num (slotBase slot + v * 16 + a))))

/-- The slots tile the distances: every 32-bit distance is in exactly one slot (R131). And the ten footer trees tile the
entries 1 to 114 of `P.specPos`: in a tree's nodes 1 to `2^n - 1` every entry stands exactly once (R128). -/
def Obligations.SlotsTileDistances : Prop :=
  (∀ d : Nat, d < 2 ^ 32 → ∃ slot, slot < 64 ∧ inSlot slot d ∧ ∀ k, k < 64 → inSlot k d → k = slot) ∧
  ∀ e : Nat, 1 ≤ e → e ≤ 114 →
    ∃ slot m, 4 ≤ slot ∧ slot < 14 ∧ 1 ≤ m ∧ m < 2 ^ slotBits slot ∧ e = slotBase slot - slot + m ∧
      ∀ k m', 4 ≤ k → k < 14 → 1 ≤ m' → m' < 2 ^ slotBits k → e = slotBase k - k + m' → k = slot ∧ m' = m

/-- DIST_DECODE (R126): the slot tree of `lenState`, then the slot's row; it completes with 36 bytes left, with a 32-bit
distance, and only distance counters change.
The spec gives lengths from 2 to 273; others are log 38. -/
def Obligations.DistDecodeRule : Prop :=
  ∀ (s : State) (i : Inst) (n : Nat), s.current = some i →
    (∀ (slot : Fin 64) (d : Nat) (j k : Inst),
      exec (.decodeTree (.posSlot (lenState n)) 6) s = .next (s.after j (.num slot.val)) →
      exec (slotInstr slot) (s.after j (.num slot.val)) = .next (s.after k (.num d)) →
      exec (.distDecode n) s = .next (s.after k (.num d))) ∧
    (i.ip + 36 ≤ i.srcLen → ∃ d j, exec (.distDecode n) s = .next (s.after j (.num d)) ∧ d < 2 ^ 32 ∧
      sameButDecoder i j ∧ j.ip ≤ i.ip + 36 ∧
      ∀ c, ¬ofTree (.posSlot (lenState n)) c → ¬ofTree .specPos c → ¬ofTree .align c → j.prob c = i.prob c)

/-! ## The window -/

/-- PUTBYTE and GETBYTE (R140, R141). -/
def Obligations.WindowByteRule : Prop :=
  ∀ (s : State) (i : Inst) (b : Byte) (d : Word), s.current = some i →
    (i.op < i.destCapacity →
      exec (.putByte b) s =
        .next (s.after { i with out := Memory.write i.out i.op b, prev := b, op := i.op + 1 } .none) ∧
      Memory.read (Memory.write i.out i.op b) i.op = some b ∧
      ∀ a, a ≠ i.op → Memory.read (Memory.write i.out i.op b) a = Memory.read i.out a) ∧
    (i.destCapacity ≤ i.op → exec (.putByte b) s = .next (s.trapped i .outputOverflow)) ∧
    (d.toNat < i.op → d.toNat < max i.dictSize.toNat 4096 →
      exec (.getByte d) s = .next (s.after i (.byte (i.outByte (i.op - d.toNat - 1))))) ∧
    (i.op ≤ d.toNat ∨ max i.dictSize.toNat 4096 ≤ d.toNat →
      exec (.getByte d) s = .next (s.trapped i .distanceOutOfRange))

/-- COPYMATCH (R142, R143). It completes when the distance is in reach and there is room: the bytes are appended with the
copy's period, no other byte of OUT changes, and of the instance only OUT, `op` and `prev` do. It traps on a distance
out of reach before any byte is written, whatever the room (R207, R211), and on a copy longer than the room when the
output is full (R208): `j` is the instance at that moment.
The spec gives lengths from 1 to 273; others are log 38. -/
def Obligations.CopyMatchCompletes : Prop :=
  ∀ (s : State) (i : Inst) (d : Word) (n : Nat), s.current = some i →
    (d.toNat < i.op → d.toNat < i.dictEff → i.op + n ≤ i.destCapacity →
      ∃ j, exec (.copyMatch d n) s = .next (s.after j .none) ∧ sameButWindow i j ∧ copied i j d.toNat n) ∧
    (i.op ≤ d.toNat ∨ i.dictEff ≤ d.toNat → exec (.copyMatch d n) s = .next (s.trapped i .distanceOutOfRange)) ∧
    (d.toNat < i.op → d.toNat < i.dictEff → i.op ≤ i.destCapacity → i.destCapacity < i.op + n →
      ∃ j, copyMatch d n i = .raised .outputOverflow j ∧
        exec (.copyMatch d n) s = .next (s.trapped j .outputOverflow) ∧ sameButWindow i j ∧
        copied i j d.toNat (i.destCapacity - i.op))

/-- The overlap law (R144), which the spec marks as its own inference from R142.
For `n` above 273 it rests on log 38. -/
def Obligations.OverlapLaw : Prop :=
  ∀ (s : State) (i j : Inst) (d : Word) (n k : Nat), s.current = some i →
    exec (.copyMatch d n) s = .next (s.after j .none) → k < n →
    j.outByte (i.op + k) = i.outByte (i.op - d.toNat - 1 + k % (d.toNat + 1))

/-! ## Packets -/

/-- MATCH completes when its operands are readable, its distance is no end marker and in reach, and there is room (R154,
R161, R163): the distance enters the rep registers in front, `state` follows `MatchNext`, the bytes are copied. EOS is
spelled as MATCH, and the row EOS asked for on a stream that spells a MATCH has the effect of MATCH: that clause is read
from R69 by inference (log 19). -/
def Obligations.MatchCompletes : Prop :=
  ∀ (s : State) (i j : Inst) (n : Nat) (d : Word), s.current = some i → matchOperands i = .ok (n, d) j →
    d ≠ 0xFFFFFFFF → d.toNat < i.op → d.toNat < i.dictEff → i.op + n ≤ i.destCapacity →
    ∃ k, exec .newMatch s = .next (s.after k .none) ∧ exec .eos s = .next (s.after k .none) ∧
      sameButWindow
        { j with rep0 := d, rep1 := i.rep0, rep2 := i.rep1, rep3 := i.rep2, st := if i.st.val < 7 then 7 else 10 } k ∧
      sameButDecoder i j ∧ copied i k d.toNat n

/-- EOS completes when its operands are readable and its distance is the end marker (R69, R155): the run ends and nothing
else changes but what decoding changed; OUT, `op`, the rep registers and `state` stay. The row MATCH on a stream that
spells an end marker has the effect of EOS (log 19). -/
def Obligations.EosCompletes : Prop :=
  ∀ (s : State) (i j : Inst) (n : Nat), s.current = some i → matchOperands i = .ok (n, 0xFFFFFFFF) j →
    exec .eos s = .next (s.after { j with endReason := .endMarker } .none) ∧
    exec .newMatch s = .next (s.after { j with endReason := .endMarker } .none) ∧ sameButDecoder i j

/-- The operands of MATCH and EOS are readable with 46 bytes left: LEN_DECODE of coder 0, then DIST_DECODE of that length
(R154, R155, R72). -/
def Obligations.MatchOperandsReadable : Prop :=
  ∀ (s : State) (i : Inst), s.current = some i →
    (i.ip + 46 ≤ i.srcLen → ∃ n d j, matchOperands i = .ok (n, d) j ∧ 2 ≤ n ∧ n ≤ 273 ∧ sameButDecoder i j ∧
      j.ip ≤ i.ip + 46) ∧
    ∀ n d j k, exec (.lenDecode .forMatch i.posState) s = .next (s.after j (.num n)) →
      exec (.distDecode n) (s.after j (.num n)) = .next (s.after k (.num d)) →
      matchOperands i = .ok (n, BitVec.ofNat 32 d) k

/-- SHORTREP completes when `rep[0]` is in reach and there is room (R156): one byte from `rep[0]`, `ShortRepNext`, the rep
registers unchanged, no other byte of OUT changed. -/
def Obligations.ShortRepCompletes : Prop :=
  ∀ (s : State) (i : Inst), s.current = some i → i.rep0.toNat < i.op → i.rep0.toNat < i.dictEff →
    i.op < i.destCapacity →
    exec .shortRep s = .next (s.after
      { i with
        out := Memory.write i.out i.op (i.outByte (i.op - i.rep0.toNat - 1))
        prev := i.outByte (i.op - i.rep0.toNat - 1)
        op := i.op + 1
        st := if i.st.val < 7 then 9 else 11 } .none) ∧
    ∀ a b, a ≠ i.op → Memory.read (Memory.write i.out i.op b) a = Memory.read i.out a

/-- LONGREP0, LONGREP1, LONGREP2 and LONGREP3 complete when the length is readable, the selected distance is in reach and
there is room for the decoded length (R157 to R161, R163): the selected register moves to the front, `state` follows
`RepNext`, a length of coder 1 is read and the bytes are copied. The length is readable with 10 bytes left (R121). -/
def Obligations.LongRepsComplete : Prop :=
  ∀ (s : State) (i : Inst) (row : Instr) (m : Fin 4) (dist r1 r2 r3 : Word), s.current = some i →
    longRepMoves i row m dist r1 r2 r3 →
    (∀ n j, lenDecode .forRep i.posState i = .ok n j → dist.toNat < i.op → dist.toNat < i.dictEff →
      i.op + n ≤ i.destCapacity →
      ∃ k, exec row s = .next (s.after k .none) ∧ sameButDecoder i j ∧
        sameButWindow
          { j with rep0 := dist, rep1 := r1, rep2 := r2, rep3 := r3, st := if i.st.val < 7 then 8 else 11 } k ∧
        copied i k dist.toNat n) ∧
    (i.ip + 10 ≤ i.srcLen → ∃ n j, lenDecode .forRep i.posState i = .ok n j ∧ 2 ≤ n ∧ n ≤ 273 ∧
      exec (.lenDecode .forRep i.posState) s = .next (s.after j (.num n)))

/-- Where SHORTREP, LONGREP0 to LONGREP3, MATCH and EOS trap on their copy, with their registers already committed
(D29): on a distance out of reach, before any byte is written and whatever the room, at `op = 0` always (R154, R156 to
R160, R207, R211); and on a copy longer than the room, with the output filled up (R208; the instance raised is `y`).
The clauses for EOS say that the row EOS on a stream that spells a MATCH traps as MATCH: the model's inference (log
19). A stream that spells an end marker never traps so (R155). -/
def Obligations.CopyingPacketsTrap : Prop :=
  ∀ (s : State) (i : Inst), s.current = some i →
    (i.op ≤ i.rep0.toNat ∨ i.dictEff ≤ i.rep0.toNat →
      exec .shortRep s = .next (s.trapped { i with st := if i.st.val < 7 then 9 else 11 } .distanceOutOfRange)) ∧
    (i.rep0.toNat < i.op → i.rep0.toNat < i.dictEff → i.destCapacity ≤ i.op →
      exec .shortRep s = .next (s.trapped { i with st := if i.st.val < 7 then 9 else 11 } .outputOverflow)) ∧
    (∀ (row : Instr) (m : Fin 4) (dist r1 r2 r3 : Word) (n : Nat) (j x : Inst), longRepMoves i row m dist r1 r2 r3 →
      lenDecode .forRep i.posState i = .ok n j →
      x = { j with rep0 := dist, rep1 := r1, rep2 := r2, rep3 := r3, st := if i.st.val < 7 then 8 else 11 } →
      (i.op ≤ dist.toNat ∨ i.dictEff ≤ dist.toNat → exec row s = .next (s.trapped x .distanceOutOfRange)) ∧
      (dist.toNat < i.op → dist.toNat < i.dictEff → i.op ≤ i.destCapacity → i.destCapacity < i.op + n →
        ∃ y, longRepPacket m i = .raised .outputOverflow y ∧ exec row s = .next (s.trapped y .outputOverflow) ∧
          sameButWindow x y ∧ copied i y dist.toNat (i.destCapacity - i.op))) ∧
    ∀ (n : Nat) (d : Word) (j x : Inst), matchOperands i = .ok (n, d) j → d ≠ 0xFFFFFFFF →
      x = { j with rep0 := d, rep1 := i.rep0, rep2 := i.rep1, rep3 := i.rep2, st := if i.st.val < 7 then 7 else 10 } →
      (i.op ≤ d.toNat ∨ i.dictEff ≤ d.toNat →
        exec .newMatch s = .next (s.trapped x .distanceOutOfRange) ∧ exec .eos s = exec .newMatch s) ∧
      (d.toNat < i.op → d.toNat < i.dictEff → i.op ≤ i.destCapacity → i.destCapacity < i.op + n →
        ∃ y, matchOrEos i = .raised .outputOverflow y ∧ exec .newMatch s = .next (s.trapped y .outputOverflow) ∧
          exec .eos s = exec .newMatch s ∧ sameButWindow x y ∧ copied i y d.toNat (i.destCapacity - i.op))

/-- The four transition tables (R163). -/
def Obligations.TransitionTables : Prop :=
  (List.finRange 12).map litNext = [0, 0, 0, 0, 1, 2, 3, 4, 5, 6, 4, 5] ∧
  (List.finRange 12).map matchNext = [7, 7, 7, 7, 7, 7, 7, 10, 10, 10, 10, 10] ∧
  (List.finRange 12).map repNext = [8, 8, 8, 8, 8, 8, 8, 11, 11, 11, 11, 11] ∧
  (List.finRange 12).map shortRepNext = [9, 9, 9, 9, 9, 9, 9, 11, 11, 11, 11, 11]

/-- A packet reads at most 48 bytes, never beyond the stream (R72, R97, R164), and never writes OUT at or beyond
`destCapacity` nor below `op` (R47, R140). -/
def Obligations.PacketBounds : Prop :=
  ∀ (i j : Inst), i.ip ≤ i.srcLen → i.op ≤ i.destCapacity →
    ((∃ b, decodePacket i = .ok b j) ∨ ∃ e, decodePacket i = .raised e j) →
    i.ip ≤ j.ip ∧ j.ip ≤ i.ip + 48 ∧ j.ip ≤ i.srcLen ∧ i.op ≤ j.op ∧ j.op ≤ i.op + 273 ∧ j.op ≤ i.destCapacity ∧
      ∀ a, a < i.op ∨ i.destCapacity ≤ a → Memory.read j.out a = Memory.read i.out a

/-! ## Runs -/

/-- The loop of R150: with enough packets allowed, `packets` tests `op < destCapacity`, decodes one packet, and goes on
unless it was EOS; how many more are allowed makes no difference (R164, log 26). -/
def Obligations.PacketLoopRule : Prop :=
  ∀ (i : Inst) (n : Nat), i.destCapacity ≤ i.op + n →
    packets n i =
      if i.op < i.destCapacity then
        (decodePacket i).bind fun ended j => if ended then .ok () j else packets (j.destCapacity - j.op) j
      else .ok () i

/-- RUN (R150). It runs on an instance that stands at its RESET values and on no other: that it is entered after RESET
is its precondition (R241; that the model carries it as a refusal is log 37). RC_INIT, then the packet loop from
`endReason = OutputFull`: it completes with what they give, and raises what they raise. It ends with OutputFull
exactly when the output is full, with EndMarker only before that (R165). On state alone: with no capacity it completes
after the five bytes of RC_INIT and nothing more (D17), and on a stream of zeros it fills any capacity with the
literal 0. -/
def Obligations.RunRule : Prop :=
  ∀ (s : State) (i : Inst), s.current = some i →
    (i.atReset = false → exec .run s = .refused .notReset) ∧
    (i.atReset = true →
      (∀ j k, rcInit s.params.initByte0 i = .ok () j →
        packets j.destCapacity { j with endReason := .outputFull } = .ok () k →
        exec .run s = .next (s.after k (.ran k.op k.ip k.endReason))) ∧
      (∀ e j, rcInit s.params.initByte0 i = .raised e j → exec .run s = .next (s.trapped j e)) ∧
      (∀ e j k, rcInit s.params.initByte0 i = .ok () j →
        packets j.destCapacity { j with endReason := .outputFull } = .raised e k →
        exec .run s = .next (s.trapped k e)) ∧
      (∀ (j : Inst) (op ip : Nat) (why : EndReason), exec .run s = .next (s.after j (.ran op ip why)) →
        op = j.op ∧ ip = j.ip ∧ why = j.endReason ∧ j.destCapacity = i.destCapacity ∧
          (why = .outputFull ∧ op = i.destCapacity ∨ why = .endMarker ∧ op < i.destCapacity)) ∧
      (5 ≤ i.srcLen → i.destCapacity = 0 → s.params.initByte0 = .ignore ∨ i.srcByte 0 = 0 →
        ∃ j, exec .run s = .next (s.after j (.ran 0 5 .outputFull)) ∧ j.ip = 5 ∧ j.probs = [] ∧
          sameButDecoder { i with endReason := .outputFull } j) ∧
      ((∀ a, a < i.srcLen → i.srcByte a = 0) → 5 + 9 * i.destCapacity ≤ i.srcLen →
        ∃ j, exec .run s = .next (s.after j (.ran i.destCapacity j.ip .outputFull)) ∧ j.op = i.destCapacity ∧
          j.ip ≤ 5 + 9 * i.destCapacity ∧ j.st = 0 ∧ ∀ a, a < i.destCapacity → Memory.read j.out a = some 0))

/-- REFINEMENT: stepping a running instance packet by packet ends, after some number of steps, in the very state that
the packet loop and the exact-size check of its command give (R150, R187, R189, R205). -/
def Obligations.PacketStepsAreRun : Prop :=
  ∀ (s : State) (i : Inst), s.current = some i → i.busy = true → i.endReason = .outputFull →
    ∃ k, Host.Core.run core k s =
      .next (decompressed s.cur s ((packets i.destCapacity i).bind fun _ j => sizeCheck j))

/-! ## Host commands -/

/-- The validation of the properties (R181): the four bounds, with nothing built; a header byte of 225 or more too; and
no other properties are InvalidProperties, but a small dictionary under `DICT_MIN_POLICY = reject` (R182, R200). That a
bad header byte is raised by HDR itself is log 22, and that HDR then writes the `status` of a failed CREATE is inferred
(log 35). -/
def Obligations.PropertyValidation : Prop :=
  (∀ (s : State) (lc lp pb : Nat) (d : Word), 8 < lc ∨ 4 < lp ∨ 4 < pb ∨ 8 < lc + lp →
    ∃ t, exec (.create lc lp pb d) s = .next t ∧ t.ret = .error .invalidProperties ∧
      t.createStatus = .error .invalidProperties ∧ t.insts = s.insts) ∧
  (∀ (s t : State) (lc lp pb : Nat) (d : Word), ¬(8 < lc ∨ 4 < lp ∨ 4 < pb ∨ 8 < lc + lp) →
    4096 ≤ d.toNat ∨ s.params.dictMin = .clamp → exec (.create lc lp pb d) s = .next t →
    t.ret ≠ .error .invalidProperties ∧ t.createStatus ≠ .error .invalidProperties) ∧
  ∀ (s : State) (d b1 b2 b3 b4 : Byte), 225 ≤ d.toNat →
    ∃ t, exec (.hdr [d, b1, b2, b3, b4]) s = .next t ∧ t.ret = .error .invalidProperties ∧
      t.createStatus = .error .invalidProperties ∧ t.insts = s.insts

/-- What the environment answers CREATE (R183): what it has lined up, which is used up, else a free value (log 8). CREATE
completes on legal properties when it allocates (R180, R182, R183, R29): a new instance under
a new handle with these properties, every counter 1024, every other register at its RESET value, `status` Ok, and
Ready. The CREATE itself ended Ok too (R20; that this stands in `createStatus` is log 34). Which handle, and that the
new instance becomes the current one, is the model's choice (logs 5 and 6). -/
def Obligations.CreateCompletes : Prop :=
  (∀ (s : State) (b : Bool) (more : List Bool),
    (s.allocIn = b :: more → s.allocAnswer = b ∧ s.allocDrawn = { s with allocIn := more }) ∧
    (s.allocIn = [] → s.allocAnswer = Config.allocOk s.draws ∧ s.allocDrawn = { s with draws := s.draws + 1 })) ∧
  ∀ (s : State) (lc lp pb : Nat) (d : Word),
    lc ≤ 8 → lp ≤ 4 → pb ≤ 4 → lc + lp ≤ 8 → s.params.dictMin = .clamp ∨ 4096 ≤ d.toNat → s.allocAnswer = true →
    ∃ t i, exec (.create lc lp pb d) s = .next t ∧ t.ret = .handle s.nextHandle ∧ t.createStatus = .ok ∧
      t.nextHandle = s.nextHandle + 1 ∧ t.cur = s.nextHandle ∧ t.allocIn = s.allocDrawn.allocIn ∧
      t.draws = s.allocDrawn.draws + 1 ∧
      (∀ n, n ≠ s.nextHandle → Table.get t.insts n = Table.get s.insts n) ∧
      Table.get t.insts s.nextHandle = some i ∧ i.busy = false ∧ i.status = .ok ∧
      i.lc.toNat = lc ∧ i.lp.toNat = lp ∧ i.pb.toNat = pb ∧ i.dictSize = d ∧
      i.dictEff = (if d.toNat < 4096 then 4096 else d.toNat) ∧ (∀ c, i.prob c = 1024) ∧
      i.rep0 = 0 ∧ i.rep1 = 0 ∧ i.rep2 = 0 ∧ i.rep3 = 0 ∧ i.st = 0 ∧ i.prev = 0 ∧ i.op = 0 ∧ i.ip = 0

/-- Where CREATE traps besides R181 (R182, R183, R202, R203, R205, R211): a small dictionary under `DICT_MIN_POLICY =
reject` before the environment is asked; AllocationFailed after, once its answer has been drawn (CreateCompletes says
which that is). Either returns the error and writes it as the
`status`, `phase` stays Absent for the handle not issued, and no instance is touched (R205; where this `status` stands is
log 34). -/
def Obligations.CreateTraps : Prop :=
  ∀ (s : State) (lc lp pb : Nat) (d : Word), lc ≤ 8 → lp ≤ 4 → pb ≤ 4 → lc + lp ≤ 8 →
    (s.params.dictMin = .reject → d.toNat < 4096 →
      exec (.create lc lp pb d) s =
        .next { s with ret := .error .invalidProperties, createStatus := .error .invalidProperties }) ∧
    (s.params.dictMin = .clamp ∨ 4096 ≤ d.toNat → s.allocAnswer = false →
      exec (.create lc lp pb d) s =
        .next { s.allocDrawn with ret := .error .allocationFailed, createStatus := .error .allocationFailed })

/-- DESTROY (R185) and RESET (R186, R29, R234) complete on a live instance that runs no command; DESTROY of the null
handle does nothing; RESET twice is RESET once, and leaves an instance that RUN takes (R150). DESTROY ends the
instance, its `status` with it, and RESET leaves `status` alone (R29). -/
def Obligations.DestroyAndReset : Prop :=
  ∀ (s : State) (n : Nat) (i : Inst),
    exec (.destroy none) s = .next { s with ret := .none } ∧
    (Table.get s.insts n = some i → i.busy = false →
      (∃ t, exec (.destroy (some n)) s = .next t ∧ t.phase n = .absent ∧ t.ret = .none ∧
        ∀ m, m ≠ n → Table.get t.insts m = Table.get s.insts m) ∧
      ∃ t j, exec (.reset (some n)) s = .next t ∧ exec (.reset (some n)) t = .next t ∧
        t = { s with insts := Table.set s.insts n j, cur := n, ret := .none } ∧ (∀ c, j.prob c = 1024) ∧
        j.atReset = true ∧ j = { i with
          probs := j.probs, rep0 := 0, rep1 := 0, rep2 := 0, rep3 := 0, st := 0, prev := 0, op := 0, ip := 0 })

/-- What a model has no move for. RESET and DECOMPRESS on the null handle, a command on a handle that names no live
instance, a command on an instance that is running (R184, R185, R242, D27, D28). DECOMPRESS with an operand wider than
`USIZE_BITS` (D3, U10, log 32). Every packet, format and internal operation when no instance is there to act on (R29,
log 31). A request or a placed row that decodes to no instruction, and a request with an operand out of range (R60,
R61, R73, log 30). That the model answers with a refusal is log 30 (its choice) and logs 31 and 32 (inferred from D27,
D28 and D3). RUN on an instance that was not reset is in RunRule. -/
def Obligations.HandleRefusals : Prop :=
  ∀ (s : State) (n : Nat) (i : Inst) (src : List Byte) (cap : Nat) (row : Instr),
    exec (.reset none) s = .refused .nullHandle ∧ exec (.decompress none src cap) s = .refused .nullHandle ∧
    (Table.get s.insts n = none →
      exec (.destroy (some n)) s = .refused (.deadHandle n) ∧ exec (.reset (some n)) s = .refused (.deadHandle n) ∧
      exec (.decompress (some n) src cap) s = .refused (.deadHandle n)) ∧
    (Table.get s.insts n = some i → i.busy = true →
      exec (.destroy (some n)) s = .refused (.instanceBusy n) ∧ exec (.reset (some n)) s = .refused (.instanceBusy n) ∧
      exec (.decompress (some n) src cap) s = .refused (.instanceBusy n)) ∧
    (Table.get s.insts n = some i → i.busy = false →
      fitsUsize s.params src.length = false ∨ fitsUsize s.params cap = false →
      exec (.decompress (some n) src cap) s = .refused .operandTooWide) ∧
    (s.current = none → Instr.ofHost row = false → exec row s = .refused .noInstance) ∧
    (s.noRun → s.rows = [] → ∀ r rest, s.port = r :: rest →
      (∀ e, decode r.word = .bad e → step s = .refused (.undecodable e)) ∧
      (decode r.word = .instr row → row.wellFormed = false → step s = .refused .illFormed)) ∧
    (s.noRun → ∀ w more e, s.rows = w :: more → decode w.word = .bad e → step s = .refused (.undecodable e))

/-- DECOMPRESS completes (R187, R189, R190): when RUN from the started instance ends with every byte consumed and every
byte produced, the result is Ok with `bytesWritten = destCapacity`; when it ends otherwise, FormatMismatch; and when RUN
raises, the error RUN raised, with the instance as it stood then abandoned (R205, R211). With fewer than 5 bytes that is
InputExhausted, whatever the capacity (R211). The started instance is Busy, holds SRC, `srcLen` and `destCapacity` as
the call gave them, stands at its RESET values with its properties, and knows no byte of OUT (R186, R187, R231; of OUT
log 29; that its `status` is still the earlier one is log 15). -/
def Obligations.DecompressCompletes : Prop :=
  ∀ (s : State) (n : Nat) (i j : Inst) (src : List Byte) (cap : Nat),
    Table.get s.insts n = some i → i.busy = false → fitsUsize s.params src.length = true →
    fitsUsize s.params cap = true →
    ((i.begun src cap s.draws).busy = true ∧ (i.begun src cap s.draws).atReset = true ∧
      (i.begun src cap s.draws).srcLen = src.length ∧ (i.begun src cap s.draws).destCapacity = cap ∧
      (∀ a, Memory.read (i.begun src cap s.draws).src a = src[a]?) ∧
      (∀ a, Memory.read (i.begun src cap s.draws).out a = none) ∧
      sameProps i (i.begun src cap s.draws) ∧ (i.begun src cap s.draws).status = i.status) ∧
    (runInst s.params.initByte0 (i.begun src cap s.draws) = .ok () j →
      (j.ip = src.length → j.op = cap →
        exec (.decompress (some n) src cap) s =
          .next { s with
            insts := Table.set s.insts n { j with busy := false, status := .ok }
            cur := n
            ret := .written cap
            draws := s.draws + 1 }) ∧
      (j.ip ≠ src.length ∨ j.op ≠ cap →
        exec (.decompress (some n) src cap) s =
          .next { s with
            insts := Table.set s.insts n
              { j with busy := false, status := .error .formatMismatch, out := [], epoch := s.draws + 1 }
            cur := n
            ret := .error .formatMismatch
            draws := s.draws + 2 })) ∧
    (∀ e, runInst s.params.initByte0 (i.begun src cap s.draws) = .raised e j →
      exec (.decompress (some n) src cap) s =
        .next { s with
          insts := Table.set s.insts n { j with busy := false, status := .error e, out := [], epoch := s.draws + 1 }
          cur := n
          ret := .error e
          draws := s.draws + 2 }) ∧
    (src.length < 5 → ∃ t k, exec (.decompress (some n) src cap) s = .next t ∧ t.ret = .error .inputExhausted ∧
      Table.get t.insts n = some k ∧ k.status = .error .inputExhausted ∧ k.busy = false)

/-- CORRUPTION SAFETY (R220, R189, R190, R206, R246): for every stream and every capacity DECOMPRESS of a legal instance ends
with a result, the instance Ready and legal with its properties, and no other instance touched. Ok means the whole
stream consumed, exactly the `destCapacity` bytes of OUT written, and no end marker; else the error is one of four. -/
def Obligations.CorruptionSafety : Prop :=
  ∀ (s : State) (n : Nat) (i : Inst) (src : List Byte) (cap : Nat),
    Table.get s.insts n = some i → i.legal → i.busy = false → fitsUsize s.params src.length = true →
    fitsUsize s.params cap = true →
    ∃ t j, exec (.decompress (some n) src cap) s = .next t ∧ Table.get t.insts n = some j ∧ j.busy = false ∧ j.legal ∧
      sameProps i j ∧ (∀ m, m ≠ n → Table.get t.insts m = Table.get s.insts m) ∧
      (∀ a, cap ≤ a → Memory.read j.out a = none) ∧
      (j.status = .ok ∧ t.ret = .written cap ∧ j.ip = src.length ∧ j.op = cap ∧ j.endReason = .outputFull ∧
          (∀ a, a < cap → ∃ b, Memory.read j.out a = some b) ∨
        ∃ e, j.status = .error e ∧ t.ret = .error e ∧
          (e = .inputExhausted ∨ e = .distanceOutOfRange ∨ e = .outputOverflow ∨ e = .formatMismatch))

/-- PURITY (R191, R100, R241): the result of DECOMPRESS depends on the properties, the stream and the capacity alone, not
on what the instance or the machine did before; two calls agree in the result and, on success, in every byte. -/
def Obligations.DecompressIsPure : Prop :=
  ∀ (s s' t t' : State) (n n' : Nat) (i i' : Inst) (src : List Byte) (cap : Nat),
    s.params.initByte0 = s'.params.initByte0 →
    Table.get s.insts n = some i → Table.get s'.insts n' = some i' → i.propsLegal → sameProps i i' →
    exec (.decompress (some n) src cap) s = .next t → exec (.decompress (some n') src cap) s' = .next t' →
    t.ret = t'.ret ∧
      ∃ j j', Table.get t.insts n = some j ∧ Table.get t'.insts n' = some j' ∧ j.status = j'.status ∧
        (j.status = .ok → ∀ a, Memory.read j.out a = Memory.read j'.out a)
end

