-- ==== Sys2Proof/Laws/Table.lean ====
section
/-! SUPPORT. Sparse tables: what a write lists, what it leaves alone, and that every write keeps the keys rising. -/

namespace Sys2Proof.Machine

variable {β : Type}

@[simp] theorem Table.get_nil (a : Nat) : Table.get ([] : List (Nat × β)) a = none := rfl

@[simp] theorem Table.get_set_same (t : List (Nat × β)) (a : Nat) (v : β) :
    Table.get (Table.set t a v) a = some v := by
  induction t with
  | nil => simp [Table.set, Table.get]
  | cons e t ih => grind [Table.set, Table.get]

theorem Table.get_set_other (t : List (Nat × β)) {a b : Nat} (v : β) (h : b ≠ a) :
    Table.get (Table.set t a v) b = Table.get t b := by
  induction t with
  | nil => simp [Table.set, Table.get, h]
  | cons e t ih => grind [Table.set, Table.get]

theorem Table.get_set (t : List (Nat × β)) (a b : Nat) (v : β) :
    Table.get (Table.set t a v) b = if b = a then some v else Table.get t b := by
  split
  · next h => simp [h]
  · next h => exact Table.get_set_other t v h

@[simp] theorem Table.set_set (t : List (Nat × β)) (a : Nat) (v w : β) :
    Table.set (Table.set t a v) a w = Table.set t a w := by
  induction t with
  | nil => simp [Table.set]
  | cons e t ih => grind [Table.set]

@[simp] theorem Table.get_erase_same (t : List (Nat × β)) (a : Nat) : Table.get (Table.erase t a) a = none := by
  induction t with
  | nil => simp [Table.erase]
  | cons e t ih => grind [Table.erase, Table.get]

theorem Table.get_erase_other (t : List (Nat × β)) {a b : Nat} (h : b ≠ a) :
    Table.get (Table.erase t a) b = Table.get t b := by
  induction t with
  | nil => simp [Table.erase]
  | cons e t ih => grind [Table.erase, Table.get]

theorem Table.mem_set {t : List (Nat × β)} {a : Nat} {v : β} {e : Nat × β} (h : e ∈ Table.set t a v) :
    e = (a, v) ∨ e ∈ t := by
  induction t with
  | nil => simp_all [Table.set]
  | cons d t ih => grind [Table.set]

theorem Table.mem_erase {t : List (Nat × β)} {a : Nat} {e : Nat × β} (h : e ∈ Table.erase t a) :
    e ∈ t ∧ e.1 ≠ a := by
  induction t with
  | nil => simp_all [Table.erase]
  | cons d t ih => grind [Table.erase]

theorem Table.rising_cons (e : Nat × β) (t : List (Nat × β)) :
    Table.rising (e :: t) = true ↔ (∀ d ∈ t, e.1 < d.1) ∧ Table.rising t = true := by
  obtain ⟨k, v⟩ := e
  simp [Table.rising]

theorem Table.rising_set {t : List (Nat × β)} (h : Table.rising t = true) (a : Nat) (v : β) :
    Table.rising (Table.set t a v) = true := by
  induction t with
  | nil => simp [Table.set, Table.rising]
  | cons e t ih =>
    obtain ⟨h1, h2⟩ := (Table.rising_cons e t).1 h
    obtain ⟨k, w⟩ := e
    simp only [Table.set]
    split
    · next hlt =>
      refine (Table.rising_cons _ _).2 ⟨?_, h⟩
      intro d hd
      rcases List.mem_cons.1 hd with rfl | hd
      · exact hlt
      · exact Nat.lt_trans hlt (h1 d hd)
    · split
      · next heq => subst heq; exact (Table.rising_cons _ _).2 ⟨h1, h2⟩
      · next hge hne =>
        refine (Table.rising_cons _ _).2 ⟨?_, ih h2⟩
        intro d hd
        rcases Table.mem_set hd with rfl | hd
        · show k < a
          omega
        · exact h1 d hd

theorem Table.rising_erase {t : List (Nat × β)} (h : Table.rising t = true) (a : Nat) :
    Table.rising (Table.erase t a) = true := by
  induction t with
  | nil => simp [Table.erase, Table.rising]
  | cons e t ih =>
    obtain ⟨h1, h2⟩ := (Table.rising_cons e t).1 h
    obtain ⟨k, w⟩ := e
    simp only [Table.erase]
    split
    · exact ih h2
    · exact (Table.rising_cons _ _).2 ⟨fun d hd => h1 d (Table.mem_erase hd).1, ih h2⟩

/-- What is listed at a key is an entry. -/
theorem Table.mem_of_get {t : List (Nat × β)} {a : Nat} {v : β} (h : Table.get t a = some v) : (a, v) ∈ t := by
  induction t with
  | nil => simp at h
  | cons e t ih => grind [Table.get]

/-- In a rising table every entry is the one listed at its key. -/
theorem Table.get_of_mem {t : List (Nat × β)} (hr : Table.rising t = true) {a : Nat} {v : β} (h : (a, v) ∈ t) :
    Table.get t a = some v := by
  induction t with
  | nil => simp at h
  | cons e t ih =>
    obtain ⟨h1, h2⟩ := (Table.rising_cons e t).1 hr
    obtain ⟨k, w⟩ := e
    rcases List.mem_cons.1 h with heq | hm
    · cases heq; simp [Table.get]
    · have : k < a := h1 _ hm
      simp only [Table.get]
      rw [if_neg (by omega)]
      exact ih h2 hm

/-- The memory made of a list of bytes lists exactly the bytes of the list. -/
theorem Memory.read_ofBytesAt (bs : List Byte) (n a : Nat) :
    Table.get (Memory.ofBytesAt n bs) a = if a < n then none else bs[a - n]? := by
  induction bs generalizing n with
  | nil => simp [Memory.ofBytesAt]
  | cons b bs ih =>
    simp only [Memory.ofBytesAt, Table.get, ih]
    by_cases h : a = n
    · simp [h]
    · rw [if_neg h]
      by_cases h2 : a < n
      · rw [if_pos (by omega), if_pos h2]
      · rw [if_neg (by omega), if_neg h2]
        obtain ⟨m, rfl⟩ : ∃ m, a = n + 1 + m := ⟨a - n - 1, by omega⟩
        rw [show n + 1 + m - (n + 1) = m by omega, show n + 1 + m - n = m + 1 by omega]
        simp

theorem Memory.read_ofBytes (bs : List Byte) (a : Nat) : Memory.read (Memory.ofBytes bs) a = bs[a]? := by
  simp [Memory.ofBytes, Memory.read_ofBytesAt]

theorem Memory.ofBytesAt_above (bs : List Byte) (n : Nat) : ∀ e ∈ Memory.ofBytesAt n bs, n ≤ e.1 := by
  induction bs generalizing n with
  | nil => simp [Memory.ofBytesAt]
  | cons b bs ih =>
    intro e he
    rcases List.mem_cons.1 he with rfl | he
    · exact Nat.le_refl _
    · exact Nat.le_of_succ_le (ih (n + 1) e he)

theorem Memory.wf_ofBytes (bs : List Byte) : Memory.wf (Memory.ofBytes bs) = true := by
  suffices h : ∀ n, Table.rising (Memory.ofBytesAt n bs) = true from h 0
  induction bs with
  | nil => intro n; rfl
  | cons b bs ih =>
    intro n
    exact (Table.rising_cons _ _).2 ⟨fun d hd => Memory.ofBytesAt_above bs (n + 1) d hd, ih (n + 1)⟩

/-- Every memory operation keeps the canonical form. -/
theorem Memory.wf_write {m : Memory} (h : Memory.wf m = true) (a : Nat) (b : Byte) :
    Memory.wf (Memory.write m a b) = true := Table.rising_set h a b

end Sys2Proof.Machine
end

