-- ==== Sys2Proof/Laws/Decoder.lean ====
section
/-! SUPPORT. The range decoder: what a counter write does, what each operation can answer, and how a decision program
runs: it changes the decoder's part of the instance only, it takes at most one byte a decision, and it completes when
the stream holds enough bytes. -/

namespace Sys2Proof.Machine

/-! ## Counters -/

/-- Counters stand at different places of the file. -/
theorem counterIndex_inj {c d : Counter} (h : counterIndex c = counterIndex d) : c = d := by
  cases c <;> cases d <;> simp only [counterIndex, coderNum] at h <;> grind [coderNum, Coder]

theorem counterIndex_lt (c : Counter) : counterIndex c < 1847 + 768 * 256 := by
  cases c <;> simp only [counterIndex, coderNum] <;> grind [Coder]

@[simp] theorem ProbFile.get_write_same (f : ProbFile) (c : Counter) (p : Prob) :
    (Table.get (ProbFile.write f c p) (counterIndex c)).getD Config.probInit = p := by
  unfold ProbFile.write
  split
  · next h => simp [h]
  · simp

theorem ProbFile.get_write_other (f : ProbFile) {c d : Counter} (p : Prob) (h : d ≠ c) :
    Table.get (ProbFile.write f c p) (counterIndex d) = Table.get f (counterIndex d) := by
  have hne : counterIndex d ≠ counterIndex c := fun e => h (counterIndex_inj e)
  unfold ProbFile.write
  split
  · exact Table.get_erase_other f hne
  · exact Table.get_set_other f p hne

theorem ProbFile.wf_write {f : ProbFile} (h : ProbFile.wf f = true) (c : Counter) (p : Prob) :
    ProbFile.wf (ProbFile.write f c p) = true := by
  simp only [ProbFile.wf, Bool.and_eq_true, List.all_eq_true] at h ⊢
  unfold ProbFile.write
  split
  · exact ⟨Table.rising_erase h.1 _, fun e he => h.2 e (Table.mem_erase he).1⟩
  · next hp =>
    refine ⟨Table.rising_set h.1 _ _, fun e he => ?_⟩
    rcases Table.mem_set he with rfl | he
    · simpa using hp
    · exact h.2 e he

theorem ProbFile.mem_write {f : ProbFile} {c : Counter} {p : Prob} {e : Nat × Prob} (h : e ∈ ProbFile.write f c p) :
    e = (counterIndex c, p) ∨ e ∈ f := by
  unfold ProbFile.write at h
  split at h
  · exact .inr (Table.mem_erase h).1
  · exact Table.mem_set h

theorem probAfter_zero (p : Prob) : (probAfter p false).toNat = p.toNat + (2048 - p.toNat) / 32 := by
  have := p.isLt
  simp only [probAfter, Bool.false_eq_true, if_false, BitVec.toNat_ofNat]
  omega

theorem probAfter_one (p : Prob) : (probAfter p true).toNat = p.toNat - p.toNat / 32 := by
  have := p.isLt
  simp only [probAfter, if_true, BitVec.toNat_ofNat]
  omega

theorem probOk_probAfter {p : Prob} (h : probOk p) (b : Bool) : probOk (probAfter p b) := by
  unfold probOk at *
  cases b
  · rw [probAfter_zero]; omega
  · rw [probAfter_one]; omega

/-! ## Words -/

theorem shiftIn_toNat (code : Word) (b : Byte) : (shiftIn code b).toNat = (code.toNat * 256 + b.toNat) % 2 ^ 32 := by
  have hb := b.isLt
  have hc := code.isLt
  have h1 : shiftIn code b = BitVec.ofNat 32 (code.toNat * 256 + b.toNat) := by
    unfold shiftIn
    have : (code <<< 8 ||| b.setWidth 32) = code <<< 8 + b.setWidth 32 := by
      rw [BitVec.add_eq_or_of_and_eq_zero]
      ext k hk
      simp only [BitVec.getElem_and, BitVec.getElem_shiftLeft, BitVec.getElem_setWidth, BitVec.getElem_zero]
      by_cases h8 : k < 8
      · simp [h8]
      · simp [BitVec.getLsbD_of_ge b k (by omega)]
    rw [this]
    apply BitVec.eq_of_toNat_eq
    simp only [BitVec.toNat_add, BitVec.toNat_shiftLeft, BitVec.toNat_setWidth, BitVec.toNat_ofNat, Nat.shiftLeft_eq]
    omega
  rw [h1]; simp

theorem boundOf_toNat (r : Word) (p : Prob) : (boundOf r p).toNat = r.toNat / 2048 * p.toNat := by
  have hr := r.isLt
  have hp := p.isLt
  have h1 : r.toNat / 2048 * p.toNat < 2 ^ 32 := by
    calc r.toNat / 2048 * p.toNat ≤ (2 ^ 21 - 1) * (2 ^ 11 - 1) := Nat.mul_le_mul (by omega) (by omega)
      _ < 2 ^ 32 := by norm_num
  simp only [boundOf, BitVec.toNat_mul, BitVec.toNat_ushiftRight, BitVec.toNat_setWidth, Nat.shiftRight_eq_div_pow]
  rw [Nat.mod_eq_of_lt (show p.toNat < 2 ^ 32 by omega)]
  exact Nat.mod_eq_of_lt h1

/-- `bound <= range` in every state (R93). -/
theorem boundOf_le (r : Word) (p : Prob) : (boundOf r p).toNat ≤ r.toNat := by
  rw [boundOf_toNat]
  have hp := p.isLt
  calc r.toNat / 2048 * p.toNat ≤ r.toNat / 2048 * 2048 := Nat.mul_le_mul_left _ (by omega)
    _ ≤ r.toNat := Nat.div_mul_le_self _ _

/-! ## Sequencing -/

@[simp] theorem Res.bind_ok {α β : Type} (a : α) (i : Inst) (f : α → Inst → Res β) : (Res.ok a i).bind f = f a i := rfl

@[simp] theorem Res.bind_raised {α β : Type} (e : Err) (i : Inst) (f : α → Inst → Res β) :
    (Res.raised e i).bind f = .raised e i := rfl

@[simp] theorem Res.map_ok {α β : Type} (f : α → β) (a : α) (i : Inst) : (Res.ok a i).map f = .ok (f a) i := rfl

@[simp] theorem Res.map_raised {α β : Type} (f : α → β) (e : Err) (i : Inst) : (Res.raised e i).map f = .raised e i := rfl

theorem Res.bind_eq_ok {α β : Type} {r : Res α} {f : α → Inst → Res β} {b : β} {j : Inst} :
    r.bind f = .ok b j ↔ ∃ a i, r = .ok a i ∧ f a i = .ok b j := by
  cases r <;> simp [Res.bind]

theorem Res.bind_eq_raised {α β : Type} {r : Res α} {f : α → Inst → Res β} {e : Err} {j : Inst} :
    r.bind f = .raised e j ↔ r = .raised e j ∨ ∃ a i, r = .ok a i ∧ f a i = .raised e j := by
  cases r <;> simp [Res.bind]

theorem Res.map_eq_ok {α β : Type} {r : Res α} {f : α → β} {b : β} {j : Inst} :
    r.map f = .ok b j ↔ ∃ a, r = .ok a j ∧ f a = b := by
  cases r <;> simp [Res.map, and_comm]

theorem Res.map_eq_raised {α β : Type} {r : Res α} {f : α → β} {e : Err} {j : Inst} :
    r.map f = .raised e j ↔ r = .raised e j := by
  cases r <;> simp [Res.map]

/-! ## The decoder's part of an instance -/

theorem sameButDecoder.refl (i : Inst) : sameButDecoder i i := rfl

theorem sameButDecoder.trans {i j k : Inst} (h : sameButDecoder i j) (h' : sameButDecoder j k) : sameButDecoder i k := by
  unfold sameButDecoder at *
  rw [h', h]

/-- What an operation of the decoder does, whether it completes or runs out of input: it changes the decoder's part
only, reads between 0 and `n` bytes, never beyond the stream, and raises nothing but InputExhausted at its end. -/
def Decodes {α : Type} (n : Nat) (i : Inst) : Res α → Prop
  | .ok _ j => sameButDecoder i j ∧ i.ip ≤ j.ip ∧ j.ip ≤ i.ip + n ∧ (i.ip ≤ i.srcLen → j.ip ≤ i.srcLen)
  | .raised e j =>
    sameButDecoder i j ∧ i.ip ≤ j.ip ∧ j.ip < i.ip + n ∧ e = .inputExhausted ∧ i.srcLen ≤ j.ip ∧
      (i.ip ≤ i.srcLen → j.ip = i.srcLen)

theorem Decodes.map {α β : Type} {n : Nat} {i : Inst} {r : Res α} (f : α → β) (h : Decodes n i r) :
    Decodes n i (r.map f) := by
  cases r <;> exact h

theorem Decodes.mono {α : Type} {n m : Nat} {i : Inst} {r : Res α} (h : Decodes n i r) (hle : n ≤ m) :
    Decodes m i r := by
  cases r
  · obtain ⟨h1, h2, h3, h4⟩ := h
    exact ⟨h1, h2, by omega, h4⟩
  · obtain ⟨h1, h2, h3, h4⟩ := h
    exact ⟨h1, h2, by omega, h4⟩

theorem Decodes.bind {α β : Type} {n m : Nat} {i : Inst} {r : Res α} {f : α → Inst → Res β} (h : Decodes n i r)
    (hf : ∀ a j, r = .ok a j → Decodes m j (f a j)) : Decodes (n + m) i (r.bind f) := by
  cases r with
  | raised e j =>
    obtain ⟨h1, h2, h3, h4⟩ := h
    exact ⟨h1, h2, by omega, h4⟩
  | ok a j =>
    obtain ⟨h1, h2, h3, h4⟩ := h
    have hs : j.srcLen = i.srcLen := by rw [h1]
    have hj := hf a j rfl
    simp only [Res.bind_ok]
    revert hj
    cases f a j with
    | ok b k =>
      rintro ⟨g1, g2, g3, g4⟩
      refine ⟨h1.trans g1, by omega, by omega, fun h => ?_⟩
      have := g4 (by rw [hs]; exact h4 h)
      omega
    | raised e k =>
      rintro ⟨g1, g2, g3, g4, g5, g6⟩
      refine ⟨h1.trans g1, by omega, by omega, g4, by omega, fun h => ?_⟩
      have := g6 (by rw [hs]; exact h4 h)
      omega

/-- An operation that can only run out of input completes when the stream holds enough. -/
theorem Decodes.completes {α : Type} {n : Nat} {i : Inst} {r : Res α} (h : Decodes n i r) (hin : i.ip + n ≤ i.srcLen) :
    ∃ a j, r = .ok a j := by
  cases r with
  | ok a j => exact ⟨a, j, rfl⟩
  | raised e j =>
    obtain ⟨-, -, h3, -, h5, -⟩ := h
    omega

/-- NextByte answers the byte at `ip` and advances, or raises InputExhausted at the end of the stream (R91). -/
theorem nextByte_ok {i : Inst} (h : i.ip < i.srcLen) :
    nextByte i = .ok (i.srcByte i.ip) { i with ip := i.ip + 1 } := by
  unfold nextByte
  rw [if_neg (by omega)]

theorem nextByte_raised {i : Inst} (h : i.srcLen ≤ i.ip) : nextByte i = .raised .inputExhausted i := by
  unfold nextByte
  rw [if_pos h]

/-- Normalize leaves a normalised `range` alone (R97). -/
theorem normalize_id {i : Inst} (h : 0x1000000 ≤ i.range.toNat) : normalize i = .ok () i := by
  unfold normalize
  rw [if_neg]
  simp only [BitVec.lt_def, Config.top]
  simpa using h

/-- Normalize shifts one byte in below 2^24 (R97). -/
theorem normalize_shift {i : Inst} (h : i.range.toNat < 0x1000000) (hin : i.ip < i.srcLen) :
    normalize i =
      .ok () { i with range := i.range <<< 8, code := shiftIn i.code (i.srcByte i.ip), ip := i.ip + 1 } := by
  unfold normalize
  rw [if_pos, nextByte_ok hin]
  · rfl
  · simp only [BitVec.lt_def, Config.top]
    simpa using h

theorem normalize_raised {i : Inst} (h : i.range.toNat < 0x1000000) (hin : i.srcLen ≤ i.ip) :
    normalize i = .raised .inputExhausted i := by
  unfold normalize
  rw [if_pos, nextByte_raised hin]
  · rfl
  · simp only [BitVec.lt_def, Config.top]
    simpa using h

/-- Normalize when it completes, in numbers (R97). -/
theorem normalize_nat (i : Inst) (h : 0x1000000 ≤ i.range.toNat ∨ i.ip < i.srcLen) :
    ∃ j, normalize i = .ok () j ∧ sameButDecoder i j ∧ j.probs = i.probs ∧
      (if 0x1000000 ≤ i.range.toNat then j.range.toNat = i.range.toNat ∧ j.code.toNat = i.code.toNat ∧ j.ip = i.ip
        else j.range.toNat = i.range.toNat * 256 ∧
          j.code.toNat = (i.code.toNat * 256 + (i.srcByte i.ip).toNat) % 2 ^ 32 ∧ j.ip = i.ip + 1) := by
  by_cases hn : 0x1000000 ≤ i.range.toNat
  · refine ⟨i, normalize_id hn, rfl, rfl, ?_⟩
    rw [if_pos hn]; exact ⟨rfl, rfl, rfl⟩
  · refine ⟨_, normalize_shift (by omega) (by omega), rfl, rfl, ?_⟩
    rw [if_neg hn]
    refine ⟨?_, shiftIn_toNat _ _, rfl⟩
    simp only [BitVec.toNat_shiftLeft, Nat.shiftLeft_eq]; omega

theorem normalize_decodes (i : Inst) : Decodes 1 i (normalize i) := by
  by_cases h : 0x1000000 ≤ i.range.toNat
  · rw [normalize_id h]
    exact ⟨rfl, by omega, by omega, id⟩
  · by_cases hin : i.ip < i.srcLen
    · rw [normalize_shift (by omega) hin]
      exact ⟨rfl, by simp, by simp, fun _ => hin⟩
    · rw [normalize_raised (by omega) (by omega)]
      exact ⟨rfl, by omega, by omega, rfl, by omega, by omega⟩

/-- An operation that first changes the decoder's part without moving `ip`. -/
theorem Decodes.of_same {α : Type} {n : Nat} {i j : Inst} {r : Res α} (h : sameButDecoder i j) (hip : j.ip = i.ip)
    (hr : Decodes n j r) : Decodes n i r := by
  have hs : j.srcLen = i.srcLen := by rw [h]
  cases r with
  | ok a k =>
    obtain ⟨g1, g2, g3, g4⟩ := hr
    exact ⟨h.trans g1, by omega, by omega, by rw [← hs, ← hip]; exact g4⟩
  | raised e k =>
    obtain ⟨g1, g2, g3, g4, g5, g6⟩ := hr
    exact ⟨h.trans g1, by omega, by omega, g4, by omega, by rw [← hs, ← hip]; exact g6⟩

theorem decodeBit_decodes (c : Counter) (i : Inst) : Decodes 1 i (decodeBit c i) := by
  unfold decodeBit
  split
  · refine Decodes.map _ (Decodes.of_same ?_ ?_ (normalize_decodes _)) <;> rfl
  · refine Decodes.map _ (Decodes.of_same ?_ ?_ (normalize_decodes _)) <;> rfl

theorem directBit_decodes (i : Inst) : Decodes 1 i (directBit i) := by
  unfold directBit
  split
  · refine Decodes.map _ (Decodes.of_same ?_ ?_ (normalize_decodes _)) <;> rfl
  · refine Decodes.map _ (Decodes.of_same ?_ ?_ (normalize_decodes _)) <;> rfl

theorem decision_decodes (q : Query) (i : Inst) : Decodes 1 i (decision q i) := by
  cases q
  · exact decodeBit_decodes _ i
  · exact directBit_decodes i

/-! ## Decision programs -/

/-- Every path of the program asks at most `n` decisions. -/
def Dec.within {α : Type} : Dec α → Nat → Prop
  | .done _, _ => True
  | .ask _ _, 0 => False
  | .ask _ k, n + 1 => ∀ b, Dec.within (k b) n

/-- Every result of the program has a property. -/
def Dec.ensures {α : Type} (P : α → Prop) : Dec α → Prop
  | .done a => P a
  | .ask _ k => ∀ b, Dec.ensures P (k b)

/-- Every counter the program may ask has a property. -/
def Dec.asksOnly {α : Type} (P : Counter → Prop) : Dec α → Prop
  | .done _ => True
  | .ask q k => (∀ c, q = .adaptive c → P c) ∧ ∀ b, Dec.asksOnly P (k b)

theorem Dec.within_mono {α : Type} {d : Dec α} {n m : Nat} (h : Dec.within d n) (hle : n ≤ m) : Dec.within d m := by
  induction d generalizing n m with
  | done a => trivial
  | ask q k ih =>
    cases n with
    | zero => exact h.elim
    | succ n =>
      cases m with
      | zero => omega
      | succ m => exact fun b => ih b (h b) (by omega)

theorem Dec.within_bind {α β : Type} {d : Dec α} {f : α → Dec β} {n m : Nat} (h : Dec.within d n)
    (hf : ∀ a, Dec.within (f a) m) : Dec.within (d.bind f) (n + m) := by
  induction d generalizing n with
  | done a => exact Dec.within_mono (hf a) (by omega)
  | ask q k ih =>
    cases n with
    | zero => exact h.elim
    | succ n =>
      rw [show n + 1 + m = n + m + 1 by omega]
      exact fun b => ih b (h b)

theorem Dec.within_map {α β : Type} {d : Dec α} {f : α → β} {n : Nat} (h : Dec.within d n) :
    Dec.within (d.map f) n := Dec.within_bind (m := 0) h fun _ => trivial

theorem Dec.ensures_bind {α β : Type} {P : α → Prop} {Q : β → Prop} {d : Dec α} {f : α → Dec β}
    (h : Dec.ensures P d) (hf : ∀ a, P a → Dec.ensures Q (f a)) : Dec.ensures Q (d.bind f) := by
  induction d with
  | done a => exact hf a h
  | ask q k ih => exact fun b => ih b (h b)

theorem Dec.ensures_map {α β : Type} {P : α → Prop} {Q : β → Prop} {d : Dec α} {f : α → β}
    (h : Dec.ensures P d) (hf : ∀ a, P a → Q (f a)) : Dec.ensures Q (d.map f) :=
  Dec.ensures_bind h hf

theorem Dec.ensures_mono {α : Type} {P Q : α → Prop} {d : Dec α} (h : Dec.ensures P d) (hf : ∀ a, P a → Q a) :
    Dec.ensures Q d := by
  induction d with
  | done a => exact hf a h
  | ask q k ih => exact fun b => ih b (h b)

theorem Dec.asksOnly_bind {α β : Type} {P : Counter → Prop} {d : Dec α} {f : α → Dec β}
    (h : Dec.asksOnly P d) (hf : ∀ a, Dec.asksOnly P (f a)) : Dec.asksOnly P (d.bind f) := by
  induction d with
  | done a => exact hf a
  | ask q k ih => exact ⟨h.1, fun b => ih b (h.2 b)⟩

theorem Dec.asksOnly_map {α β : Type} {P : Counter → Prop} {d : Dec α} {f : α → β}
    (h : Dec.asksOnly P d) : Dec.asksOnly P (d.map f) := Dec.asksOnly_bind h fun _ => trivial

theorem Dec.asksOnly_mono {α : Type} {P Q : Counter → Prop} {d : Dec α} (h : Dec.asksOnly P d) (hf : ∀ c, P c → Q c) :
    Dec.asksOnly Q d := by
  induction d with
  | done a => trivial
  | ask q k ih => exact ⟨fun c hc => hf c (h.1 c hc), fun b => ih b (h.2 b)⟩

/-- What a program asks is among the counters it may ask. -/
theorem Dec.asked_of_asksOnly {α : Type} {P : Counter → Prop} {d : Dec α} (h : Dec.asksOnly P d) (ds : List Bool)
    {c : Counter} (hc : .adaptive c ∈ Dec.asked d ds) : P c := by
  induction d generalizing ds with
  | done a => simp [Dec.asked] at hc
  | ask q k ih =>
    cases ds with
    | nil => simp [Dec.asked] at hc
    | cons b ds =>
      simp only [Dec.asked, List.mem_cons] at hc
      rcases hc with rfl | hc
      · exact h.1 c rfl
      · exact ih b (h.2 b) ds hc

theorem runDec_bind {α β : Type} (d : Dec α) (f : α → Dec β) (i : Inst) :
    runDec (d.bind f) i = (runDec d i).bind fun a j => runDec (f a) j := by
  induction d generalizing i with
  | done a => rfl
  | ask q k ih =>
    simp only [Dec.bind, runDec]
    cases decision q i with
    | ok b j => exact ih b j
    | raised e j => rfl

theorem runDec_map {α β : Type} (d : Dec α) (f : α → β) (i : Inst) : runDec (d.map f) i = (runDec d i).map f := by
  unfold Dec.map
  rw [runDec_bind]
  cases runDec d i <;> rfl

/-- A program of at most `n` decisions changes the decoder's part only and reads at most `n` bytes. -/
theorem runDec_decodes {α : Type} {d : Dec α} {n : Nat} (h : Dec.within d n) (i : Inst) : Decodes n i (runDec d i) := by
  induction d generalizing n i with
  | done a => exact ⟨rfl, by omega, by omega, id⟩
  | ask q k ih =>
    cases n with
    | zero => exact h.elim
    | succ n =>
      have hb : runDec (.ask q k) i = (decision q i).bind fun b j => runDec (k b) j := by
        simp only [runDec]
        cases decision q i <;> rfl
      rw [hb, show n + 1 = 1 + n by omega]
      exact (decision_decodes q i).bind fun b j _ => ih b (h b) j

/-- A program completes when the stream holds a byte for every decision. -/
theorem runDec_completes {α : Type} {d : Dec α} {n : Nat} (h : Dec.within d n) {i : Inst} (hin : i.ip + n ≤ i.srcLen) :
    ∃ a j, runDec d i = .ok a j := (runDec_decodes h i).completes hin

/-- Every program has some bound. -/
theorem Dec.within_some {α : Type} (d : Dec α) : ∃ n, Dec.within d n := by
  induction d with
  | done a => exact ⟨0, trivial⟩
  | ask q k ih =>
    obtain ⟨n, hn⟩ := ih false
    obtain ⟨m, hm⟩ := ih true
    refine ⟨max n m + 1, fun b => ?_⟩
    cases b
    · exact Dec.within_mono hn (by omega)
    · exact Dec.within_mono hm (by omega)

/-- A program that completes answers what it ensures. -/
theorem runDec_ensures {α : Type} {P : α → Prop} {d : Dec α} (h : Dec.ensures P d) {i j : Inst} {a : α}
    (hr : runDec d i = .ok a j) : P a := by
  induction d generalizing i with
  | done b =>
    simp only [runDec, Res.ok.injEq] at hr
    exact hr.1 ▸ h
  | ask q k ih =>
    simp only [runDec] at hr
    split at hr
    · next b i1 _ => exact ih b (h b) hr
    · cases hr

/-- What a program answers is what its decisions spell. -/
theorem runDec_reads {α : Type} {d : Dec α} {i j : Inst} {a : α} (hr : runDec d i = .ok a j) :
    ∃ ds, d.read ds = some (a, []) ∧ j.ip ≤ i.ip + ds.length := by
  induction d generalizing i with
  | done b =>
    simp only [runDec, Res.ok.injEq] at hr
    exact ⟨[], by simp [Dec.read, hr.1], by rw [hr.2]; simp⟩
  | ask q k ih =>
    simp only [runDec] at hr
    split at hr
    · next b i1 hd =>
      obtain ⟨ds, h1, h2⟩ := ih b hr
      have := decision_decodes q i
      rw [hd] at this
      exact ⟨b :: ds, h1, by simp only [List.length_cons]; have := this.2.2.1; omega⟩
    · cases hr

/-! ## Bit trees -/

theorem treeWalk_within (t : Tree) (n m : Nat) : Dec.within (treeWalk t n m) n := by
  induction n generalizing m with
  | zero => trivial
  | succ n ih => exact fun b => ih _

theorem treeWalk_ensures (t : Tree) (n m : Nat) :
    Dec.ensures (fun v => m * 2 ^ n ≤ v ∧ v < (m + 1) * 2 ^ n) (treeWalk t n m) := by
  induction n generalizing m with
  | zero => simp [treeWalk, Dec.ensures]
  | succ n ih =>
    intro b
    refine Dec.ensures_mono (ih (2 * m + b.toNat)) ?_
    intro v hv
    have hb : b.toNat ≤ 1 := by cases b <;> simp
    rw [Nat.pow_succ]
    constructor
    · calc m * (2 ^ n * 2) = 2 * m * 2 ^ n := by ring
        _ ≤ (2 * m + b.toNat) * 2 ^ n := Nat.mul_le_mul_right _ (by omega)
        _ ≤ v := hv.1
    · calc v < (2 * m + b.toNat + 1) * 2 ^ n := hv.2
        _ ≤ (2 * m + 2) * 2 ^ n := Nat.mul_le_mul_right _ (by omega)
        _ = (m + 1) * (2 ^ n * 2) := by ring

theorem treeDec_within (t : Tree) (n : Nat) : Dec.within (treeDec t n) n := Dec.within_map (treeWalk_within t n 1)

theorem treeDec_ensures (t : Tree) (n : Nat) : Dec.ensures (fun v => v < 2 ^ n) (treeDec t n) := by
  refine Dec.ensures_map (treeWalk_ensures t n 1) ?_
  intro v hv
  omega

/-- A walk asks the counters of the nodes it passes, from `m` down, none as deep as its results. -/
theorem treeWalk_asksOnly (t : Tree) (n m : Nat) :
    Dec.asksOnly (fun c => ∃ k, m ≤ k ∧ 2 * k < (m + 1) * 2 ^ n ∧ c = t.counter k) (treeWalk t n m) := by
  induction n generalizing m with
  | zero => trivial
  | succ n ih =>
    refine ⟨fun c hc => ⟨m, le_refl _, ?_, by cases hc; rfl⟩, fun b => Dec.asksOnly_mono (ih _) ?_⟩
    · have := Nat.two_pow_pos n
      rw [Nat.pow_succ]
      nlinarith
    · rintro c ⟨k, hk1, hk2, rfl⟩
      have hb : b.toNat ≤ 1 := by cases b <;> simp
      refine ⟨k, by omega, ?_, rfl⟩
      calc 2 * k < (2 * m + b.toNat + 1) * 2 ^ n := hk2
        _ ≤ (2 * m + 2) * 2 ^ n := Nat.mul_le_mul_right _ (by omega)
        _ = (m + 1) * 2 ^ (n + 1) := by ring

theorem reverseWalk_asksOnly (t : Tree) (base n m w v : Nat) :
    Dec.asksOnly (fun c => ∃ k, m ≤ k ∧ 2 * k < (m + 1) * 2 ^ n ∧ c = t.counter (base + k))
      (reverseWalk t base n m w v) := by
  induction n generalizing m w v with
  | zero => trivial
  | succ n ih =>
    refine ⟨fun c hc => ⟨m, le_refl _, ?_, by cases hc; rfl⟩, fun b => Dec.asksOnly_mono (ih _ _ _) ?_⟩
    · have := Nat.two_pow_pos n
      rw [Nat.pow_succ]
      nlinarith
    · rintro c ⟨k, hk1, hk2, rfl⟩
      have hb : b.toNat ≤ 1 := by cases b <;> simp
      refine ⟨k, by omega, ?_, rfl⟩
      calc 2 * k < (2 * m + b.toNat + 1) * 2 ^ n := hk2
        _ ≤ (2 * m + 2) * 2 ^ n := Nat.mul_le_mul_right _ (by omega)
        _ = (m + 1) * 2 ^ (n + 1) := by ring

/-- A tree asks the counters of its nodes 1 to `2^n - 1` only (R95). -/
theorem treeDec_asksOnly (t : Tree) (n : Nat) :
    Dec.asksOnly (fun c => ∃ k, 1 ≤ k ∧ k < 2 ^ n ∧ c = t.counter k) (treeDec t n) :=
  Dec.asksOnly_map (Dec.asksOnly_mono (treeWalk_asksOnly t n 1) fun _ ⟨k, h1, h2, h3⟩ => ⟨k, h1, by omega, h3⟩)

/-- A reverse tree asks the counters of its nodes 1 to `2^n - 1` only (R96). -/
theorem reverseDec_asksOnly (t : Tree) (base n : Nat) :
    Dec.asksOnly (fun c => ∃ k, 1 ≤ k ∧ k < 2 ^ n ∧ c = t.counter (base + k)) (reverseDec t base n) :=
  Dec.asksOnly_mono (reverseWalk_asksOnly t base n 1 1 0) fun _ ⟨k, h1, h2, h3⟩ => ⟨k, h1, by omega, h3⟩

/-- One decision more at the end of a walk. -/
theorem treeWalk_snoc (t : Tree) (n m : Nat) (i : Inst) :
    runDec (treeWalk t (n + 1) m) i =
      (runDec (treeWalk t n m) i).bind fun w j => (decodeBit (t.counter w) j).map fun b => 2 * w + b.toNat := by
  induction n generalizing m i with
  | zero =>
    simp only [treeWalk, runDec, decision, Res.bind_ok]
    cases decodeBit _ i <;> rfl
  | succ n ih =>
    conv_lhs => rw [treeWalk, runDec]
    conv_rhs => rw [treeWalk, runDec]
    cases decision _ i with
    | ok b j => exact ih _ _
    | raised e j => rfl

theorem directWalk_snoc (n v : Nat) (i : Inst) :
    runDec (directWalk (n + 1) v) i =
      (runDec (directWalk n v) i).bind fun w j => (directBit j).map fun b => 2 * w + b.toNat := by
  induction n generalizing v i with
  | zero =>
    simp only [directWalk, runDec, decision, Res.bind_ok]
    cases directBit i <;> rfl
  | succ n ih =>
    conv_lhs => rw [directWalk, runDec]
    conv_rhs => rw [directWalk, runDec]
    cases decision .direct i with
    | ok b j => exact ih _ _
    | raised e j => rfl

/-- The nodes of a reverse tree by their first decision. -/
theorem reverseNode_cons (n u : Nat) (b : Bool) :
    reverseNode (n + 1) (b.toNat + 2 * u) = 2 ^ n * (1 + b.toNat) + reverseNode n u := by
  induction n with
  | zero => cases b <;> simp [reverseNode, Nat.testBit_zero]
  | succ n ih =>
    have h : (b.toNat + 2 * u).testBit (n + 1) = u.testBit n := by
      rw [Nat.testBit_succ]
      congr 1
      cases b
      · simp
      · simp only [Bool.toNat_true]
        omega
    rw [reverseNode, ih, h, reverseNode, Nat.pow_succ]
    ring

/-- One decision more at the end of a reverse walk: it asks the node its decisions lead to, and has the next weight. -/
theorem reverseWalk_snoc (t : Tree) (base n m w v : Nat) {i j : Inst} {x : Nat} (hm : 1 ≤ m)
    (h : runDec (reverseWalk t base n m w v) i = .ok x j) :
    ∃ u, x = v + u * w ∧ runDec (reverseWalk t base (n + 1) m w v) i =
      (decodeBit (t.counter (base + (2 ^ n * (m - 1) + reverseNode n u))) j).map fun b => v + (u + b.toNat * 2 ^ n) * w := by
  induction n generalizing m w v i with
  | zero =>
    cases h
    refine ⟨0, by omega, ?_⟩
    have hk : 2 ^ 0 * (m - 1) + reverseNode 0 0 = m := by simp only [reverseNode]; omega
    rw [hk]
    simp only [reverseWalk, runDec, decision]
    cases decodeBit (t.counter (base + m)) j <;> simp
  | succ n ih =>
    rw [reverseWalk, runDec]
    rw [reverseWalk, runDec] at h
    cases hd : decision (.adaptive (t.counter (base + m))) i with
    | raised e k => rw [hd] at h; cases h
    | ok b k =>
      rw [hd] at h
      obtain ⟨u, h1, h2⟩ := ih (2 * m + b.toNat) (2 * w) (v + b.toNat * w) (by omega) h
      refine ⟨b.toNat + 2 * u, by rw [h1]; ring, ?_⟩
      have hk : 2 ^ n * (2 * m + b.toNat - 1) + reverseNode n u =
          2 ^ (n + 1) * (m - 1) + reverseNode (n + 1) (b.toNat + 2 * u) := by
        obtain ⟨m, rfl⟩ : ∃ k, m = k + 1 := ⟨m - 1, by omega⟩
        rw [reverseNode_cons, show 2 * (m + 1) + b.toNat - 1 = 2 * m + 1 + b.toNat by omega, Nat.add_sub_cancel]
        ring
      rw [← hk]
      refine h2.trans ?_
      congr 1
      funext c
      ring

theorem reverseWalk_within (t : Tree) (base n m w v : Nat) : Dec.within (reverseWalk t base n m w v) n := by
  induction n generalizing m w v with
  | zero => trivial
  | succ n ih => exact fun b => ih _ _ _

theorem reverseWalk_ensures (t : Tree) (base n m w v : Nat) :
    Dec.ensures (fun x => v ≤ x ∧ x + w ≤ v + w * 2 ^ n) (reverseWalk t base n m w v) := by
  induction n generalizing m w v with
  | zero => simp [reverseWalk, Dec.ensures]
  | succ n ih =>
    intro b
    refine Dec.ensures_mono (ih _ _ _) ?_
    rintro x ⟨h1, h2⟩
    have hp := Nat.two_pow_pos n
    rw [Nat.pow_succ]
    cases b
    · simp only [Bool.toNat_false, Nat.zero_mul, Nat.add_zero] at h1 h2
      refine ⟨h1, ?_⟩
      have : w * (2 ^ n * 2) = 2 * w * 2 ^ n := by ring
      omega
    · simp only [Bool.toNat_true, Nat.one_mul] at h1 h2
      have : w * (2 ^ n * 2) = 2 * w * 2 ^ n := by ring
      refine ⟨by omega, by omega⟩

theorem reverseDec_within (t : Tree) (base n : Nat) : Dec.within (reverseDec t base n) n :=
  reverseWalk_within t base n 1 1 0

theorem reverseDec_ensures (t : Tree) (base n : Nat) : Dec.ensures (fun v => v < 2 ^ n) (reverseDec t base n) := by
  refine Dec.ensures_mono (reverseWalk_ensures t base n 1 1 0) ?_
  intro v hv
  have := Nat.two_pow_pos n
  omega

theorem directWalk_within (n v : Nat) : Dec.within (directWalk n v) n := by
  induction n generalizing v with
  | zero => trivial
  | succ n ih => exact fun b => ih _

theorem directWalk_ensures (n v : Nat) :
    Dec.ensures (fun x => v * 2 ^ n ≤ x ∧ x < (v + 1) * 2 ^ n) (directWalk n v) := by
  induction n generalizing v with
  | zero => simp [directWalk, Dec.ensures]
  | succ n ih =>
    intro b
    refine Dec.ensures_mono (ih (2 * v + b.toNat)) ?_
    intro x hx
    have hb : b.toNat ≤ 1 := by cases b <;> simp
    rw [Nat.pow_succ]
    constructor
    · calc v * (2 ^ n * 2) = 2 * v * 2 ^ n := by ring
        _ ≤ (2 * v + b.toNat) * 2 ^ n := Nat.mul_le_mul_right _ (by omega)
        _ ≤ x := hx.1
    · calc x < (2 * v + b.toNat + 1) * 2 ^ n := hx.2
        _ ≤ (2 * v + 2) * 2 ^ n := Nat.mul_le_mul_right _ (by omega)
        _ = (v + 1) * (2 ^ n * 2) := by ring

theorem directDec_within (n : Nat) : Dec.within (directDec n) n := directWalk_within n 0

theorem directDec_ensures (n : Nat) : Dec.ensures (fun v => v < 2 ^ n) (directDec n) := by
  refine Dec.ensures_mono (directWalk_ensures n 0) ?_
  intro v hv
  omega

theorem directDec_asksOnly (n : Nat) (P : Counter → Prop) : Dec.asksOnly P (directDec n) := by
  suffices h : ∀ v, Dec.asksOnly P (directWalk n v) from h 0
  induction n with
  | zero => exact fun _ => trivial
  | succ n ih => exact fun v => ⟨fun c hc => (nomatch hc), fun b => ih _⟩

end Sys2Proof.Machine
end

