-- ==== Sys2Proof/Laws/Range.lean ====
section
/-! SUPPORT. What decisions keep: a normalised `range`, counters in their range, and a canonical probability file
inside the instance's counters; and which counters a program leaves alone. -/

namespace Sys2Proof.Machine

/-- A counter written reads back; the others are left alone. -/
theorem prob_write_same (i : Inst) (c : Counter) (p : Prob) :
    Inst.prob { i with probs := ProbFile.write i.probs c p } c = p := by simp [Inst.prob]

theorem prob_write_other (i : Inst) {c d : Counter} (p : Prob) (h : d ≠ c) :
    Inst.prob { i with probs := ProbFile.write i.probs c p } d = i.prob d := by
  simp [Inst.prob, ProbFile.get_write_other _ _ h]

theorem normalize_probs {i j : Inst} {r : Res Unit} (h : normalize i = r) (hj : (∃ a, r = .ok a j) ∨ ∃ e, r = .raised e j) :
    j.probs = i.probs := by
  by_cases hn : 0x1000000 ≤ i.range.toNat
  · rw [normalize_id hn] at h; subst h; rcases hj with ⟨a, hj⟩ | ⟨e, hj⟩ <;> cases hj; rfl
  · by_cases hin : i.ip < i.srcLen
    · rw [normalize_shift (by omega) hin] at h; subst h; rcases hj with ⟨a, hj⟩ | ⟨e, hj⟩ <;> cases hj; rfl
    · rw [normalize_raised (by omega) (by omega)] at h; subst h; rcases hj with ⟨a, hj⟩ | ⟨e, hj⟩ <;> cases hj; rfl

/-- How a decision ends, by its parts: the update, then the normalisation. -/
theorem decodeBit_cases (c : Counter) (i : Inst) :
    (i.code.toNat < (boundOf i.range (i.prob c)).toNat ∧ decodeBit c i =
      (normalize { i with
        range := boundOf i.range (i.prob c)
        probs := ProbFile.write i.probs c (probAfter (i.prob c) false) }).map fun _ => false) ∨
    ((boundOf i.range (i.prob c)).toNat ≤ i.code.toNat ∧ decodeBit c i =
      (normalize { i with
        range := i.range - boundOf i.range (i.prob c)
        code := i.code - boundOf i.range (i.prob c)
        probs := ProbFile.write i.probs c (probAfter (i.prob c) true) }).map fun _ => true) := by
  unfold decodeBit
  split
  · next h => exact .inl ⟨by simpa [BitVec.lt_def] using h, rfl⟩
  · next h => exact .inr ⟨by simpa [BitVec.lt_def] using h, rfl⟩

theorem directBit_cases (i : Inst) :
    (i.range.toNat / 2 ≤ i.code.toNat ∧ directBit i =
      (normalize { i with range := i.range >>> 1, code := i.code - i.range >>> 1 }).map fun _ => true) ∨
    (i.code.toNat < i.range.toNat / 2 ∧ directBit i =
      (normalize { i with range := i.range >>> 1 }).map fun _ => false) := by
  have hs : (i.range >>> 1).toNat = i.range.toNat / 2 := by simp [Nat.shiftRight_eq_div_pow]
  unfold directBit
  split
  · next h => exact .inl ⟨by rw [← hs]; simpa [BitVec.le_def] using h, rfl⟩
  · next h => exact .inr ⟨by rw [← hs]; simpa [BitVec.le_def] using h, rfl⟩

/-- The instance a result leaves. -/
def Res.inst {α : Type} : Res α → Inst
  | .ok _ i => i
  | .raised _ i => i

@[simp] theorem Res.inst_ok {α : Type} (a : α) (i : Inst) : (Res.ok a i).inst = i := rfl

@[simp] theorem Res.inst_raised {α : Type} (e : Err) (i : Inst) : (Res.raised (α := α) e i).inst = i := rfl

@[simp] theorem Res.inst_map {α β : Type} (f : α → β) (r : Res α) : (r.map f).inst = r.inst := by cases r <;> rfl

theorem normalize_inst_probs (i : Inst) : (normalize i).inst.probs = i.probs := by
  cases h : normalize i with
  | ok a j => exact normalize_probs h (.inl ⟨a, rfl⟩)
  | raised e j => exact normalize_probs h (.inr ⟨e, rfl⟩)

/-- The counters after a decision: the asked one is updated by its outcome, no other changes (R93, R94, R98). -/
theorem decision_prob_other {q : Query} {i : Inst} {c : Counter} (h : q ≠ .adaptive c) :
    (decision q i).inst.prob c = i.prob c := by
  cases q with
  | adaptive d =>
    have hne : c ≠ d := fun e => h (by rw [e])
    have hp : ∀ f : ProbFile, ∀ p, f = ProbFile.write i.probs d p → (decodeBit d i).inst.probs = f →
        (decodeBit d i).inst.prob c = i.prob c := by
      intro f p hf hb
      simp only [Inst.prob, hb, hf, ProbFile.get_write_other _ _ hne]
    rcases decodeBit_cases d i with ⟨-, h1⟩ | ⟨-, h1⟩
    · exact hp _ _ rfl (by rw [h1, Res.inst_map, normalize_inst_probs])
    · exact hp _ _ rfl (by rw [h1, Res.inst_map, normalize_inst_probs])
  | direct =>
    have hb : (directBit i).inst.probs = i.probs := by
      rcases directBit_cases i with ⟨-, h1⟩ | ⟨-, h1⟩ <;> rw [h1, Res.inst_map, normalize_inst_probs]
    simp only [decision, Inst.prob, hb]

/-- A program leaves every counter it never asks alone. -/
theorem runDec_prob {α : Type} {P : Counter → Prop} {d : Dec α} (h : Dec.asksOnly P d) (i : Inst) {c : Counter}
    (hc : ¬P c) : (runDec d i).inst.prob c = i.prob c := by
  induction d generalizing i with
  | done a => rfl
  | ask q k ih =>
    have hq : q ≠ .adaptive c := fun e => hc (h.1 c e)
    have hd := decision_prob_other (i := i) hq
    simp only [runDec]
    cases hr : decision q i with
    | ok b j =>
      rw [hr, Res.inst_ok] at hd
      rw [← hd]
      exact ih b (h.2 b) j
    | raised e j =>
      rw [hr, Res.inst_raised] at hd
      exact hd

/-! ## Canonical files and counters in range -/

/-- The probability file is canonical and inside `n` counters, each in range. -/
def probsIn (n : Nat) (f : ProbFile) : Prop := ProbFile.wf f = true ∧ ∀ e ∈ f, e.1 < n ∧ probOk e.2

theorem probsIn_prob {n : Nat} {i : Inst} (h : probsIn n i.probs) (c : Counter) : probOk (i.prob c) := by
  unfold Inst.prob
  cases hg : Table.get i.probs (counterIndex c) with
  | none => simp [probOk, Config.probInit]
  | some p => exact (h.2 _ (Table.mem_of_get hg)).2

theorem probsIn_write {n : Nat} {f : ProbFile} {c : Counter} {p : Prob} (h : probsIn n f) (hc : counterIndex c < n)
    (hp : probOk p) : probsIn n (ProbFile.write f c p) := by
  refine ⟨ProbFile.wf_write h.1 c p, fun e he => ?_⟩
  rcases ProbFile.mem_write he with rfl | he
  · exact ⟨hc, hp⟩
  · exact h.2 e he

theorem decision_probsIn {n : Nat} {q : Query} {i : Inst} (h : probsIn n i.probs)
    (hq : ∀ c, q = .adaptive c → counterIndex c < n) : probsIn n (decision q i).inst.probs := by
  cases q with
  | adaptive c =>
    have hw : ∀ b, probsIn n (ProbFile.write i.probs c (probAfter (i.prob c) b)) := fun b =>
      probsIn_write h (hq c rfl) (probOk_probAfter (probsIn_prob h c) b)
    rcases decodeBit_cases c i with ⟨-, h1⟩ | ⟨-, h1⟩ <;>
      simp only [decision, h1, Res.inst_map, normalize_inst_probs] <;> exact hw _
  | direct =>
    rcases directBit_cases i with ⟨-, h1⟩ | ⟨-, h1⟩ <;>
      simpa only [decision, h1, Res.inst_map, normalize_inst_probs] using h

/-- A program that asks counters of the instance keeps the probability file legal. -/
theorem runDec_probsIn {α : Type} {n : Nat} {d : Dec α} (ha : Dec.asksOnly (fun c => counterIndex c < n) d) {i : Inst}
    (h : probsIn n i.probs) : probsIn n (runDec d i).inst.probs := by
  induction d generalizing i with
  | done a => exact h
  | ask q k ih =>
    have hd := decision_probsIn (q := q) h ha.1
    simp only [runDec]
    cases hr : decision q i with
    | ok b j => rw [hr] at hd; exact ih b (ha.2 b) hd
    | raised e j => rw [hr] at hd; exact hd

/-! ## A normalised range (R11, R97) -/

theorem normalize_range {i j : Inst} {a : Unit} (hr : normalize i = .ok a j) (h : 2 ^ 16 ≤ i.range.toNat) :
    0x1000000 ≤ j.range.toNat := by
  by_cases hn : 0x1000000 ≤ i.range.toNat
  · rw [normalize_id hn] at hr; cases hr; exact hn
  · by_cases hin : i.ip < i.srcLen
    · rw [normalize_shift (by omega) hin] at hr
      cases hr
      simp only [BitVec.toNat_shiftLeft, Nat.shiftLeft_eq]
      omega
    · rw [normalize_raised (by omega) (by omega)] at hr; cases hr

/-- After a decision `range` is at least 2^24 again (R11). -/
theorem decision_range {q : Query} {i j : Inst} {b : Bool} (h : 0x1000000 ≤ i.range.toNat)
    (hp : ∀ c, q = .adaptive c → probOk (i.prob c)) (hr : decision q i = .ok b j) : 0x1000000 ≤ j.range.toNat := by
  have hlt := i.range.isLt
  cases q with
  | adaptive c =>
    obtain ⟨p1, p2⟩ := hp c rfl
    have hb := boundOf_toNat i.range (i.prob c)
    have hlow : 8192 * 31 ≤ (boundOf i.range (i.prob c)).toNat := by
      rw [hb]; exact Nat.mul_le_mul (by omega) p1
    have hhigh : (boundOf i.range (i.prob c)).toNat ≤ i.range.toNat / 2048 * 2017 := by
      rw [hb]; exact Nat.mul_le_mul_left _ p2
    rcases decodeBit_cases c i with ⟨-, h1⟩ | ⟨-, h1⟩
    · simp only [decision, h1] at hr
      obtain ⟨a, ha, -⟩ := Res.map_eq_ok.1 hr
      exact normalize_range ha (by simp only; omega)
    · simp only [decision, h1] at hr
      obtain ⟨a, ha, -⟩ := Res.map_eq_ok.1 hr
      refine normalize_range ha ?_
      simp only [BitVec.toNat_sub]
      omega
  | direct =>
    have hs : (i.range >>> 1).toNat = i.range.toNat / 2 := by simp [Nat.shiftRight_eq_div_pow]
    rcases directBit_cases i with ⟨-, h1⟩ | ⟨-, h1⟩ <;>
    · simp only [decision, h1] at hr
      obtain ⟨a, ha, -⟩ := Res.map_eq_ok.1 hr
      exact normalize_range ha (by simp only; omega)

/-- A program keeps `range` normalised. -/
theorem runDec_range {α : Type} {n : Nat} {d : Dec α} (ha : Dec.asksOnly (fun c => counterIndex c < n) d) {i j : Inst}
    {a : α} (hp : probsIn n i.probs) (h : 0x1000000 ≤ i.range.toNat) (hr : runDec d i = .ok a j) :
    0x1000000 ≤ j.range.toNat := by
  induction d generalizing i with
  | done b => simp only [runDec, Res.ok.injEq] at hr; exact hr.2 ▸ h
  | ask q k ih =>
    simp only [runDec] at hr
    split at hr
    · next b i1 hd =>
      have h1 := decision_range h (fun c _ => probsIn_prob hp c) hd
      have h2 := decision_probsIn (q := q) hp ha.1
      rw [hd] at h2
      exact ih b (ha.2 b) h2 h1 hr
    · cases hr

end Sys2Proof.Machine
end

