-- ==== Sys2Proof/Laws/Operands.lean ====
section
/-! SUPPORT. The operands of packets: how many decisions each asks, what it can answer, and which counters it asks. -/

namespace Sys2Proof.Machine

theorem bitDec_within (c : Counter) : Dec.within (bitDec c) 1 := fun _ => trivial

/-! ## Literals -/

theorem matchedWalk_within (ctx : Fin 256) (n symbol mb : Nat) : Dec.within (matchedWalk ctx n symbol mb) n := by
  induction n generalizing symbol mb with
  | zero => trivial
  | succ n ih =>
    intro b
    show Dec.within (if _ then _ else _) n
    split
    · exact ih _ _
    · exact treeWalk_within _ _ _

theorem litDec_within (ctx : Fin 256) (m : LitMode) : Dec.within (litDec ctx m) 8 := by
  cases m
  · exact Dec.within_map (treeDec_within _ _)
  · exact Dec.within_map (matchedWalk_within _ _ _ _)

theorem plainDec_asksOnly (ctx : Fin 256) : Dec.asksOnly (ofTree (.lit ctx)) (plainDec ctx) := by
  refine Dec.asksOnly_map (Dec.asksOnly_mono (treeDec_asksOnly _ _) ?_)
  rintro c ⟨k, -, -, rfl⟩
  exact ⟨k, rfl⟩

theorem matchedWalk_asksOnly (ctx : Fin 256) (n symbol mb : Nat) :
    Dec.asksOnly (ofTree (.lit ctx)) (matchedWalk ctx n symbol mb) := by
  induction n generalizing symbol mb with
  | zero => trivial
  | succ n ih =>
    refine ⟨fun c hc => ⟨_, by cases hc; rfl⟩, fun b => ?_⟩
    show Dec.asksOnly _ (if _ then _ else _)
    split
    · exact ih _ _
    · refine Dec.asksOnly_mono (treeWalk_asksOnly _ _ _) ?_
      rintro c ⟨k, -, -, rfl⟩
      exact ⟨k, rfl⟩

theorem matchedDec_asksOnly (ctx : Fin 256) (mb : Byte) : Dec.asksOnly (ofTree (.lit ctx)) (matchedDec ctx mb) :=
  Dec.asksOnly_map (matchedWalk_asksOnly _ _ _ _)

theorem litContextNat_lt {i : Inst} (h : i.lc.toNat ≤ 8) : i.litContextNat < i.numLitCtx := by
  have h1 : i.prev.toNat / 2 ^ (8 - i.lc.toNat) < 2 ^ i.lc.toNat := by
    rw [Nat.div_lt_iff_lt_mul (Nat.two_pow_pos _), ← Nat.pow_add]
    have : i.lc.toNat + (8 - i.lc.toNat) = 8 := by omega
    rw [this]
    exact i.prev.isLt
  have h2 : i.op % 2 ^ i.lp.toNat < 2 ^ i.lp.toNat := Nat.mod_lt _ (Nat.two_pow_pos _)
  unfold Inst.litContextNat Inst.numLitCtx
  rw [Nat.pow_add]
  calc _ < i.prev.toNat / 2 ^ (8 - i.lc.toNat) * 2 ^ i.lp.toNat + 2 ^ i.lp.toNat := by omega
    _ = (i.prev.toNat / 2 ^ (8 - i.lc.toNat) + 1) * 2 ^ i.lp.toNat := by ring
    _ ≤ _ := Nat.mul_le_mul_right _ h1

theorem numLitCtx_le {i : Inst} (h : i.propsLegal) : i.numLitCtx ≤ 256 := by
  unfold Inst.numLitCtx
  calc 2 ^ (i.lc.toNat + i.lp.toNat) ≤ 2 ^ 8 := Nat.pow_le_pow_right (by omega) h.2.2.2
    _ = 256 := by norm_num

theorem litContext_val {i : Inst} (h : i.propsLegal) : i.litContext.val = i.litContextNat := by
  have h1 := litContextNat_lt h.1
  have h2 := numLitCtx_le h
  simp only [Inst.litContext, Fin.val_ofNat]
  exact Nat.mod_eq_of_lt (by omega)

/-- The counters of the instance's own literal context are counters of the instance (R98, R110). -/
theorem litCounter_lt {i : Inst} (h : i.propsLegal) {c : Counter} (hc : ofTree (.lit i.litContext) c) :
    counterIndex c < i.numCounters := by
  obtain ⟨k, rfl⟩ := hc
  have h1 := litContextNat_lt h.1
  rw [← litContext_val h] at h1
  have h2 : (Fin.ofNat 768 k).val < 768 := (Fin.ofNat 768 k).isLt
  simp only [Tree.counter, counterIndex, Inst.numCounters]
  omega

/-! ## The fixed counters -/

/-- A counter outside the literal array: every instance has it (R24). -/
def isFixed (c : Counter) : Prop := counterIndex c < 1847

theorem isFixed.lt {c : Counter} (h : isFixed c) (i : Inst) : counterIndex c < i.numCounters :=
  Nat.lt_of_lt_of_le h (Nat.le_add_right _ _)

theorem isFixed_of_tree {t : Tree} (h : ∀ ctx, t ≠ .lit ctx) (k : Nat) : isFixed (t.counter k) := by
  cases t <;> simp only [isFixed, Tree.counter, counterIndex, coderNum]
  case posSlot ls => have := (Fin.ofNat 64 k).isLt; have := ls.isLt; omega
  case specPos => have := (Fin.ofNat 115 k).isLt; omega
  case align => have := (Fin.ofNat 16 k).isLt; omega
  case low c ps => have := (Fin.ofNat 8 k).isLt; have := ps.isLt; cases c <;> simp only <;> omega
  case mid c ps => have := (Fin.ofNat 8 k).isLt; have := ps.isLt; cases c <;> simp only <;> omega
  case high c => have := (Fin.ofNat 256 k).isLt; cases c <;> simp only <;> omega
  case lit ctx => exact absurd rfl (h ctx)

theorem treeWalk_fixed {t : Tree} (h : ∀ ctx, t ≠ .lit ctx) (n m : Nat) : Dec.asksOnly isFixed (treeWalk t n m) := by
  refine Dec.asksOnly_mono (treeWalk_asksOnly t n m) ?_
  rintro c ⟨k, -, -, rfl⟩
  exact isFixed_of_tree h k

theorem reverseWalk_fixed {t : Tree} (h : ∀ ctx, t ≠ .lit ctx) (base n m w v : Nat) :
    Dec.asksOnly isFixed (reverseWalk t base n m w v) := by
  induction n generalizing m w v with
  | zero => trivial
  | succ n ih => exact ⟨fun c hc => by cases hc; exact isFixed_of_tree h _, fun b => ih _ _ _⟩

theorem bitDec_fixed {c : Counter} (h : isFixed c) : Dec.asksOnly isFixed (bitDec c) :=
  ⟨fun d hd => by cases hd; exact h, fun _ => trivial⟩

/-! ## Lengths -/

theorem lowDec_within (c : Coder) (ps : PosState) : Dec.within (lowDec c ps) 3 := Dec.within_map (treeDec_within _ _)

theorem midDec_within (c : Coder) (ps : PosState) : Dec.within (midDec c ps) 3 := Dec.within_map (treeDec_within _ _)

theorem highDec_within (c : Coder) : Dec.within (highDec c) 8 := Dec.within_map (treeDec_within _ _)

theorem lowDec_ensures (c : Coder) (ps : PosState) : Dec.ensures (fun n => 2 ≤ n ∧ n ≤ 9) (lowDec c ps) :=
  Dec.ensures_map (treeDec_ensures _ _) fun a h => by omega

theorem midDec_ensures (c : Coder) (ps : PosState) : Dec.ensures (fun n => 10 ≤ n ∧ n ≤ 17) (midDec c ps) :=
  Dec.ensures_map (treeDec_ensures _ _) fun a h => by omega

theorem highDec_ensures (c : Coder) : Dec.ensures (fun n => 18 ≤ n ∧ n ≤ 273) (highDec c) :=
  Dec.ensures_map (treeDec_ensures _ _) fun a h => by omega

theorem lenDec_within (c : Coder) (ps : PosState) : Dec.within (lenDec c ps) 10 := by
  refine Dec.within_bind (n := 1) (m := 9) (bitDec_within _) fun b => ?_
  cases b
  · exact Dec.within_mono (lowDec_within c ps) (by omega)
  · refine Dec.within_bind (n := 1) (m := 8) (bitDec_within _) fun b2 => ?_
    cases b2
    · exact Dec.within_mono (midDec_within c ps) (by omega)
    · exact highDec_within c

theorem lenDec_ensures (c : Coder) (ps : PosState) : Dec.ensures (fun n => 2 ≤ n ∧ n ≤ 273) (lenDec c ps) := by
  refine Dec.ensures_bind (P := fun _ => True) (fun _ => trivial) fun b _ => ?_
  cases b
  · exact Dec.ensures_mono (lowDec_ensures c ps) fun _ h => by omega
  · refine Dec.ensures_bind (P := fun _ => True) (fun _ => trivial) fun b2 _ => ?_
    cases b2
    · exact Dec.ensures_mono (midDec_ensures c ps) fun _ h => by omega
    · exact Dec.ensures_mono (highDec_ensures c) fun _ h => by omega

theorem isFixed_choice (c : Coder) : isFixed (.choice c) := by cases c <;> simp [isFixed, counterIndex, coderNum]

theorem isFixed_choice2 (c : Coder) : isFixed (.choice2 c) := by cases c <;> simp [isFixed, counterIndex, coderNum]

theorem lowDec_fixed (c : Coder) (ps : PosState) : Dec.asksOnly isFixed (lowDec c ps) :=
  Dec.asksOnly_map (Dec.asksOnly_map (treeWalk_fixed (by intro _ h; cases h) _ _))

theorem midDec_fixed (c : Coder) (ps : PosState) : Dec.asksOnly isFixed (midDec c ps) :=
  Dec.asksOnly_map (Dec.asksOnly_map (treeWalk_fixed (by intro _ h; cases h) _ _))

theorem highDec_fixed (c : Coder) : Dec.asksOnly isFixed (highDec c) :=
  Dec.asksOnly_map (Dec.asksOnly_map (treeWalk_fixed (by intro _ h; cases h) _ _))

theorem lenDec_fixed (c : Coder) (ps : PosState) : Dec.asksOnly isFixed (lenDec c ps) := by
  refine Dec.asksOnly_bind (bitDec_fixed (isFixed_choice c)) fun b => ?_
  cases b
  · exact lowDec_fixed c ps
  · refine Dec.asksOnly_bind (bitDec_fixed (isFixed_choice2 c)) fun b2 => ?_
    cases b2
    · exact midDec_fixed c ps
    · exact highDec_fixed c

/-! ## Distances -/

theorem slotDec_within (slot : Nat) (h : slot < 64) : Dec.within (slotDec slot) 30 := by
  unfold slotDec
  split
  · trivial
  · split
    · refine Dec.within_mono (Dec.within_map (reverseDec_within _ _ _)) ?_
      unfold slotBits; omega
    · refine Dec.within_mono
        (Dec.within_bind (directDec_within _) (m := 4) fun _ => Dec.within_map (reverseDec_within _ _ _)) ?_
      unfold slotBits; omega

theorem slotDec_fixed (slot : Nat) : Dec.asksOnly isFixed (slotDec slot) := by
  unfold slotDec
  split
  · trivial
  · split
    · exact Dec.asksOnly_map (reverseWalk_fixed (by intro _ h; cases h) _ _ _ _ _)
    · exact Dec.asksOnly_bind (directDec_asksOnly _ _) fun _ =>
        Dec.asksOnly_map (reverseWalk_fixed (by intro _ h; cases h) _ _ _ _ _)

theorem slotDec_ensures (slot : Nat) : Dec.ensures (inSlot slot) (slotDec slot) := by
  unfold slotDec inSlot
  split
  · exact rfl
  · split
    · exact Dec.ensures_map (reverseDec_ensures _ _ _) fun v h => ⟨by omega, by omega⟩
    · refine Dec.ensures_bind (directDec_ensures _) fun d hd => ?_
      refine Dec.ensures_map (reverseDec_ensures _ _ _) fun v h => ⟨by omega, ?_⟩
      have hp : 2 ^ slotBits slot = 2 ^ (slotBits slot - 4) * 16 := by
        rw [show (16 : Nat) = 2 ^ 4 by norm_num, ← Nat.pow_add]
        congr 1
        unfold slotBits; omega
      omega

theorem inSlot_lt {slot d : Nat} (h : slot < 64) (hd : inSlot slot d) : d < 2 ^ 32 := by
  unfold inSlot at hd
  split at hd
  · omega
  · refine Nat.lt_of_lt_of_le hd.2 ?_
    have hb : slotBits slot ≤ 30 := by unfold slotBits; omega
    have h2 : slotBase slot + 2 ^ slotBits slot ≤ 4 * 2 ^ slotBits slot := by
      unfold slotBase
      have := Nat.two_pow_pos (slotBits slot)
      nlinarith [Nat.mod_lt slot (show 0 < 2 by omega)]
    calc _ ≤ 4 * 2 ^ slotBits slot := h2
      _ ≤ 4 * 2 ^ 30 := Nat.mul_le_mul_left _ (Nat.pow_le_pow_right (by omega) hb)
      _ = 2 ^ 32 := by norm_num

theorem distDec_ensures (n : Nat) : Dec.ensures (fun d => d < 2 ^ 32) (distDec n) :=
  Dec.ensures_bind (treeDec_ensures _ _) fun slot hs =>
    Dec.ensures_mono (slotDec_ensures slot) fun _ hd => inSlot_lt hs hd

theorem Dec.within_bind' {α β : Type} {P : α → Prop} {d : Dec α} {f : α → Dec β} {n m : Nat} (h : Dec.within d n)
    (he : Dec.ensures P d) (hf : ∀ a, P a → Dec.within (f a) m) : Dec.within (d.bind f) (n + m) := by
  induction d generalizing n with
  | done a => exact Dec.within_mono (hf a he) (by omega)
  | ask q k ih =>
    cases n with
    | zero => exact h.elim
    | succ n =>
      rw [show n + 1 + m = n + m + 1 by omega]
      exact fun b => ih b (h b) (he b)

theorem distDec_within (n : Nat) : Dec.within (distDec n) 36 :=
  Dec.within_bind' (treeDec_within _ 6) (treeDec_ensures _ 6) fun slot hs => slotDec_within slot hs

theorem distDec_fixed (n : Nat) : Dec.asksOnly isFixed (distDec n) :=
  Dec.asksOnly_bind (Dec.asksOnly_map (treeWalk_fixed (by intro _ h; cases h) _ _)) fun slot => slotDec_fixed slot

theorem matchOperandsDec_within (ps : PosState) : Dec.within (matchOperandsDec ps) 46 :=
  Dec.within_bind (n := 10) (m := 36) (lenDec_within _ _) fun n => Dec.within_map (distDec_within n)

theorem matchOperandsDec_ensures (ps : PosState) :
    Dec.ensures (fun nd => 2 ≤ nd.1 ∧ nd.1 ≤ 273) (matchOperandsDec ps) :=
  Dec.ensures_bind (lenDec_ensures _ _) fun n hn => Dec.ensures_map (distDec_ensures n) fun _ _ => hn

theorem matchOperandsDec_fixed (ps : PosState) : Dec.asksOnly isFixed (matchOperandsDec ps) :=
  Dec.asksOnly_bind (lenDec_fixed _ _) fun n => Dec.asksOnly_map (distDec_fixed n)

/-! ## Naming decisions -/

theorem kindDec_within (s : StateIndex) (ps : PosState) : Dec.within (kindDec s ps) 5 := by
  refine Dec.within_bind (n := 1) (m := 4) (bitDec_within _) fun b => ?_
  cases b
  · trivial
  refine Dec.within_bind (n := 1) (m := 3) (bitDec_within _) fun b => ?_
  cases b
  · trivial
  refine Dec.within_bind (n := 1) (m := 2) (bitDec_within _) fun b => ?_
  cases b
  · exact Dec.within_bind (n := 1) (m := 1) (bitDec_within _) fun b => trivial
  refine Dec.within_bind (n := 1) (m := 1) (bitDec_within _) fun b => ?_
  cases b
  · trivial
  exact Dec.within_bind (n := 1) (m := 0) (bitDec_within _) fun b => trivial

theorem kindDec_fixed (s : StateIndex) (ps : PosState) : Dec.asksOnly isFixed (kindDec s ps) := by
  have hs := s.isLt
  have hps := ps.isLt
  refine Dec.asksOnly_bind (bitDec_fixed (by simp only [isFixed, counterIndex]; omega)) fun b => ?_
  cases b
  · trivial
  refine Dec.asksOnly_bind (bitDec_fixed (by simp only [isFixed, counterIndex]; omega)) fun b => ?_
  cases b
  · trivial
  refine Dec.asksOnly_bind (bitDec_fixed (by simp only [isFixed, counterIndex]; omega)) fun b => ?_
  cases b
  · exact Dec.asksOnly_bind (bitDec_fixed (by simp only [isFixed, counterIndex]; omega)) fun b => trivial
  refine Dec.asksOnly_bind (bitDec_fixed (by simp only [isFixed, counterIndex]; omega)) fun b => ?_
  cases b
  · trivial
  exact Dec.asksOnly_bind (bitDec_fixed (by simp only [isFixed, counterIndex]; omega)) fun b => trivial

end Sys2Proof.Machine
end

