-- ==== Sys2Proof/Laws/State.lean ====
section
/-! SUPPORT. What each named update of an instance or of the state leaves in each field: one lemma per field per update,
so that no proof unfolds a record update. -/

namespace Sys2Proof.Machine

/-! ## Updates of an instance -/

@[simp] theorem resetInst_range (i : Inst) : (resetInst i).range = i.range := rfl

@[simp] theorem resetInst_code (i : Inst) : (resetInst i).code = i.code := rfl

@[simp] theorem resetInst_ip (i : Inst) : (resetInst i).ip = 0 := rfl

@[simp] theorem resetInst_op (i : Inst) : (resetInst i).op = 0 := rfl

@[simp] theorem resetInst_rep0 (i : Inst) : (resetInst i).rep0 = 0 := rfl

@[simp] theorem resetInst_rep1 (i : Inst) : (resetInst i).rep1 = 0 := rfl

@[simp] theorem resetInst_rep2 (i : Inst) : (resetInst i).rep2 = 0 := rfl

@[simp] theorem resetInst_rep3 (i : Inst) : (resetInst i).rep3 = 0 := rfl

@[simp] theorem resetInst_st (i : Inst) : (resetInst i).st = 0 := rfl

@[simp] theorem resetInst_prev (i : Inst) : (resetInst i).prev = 0 := rfl

@[simp] theorem resetInst_lc (i : Inst) : (resetInst i).lc = i.lc := rfl

@[simp] theorem resetInst_lp (i : Inst) : (resetInst i).lp = i.lp := rfl

@[simp] theorem resetInst_pb (i : Inst) : (resetInst i).pb = i.pb := rfl

@[simp] theorem resetInst_dictSize (i : Inst) : (resetInst i).dictSize = i.dictSize := rfl

@[simp] theorem resetInst_srcLen (i : Inst) : (resetInst i).srcLen = i.srcLen := rfl

@[simp] theorem resetInst_destCapacity (i : Inst) : (resetInst i).destCapacity = i.destCapacity := rfl

@[simp] theorem resetInst_busy (i : Inst) : (resetInst i).busy = i.busy := rfl

@[simp] theorem resetInst_status (i : Inst) : (resetInst i).status = i.status := rfl

@[simp] theorem resetInst_endReason (i : Inst) : (resetInst i).endReason = i.endReason := rfl

@[simp] theorem resetInst_probs (i : Inst) : (resetInst i).probs = [] := rfl

@[simp] theorem resetInst_src (i : Inst) : (resetInst i).src = i.src := rfl

@[simp] theorem resetInst_out (i : Inst) : (resetInst i).out = i.out := rfl

@[simp] theorem resetInst_epoch (i : Inst) : (resetInst i).epoch = i.epoch := rfl

@[simp] theorem Inst.abandoned_range (i : Inst) (e : Err) (n : Nat) : (i.abandoned e n).range = i.range := rfl

@[simp] theorem Inst.abandoned_code (i : Inst) (e : Err) (n : Nat) : (i.abandoned e n).code = i.code := rfl

@[simp] theorem Inst.abandoned_ip (i : Inst) (e : Err) (n : Nat) : (i.abandoned e n).ip = i.ip := rfl

@[simp] theorem Inst.abandoned_op (i : Inst) (e : Err) (n : Nat) : (i.abandoned e n).op = i.op := rfl

@[simp] theorem Inst.abandoned_rep0 (i : Inst) (e : Err) (n : Nat) : (i.abandoned e n).rep0 = i.rep0 := rfl

@[simp] theorem Inst.abandoned_rep1 (i : Inst) (e : Err) (n : Nat) : (i.abandoned e n).rep1 = i.rep1 := rfl

@[simp] theorem Inst.abandoned_rep2 (i : Inst) (e : Err) (n : Nat) : (i.abandoned e n).rep2 = i.rep2 := rfl

@[simp] theorem Inst.abandoned_rep3 (i : Inst) (e : Err) (n : Nat) : (i.abandoned e n).rep3 = i.rep3 := rfl

@[simp] theorem Inst.abandoned_st (i : Inst) (e : Err) (n : Nat) : (i.abandoned e n).st = i.st := rfl

@[simp] theorem Inst.abandoned_prev (i : Inst) (e : Err) (n : Nat) : (i.abandoned e n).prev = i.prev := rfl

@[simp] theorem Inst.abandoned_lc (i : Inst) (e : Err) (n : Nat) : (i.abandoned e n).lc = i.lc := rfl

@[simp] theorem Inst.abandoned_lp (i : Inst) (e : Err) (n : Nat) : (i.abandoned e n).lp = i.lp := rfl

@[simp] theorem Inst.abandoned_pb (i : Inst) (e : Err) (n : Nat) : (i.abandoned e n).pb = i.pb := rfl

@[simp] theorem Inst.abandoned_dictSize (i : Inst) (e : Err) (n : Nat) : (i.abandoned e n).dictSize = i.dictSize := rfl

@[simp] theorem Inst.abandoned_srcLen (i : Inst) (e : Err) (n : Nat) : (i.abandoned e n).srcLen = i.srcLen := rfl

@[simp] theorem Inst.abandoned_destCapacity (i : Inst) (e : Err) (n : Nat) : (i.abandoned e n).destCapacity = i.destCapacity := rfl

@[simp] theorem Inst.abandoned_busy (i : Inst) (e : Err) (n : Nat) : (i.abandoned e n).busy = false := rfl

@[simp] theorem Inst.abandoned_status (i : Inst) (e : Err) (n : Nat) : (i.abandoned e n).status = .error e := rfl

@[simp] theorem Inst.abandoned_endReason (i : Inst) (e : Err) (n : Nat) : (i.abandoned e n).endReason = i.endReason := rfl

@[simp] theorem Inst.abandoned_probs (i : Inst) (e : Err) (n : Nat) : (i.abandoned e n).probs = i.probs := rfl

@[simp] theorem Inst.abandoned_src (i : Inst) (e : Err) (n : Nat) : (i.abandoned e n).src = i.src := rfl

@[simp] theorem Inst.abandoned_out (i : Inst) (e : Err) (n : Nat) : (i.abandoned e n).out = [] := rfl

@[simp] theorem Inst.abandoned_epoch (i : Inst) (e : Err) (n : Nat) : (i.abandoned e n).epoch = n := rfl

@[simp] theorem endRun_range (i : Inst) : (endRun i).range = i.range := rfl

@[simp] theorem endRun_code (i : Inst) : (endRun i).code = i.code := rfl

@[simp] theorem endRun_ip (i : Inst) : (endRun i).ip = i.ip := rfl

@[simp] theorem endRun_op (i : Inst) : (endRun i).op = i.op := rfl

@[simp] theorem endRun_rep0 (i : Inst) : (endRun i).rep0 = i.rep0 := rfl

@[simp] theorem endRun_rep1 (i : Inst) : (endRun i).rep1 = i.rep1 := rfl

@[simp] theorem endRun_rep2 (i : Inst) : (endRun i).rep2 = i.rep2 := rfl

@[simp] theorem endRun_rep3 (i : Inst) : (endRun i).rep3 = i.rep3 := rfl

@[simp] theorem endRun_st (i : Inst) : (endRun i).st = i.st := rfl

@[simp] theorem endRun_prev (i : Inst) : (endRun i).prev = i.prev := rfl

@[simp] theorem endRun_lc (i : Inst) : (endRun i).lc = i.lc := rfl

@[simp] theorem endRun_lp (i : Inst) : (endRun i).lp = i.lp := rfl

@[simp] theorem endRun_pb (i : Inst) : (endRun i).pb = i.pb := rfl

@[simp] theorem endRun_dictSize (i : Inst) : (endRun i).dictSize = i.dictSize := rfl

@[simp] theorem endRun_srcLen (i : Inst) : (endRun i).srcLen = i.srcLen := rfl

@[simp] theorem endRun_destCapacity (i : Inst) : (endRun i).destCapacity = i.destCapacity := rfl

@[simp] theorem endRun_busy (i : Inst) : (endRun i).busy = i.busy := rfl

@[simp] theorem endRun_status (i : Inst) : (endRun i).status = i.status := rfl

@[simp] theorem endRun_endReason (i : Inst) : (endRun i).endReason = .endMarker := rfl

@[simp] theorem endRun_probs (i : Inst) : (endRun i).probs = i.probs := rfl

@[simp] theorem endRun_src (i : Inst) : (endRun i).src = i.src := rfl

@[simp] theorem endRun_out (i : Inst) : (endRun i).out = i.out := rfl

@[simp] theorem endRun_epoch (i : Inst) : (endRun i).epoch = i.epoch := rfl

@[simp] theorem Inst.pushRep_range (i : Inst) (x : Word) : (i.pushRep x).range = i.range := rfl

@[simp] theorem Inst.pushRep_code (i : Inst) (x : Word) : (i.pushRep x).code = i.code := rfl

@[simp] theorem Inst.pushRep_ip (i : Inst) (x : Word) : (i.pushRep x).ip = i.ip := rfl

@[simp] theorem Inst.pushRep_op (i : Inst) (x : Word) : (i.pushRep x).op = i.op := rfl

@[simp] theorem Inst.pushRep_rep0 (i : Inst) (x : Word) : (i.pushRep x).rep0 = x := rfl

@[simp] theorem Inst.pushRep_rep1 (i : Inst) (x : Word) : (i.pushRep x).rep1 = i.rep0 := rfl

@[simp] theorem Inst.pushRep_rep2 (i : Inst) (x : Word) : (i.pushRep x).rep2 = i.rep1 := rfl

@[simp] theorem Inst.pushRep_rep3 (i : Inst) (x : Word) : (i.pushRep x).rep3 = i.rep2 := rfl

@[simp] theorem Inst.pushRep_st (i : Inst) (x : Word) : (i.pushRep x).st = i.st := rfl

@[simp] theorem Inst.pushRep_prev (i : Inst) (x : Word) : (i.pushRep x).prev = i.prev := rfl

@[simp] theorem Inst.pushRep_lc (i : Inst) (x : Word) : (i.pushRep x).lc = i.lc := rfl

@[simp] theorem Inst.pushRep_lp (i : Inst) (x : Word) : (i.pushRep x).lp = i.lp := rfl

@[simp] theorem Inst.pushRep_pb (i : Inst) (x : Word) : (i.pushRep x).pb = i.pb := rfl

@[simp] theorem Inst.pushRep_dictSize (i : Inst) (x : Word) : (i.pushRep x).dictSize = i.dictSize := rfl

@[simp] theorem Inst.pushRep_srcLen (i : Inst) (x : Word) : (i.pushRep x).srcLen = i.srcLen := rfl

@[simp] theorem Inst.pushRep_destCapacity (i : Inst) (x : Word) : (i.pushRep x).destCapacity = i.destCapacity := rfl

@[simp] theorem Inst.pushRep_busy (i : Inst) (x : Word) : (i.pushRep x).busy = i.busy := rfl

@[simp] theorem Inst.pushRep_status (i : Inst) (x : Word) : (i.pushRep x).status = i.status := rfl

@[simp] theorem Inst.pushRep_endReason (i : Inst) (x : Word) : (i.pushRep x).endReason = i.endReason := rfl

@[simp] theorem Inst.pushRep_probs (i : Inst) (x : Word) : (i.pushRep x).probs = i.probs := rfl

@[simp] theorem Inst.pushRep_src (i : Inst) (x : Word) : (i.pushRep x).src = i.src := rfl

@[simp] theorem Inst.pushRep_out (i : Inst) (x : Word) : (i.pushRep x).out = i.out := rfl

@[simp] theorem Inst.pushRep_epoch (i : Inst) (x : Word) : (i.pushRep x).epoch = i.epoch := rfl

@[simp] theorem Inst.begun_range (i : Inst) (src : List Byte) (cap n : Nat) : (i.begun src cap n).range = i.range := rfl

@[simp] theorem Inst.begun_code (i : Inst) (src : List Byte) (cap n : Nat) : (i.begun src cap n).code = i.code := rfl

@[simp] theorem Inst.begun_ip (i : Inst) (src : List Byte) (cap n : Nat) : (i.begun src cap n).ip = 0 := rfl

@[simp] theorem Inst.begun_op (i : Inst) (src : List Byte) (cap n : Nat) : (i.begun src cap n).op = 0 := rfl

@[simp] theorem Inst.begun_rep0 (i : Inst) (src : List Byte) (cap n : Nat) : (i.begun src cap n).rep0 = 0 := rfl

@[simp] theorem Inst.begun_rep1 (i : Inst) (src : List Byte) (cap n : Nat) : (i.begun src cap n).rep1 = 0 := rfl

@[simp] theorem Inst.begun_rep2 (i : Inst) (src : List Byte) (cap n : Nat) : (i.begun src cap n).rep2 = 0 := rfl

@[simp] theorem Inst.begun_rep3 (i : Inst) (src : List Byte) (cap n : Nat) : (i.begun src cap n).rep3 = 0 := rfl

@[simp] theorem Inst.begun_st (i : Inst) (src : List Byte) (cap n : Nat) : (i.begun src cap n).st = 0 := rfl

@[simp] theorem Inst.begun_prev (i : Inst) (src : List Byte) (cap n : Nat) : (i.begun src cap n).prev = 0 := rfl

@[simp] theorem Inst.begun_lc (i : Inst) (src : List Byte) (cap n : Nat) : (i.begun src cap n).lc = i.lc := rfl

@[simp] theorem Inst.begun_lp (i : Inst) (src : List Byte) (cap n : Nat) : (i.begun src cap n).lp = i.lp := rfl

@[simp] theorem Inst.begun_pb (i : Inst) (src : List Byte) (cap n : Nat) : (i.begun src cap n).pb = i.pb := rfl

@[simp] theorem Inst.begun_dictSize (i : Inst) (src : List Byte) (cap n : Nat) : (i.begun src cap n).dictSize = i.dictSize := rfl

@[simp] theorem Inst.begun_srcLen (i : Inst) (src : List Byte) (cap n : Nat) : (i.begun src cap n).srcLen = src.length := rfl

@[simp] theorem Inst.begun_destCapacity (i : Inst) (src : List Byte) (cap n : Nat) : (i.begun src cap n).destCapacity = cap := rfl

@[simp] theorem Inst.begun_busy (i : Inst) (src : List Byte) (cap n : Nat) : (i.begun src cap n).busy = true := rfl

@[simp] theorem Inst.begun_status (i : Inst) (src : List Byte) (cap n : Nat) : (i.begun src cap n).status = i.status := rfl

@[simp] theorem Inst.begun_endReason (i : Inst) (src : List Byte) (cap n : Nat) : (i.begun src cap n).endReason = i.endReason := rfl

@[simp] theorem Inst.begun_probs (i : Inst) (src : List Byte) (cap n : Nat) : (i.begun src cap n).probs = [] := rfl

@[simp] theorem Inst.begun_src (i : Inst) (src : List Byte) (cap n : Nat) : (i.begun src cap n).src = Memory.ofBytes src := rfl

@[simp] theorem Inst.begun_out (i : Inst) (src : List Byte) (cap n : Nat) : (i.begun src cap n).out = [] := rfl

@[simp] theorem Inst.begun_epoch (i : Inst) (src : List Byte) (cap n : Nat) : (i.begun src cap n).epoch = n := rfl

@[simp] theorem Inst.rotateRep_range (i : Inst) (k : Fin 4) : (i.rotateRep k).range = i.range := by
  match k with
  | 0 | 1 | 2 | 3 => rfl

@[simp] theorem Inst.rotateRep_code (i : Inst) (k : Fin 4) : (i.rotateRep k).code = i.code := by
  match k with
  | 0 | 1 | 2 | 3 => rfl

@[simp] theorem Inst.rotateRep_ip (i : Inst) (k : Fin 4) : (i.rotateRep k).ip = i.ip := by
  match k with
  | 0 | 1 | 2 | 3 => rfl

@[simp] theorem Inst.rotateRep_op (i : Inst) (k : Fin 4) : (i.rotateRep k).op = i.op := by
  match k with
  | 0 | 1 | 2 | 3 => rfl

@[simp] theorem Inst.rotateRep_st (i : Inst) (k : Fin 4) : (i.rotateRep k).st = i.st := by
  match k with
  | 0 | 1 | 2 | 3 => rfl

@[simp] theorem Inst.rotateRep_prev (i : Inst) (k : Fin 4) : (i.rotateRep k).prev = i.prev := by
  match k with
  | 0 | 1 | 2 | 3 => rfl

@[simp] theorem Inst.rotateRep_lc (i : Inst) (k : Fin 4) : (i.rotateRep k).lc = i.lc := by
  match k with
  | 0 | 1 | 2 | 3 => rfl

@[simp] theorem Inst.rotateRep_lp (i : Inst) (k : Fin 4) : (i.rotateRep k).lp = i.lp := by
  match k with
  | 0 | 1 | 2 | 3 => rfl

@[simp] theorem Inst.rotateRep_pb (i : Inst) (k : Fin 4) : (i.rotateRep k).pb = i.pb := by
  match k with
  | 0 | 1 | 2 | 3 => rfl

@[simp] theorem Inst.rotateRep_dictSize (i : Inst) (k : Fin 4) : (i.rotateRep k).dictSize = i.dictSize := by
  match k with
  | 0 | 1 | 2 | 3 => rfl

@[simp] theorem Inst.rotateRep_srcLen (i : Inst) (k : Fin 4) : (i.rotateRep k).srcLen = i.srcLen := by
  match k with
  | 0 | 1 | 2 | 3 => rfl

@[simp] theorem Inst.rotateRep_destCapacity (i : Inst) (k : Fin 4) : (i.rotateRep k).destCapacity = i.destCapacity := by
  match k with
  | 0 | 1 | 2 | 3 => rfl

@[simp] theorem Inst.rotateRep_busy (i : Inst) (k : Fin 4) : (i.rotateRep k).busy = i.busy := by
  match k with
  | 0 | 1 | 2 | 3 => rfl

@[simp] theorem Inst.rotateRep_status (i : Inst) (k : Fin 4) : (i.rotateRep k).status = i.status := by
  match k with
  | 0 | 1 | 2 | 3 => rfl

@[simp] theorem Inst.rotateRep_endReason (i : Inst) (k : Fin 4) : (i.rotateRep k).endReason = i.endReason := by
  match k with
  | 0 | 1 | 2 | 3 => rfl

@[simp] theorem Inst.rotateRep_probs (i : Inst) (k : Fin 4) : (i.rotateRep k).probs = i.probs := by
  match k with
  | 0 | 1 | 2 | 3 => rfl

@[simp] theorem Inst.rotateRep_src (i : Inst) (k : Fin 4) : (i.rotateRep k).src = i.src := by
  match k with
  | 0 | 1 | 2 | 3 => rfl

@[simp] theorem Inst.rotateRep_out (i : Inst) (k : Fin 4) : (i.rotateRep k).out = i.out := by
  match k with
  | 0 | 1 | 2 | 3 => rfl

@[simp] theorem Inst.rotateRep_epoch (i : Inst) (k : Fin 4) : (i.rotateRep k).epoch = i.epoch := by
  match k with
  | 0 | 1 | 2 | 3 => rfl

/-- The selected register is in front after the rotation (R161). -/
@[simp] theorem Inst.rotateRep_rep0 (i : Inst) (k : Fin 4) : (i.rotateRep k).rep0 = i.repAt k := by
  match k with
  | 0 | 1 | 2 | 3 => rfl

/-! ## Updates of the state -/

@[simp] theorem State.putInst_insts (s : State) (n : Nat) (i : Inst) : (s.putInst n i).insts = Table.set s.insts n i := rfl

@[simp] theorem State.putInst_nextHandle (s : State) (n : Nat) (i : Inst) : (s.putInst n i).nextHandle = s.nextHandle := rfl

@[simp] theorem State.putInst_cur (s : State) (n : Nat) (i : Inst) : (s.putInst n i).cur = s.cur := rfl

@[simp] theorem State.putInst_ret (s : State) (n : Nat) (i : Inst) : (s.putInst n i).ret = s.ret := rfl

@[simp] theorem State.putInst_createStatus (s : State) (n : Nat) (i : Inst) :
    (s.putInst n i).createStatus = s.createStatus := rfl

@[simp] theorem State.putInst_hdr (s : State) (n : Nat) (i : Inst) : (s.putInst n i).hdr = s.hdr := rfl

@[simp] theorem State.putInst_port (s : State) (n : Nat) (i : Inst) : (s.putInst n i).port = s.port := rfl
@[simp] theorem State.putInst_rows (s : State) (n : Nat) (i : Inst) : (s.putInst n i).rows = s.rows := rfl

@[simp] theorem State.putInst_allocIn (s : State) (n : Nat) (i : Inst) : (s.putInst n i).allocIn = s.allocIn := rfl

@[simp] theorem State.putInst_draws (s : State) (n : Nat) (i : Inst) : (s.putInst n i).draws = s.draws := rfl

@[simp] theorem State.putInst_params (s : State) (n : Nat) (i : Inst) : (s.putInst n i).params = s.params := rfl

@[simp] theorem State.after_insts (s : State) (i : Inst) (v : Value) : (s.after i v).insts = Table.set s.insts s.cur i := rfl

@[simp] theorem State.after_nextHandle (s : State) (i : Inst) (v : Value) : (s.after i v).nextHandle = s.nextHandle := rfl

@[simp] theorem State.after_cur (s : State) (i : Inst) (v : Value) : (s.after i v).cur = s.cur := rfl

@[simp] theorem State.after_ret (s : State) (i : Inst) (v : Value) : (s.after i v).ret = v := rfl

@[simp] theorem State.after_createStatus (s : State) (i : Inst) (v : Value) :
    (s.after i v).createStatus = s.createStatus := rfl

@[simp] theorem State.after_hdr (s : State) (i : Inst) (v : Value) : (s.after i v).hdr = s.hdr := rfl

@[simp] theorem State.after_port (s : State) (i : Inst) (v : Value) : (s.after i v).port = s.port := rfl
@[simp] theorem State.after_rows (s : State) (i : Inst) (v : Value) : (s.after i v).rows = s.rows := rfl

@[simp] theorem State.after_allocIn (s : State) (i : Inst) (v : Value) : (s.after i v).allocIn = s.allocIn := rfl

@[simp] theorem State.after_draws (s : State) (i : Inst) (v : Value) : (s.after i v).draws = s.draws := rfl

@[simp] theorem State.after_params (s : State) (i : Inst) (v : Value) : (s.after i v).params = s.params := rfl

@[simp] theorem State.trapped_insts (s : State) (i : Inst) (e : Err) : (s.trapped i e).insts = Table.set s.insts s.cur (i.abandoned e s.draws) := rfl

@[simp] theorem State.trapped_nextHandle (s : State) (i : Inst) (e : Err) : (s.trapped i e).nextHandle = s.nextHandle := rfl

@[simp] theorem State.trapped_cur (s : State) (i : Inst) (e : Err) : (s.trapped i e).cur = s.cur := rfl

@[simp] theorem State.trapped_ret (s : State) (i : Inst) (e : Err) : (s.trapped i e).ret = .error e := rfl

@[simp] theorem State.trapped_createStatus (s : State) (i : Inst) (e : Err) :
    (s.trapped i e).createStatus = s.createStatus := rfl

@[simp] theorem State.trapped_hdr (s : State) (i : Inst) (e : Err) : (s.trapped i e).hdr = s.hdr := rfl

@[simp] theorem State.trapped_port (s : State) (i : Inst) (e : Err) : (s.trapped i e).port = s.port := rfl
@[simp] theorem State.trapped_rows (s : State) (i : Inst) (e : Err) : (s.trapped i e).rows = s.rows := rfl

@[simp] theorem State.trapped_allocIn (s : State) (i : Inst) (e : Err) : (s.trapped i e).allocIn = s.allocIn := rfl

@[simp] theorem State.trapped_draws (s : State) (i : Inst) (e : Err) : (s.trapped i e).draws = s.draws + 1 := rfl

@[simp] theorem State.trapped_params (s : State) (i : Inst) (e : Err) : (s.trapped i e).params = s.params := rfl

@[simp] theorem State.built_insts (s : State) (lc lp pb : Nat) (d : Word) : (s.built lc lp pb d).insts = Table.set s.insts s.nextHandle (freshInst lc lp pb d s.draws) := rfl

@[simp] theorem State.built_nextHandle (s : State) (lc lp pb : Nat) (d : Word) : (s.built lc lp pb d).nextHandle = s.nextHandle + 1 := rfl

@[simp] theorem State.built_cur (s : State) (lc lp pb : Nat) (d : Word) : (s.built lc lp pb d).cur = s.nextHandle := rfl

@[simp] theorem State.built_ret (s : State) (lc lp pb : Nat) (d : Word) : (s.built lc lp pb d).ret = .handle s.nextHandle := rfl

@[simp] theorem State.built_createStatus (s : State) (lc lp pb : Nat) (d : Word) :
    (s.built lc lp pb d).createStatus = .ok := rfl

@[simp] theorem State.built_hdr (s : State) (lc lp pb : Nat) (d : Word) : (s.built lc lp pb d).hdr = s.hdr := rfl

@[simp] theorem State.built_port (s : State) (lc lp pb : Nat) (d : Word) : (s.built lc lp pb d).port = s.port := rfl
@[simp] theorem State.built_rows (s : State) (lc lp pb : Nat) (d : Word) : (s.built lc lp pb d).rows = s.rows := rfl

@[simp] theorem State.built_allocIn (s : State) (lc lp pb : Nat) (d : Word) : (s.built lc lp pb d).allocIn = s.allocIn := rfl

@[simp] theorem State.built_draws (s : State) (lc lp pb : Nat) (d : Word) : (s.built lc lp pb d).draws = s.draws + 1 := rfl

@[simp] theorem State.built_params (s : State) (lc lp pb : Nat) (d : Word) : (s.built lc lp pb d).params = s.params := rfl

@[simp] theorem State.allocDrawn_insts (s : State) : s.allocDrawn.insts = s.insts := by
  unfold State.allocDrawn; split <;> rfl

@[simp] theorem State.allocDrawn_nextHandle (s : State) : s.allocDrawn.nextHandle = s.nextHandle := by
  unfold State.allocDrawn; split <;> rfl

@[simp] theorem State.allocDrawn_cur (s : State) : s.allocDrawn.cur = s.cur := by
  unfold State.allocDrawn; split <;> rfl

@[simp] theorem State.allocDrawn_ret (s : State) : s.allocDrawn.ret = s.ret := by
  unfold State.allocDrawn; split <;> rfl

@[simp] theorem State.allocDrawn_createStatus (s : State) : s.allocDrawn.createStatus = s.createStatus := by
  unfold State.allocDrawn; split <;> rfl

@[simp] theorem State.allocDrawn_hdr (s : State) : s.allocDrawn.hdr = s.hdr := by
  unfold State.allocDrawn; split <;> rfl

@[simp] theorem State.allocDrawn_port (s : State) : s.allocDrawn.port = s.port := by
  unfold State.allocDrawn; split <;> rfl

@[simp] theorem State.allocDrawn_rows (s : State) : s.allocDrawn.rows = s.rows := by
  unfold State.allocDrawn; split <;> rfl

@[simp] theorem State.allocDrawn_params (s : State) : s.allocDrawn.params = s.params := by
  unfold State.allocDrawn; split <;> rfl

@[simp] theorem State.current_putInst (s : State) (i : Inst) : (s.putInst s.cur i).current = some i := by
  simp [State.current]

@[simp] theorem State.current_after (s : State) (i : Inst) (v : Value) : (s.after i v).current = some i := by
  simp [State.current]

theorem State.current_trapped (s : State) (i : Inst) (e : Err) :
    (s.trapped i e).current = some (i.abandoned e s.draws) := by
  simp [State.current]

/-! ## The frame in which a packet, a format or an internal operation acts -/

/-- An exception raised with no instance writes the `status` of the phase Absent and is returned (R205). -/
theorem takeException_absent (e : Err) (s : State) :
    takeException e none s = { s with createStatus := .error e, ret := .error e } := rfl

/-- An exception raised on the current instance leaves the trapped state (R205). -/
theorem takeException_current (s : State) (i : Inst) (e : Err) :
    takeException e (some s.cur) (s.putInst s.cur i) = s.trapped i e := by
  simp [takeException, State.putInst, State.trapped, Inst.abandoned]

theorem settle_ok (s : State) (v : Value) (i : Inst) : settle s.cur s (.ok v i) = s.after i v := rfl

theorem settle_raised (s : State) (e : Err) (i : Inst) : settle s.cur s (.raised e i) = s.trapped i e :=
  takeException_current s i e

/-- An operation on the current instance that completes: its value is returned and nothing else of the machine changes. -/
theorem onCurrent_ok {f : Inst → Res Value} {s : State} {i j : Inst} {v : Value} (h : s.current = some i)
    (hf : f i = .ok v j) : onCurrent f s = .next (s.after j v) := by
  simp only [State.current] at h
  simp only [onCurrent, h, hf, settle_ok]

/-- An operation on the current instance that raises: its exception is taken. -/
theorem onCurrent_raised {f : Inst → Res Value} {s : State} {i j : Inst} {e : Err} (h : s.current = some i)
    (hf : f i = .raised e j) : onCurrent f s = .next (s.trapped j e) := by
  simp only [State.current] at h
  simp only [onCurrent, h, hf, settle_raised]

/-- With no current instance an operation is refused (R29). -/
theorem onCurrent_none {f : Inst → Res Value} {s : State} (h : s.current = none) :
    onCurrent f s = .refused .noInstance := by
  simp only [State.current] at h
  simp only [onCurrent, h]

theorem onCounters_ok {ok : Inst → Bool} {f : Inst → Res Value} {s : State} {i j : Inst} {v : Value}
    (h : s.current = some i) (hok : ok i = true) (hf : f i = .ok v j) : onCounters ok f s = .next (s.after j v) := by
  simp only [State.current] at h
  simp only [onCounters, h, hok, hf, if_true, settle_ok]

theorem onCounters_raised {ok : Inst → Bool} {f : Inst → Res Value} {s : State} {i j : Inst} {e : Err}
    (h : s.current = some i) (hok : ok i = true) (hf : f i = .raised e j) :
    onCounters ok f s = .next (s.trapped j e) := by
  simp only [State.current] at h
  simp only [onCounters, h, hok, hf, if_true, settle_raised]

/-- Everything an operation on the current instance can answer. -/
theorem onCurrent_cases (f : Inst → Res Value) (s : State) :
    (s.current = none ∧ onCurrent f s = .refused .noInstance) ∨
      ∃ i, s.current = some i ∧
        ((∃ v j, f i = .ok v j ∧ onCurrent f s = .next (s.after j v)) ∨
          ∃ e j, f i = .raised e j ∧ onCurrent f s = .next (s.trapped j e)) := by
  cases h : s.current with
  | none => exact .inl ⟨rfl, onCurrent_none h⟩
  | some i =>
    refine .inr ⟨i, rfl, ?_⟩
    cases hf : f i with
    | ok v j => exact .inl ⟨v, j, rfl, onCurrent_ok h hf⟩
    | raised e j => exact .inr ⟨e, j, rfl, onCurrent_raised h hf⟩

theorem State.after_inj {s : State} {i j : Inst} {v w : Value} (h : s.after i v = s.after j w) : i = j ∧ v = w := by
  have h1 := congrArg State.current h
  have h2 := congrArg State.ret h
  simp only [State.current_after, Option.some.injEq, State.after_ret] at h1 h2
  exact ⟨h1, h2⟩

/-- A completed operation and a trap never leave the same state: a trap draws a fresh epoch (log 9). -/
theorem State.after_ne_trapped {s : State} {i j : Inst} {v : Value} {e : Err} : s.after i v ≠ s.trapped j e := by
  intro h
  have := congrArg State.draws h
  simp at this

theorem State.after_after (s : State) (i j : Inst) (v w : Value) : (s.after i v).after j w = s.after j w := by
  simp [State.after]

theorem State.trapped_inj {s : State} {i j : Inst} {e f : Err} (h : s.trapped i e = s.trapped j f) : e = f := by
  simpa using congrArg State.ret h

/-- An operation on the current instance left the completed state exactly when it completed so. -/
theorem onCurrent_after {f : Inst → Res Value} {s : State} {i j : Inst} {v : Value} (h : s.current = some i) :
    onCurrent f s = .next (s.after j v) ↔ f i = .ok v j := by
  constructor
  · intro ht
    cases hf : f i with
    | ok w k =>
      rw [onCurrent_ok h hf] at ht
      obtain ⟨rfl, rfl⟩ := State.after_inj (Host.Outcome.next.inj ht)
      rfl
    | raised e k =>
      rw [onCurrent_raised h hf] at ht
      exact absurd (Host.Outcome.next.inj ht).symm State.after_ne_trapped
  · exact onCurrent_ok h

/-- An operation on the current instance that left a trapped state raised that error. -/
theorem onCurrent_trapped {f : Inst → Res Value} {s : State} {i j : Inst} {e : Err} (h : s.current = some i)
    (ht : onCurrent f s = .next (s.trapped j e)) : ∃ k, f i = .raised e k := by
  cases hf : f i with
  | ok w k =>
    rw [onCurrent_ok h hf] at ht
    exact absurd (Host.Outcome.next.inj ht) State.after_ne_trapped
  | raised e' k =>
    rw [onCurrent_raised h hf] at ht
    exact ⟨k, by rw [State.trapped_inj (Host.Outcome.next.inj ht)]⟩

theorem onCounters_eq {ok : Inst → Bool} {f : Inst → Res Value} {s : State} {i : Inst} (h : s.current = some i)
    (hok : ok i = true) : onCounters ok f s = onCurrent f s := by
  simp only [State.current] at h
  simp only [onCounters, onCurrent, h, hok, if_true]

theorem onCounters_after {ok : Inst → Bool} {f : Inst → Res Value} {s : State} {i j : Inst} {v : Value}
    (h : s.current = some i) : onCounters ok f s = .next (s.after j v) ↔ ok i = true ∧ f i = .ok v j := by
  cases hok : ok i with
  | true => rw [onCounters_eq h hok, onCurrent_after h]; simp
  | false => simp only [State.current] at h; simp [onCounters, h, hok]

/-- What an operation on the current instance leaves alone, however it ends. -/
theorem onCurrent_frame {f : Inst → Res Value} {s t : State} (h : onCurrent f s = .next t) :
    (∀ n, n ≠ s.cur → Table.get t.insts n = Table.get s.insts n) ∧ t.port = s.port ∧ t.params = s.params ∧
      t.hdr = s.hdr ∧ t.nextHandle = s.nextHandle ∧ t.allocIn = s.allocIn ∧ t.cur = s.cur ∧ t.rows = s.rows ∧
      t.createStatus = s.createStatus := by
  rcases onCurrent_cases f s with ⟨-, h1⟩ | ⟨i, hi, ⟨v, j, hv, h1⟩ | ⟨e, j, hv, h1⟩⟩ <;> rw [h1] at h <;> cases h
  · exact ⟨fun n hn => Table.get_set_other _ _ hn, rfl, rfl, rfl, rfl, rfl, rfl, rfl, rfl⟩
  · exact ⟨fun n hn => Table.get_set_other _ _ hn, rfl, rfl, rfl, rfl, rfl, rfl, rfl, rfl⟩

theorem onCounters_frame {ok : Inst → Bool} {f : Inst → Res Value} {s t : State} (h : onCounters ok f s = .next t) :
    (∀ n, n ≠ s.cur → Table.get t.insts n = Table.get s.insts n) ∧ t.port = s.port ∧ t.params = s.params ∧
      t.hdr = s.hdr ∧ t.nextHandle = s.nextHandle ∧ t.allocIn = s.allocIn ∧ t.cur = s.cur ∧ t.rows = s.rows ∧
      t.createStatus = s.createStatus := by
  cases hc : s.current with
  | none => simp only [State.current] at hc; simp [onCounters, hc] at h
  | some i =>
    cases hok : ok i with
    | true => rw [onCounters_eq hc hok] at h; exact onCurrent_frame h
    | false => simp only [State.current] at hc; simp [onCounters, hc, hok] at h

/-- An operation entered after RESET acts as any other on an instance that stands at its RESET values (R150, R241). -/
theorem onReset_eq {f : Inst → Res Value} {s : State} {i : Inst} (h : s.current = some i) (hr : i.atReset = true) :
    onReset f s = onCurrent f s := by
  simp only [State.current] at h
  simp only [onReset, onCurrent, h, hr, if_true]

/-- On any other instance it is refused (R241, log 37). -/
theorem onReset_notReset {f : Inst → Res Value} {s : State} {i : Inst} (h : s.current = some i)
    (hr : i.atReset = false) : onReset f s = .refused .notReset := by
  simp only [State.current] at h
  simp [onReset, h, hr]

theorem onReset_none {f : Inst → Res Value} {s : State} (h : s.current = none) : onReset f s = .refused .noInstance := by
  simp only [State.current] at h
  simp only [onReset, h]

/-- When an operation entered after RESET answers a next state, it is the answer of the operation itself, on an instance
at its RESET values. -/
theorem onReset_next {f : Inst → Res Value} {s t : State} (h : onReset f s = .next t) :
    onCurrent f s = .next t ∧ ∃ i, s.current = some i ∧ i.atReset = true := by
  cases hc : s.current with
  | none => rw [onReset_none hc] at h; cases h
  | some i =>
    cases hr : i.atReset with
    | true => rw [onReset_eq hc hr] at h; exact ⟨h, i, rfl, hr⟩
    | false => rw [onReset_notReset hc hr] at h; cases h

/-- The registers of an instance that stands at its RESET values (R186). -/
theorem Inst.atReset_iff (i : Inst) : i.atReset = true ↔
    i.probs = [] ∧ i.rep0 = 0 ∧ i.rep1 = 0 ∧ i.rep2 = 0 ∧ i.rep3 = 0 ∧ i.st = 0 ∧ i.prev = 0 ∧ i.op = 0 ∧ i.ip = 0 := by
  rw [Inst.atReset, decide_eq_true_iff]
  cases i
  simp [resetInst]
  tauto

end Sys2Proof.Machine
end

