-- ==== Sys2Proof/Laws/Window.lean ====
section
/-! SUPPORT. The window: what PUTBYTE, GETBYTE and COPYMATCH do, the copy's period, and that OUT keeps its canonical
form. -/

namespace Sys2Proof.Machine

theorem sameButWindow.refl (i : Inst) : sameButWindow i i := rfl

theorem sameButWindow.trans {i j k : Inst} (h : sameButWindow i j) (h' : sameButWindow j k) : sameButWindow i k := by
  unfold sameButWindow at *
  rw [h', h]

/-- The instance with one byte appended (R140). -/
def Inst.appended (i : Inst) (b : Byte) : Inst :=
  { i with out := Memory.write i.out i.op b, prev := b, op := i.op + 1 }

theorem putByte_ok {i : Inst} (b : Byte) (h : i.op < i.destCapacity) : putByte b i = .ok () (i.appended b) := by
  unfold putByte
  rw [if_neg (by omega)]
  rfl

theorem putByte_raised {i : Inst} (b : Byte) (h : i.destCapacity ≤ i.op) : putByte b i = .raised .outputOverflow i := by
  unfold putByte
  rw [if_pos h]

theorem Inst.badDistance_false {i : Inst} {d : Word} : i.badDistance d = false ↔ d.toNat < i.op ∧ d.toNat < i.dictEff := by
  simp [Inst.badDistance]

theorem Inst.badDistance_true {i : Inst} {d : Word} : i.badDistance d = true ↔ i.op ≤ d.toNat ∨ i.dictEff ≤ d.toNat := by
  simp [Inst.badDistance]

theorem getByte_ok {i : Inst} {d : Word} (h : d.toNat < i.op) (h' : d.toNat < i.dictEff) :
    getByte d i = .ok (i.back d) i := by
  unfold getByte
  rw [Inst.badDistance_false.2 ⟨h, h'⟩]
  rfl

theorem getByte_raised {i : Inst} {d : Word} (h : i.op ≤ d.toNat ∨ i.dictEff ≤ d.toNat) :
    getByte d i = .raised .distanceOutOfRange i := by
  unfold getByte
  rw [Inst.badDistance_true.2 h]
  rfl

/-- Nothing copied yet. -/
theorem copied_zero (i : Inst) (d : Nat) : copied i i d 0 :=
  ⟨rfl, fun k hk => absurd hk (by omega), fun _ _ => rfl, fun h => absurd h (by omega)⟩

/-- The byte a listed index holds. -/
theorem Inst.outByte_of_read {i : Inst} {a : Nat} {b : Byte} (h : Memory.read i.out a = some b) : i.outByte a = b := by
  simp [Inst.outByte, h]

theorem Inst.outByte_congr {i j : Inst} {a : Nat} (h : Memory.read j.out a = Memory.read i.out a) (he : j.epoch = i.epoch) :
    j.outByte a = i.outByte a := by
  simp [Inst.outByte, h, he]

/-- One more byte of a copy: the source of byte `n` of the copy is the byte with that phase before it (R144). -/
theorem copied_succ {i j : Inst} {d : Word} {n : Nat} (hs : sameButWindow i j) (hd : d.toNat < i.op)
    (h : copied i j d.toNat n) : copied i (j.appended (j.back d)) d.toNat (n + 1) := by
  obtain ⟨h1, h2, h3, h4⟩ := h
  have he : j.epoch = i.epoch := by rw [hs]
  have hb : j.back d = i.outByte (i.op - d.toNat - 1 + n % (d.toNat + 1)) := by
    unfold Inst.back
    rw [h1]
    by_cases hn : n ≤ d.toNat
    · rw [Nat.mod_eq_of_lt (by omega), show i.op + n - d.toNat - 1 = i.op - d.toNat - 1 + n by omega]
      exact Inst.outByte_congr (h3 _ (.inl (by omega))) he
    · rw [show i.op + n - d.toNat - 1 = i.op + (n - (d.toNat + 1)) by omega]
      have hm : n % (d.toNat + 1) = (n - (d.toNat + 1)) % (d.toNat + 1) := by
        conv_lhs => rw [show n = n - (d.toNat + 1) + (d.toNat + 1) by omega]
        rw [Nat.add_mod_right]
      rw [hm]
      exact Inst.outByte_of_read (h2 _ (by omega))
  refine ⟨?_, ?_, ?_, ?_⟩
  · simp only [Inst.appended]; omega
  · intro k hk
    simp only [Inst.appended, Memory.read, Memory.write, h1]
    by_cases hkn : k = n
    · subst hkn; rw [Table.get_set_same, hb]
    · rw [Table.get_set_other _ _ (by omega)]
      exact h2 k (by omega)
  · intro a ha
    simp only [Inst.appended, Memory.read, Memory.write, h1]
    rw [Table.get_set_other _ _ (by omega)]
    exact h3 a (by omega)
  · intro _
    simp only [Inst.appended, Nat.add_sub_cancel]
    exact hb

/-- The copy loop, as far as it gets: `n` bytes where there is room for them, else as many as there is room for and then
OutputOverflow (R142, R208). -/
theorem copyLoop_cases {i j : Inst} {d : Word} {m : Nat} (hs : sameButWindow i j) (hd : d.toNat < i.op)
    (h : copied i j d.toNat m) (hcap : j.op ≤ j.destCapacity) (n : Nat) :
    (j.op + n ≤ j.destCapacity ∧ ∃ k, copyLoop d n j = .ok () k ∧ sameButWindow i k ∧ copied i k d.toNat (m + n)) ∨
    (j.destCapacity < j.op + n ∧ ∃ k, copyLoop d n j = .raised .outputOverflow k ∧ sameButWindow i k ∧
      copied i k d.toNat (i.destCapacity - i.op)) := by
  induction n generalizing j m with
  | zero => exact .inl ⟨hcap, j, rfl, hs, h⟩
  | succ n ih =>
    have hc : j.destCapacity = i.destCapacity := by rw [hs]
    have ho : j.op = i.op + m := h.1
    by_cases hroom : j.op < j.destCapacity
    · have hstep := copied_succ hs hd h
      have hs' : sameButWindow i (j.appended (j.back d)) := hs.trans rfl
      rcases ih hs' hstep (by simp only [Inst.appended]; omega) with ⟨g1, k, g2, g3, g4⟩ | ⟨g1, k, g2, g3, g4⟩
      · refine .inl ⟨by simp only [Inst.appended] at g1; omega, k, ?_, g3, ?_⟩
        · rw [copyLoop, putByte_ok _ hroom]; exact g2
        · rw [show m + (n + 1) = m + 1 + n by omega]; exact g4
      · refine .inr ⟨by simp only [Inst.appended] at g1; omega, k, ?_, g3, g4⟩
        rw [copyLoop, putByte_ok _ hroom]; exact g2
    · refine .inr ⟨by omega, j, ?_, hs, ?_⟩
      · rw [copyLoop, putByte_raised _ (by omega)]; rfl
      · rw [show i.destCapacity - i.op = m by omega]; exact h

/-- COPYMATCH from a state whose output is within bounds: everything it can do (R142). -/
theorem copyMatch_ok {i : Inst} {d : Word} {n : Nat} (h : d.toNat < i.op) (h' : d.toNat < i.dictEff)
    (hroom : i.op + n ≤ i.destCapacity) :
    ∃ k, copyMatch d n i = .ok () k ∧ sameButWindow i k ∧ copied i k d.toNat n := by
  unfold copyMatch
  rw [Inst.badDistance_false.2 ⟨h, h'⟩]
  rcases copyLoop_cases (.refl i) h (copied_zero i _) (by omega) n with ⟨-, k, g2, g3, g4⟩ | ⟨g1, -⟩
  · exact ⟨k, g2, g3, by simpa using g4⟩
  · omega

theorem copyMatch_badDistance {i : Inst} {d : Word} (n : Nat) (h : i.op ≤ d.toNat ∨ i.dictEff ≤ d.toNat) :
    copyMatch d n i = .raised .distanceOutOfRange i := by
  unfold copyMatch
  rw [Inst.badDistance_true.2 h]
  rfl

theorem copyMatch_overflow {i : Inst} {d : Word} {n : Nat} (h : d.toNat < i.op) (h' : d.toNat < i.dictEff)
    (hcap : i.op ≤ i.destCapacity) (hroom : i.destCapacity < i.op + n) :
    ∃ k, copyMatch d n i = .raised .outputOverflow k ∧ sameButWindow i k ∧
      copied i k d.toNat (i.destCapacity - i.op) := by
  unfold copyMatch
  rw [Inst.badDistance_false.2 ⟨h, h'⟩]
  rcases copyLoop_cases (.refl i) h (copied_zero i _) hcap n with ⟨g1, -⟩ | ⟨-, k, g2, g3, g4⟩
  · omega
  · exact ⟨k, g2, g3, g4⟩

/-- What an operation of the window does from a state whose output is within bounds, however it ends: it changes the
window's part only, appends, stays within `destCapacity`, and leaves every byte before `op` and beyond the end as it
was. -/
def Windows {α : Type} (i : Inst) (r : Res α) : Prop :=
  sameButWindow i r.inst ∧ i.op ≤ r.inst.op ∧ r.inst.op ≤ i.destCapacity ∧
    (∀ a, a < i.op ∨ r.inst.op ≤ a → Memory.read r.inst.out a = Memory.read i.out a) ∧
    (∀ a, i.op ≤ a → a < r.inst.op → (Memory.read r.inst.out a).isSome) ∧
    (i.op < r.inst.op → r.inst.prev = r.inst.outByte (r.inst.op - 1)) ∧
    (i.op = r.inst.op → r.inst.prev = i.prev) ∧
    (Memory.wf i.out = true → Memory.wf r.inst.out = true)

theorem windows_refl {α : Type} {i : Inst} {r : Res α} (h : r.inst = i) (hcap : i.op ≤ i.destCapacity) : Windows i r := by
  rw [Windows, h]
  exact ⟨rfl, le_refl _, hcap, fun _ _ => rfl, fun a h1 h2 => absurd h1 (by omega), fun h => absurd h (by omega),
    fun _ => rfl, id⟩

theorem putByte_windows {i : Inst} (b : Byte) (hcap : i.op ≤ i.destCapacity) : Windows i (putByte b i) := by
  by_cases h : i.op < i.destCapacity
  · rw [putByte_ok b h]
    refine ⟨rfl, Nat.le_succ _, h, ?_, ?_, ?_, ?_, ?_⟩
    · intro a ha
      simp only [Res.inst_ok, Inst.appended] at ha ⊢
      exact Table.get_set_other _ _ (by omega)
    · intro a h1 h2
      simp only [Res.inst_ok, Inst.appended] at h2 ⊢
      rw [show a = i.op by omega]
      simp
    · intro _
      simp [Inst.appended, Inst.outByte]
    · intro h2
      simp [Inst.appended] at h2
    · intro hw
      exact Memory.wf_write hw _ _
  · rw [putByte_raised b (by omega)]
    exact windows_refl rfl hcap

theorem copyLoop_windows (d : Word) (n : Nat) {i : Inst} (hcap : i.op ≤ i.destCapacity) : Windows i (copyLoop d n i) := by
  induction n generalizing i with
  | zero => exact windows_refl rfl hcap
  | succ n ih =>
    by_cases h : i.op < i.destCapacity
    · rw [copyLoop, putByte_ok _ h, Res.bind_ok]
      have h1 := putByte_windows (i.back d) hcap
      rw [putByte_ok _ h, Windows, Res.inst_ok] at h1
      obtain ⟨a1, a2, a3, a4, a5, a6, a7, a8⟩ := h1
      have ho : (i.appended (i.back d)).op = i.op + 1 := rfl
      have hc : (i.appended (i.back d)).destCapacity = i.destCapacity := rfl
      obtain ⟨b1, b2, b3, b4, b5, b6, b7, b8⟩ := ih (i := i.appended (i.back d)) (by omega)
      have he : (copyLoop d n (i.appended (i.back d))).inst.epoch = (i.appended (i.back d)).epoch := by rw [b1]
      refine ⟨a1.trans b1, by omega, by omega, ?_, ?_, ?_, by omega, fun hw => b8 (a8 hw)⟩
      · intro a ha
        rw [b4 a (by omega), a4 a (by omega)]
      · intro a h1 h2
        by_cases hai : a = i.op
        · rw [b4 a (.inl (by omega))]; exact a5 a h1 (by omega)
        · exact b5 a (by omega) h2
      · intro _
        by_cases hn : (i.appended (i.back d)).op < (copyLoop d n (i.appended (i.back d))).inst.op
        · exact b6 hn
        · rw [b7 (by omega), a6 (by omega)]
          refine (Inst.outByte_congr ?_ he).symm.trans ?_
          · exact b4 _ (.inl (by omega))
          · congr 1; omega
    · rw [copyLoop, putByte_raised _ (by omega)]
      exact windows_refl rfl hcap

theorem copyMatch_windows (d : Word) (n : Nat) {i : Inst} (hcap : i.op ≤ i.destCapacity) : Windows i (copyMatch d n i) := by
  unfold copyMatch
  split
  · exact windows_refl rfl hcap
  · exact copyLoop_windows d n hcap

/-- A copy that completes was in reach and had room (R142). -/
theorem copyMatch_of_ok {i j : Inst} {d : Word} {n : Nat} (h : copyMatch d n i = .ok () j) (hcap : i.op ≤ i.destCapacity) :
    d.toNat < i.op ∧ d.toNat < i.dictEff ∧ i.op + n ≤ i.destCapacity ∧ sameButWindow i j ∧ copied i j d.toNat n := by
  by_cases hb : i.op ≤ d.toNat ∨ i.dictEff ≤ d.toNat
  · rw [copyMatch_badDistance n hb] at h; cases h
  · rw [not_or, Nat.not_le, Nat.not_le] at hb
    by_cases hroom : i.op + n ≤ i.destCapacity
    · obtain ⟨k, h1, h2, h3⟩ := copyMatch_ok hb.1 hb.2 hroom
      rw [h1] at h
      cases h
      exact ⟨hb.1, hb.2, hroom, h2, h3⟩
    · obtain ⟨k, h1, -⟩ := copyMatch_overflow (n := n) hb.1 hb.2 hcap (by omega)
      rw [h1] at h
      cases h

end Sys2Proof.Machine
end

