-- ==== Sys2Proof/Laws/Legal.lean ====
section
/-! SUPPORT. Legal instances: what the decoder, the window, the packets and a run keep. -/

namespace Sys2Proof.Machine

/-- A legal instance but for what holds only during a run. -/
def Inst.quiet (i : Inst) : Prop := i.propsLegal ∧ i.cursorsLegal ∧ i.probsLegal ∧ i.memoryLegal

theorem Inst.legal_iff (i : Inst) : i.legal ↔ i.quiet ∧ (i.busy = true → i.runLegal) := by
  unfold Inst.legal Inst.quiet
  tauto

/-- What no operation of the core changes in an instance: the properties, the latched operands, SRC, and which unspecified
contents OUT has. -/
def sameBase (i j : Inst) : Prop :=
  sameProps i j ∧ j.srcLen = i.srcLen ∧ j.destCapacity = i.destCapacity ∧ j.busy = i.busy ∧ j.src = i.src ∧
    j.epoch = i.epoch

theorem sameBase.refl (i : Inst) : sameBase i i := ⟨⟨rfl, rfl, rfl, rfl⟩, rfl, rfl, rfl, rfl, rfl⟩

theorem sameBase.trans {i j k : Inst} (h : sameBase i j) (h' : sameBase j k) : sameBase i k := by
  obtain ⟨⟨a1, a2, a3, a4⟩, a5, a6, a7, a8, a9⟩ := h
  obtain ⟨⟨b1, b2, b3, b4⟩, b5, b6, b7, b8, b9⟩ := h'
  exact ⟨⟨a1.trans b1, a2.trans b2, a3.trans b3, a4.trans b4⟩, b5.trans a5, b6.trans a6, b7.trans a7, b8.trans a8,
    b9.trans a9⟩

theorem sameBase_of_decoder {i j : Inst} (h : sameButDecoder i j) : sameBase i j := by
  rw [h]; exact ⟨⟨rfl, rfl, rfl, rfl⟩, rfl, rfl, rfl, rfl, rfl⟩

theorem sameBase_of_window {i j : Inst} (h : sameButWindow i j) : sameBase i j := by
  rw [h]; exact ⟨⟨rfl, rfl, rfl, rfl⟩, rfl, rfl, rfl, rfl, rfl⟩

theorem sameBase.numCounters {i j : Inst} (h : sameBase i j) : j.numCounters = i.numCounters := by
  obtain ⟨⟨a1, a2, -, -⟩, -⟩ := h
  simp [Inst.numCounters, Inst.numLitCtx, a1, a2]

theorem sameBase.dictEff {i j : Inst} (h : sameBase i j) : j.dictEff = i.dictEff := by
  obtain ⟨⟨-, -, -, a4⟩, -⟩ := h
  simp [Inst.dictEff, a4]

/-! ## The decoder -/

/-- A program that asks counters of the instance, however it ends, changes the decoder's part only and keeps the instance
legal. -/
theorem runDec_same {α : Type} (d : Dec α) (i : Inst) : sameButDecoder i (runDec d i).inst := by
  obtain ⟨n, hn⟩ := Dec.within_some d
  have h := runDec_decodes hn i
  cases hr : runDec d i <;> rw [hr] at h <;> exact h.1

theorem runDec_ip {α : Type} (d : Dec α) (i : Inst) :
    i.ip ≤ (runDec d i).inst.ip ∧ (i.ip ≤ i.srcLen → (runDec d i).inst.ip ≤ i.srcLen) := by
  obtain ⟨n, hn⟩ := Dec.within_some d
  have h := runDec_decodes hn i
  cases hr : runDec d i with
  | ok a j => rw [hr] at h; exact ⟨h.2.1, h.2.2.2⟩
  | raised e j =>
    rw [hr] at h
    refine ⟨h.2.1, fun hh => ?_⟩
    have := h.2.2.2.2.2 hh
    simp only [Res.inst_raised]; omega

theorem quiet_of_decoder {i j : Inst} (h : sameButDecoder i j) (hq : i.quiet) (hip : j.ip ≤ i.srcLen)
    (hp : probsIn i.numCounters j.probs) : j.quiet := by
  obtain ⟨h1, h2, h3, h4⟩ := hq
  rw [h]
  exact ⟨h1, ⟨hip, h2.2⟩, hp, h4⟩

theorem runDec_quiet {α : Type} {d : Dec α} {i : Inst} (ha : Dec.asksOnly (fun c => counterIndex c < i.numCounters) d)
    (hq : i.quiet) : (runDec d i).inst.quiet :=
  quiet_of_decoder (runDec_same d i) hq ((runDec_ip d i).2 hq.2.1.1) (runDec_probsIn ha hq.2.2.1)

theorem asksOnly_of_fixed {α : Type} {d : Dec α} (h : Dec.asksOnly isFixed d) (i : Inst) :
    Dec.asksOnly (fun c => counterIndex c < i.numCounters) d :=
  Dec.asksOnly_mono h fun _ hc => hc.lt i

theorem runLegal_of_decoder {i j : Inst} (h : sameButDecoder i j) (hr : 0x1000000 ≤ j.range.toNat) (hl : i.runLegal) :
    j.runLegal := by
  obtain ⟨-, h2, h3, h4, h5⟩ := hl
  rw [h] at hr ⊢
  exact ⟨hr, h2, h3, h4, h5⟩

/-- A completed program keeps a running instance legal. -/
theorem runDec_runLegal {α : Type} {d : Dec α} {i j : Inst} {a : α}
    (ha : Dec.asksOnly (fun c => counterIndex c < i.numCounters) d) (hq : i.quiet) (hl : i.runLegal)
    (hr : runDec d i = .ok a j) : j.runLegal := by
  have hs := runDec_same d i
  rw [hr] at hs
  exact runLegal_of_decoder hs (runDec_range ha hq.2.2.1 hl.1 hr) hl

/-! ## Keeping -/

/-- An operation that, however it ends, leaves a legal instance legal with the same base and no fewer bytes produced; and
that, when it completes, leaves a running instance legal for running on. -/
def Keeps {α : Type} (i : Inst) (r : Res α) : Prop :=
  i.quiet → r.inst.quiet ∧ sameBase i r.inst ∧ i.op ≤ r.inst.op

theorem Keeps.bind {α β : Type} {i : Inst} {r : Res α} {f : α → Inst → Res β} (h : Keeps i r)
    (hf : ∀ a j, r = .ok a j → Keeps j (f a j)) : Keeps i (r.bind f) := by
  intro hq
  obtain ⟨h1, h2, h3⟩ := h hq
  cases r with
  | raised e j => exact ⟨h1, h2, h3⟩
  | ok a j =>
    obtain ⟨g1, g2, g3⟩ := hf a j rfl h1
    simp only [Res.bind_ok, Res.inst_ok] at *
    exact ⟨g1, h2.trans g2, by omega⟩

theorem Keeps.map {α β : Type} {i : Inst} {r : Res α} (f : α → β) (h : Keeps i r) : Keeps i (r.map f) := by
  intro hq; rw [Res.inst_map]; exact h hq

theorem keeps_runDec {α : Type} {d : Dec α} {i : Inst} (ha : i.quiet → Dec.asksOnly (fun c => counterIndex c < i.numCounters) d) :
    Keeps i (runDec d i) := fun hq =>
  ⟨runDec_quiet (ha hq) hq, sameBase_of_decoder (runDec_same d i), by rw [runDec_same d i]⟩

theorem keeps_fixed {α : Type} {d : Dec α} (h : Dec.asksOnly isFixed d) (i : Inst) : Keeps i (runDec d i) :=
  keeps_runDec fun _ => asksOnly_of_fixed h i

theorem quiet_of_windows {α : Type} {i : Inst} {r : Res α} (h : Windows i r) (hq : i.quiet) : r.inst.quiet := by
  obtain ⟨h1, h2, h3, h4, h5, h6, h7, h8⟩ := h
  obtain ⟨q1, q2, q3, m1, m2, m3, m4⟩ := hq
  have hc : r.inst.destCapacity = i.destCapacity := by rw [h1]
  have hp : r.inst.propsLegal := by rw [h1]; exact q1
  have hb : r.inst.probsLegal := by rw [h1]; exact q3
  have hs : r.inst.src = i.src := by rw [h1]
  have hl : r.inst.srcLen = i.srcLen := by rw [h1]
  have hi : r.inst.ip = i.ip := by rw [h1]
  refine ⟨hp, ⟨by rw [hi, hl]; exact q2.1, by rw [hc]; exact h3⟩, hb, ?_, h8 m2, ?_, ?_⟩
  · rw [hs]; exact m1
  · intro a; rw [hs, hl]; exact m3 a
  · intro a ha
    rw [hc]
    by_cases hlt : a < i.op
    · omega
    · by_cases hlt2 : a < r.inst.op
      · omega
      · rw [h4 a (.inr (by omega))] at ha; exact m4 a ha

theorem keeps_windows {α : Type} {i : Inst} {r : Res α} (h : i.op ≤ i.destCapacity → Windows i r) : Keeps i r := fun hq =>
  ⟨quiet_of_windows (h hq.2.1.2) hq, sameBase_of_window (h hq.2.1.2).1, (h hq.2.1.2).2.1⟩

theorem keeps_copyMatch (d : Word) (n : Nat) (i : Inst) : Keeps i (copyMatch d n i) :=
  keeps_windows fun h => copyMatch_windows d n h

theorem keeps_putByte (b : Byte) (i : Inst) : Keeps i (putByte b i) := keeps_windows fun h => putByte_windows b h

theorem keeps_getByte (d : Word) (i : Inst) : Keeps i (getByte d i) := by
  intro hq
  unfold getByte
  split <;> exact ⟨hq, .refl i, le_refl _⟩

/-- An update of the scalar registers keeps what does not mention them. -/
theorem keeps_update {α : Type} {i j : Inst} {r : Res α} (hj : i.quiet → j.quiet) (hs : sameBase i j) (ho : j.op = i.op)
    (h : Keeps j r) : Keeps i r := by
  intro hq
  obtain ⟨g1, g2, g3⟩ := h (hj hq)
  exact ⟨g1, hs.trans g2, by omega⟩

/-! ## Literals -/

theorem keeps_literalPlain (i : Inst) : Keeps i (literalPlain i) :=
  keeps_runDec fun hq => Dec.asksOnly_mono (plainDec_asksOnly _) fun _ hc => litCounter_lt hq.1 hc

theorem keeps_literalMatched (i : Inst) : Keeps i (literalMatched i) :=
  (keeps_getByte _ i).bind fun mb _ _ =>
    keeps_runDec fun hq => Dec.asksOnly_mono (matchedDec_asksOnly _ mb) fun _ hc => litCounter_lt hq.1 hc

theorem keeps_litDecode (i : Inst) : Keeps i (litDecode i) := by
  unfold litDecode
  split
  · exact keeps_literalMatched i
  · exact keeps_literalPlain i

theorem getByte_inst {d : Word} {i j : Inst} {b : Byte} (h : getByte d i = .ok b j) : j = i := by
  unfold getByte at h
  split at h <;> cases h
  rfl

/-- A completed literal changed the decoder's part only. -/
theorem litDecode_same {i j : Inst} {b : Byte} (h : litDecode i = .ok b j) : sameButDecoder i j := by
  unfold litDecode at h
  split at h
  · unfold literalMatched at h
    obtain ⟨mb, i1, h1, h2⟩ := Res.bind_eq_ok.1 h
    rw [getByte_inst h1] at h2
    have := runDec_same (matchedDec i.litContext mb) i
    rw [h2] at this
    exact this
  · have := runDec_same (plainDec i.litContext) i
    unfold literalPlain at h
    rw [h] at this
    exact this

theorem litDecode_runLegal {i j : Inst} {b : Byte} (hq : i.quiet) (hl : i.runLegal) (h : litDecode i = .ok b j) :
    j.runLegal := by
  unfold litDecode at h
  split at h
  · unfold literalMatched at h
    obtain ⟨mb, i1, h1, h2⟩ := Res.bind_eq_ok.1 h
    rw [getByte_inst h1] at h2
    exact runDec_runLegal (Dec.asksOnly_mono (matchedDec_asksOnly _ mb) fun _ hc => litCounter_lt hq.1 hc) hq hl h2
  · exact runDec_runLegal (Dec.asksOnly_mono (plainDec_asksOnly _) fun _ hc => litCounter_lt hq.1 hc) hq hl h

theorem litNext_lt (s : StateIndex) : (litNext s).val < 7 := by
  revert s; decide

theorem keeps_litPacket (i : Inst) : Keeps i (litPacket i) := by
  refine (keeps_litDecode i).bind fun b j _ => ?_
  refine (keeps_putByte b j).bind fun _ k _ => ?_
  intro hq
  exact ⟨hq, ⟨⟨rfl, rfl, rfl, rfl⟩, rfl, rfl, rfl, rfl, rfl⟩, le_refl _⟩

/-- A completed LIT: the byte decoded is appended and `state` follows `LitNext` (R153). -/
theorem litPacket_eq_ok {i k : Inst} : litPacket i = .ok () k ↔
    ∃ b j, litDecode i = .ok b j ∧ j.op < j.destCapacity ∧ k = { j.appended b with st := litNext i.st } := by
  unfold litPacket
  constructor
  · intro h
    obtain ⟨b, j, h1, h2⟩ := Res.bind_eq_ok.1 h
    by_cases hroom : j.op < j.destCapacity
    · rw [putByte_ok b hroom, Res.bind_ok] at h2
      simp only [Res.ok.injEq, true_and] at h2
      exact ⟨b, j, h1, hroom, h2.symm⟩
    · rw [putByte_raised b (by omega)] at h2; cases h2
  · rintro ⟨b, j, h1, hroom, rfl⟩
    rw [h1, Res.bind_ok, putByte_ok b hroom, Res.bind_ok]

theorem repLegal_mono {i j : Inst} {d : Word} (h : i.repLegal d) (hd : j.dictEff = i.dictEff) (ho : i.op ≤ j.op) :
    j.repLegal d := by
  unfold Inst.repLegal at *
  rw [hd]
  exact ⟨h.1, h.2.imp id fun h => by omega⟩

theorem litPacket_runLegal {i k : Inst} (hq : i.quiet) (hl : i.runLegal) (h : litPacket i = .ok () k) : k.runLegal := by
  obtain ⟨b, j, h1, hroom, rfl⟩ := litPacket_eq_ok.1 h
  obtain ⟨l1, l2, l3, ⟨r0, r1, r2, r3⟩, l5⟩ := litDecode_runLegal hq hl h1
  have hm : ∀ d, j.repLegal d → Inst.repLegal { j.appended b with st := litNext i.st } d := fun d hd =>
    repLegal_mono hd rfl (Nat.le_succ _)
  refine ⟨l1, ?_, ?_, ⟨hm _ r0, hm _ r1, hm _ r2, hm _ r3⟩, ?_⟩
  · intro a ha
    simp only [Inst.appended, Memory.read, Memory.write] at ha ⊢
    by_cases hao : a = j.op
    · simp [hao]
    · rw [Table.get_set_other _ _ hao]; exact l2 a (by omega)
  · simp [Inst.appended, Inst.outByte]
  · intro hh
    have := litNext_lt i.st
    simp only at hh
    omega

/-! ## Copying packets -/

/-- A completed copy by a packet leaves a running instance legal: the distance used is in front and in reach. -/
theorem copy_runLegal {i j : Inst} {d : Word} {n : Nat} (h : copyMatch d n i = .ok () j) (hcap : i.op ≤ i.destCapacity)
    (hn : 1 ≤ n) (hrep : i.rep0 = d) (h1 : 0x1000000 ≤ i.range.toNat)
    (h2 : ∀ a, a < i.op → (Memory.read i.out a).isSome) (r1 : i.repLegal i.rep1)
    (r2 : i.repLegal i.rep2) (r3 : i.repLegal i.rep3) : j.runLegal := by
  obtain ⟨g1, g2, g3, g4, g5⟩ := copyMatch_of_ok h hcap
  have hw := copyMatch_windows d n hcap
  rw [h] at hw
  obtain ⟨-, w2, w3, w4, w5, w6, -, -⟩ := hw
  simp only [Res.inst_ok] at w2 w3 w4 w5 w6
  have hop : j.op = i.op + n := g5.1
  have hb := sameBase_of_window g4
  have e0 : j.rep0 = i.rep0 := by rw [g4]
  have e1 : j.rep1 = i.rep1 := by rw [g4]
  have e2 : j.rep2 = i.rep2 := by rw [g4]
  have e3 : j.rep3 = i.rep3 := by rw [g4]
  have er : j.range = i.range := by rw [g4]
  have hm : ∀ d, i.repLegal d → j.repLegal d := fun d hd => repLegal_mono hd hb.dictEff w2
  refine ⟨by rw [er]; exact h1, ?_, ?_, ⟨?_, ?_, ?_, ?_⟩, ?_⟩
  · intro a ha
    by_cases hlt : a < i.op
    · rw [w4 a (.inl hlt)]; exact h2 a hlt
    · exact w5 a (by omega) ha
  · rw [if_neg (by omega)]; exact w6 (by omega)
  · rw [e0, hrep]
    exact ⟨by rw [hb.dictEff]; exact g2, .inr (by omega)⟩
  · rw [e1]; exact hm _ r1
  · rw [e2]; exact hm _ r2
  · rw [e3]; exact hm _ r3
  · intro _
    rw [e0, hrep]; omega

theorem keeps_shortRep (i : Inst) : Keeps i (shortRepPacket i) :=
  keeps_update (j := { i with st := shortRepNext i.st }) (fun hq => hq) ⟨⟨rfl, rfl, rfl, rfl⟩, rfl, rfl, rfl, rfl, rfl⟩ rfl
    (keeps_copyMatch _ _ _)

theorem shortRep_runLegal {i j : Inst} (hq : i.quiet) (hl : i.runLegal) (h : shortRepPacket i = .ok () j) :
    j.runLegal :=
  copy_runLegal (i := { i with st := shortRepNext i.st }) h hq.2.1.2 (le_refl _) rfl hl.1 hl.2.1 hl.2.2.2.1.2.1
    hl.2.2.2.1.2.2.1 hl.2.2.2.1.2.2.2

theorem keeps_longRep (k : Fin 4) (i : Inst) : Keeps i (longRepPacket k i) := by
  unfold longRepPacket
  have hq : i.quiet → (i.rotateRep k).quiet := by
    match k with
    | 0 | 1 | 2 | 3 => exact id
  have hs : sameBase i (i.rotateRep k) := by
    match k with
    | 0 | 1 | 2 | 3 => exact ⟨⟨rfl, rfl, rfl, rfl⟩, rfl, rfl, rfl, rfl, rfl⟩
  refine keeps_update hq hs (by simp) ?_
  refine (keeps_fixed (lenDec_fixed _ _) _).bind fun n j _ => ?_
  exact keeps_update (j := { j with st := repNext i.st }) (fun hq => hq) ⟨⟨rfl, rfl, rfl, rfl⟩, rfl, rfl, rfl, rfl, rfl⟩ rfl
    (keeps_copyMatch _ _ _)

theorem lenDecode_same {c : Coder} {ps : PosState} {i j : Inst} {n : Nat} (h : lenDecode c ps i = .ok n j) :
    sameButDecoder i j := by
  have := runDec_same (lenDec c ps) i
  unfold lenDecode at h
  rw [h] at this
  exact this

theorem lenDecode_range {c : Coder} {ps : PosState} {i j : Inst} {n : Nat} (h : lenDecode c ps i = .ok n j) :
    2 ≤ n ∧ n ≤ 273 := runDec_ensures (lenDec_ensures c ps) h

theorem longRep_runLegal {k : Fin 4} {i j : Inst} (hq : i.quiet) (hl : i.runLegal) (h : longRepPacket k i = .ok () j) :
    j.runLegal := by
  unfold longRepPacket at h
  obtain ⟨n, i1, h1, h2⟩ := Res.bind_eq_ok.1 h
  have hqr : (i.rotateRep k).quiet := by
    match k with
    | 0 | 1 | 2 | 3 => exact hq
  have hlr : 0x1000000 ≤ (i.rotateRep k).range.toNat := by simpa using hl.1
  have hs := lenDecode_same h1
  have hn := lenDecode_range h1
  have hr := runDec_range (asksOnly_of_fixed (lenDec_fixed _ _) _) hqr.2.2.1 hlr h1
  have ho : i1.op = i.op := by rw [hs]; simp
  have hd : i1.dictEff = i.dictEff := by
    rw [(sameBase_of_decoder hs).dictEff]; simp [Inst.dictEff]
  have ht : i1.out = i.out := by rw [hs]; simp
  have hc : i1.destCapacity = i.destCapacity := by rw [hs]; simp
  obtain ⟨-, l2, -, ⟨r0, r1, r2, r3⟩, -⟩ := hl
  have hm : ∀ d, i.repLegal d → i1.repLegal d := fun d hd' => repLegal_mono hd' hd (by omega)
  have e0 : i1.rep0 = i.repAt k := by rw [hs]; simp
  have hreps : i1.repLegal i1.rep1 ∧ i1.repLegal i1.rep2 ∧ i1.repLegal i1.rep3 := by
    have e1 : i1.rep1 = (i.rotateRep k).rep1 := by rw [hs]
    have e2 : i1.rep2 = (i.rotateRep k).rep2 := by rw [hs]
    have e3 : i1.rep3 = (i.rotateRep k).rep3 := by rw [hs]
    rw [e1, e2, e3]
    match k with
    | 0 => exact ⟨hm _ r1, hm _ r2, hm _ r3⟩
    | 1 => exact ⟨hm _ r0, hm _ r2, hm _ r3⟩
    | 2 => exact ⟨hm _ r0, hm _ r1, hm _ r3⟩
    | 3 => exact ⟨hm _ r0, hm _ r1, hm _ r2⟩
  refine copy_runLegal (i := { i1 with st := repNext i.st }) h2 ?_ (by omega) e0 hr ?_ hreps.1 hreps.2.1 hreps.2.2
  · simp only [ho, hc]; exact hq.2.1.2
  · intro a ha
    simp only [ht]
    exact l2 a (by simpa [ho] using ha)

theorem matchOperands_same {i j : Inst} {nd : Nat × Word} (h : matchOperands i = .ok nd j) : sameButDecoder i j := by
  have := runDec_same (matchOperandsDec i.posState) i
  unfold matchOperands at h
  rw [h] at this
  exact this

theorem matchOperands_range {i j : Inst} {nd : Nat × Word} (h : matchOperands i = .ok nd j) : 2 ≤ nd.1 ∧ nd.1 ≤ 273 :=
  runDec_ensures (matchOperandsDec_ensures _) h

theorem keeps_matchOrEos (i : Inst) : Keeps i (matchOrEos i) := by
  refine (keeps_fixed (matchOperandsDec_fixed _) i).bind fun nd j _ => ?_
  split
  · exact fun hq => ⟨hq, ⟨⟨rfl, rfl, rfl, rfl⟩, rfl, rfl, rfl, rfl, rfl⟩, le_refl _⟩
  · exact Keeps.map _ (keeps_update (j := { j.pushRep nd.2 with st := matchNext j.st }) (fun hq => hq) ⟨⟨rfl, rfl, rfl, rfl⟩, rfl, rfl, rfl, rfl, rfl⟩ rfl
      (keeps_copyMatch _ _ _))

theorem matchOrEos_runLegal {i j : Inst} {e : Bool} (hq : i.quiet) (hl : i.runLegal) (h : matchOrEos i = .ok e j) :
    j.runLegal := by
  unfold matchOrEos at h
  obtain ⟨nd, i1, h1, h2⟩ := Res.bind_eq_ok.1 h
  have hl1 := runDec_runLegal (asksOnly_of_fixed (matchOperandsDec_fixed _) i) hq hl h1
  have hq1 : i1.quiet := by
    have := runDec_quiet (asksOnly_of_fixed (matchOperandsDec_fixed i.posState) i) hq
    unfold matchOperands at h1
    rw [h1] at this
    exact this
  have hn := matchOperands_range h1
  split at h2
  · cases h2; exact hl1
  · obtain ⟨_, h3, -⟩ := Res.map_eq_ok.1 h2
    obtain ⟨l1, l2, l3, ⟨r0, r1, r2, r3⟩, l5⟩ := hl1
    exact copy_runLegal (i := { i1.pushRep nd.2 with st := matchNext i1.st }) h3 hq1.2.1.2 (by omega) rfl l1 l2 r0 r1 r2

/-! ## The packet loop -/

theorem keeps_packetOf (k : PacketKind) (i : Inst) : Keeps i (packetOf k i) := by
  cases k with
  | lit => exact (keeps_litPacket i).map _
  | newMatch => exact keeps_matchOrEos i
  | shortRep => exact (keeps_shortRep i).map _
  | longRep k => exact (keeps_longRep k i).map _

theorem packetOf_runLegal {k : PacketKind} {i j : Inst} {e : Bool} (hq : i.quiet) (hl : i.runLegal)
    (h : packetOf k i = .ok e j) : j.runLegal := by
  cases k with
  | lit => obtain ⟨_, h, -⟩ := Res.map_eq_ok.1 h; exact litPacket_runLegal hq hl h
  | newMatch => exact matchOrEos_runLegal hq hl h
  | shortRep => obtain ⟨_, h, -⟩ := Res.map_eq_ok.1 h; exact shortRep_runLegal hq hl h
  | longRep k => obtain ⟨_, h, -⟩ := Res.map_eq_ok.1 h; exact longRep_runLegal hq hl h

theorem keeps_nextKind (i : Inst) : Keeps i (nextKind i) := keeps_fixed (kindDec_fixed _ _) i

theorem nextKind_runLegal {k : PacketKind} {i j : Inst} (hq : i.quiet) (hl : i.runLegal) (h : nextKind i = .ok k j) :
    j.runLegal := runDec_runLegal (asksOnly_of_fixed (kindDec_fixed _ _) i) hq hl h

theorem keeps_decodePacket (i : Inst) : Keeps i (decodePacket i) :=
  (keeps_nextKind i).bind fun k j _ => keeps_packetOf k j

theorem decodePacket_runLegal {i j : Inst} {e : Bool} (hq : i.quiet) (hl : i.runLegal) (h : decodePacket i = .ok e j) :
    j.runLegal := by
  unfold decodePacket at h
  obtain ⟨k, i1, h1, h2⟩ := Res.bind_eq_ok.1 h
  have hq1 := (keeps_nextKind i hq).1
  rw [h1] at hq1
  exact packetOf_runLegal hq1 (nextKind_runLegal hq hl h1) h2

theorem keeps_packets (n : Nat) (i : Inst) : Keeps i (packets n i) := by
  induction n generalizing i with
  | zero => exact fun hq => ⟨hq, .refl i, le_refl _⟩
  | succ n ih =>
    unfold packets
    split
    · refine (keeps_decodePacket i).bind fun e j _ => ?_
      split
      · exact fun hq => ⟨hq, .refl j, le_refl _⟩
      · exact ih j
    · exact fun hq => ⟨hq, .refl i, le_refl _⟩

theorem packets_runLegal {n : Nat} {i j : Inst} (hq : i.quiet) (hl : i.runLegal) (h : packets n i = .ok () j) :
    j.runLegal := by
  induction n generalizing i with
  | zero => simp only [packets, Res.ok.injEq, true_and] at h; exact h ▸ hl
  | succ n ih =>
    unfold packets at h
    split at h
    · obtain ⟨e, i1, h1, h2⟩ := Res.bind_eq_ok.1 h
      have hq1 := (keeps_decodePacket i hq).1
      rw [h1] at hq1
      have hl1 := decodePacket_runLegal hq hl h1
      split at h2
      · cases h2; exact hl1
      · exact ih hq1 hl1 h2
    · cases h; exact hl

/-! ## The start of a stream -/

/-- `n` bytes shifted into `code`: the decoder's part only, no counter, no byte beyond the stream. -/
theorem loadCode_decodes (n : Nat) (i : Inst) : Decodes n i (loadCode n i) ∧ (loadCode n i).inst.probs = i.probs := by
  induction n generalizing i with
  | zero => exact ⟨⟨rfl, by omega, by omega, id⟩, rfl⟩
  | succ n ih =>
    by_cases h : i.ip < i.srcLen
    · rw [loadCode, nextByte_ok h, Res.bind_ok]
      obtain ⟨g1, g2⟩ := ih { i with ip := i.ip + 1, code := shiftIn i.code (i.srcByte i.ip) }
      refine ⟨?_, g2⟩
      cases hr : loadCode n { i with ip := i.ip + 1, code := shiftIn i.code (i.srcByte i.ip) } with
      | ok a j =>
        rw [hr] at g1
        obtain ⟨a1, a2, a3, a4⟩ := g1
        exact ⟨sameButDecoder.trans (j := { i with ip := i.ip + 1, code := shiftIn i.code (i.srcByte i.ip) }) rfl a1, by simp at a2; omega,
          by simp at a3; omega, fun _ => a4 h⟩
      | raised e j =>
        rw [hr] at g1
        obtain ⟨a1, a2, a3, a4, a5, a6⟩ := g1
        exact ⟨sameButDecoder.trans (j := { i with ip := i.ip + 1, code := shiftIn i.code (i.srcByte i.ip) }) rfl a1, by simp at a2; omega,
          by simp at a3; omega, a4, a5, fun _ => a6 h⟩
    · rw [loadCode, nextByte_raised (by omega)]
      exact ⟨⟨rfl, by simp, by simp, rfl, by omega, fun _ => by omega⟩, rfl⟩

theorem loadCode_range (n : Nat) (i : Inst) : (loadCode n i).inst.range = i.range := by
  induction n generalizing i with
  | zero => rfl
  | succ n ih =>
    by_cases h : i.ip < i.srcLen
    · rw [loadCode, nextByte_ok h, Res.bind_ok, ih]
    · rw [loadCode, nextByte_raised (by omega)]; rfl

theorem loadCode_step {n : Nat} {i : Inst} (h : i.ip < i.srcLen) :
    loadCode (n + 1) i = loadCode n { i with ip := i.ip + 1, code := shiftIn i.code (i.srcByte i.ip) } := by
  rw [loadCode, nextByte_ok h]
  rfl

/-- Five bytes shifted into a 32-bit register: the first is gone (R90). -/
theorem shiftIn_five (b0 b1 b2 b3 b4 : Byte) :
    (shiftIn (shiftIn (shiftIn (shiftIn (shiftIn 0 b0) b1) b2) b3) b4).toNat =
      ((b1.toNat * 256 + b2.toNat) * 256 + b3.toNat) * 256 + b4.toNat := by
  have h0 := b0.isLt
  have h1 := b1.isLt
  have h2 := b2.isLt
  have h3 := b3.isLt
  have h4 := b4.isLt
  have e0 : (shiftIn 0 b0).toNat = b0.toNat := by
    have hz : (0 : Word).toNat = 0 := rfl
    rw [shiftIn_toNat, hz]
    omega
  have e1 : (shiftIn (shiftIn 0 b0) b1).toNat = b0.toNat * 256 + b1.toNat := by rw [shiftIn_toNat, e0]; omega
  have e2 : (shiftIn (shiftIn (shiftIn 0 b0) b1) b2).toNat = (b0.toNat * 256 + b1.toNat) * 256 + b2.toNat := by
    rw [shiftIn_toNat, e1]; omega
  have e3 : (shiftIn (shiftIn (shiftIn (shiftIn 0 b0) b1) b2) b3).toNat =
      ((b0.toNat * 256 + b1.toNat) * 256 + b2.toNat) * 256 + b3.toNat := by rw [shiftIn_toNat, e2]; omega
  rw [shiftIn_toNat, e3]
  omega

/-- The five bytes of RC_INIT, when the stream holds them (R90). -/
theorem loadCode_five {i : Inst} (h : i.ip + 5 ≤ i.srcLen) (hc : i.code = 0) :
    ∃ j, loadCode 5 i = .ok () j ∧ j.ip = i.ip + 5 ∧
      j.code.toNat = (((i.srcByte (i.ip + 1)).toNat * 256 + (i.srcByte (i.ip + 2)).toNat) * 256 +
        (i.srcByte (i.ip + 3)).toNat) * 256 + (i.srcByte (i.ip + 4)).toNat := by
  refine ⟨{ i with
    ip := i.ip + 5
    code := shiftIn (shiftIn (shiftIn (shiftIn (shiftIn i.code (i.srcByte i.ip)) (i.srcByte (i.ip + 1)))
      (i.srcByte (i.ip + 2))) (i.srcByte (i.ip + 3))) (i.srcByte (i.ip + 4)) }, ?_, rfl, ?_⟩
  · rw [loadCode_step (by omega), loadCode_step (by simp only; omega), loadCode_step (by simp only; omega),
      loadCode_step (by simp only; omega), loadCode_step (by simp only; omega)]
    rfl
  · simp only [hc]
    exact shiftIn_five _ _ _ _ _

theorem keeps_loadCode (n : Nat) (i : Inst) : Keeps i (loadCode n i) := by
  intro hq
  obtain ⟨h1, h2⟩ := loadCode_decodes n i
  have hs : sameButDecoder i (loadCode n i).inst := by
    cases hr : loadCode n i <;> rw [hr] at h1 <;> exact h1.1
  have hip : (loadCode n i).inst.ip ≤ i.srcLen := by
    cases hr : loadCode n i <;> rw [hr] at h1
    · exact h1.2.2.2 hq.2.1.1
    · exact le_of_eq (h1.2.2.2.2.2 hq.2.1.1)
  exact ⟨quiet_of_decoder hs hq hip (by rw [h2]; exact hq.2.2.1), sameBase_of_decoder hs, by rw [hs]⟩

theorem keeps_rcInit (pol : InitByte0Policy) (i : Inst) : Keeps i (rcInit pol i) := by
  unfold rcInit
  refine keeps_update (j := { i with range := 0xFFFFFFFF, code := 0 }) (fun hq => hq) ⟨⟨rfl, rfl, rfl, rfl⟩, rfl, rfl, rfl, rfl, rfl⟩ rfl ?_
  refine (keeps_loadCode 5 _).bind fun _ j _ => ?_
  split <;> exact fun hq => ⟨hq, .refl j, le_refl _⟩

/-- After RC_INIT `range` is all ones and only the decoder's registers have changed (R90). -/
theorem rcInit_ok {pol : InitByte0Policy} {i j : Inst} {u : Unit} (h : rcInit pol i = .ok u j) :
    j.range = 0xFFFFFFFF ∧ sameButDecoder i j ∧ j.probs = i.probs ∧ j.ip = i.ip + 5 := by
  unfold rcInit at h
  obtain ⟨_, i1, h1, h2⟩ := Res.bind_eq_ok.1 h
  split at h2
  · cases h2
  · cases h2
    obtain ⟨g1, g2⟩ := loadCode_decodes 5 { i with range := 0xFFFFFFFF, code := 0 }
    have g3 := loadCode_range 5 { i with range := 0xFFFFFFFF, code := 0 }
    rw [h1] at g1 g2 g3
    refine ⟨g3, sameButDecoder.trans (j := { i with range := 0xFFFFFFFF, code := 0 }) rfl g1.1, g2, ?_⟩
    have : ∀ n (i j : Inst) (u : Unit), loadCode n i = .ok u j → j.ip = i.ip + n := by
      intro n
      induction n with
      | zero => intro i j u h; cases h; rfl
      | succ n ih =>
        intro i j u h
        rw [loadCode] at h
        obtain ⟨b, i1, h1, h2⟩ := Res.bind_eq_ok.1 h
        have := ih _ _ _ h2
        unfold nextByte at h1
        split at h1
        · cases h1
        · cases h1; simp only at this; omega
    exact this 5 { i with range := 0xFFFFFFFF, code := 0 } _ _ h1

theorem keeps_runInst (pol : InitByte0Policy) (i : Inst) : Keeps i (runInst pol i) := by
  unfold runInst
  refine (keeps_rcInit pol i).bind fun _ j _ => ?_
  exact keeps_update (j := { j with endReason := .outputFull }) (fun hq => hq) ⟨⟨rfl, rfl, rfl, rfl⟩, rfl, rfl, rfl, rfl, rfl⟩ rfl
    (keeps_packets _ _)

end Sys2Proof.Machine
end

