-- ==== Sys2Proof/Laws/Invariant.lean ====
section
/-! SUPPORT. The invariant: what the two ways an operation on the current instance can end, and the changes of the table of
instances, do to it. -/

namespace Sys2Proof.Machine

/-- An instance whose command was abandoned is legal if it was but for its run (R206). -/
theorem abandoned_legal {i : Inst} (h : i.quiet) (e : Err) (n : Nat) : (i.abandoned e n).legal := by
  obtain ⟨h1, h2, h3, m1, m2, m3, m4⟩ := h
  exact ⟨h1, h2, h3, ⟨m1, rfl, m3, fun a ha => by simp [Memory.read, Inst.abandoned] at ha⟩, fun hb => by
    simp [Inst.abandoned] at hb⟩

theorem legal_of_idle {i : Inst} (h : i.quiet) (hb : i.busy = false) : i.legal :=
  (Inst.legal_iff i).2 ⟨h, fun hb' => by rw [hb] at hb'; cases hb'⟩

theorem freshInst_quiet {lc lp pb : Nat} (d : Word) (n : Nat) (h1 : lc ≤ 8) (h2 : lp ≤ 4) (h3 : pb ≤ 4)
    (h4 : lc + lp ≤ 8) : (freshInst lc lp pb d n).quiet := by
  refine ⟨?_, ⟨le_refl _, le_refl _⟩, ⟨rfl, fun e he => by simp [freshInst] at he⟩, rfl, rfl, ?_, ?_⟩
  · simp only [Inst.propsLegal, freshInst, BitVec.toNat_ofNat]
    omega
  · intro a; simp [freshInst, Memory.read]
  · intro a ha; simp [freshInst, Memory.read] at ha

/-- An instance at the start of a DECOMPRESS is legal (R187, R231). -/
theorem begun_quiet {i : Inst} (h : i.propsLegal) (src : List Byte) (cap n : Nat) : (i.begun src cap n).quiet := by
  refine ⟨h, ⟨Nat.zero_le _, Nat.zero_le _⟩, ⟨rfl, fun e he => by simp at he⟩, Memory.wf_ofBytes src, rfl, ?_, ?_⟩
  · intro a
    rw [Inst.begun_src, Memory.read_ofBytes, Inst.begun_srcLen]
    simp
  · intro a ha; simp [Memory.read] at ha

theorem resetInst_quiet {i : Inst} (h : i.quiet) : (resetInst i).quiet := by
  obtain ⟨h1, h2, h3, h4⟩ := h
  exact ⟨h1, ⟨Nat.zero_le _, Nat.zero_le _⟩, ⟨rfl, fun e he => by simp at he⟩, h4⟩

theorem State.Inv.legal {s : State} (h : s.Inv) {n : Nat} {i : Inst} (hi : Table.get s.insts n = some i) : i.legal :=
  (h.2.1 _ (Table.mem_of_get hi)).2

theorem State.Inv.handle_lt {s : State} (h : s.Inv) {n : Nat} {i : Inst} (hi : Table.get s.insts n = some i) :
    n < s.nextHandle := (h.2.1 _ (Table.mem_of_get hi)).1

/-- Putting a legal instance under a handle already given out keeps the table legal. -/
theorem insts_set {l : List (Nat × Inst)} {m n : Nat} {i : Inst} (h : Table.rising l = true)
    (hl : ∀ e ∈ l, e.1 < m ∧ e.2.legal) (hn : n < m) (hi : i.legal) :
    Table.rising (Table.set l n i) = true ∧ ∀ e ∈ Table.set l n i, e.1 < m ∧ e.2.legal := by
  refine ⟨Table.rising_set h _ _, fun e he => ?_⟩
  rcases Table.mem_set he with rfl | he
  · exact ⟨hn, hi⟩
  · exact hl e he

/-- The invariant does not depend on the port, the placed rows, the values returned or drawn, or the parameters. -/
theorem State.Inv.congr {s t : State} (h : s.Inv) (h1 : t.insts = s.insts) (h2 : t.nextHandle = s.nextHandle)
    (h3 : t.hdr = s.hdr) : t.Inv := by
  unfold State.Inv
  rw [h1, h2, h3]
  exact h

theorem State.Inv.after {s : State} (h : s.Inv) {i j : Inst} (hi : s.current = some i) (hj : j.legal) (v : Value) :
    (s.after j v).Inv := by
  obtain ⟨g1, g2⟩ := insts_set h.1 h.2.1 (h.handle_lt hi) hj
  exact ⟨g1, g2, h.2.2⟩

theorem State.Inv.trapped {s : State} (h : s.Inv) {i j : Inst} (hi : s.current = some i) (hj : j.quiet) (e : Err) :
    (s.trapped j e).Inv := by
  obtain ⟨g1, g2⟩ := insts_set h.1 h.2.1 (h.handle_lt hi) (abandoned_legal hj e s.draws)
  exact ⟨g1, g2, h.2.2⟩

/-- An operation that keeps instances legal keeps the invariant, with no run in progress. -/
theorem onCurrent_inv {f : Inst → Res Value} (hf : ∀ i, Keeps i (f i)) {s t : State} (h : s.Inv)
    (hidle : ∀ i, s.current = some i → i.busy = false) (ht : onCurrent f s = .next t) : t.Inv := by
  rcases onCurrent_cases f s with ⟨-, hr⟩ | ⟨i, hi, ⟨v, j, hv, hr⟩ | ⟨e, j, hv, hr⟩⟩ <;> rw [hr] at ht <;> cases ht
  · obtain ⟨g1, g2, -⟩ := hf i ((Inst.legal_iff i).1 (h.legal hi)).1
    rw [hv] at g1 g2
    exact h.after hi (legal_of_idle g1 (g2.2.2.2.1.trans (hidle i hi))) v
  · obtain ⟨g1, -, -⟩ := hf i ((Inst.legal_iff i).1 (h.legal hi)).1
    rw [hv] at g1
    exact h.trapped hi g1 e

/-- An operation that besides keeps a running instance fit for running keeps the invariant during a run. -/
theorem onCurrent_inv_running {f : Inst → Res Value} (hf : ∀ i, Keeps i (f i))
    (hr : ∀ i j v, i.quiet → i.runLegal → f i = .ok v j → j.runLegal) {s t : State} (h : s.Inv)
    (ht : onCurrent f s = .next t) : t.Inv := by
  rcases onCurrent_cases f s with ⟨-, h1⟩ | ⟨i, hi, ⟨v, j, hv, h1⟩ | ⟨e, j, hv, h1⟩⟩ <;> rw [h1] at ht <;> cases ht
  · obtain ⟨hq, hl⟩ := (Inst.legal_iff i).1 (h.legal hi)
    obtain ⟨g1, g2, -⟩ := hf i hq
    rw [hv] at g1 g2
    refine h.after hi ((Inst.legal_iff j).2 ⟨g1, fun hb => ?_⟩) v
    exact hr i j v hq (hl (g2.2.2.2.1.symm.trans hb)) hv
  · obtain ⟨g1, -, -⟩ := hf i ((Inst.legal_iff i).1 (h.legal hi)).1
    rw [hv] at g1
    exact h.trapped hi g1 e

/-- The state after reset is legal. -/
theorem reset_wf : Memory.wf State.reset.hdr = true ∧ Table.rising State.reset.insts = true := ⟨rfl, rfl⟩

end Sys2Proof.Machine
end

