-- ==== Sys2Proof/Laws/Rows.lean ====
section
/-! SUPPORT. The rows of the opcode table: the DIST rows run one operation, and what a request decodes to is never an
internal operation. -/

namespace Sys2Proof.Machine

/-- The row of a slot runs that slot (R68, R126). -/
theorem exec_slot {i : Instr} {k : Nat} (h : i.slot = some k) (s : State) : exec i s = execSlot k s := by
  cases i <;> simp only [Instr.slot] at h <;> cases h <;> rfl

theorem slotInstr_slot (k : Fin 64) : (slotInstr k).slot = some k.val := by
  revert k; decide

theorem slot_lt {i : Instr} {k : Nat} (h : i.slot = some k) : k < 64 := by
  cases i <;> simp only [Instr.slot] at h <;> cases h <;> decide

/-- The rows of the stream's formats that a word selects, but for the distance rows. -/
def isStreamRow : Instr → Bool
  | .streamInit | .lit | .newMatch | .eos | .shortRep | .longRep0 | .longRep1 | .longRep2 | .longRep3 => true
  | .literalPlain | .literalMatched => true
  | .lenLow _ _ | .lenMid _ _ | .lenHigh _ => true
  | _ => false

/-- What a request decodes to: a host command, a header, or a row of one of the stream's formats. -/
theorem decode_rows {r : Request} {i : Instr} (h : decode r = .instr i) :
    Instr.ofHost i = true ∨ isStreamRow i = true ∨ ∃ k, i.slot = some k := by
  cases r with
  | command code hd nums bytes =>
    simp only [decode, decodeCommand] at h
    split at h
    all_goals (try split at h)
    all_goals (try split at h)
    all_goals (try cases h)
    all_goals exact .inl rfl
  | header b => cases h; exact .inl rfl
  | stream f ds =>
    simp only [decode, decodeStream] at h
    split at h
    · unfold decodePacketWord at h
      split at h
      · cases h
      · next k _ =>
        cases h
        cases k with
        | longRep k =>
          match k with
          | 0 | 1 | 2 | 3 => exact .inr (.inl rfl)
        | _ => exact .inr (.inl rfl)
      · split at h
        · split at h
          · split at h <;> cases h
            exact .inr (.inl rfl)
          all_goals cases h
        · cases h
    · unfold decodeLenWord at h
      split at h <;> cases h <;> exact .inr (.inl rfl)
    · unfold decodeDistWord at h
      split at h <;> cases h
      exact .inr (.inr ⟨_, slotInstr_slot _⟩)
    all_goals (cases h; try exact .inr (.inl rfl))

/-- With no run in progress the step turns to the placed rows and the port. -/
theorem fetch_noRun {s : State} (h : s.noRun) : fetch s = fetchIdle s := by
  unfold fetch
  split
  · rfl
  · next j hj => rw [h j hj]; rfl

theorem State.Inv.putInst {s : State} (h : s.Inv) {i j : Inst} (hi : s.current = some i) (hj : j.legal) :
    (s.putInst s.cur j).Inv := by
  obtain ⟨g1, g2⟩ := insts_set h.1 h.2.1 (h.handle_lt hi) hj
  exact ⟨g1, g2, h.2.2⟩

end Sys2Proof.Machine
end

