-- ==== Sys2Proof/Laws/Cut.lean ====
section
/-! SUPPORT. A stream cut short: an operation that reads the stream and completes does the same on every stream with the
same bytes as far as it read, and runs out of input on one that ends before that (R91, R204). -/

namespace Sys2Proof.Machine

/-- What `F` does on a stream cut to `n` bytes, where it completes on the whole one. -/
def Cuts {α : Type} (F : Inst → Res α) : Prop :=
  (∀ {i : Inst} {a : α} {j : Inst}, F i = .ok a j → i.ip ≤ j.ip ∧ j.op = i.op) ∧
    ∀ {i i' : Inst} {n : Nat} {a : α} {j : Inst}, cutTo i i' n → i.ip ≤ n → F i = .ok a j →
      (j.ip ≤ n → ∃ k, F i' = .ok a k ∧ cutTo j k n) ∧
        (n < j.ip → ∃ k, F i' = .raised .inputExhausted k ∧ k.ip = n ∧ k.op = i.op)

/-- An update that does not move the cursors and does not look at the stream keeps a cut. -/
theorem cutTo.update {i i' : Inst} {n : Nat} (h : cutTo i i' n) (u : Inst → Inst)
    (hu : u { i with src := i'.src, srcLen := n } = { u i with src := i'.src, srcLen := n })
    (he : (u i).epoch = i.epoch) (hs : (u i).src = i.src) : cutTo (u i) (u i') n := by
  obtain ⟨h1, h2⟩ := h
  have h3 : u i' = { u i with src := i'.src, srcLen := n } := by
    conv_lhs => rw [h1]
    exact hu
  refine ⟨by rw [h3], fun a ha => ?_⟩
  have h4 := h2 a ha
  have h5 : i'.epoch = i.epoch := by rw [h1]
  simp only [Inst.srcByte, h5] at h4
  simp only [Inst.srcByte, h3, he, hs]
  exact h4

theorem cutTo.ip {i i' : Inst} {n : Nat} (h : cutTo i i' n) : i'.ip = i.ip := by rw [h.1]

theorem cutTo.srcLen {i i' : Inst} {n : Nat} (h : cutTo i i' n) : i'.srcLen = n := by rw [h.1]

namespace Cuts

theorem done {α : Type} (a : α) : Cuts fun i => Res.ok a i :=
  ⟨fun h => by cases h; exact ⟨le_refl _, rfl⟩, fun hc hn h => by
    cases h; exact ⟨fun _ => ⟨_, rfl, hc⟩, fun h => absurd h (by omega)⟩⟩

theorem bind {α β : Type} {F : Inst → Res α} {G : α → Inst → Res β} (hF : Cuts F) (hG : ∀ a, Cuts (G a)) :
    Cuts fun i => (F i).bind G := by
  refine ⟨fun h => ?_, fun {i i' n b j} hc hn h => ?_⟩
  · obtain ⟨a, i1, h1, h2⟩ := Res.bind_eq_ok.1 h
    exact ⟨(hF.1 h1).1.trans ((hG a).1 h2).1, ((hG a).1 h2).2.trans (hF.1 h1).2⟩
  · obtain ⟨a, i1, h1, h2⟩ := Res.bind_eq_ok.1 h
    obtain ⟨f3, f4⟩ := hF.2 hc hn h1
    have f2 := (hF.1 h1).2
    by_cases hin : i1.ip ≤ n
    · obtain ⟨k1, hk, hc1⟩ := f3 hin
      obtain ⟨g3, g4⟩ := (hG a).2 hc1 hin h2
      simp only [hk, Res.bind_ok]
      exact ⟨g3, fun h => (g4 h).imp fun k hk => ⟨hk.1, hk.2.1, hk.2.2.trans f2⟩⟩
    · obtain ⟨k, hk, hip, hop⟩ := f4 (by omega)
      have := ((hG a).1 h2).1
      simp only [hk, Res.bind_raised]
      exact ⟨fun h => absurd h (by omega), fun _ => ⟨k, rfl, hip, hop⟩⟩

theorem map {α β : Type} {F : Inst → Res α} (f : α → β) (hF : Cuts F) : Cuts fun i => (F i).map f := by
  refine (congrArg Cuts (funext fun i => ?_)).mp (hF.bind fun a => done (f a))
  cases F i <;> rfl

theorem nextByte : Cuts Machine.nextByte := by
  refine ⟨fun {i a j} h => ?_, fun {i i' n a j} hc hn h => ?_⟩
  all_goals
    unfold Machine.nextByte at h
    split at h
    · cases h
    cases h
  · exact ⟨Nat.le_succ _, rfl⟩
  · refine ⟨fun hin => ?_, fun hout => ?_⟩
    · rw [nextByte_ok (by rw [hc.ip, hc.srcLen]; exact hin), hc.ip, hc.2 _ hin]
      exact ⟨_, rfl, hc.ip ▸ hc.update (fun i => { i with ip := i.ip + 1 }) rfl rfl rfl⟩
    · have : n = i.ip := by simp only at hout; omega
      exact ⟨i', nextByte_raised (by rw [hc.ip, hc.srcLen, this]), by rw [hc.ip, this], by rw [hc.1]⟩

/-- First an update that leaves the stream and the cursors alone. -/
theorem after {α : Type} {F : Inst → Res α} (u : Inst → Inst)
    (hu : ∀ (i : Inst) src n, u { i with src := src, srcLen := n } = { u i with src := src, srcLen := n })
    (hk : ∀ i : Inst, (u i).epoch = i.epoch ∧ (u i).src = i.src ∧ (u i).ip = i.ip ∧ (u i).op = i.op) (hF : Cuts F) :
    Cuts fun i => F (u i) := by
  refine ⟨fun {i a j} h => ?_, fun {i i' n a j} hc hn h => ?_⟩
  · obtain ⟨-, -, h3, h4⟩ := hk i
    rw [← h3, ← h4]
    exact hF.1 h
  · obtain ⟨h1, h2, h3, h4⟩ := hk i
    rw [← h4]
    exact hF.2 (hc.update u (hu _ _ _) h1 h2) (by rw [h3]; exact hn) h

/-- A choice that does not depend on the stream. -/
theorem ite {α : Type} {F G : Inst → Res α} (p : Inst → Bool)
    (hp : ∀ (i : Inst) src n, p { i with src := src, srcLen := n } = p i) (hF : Cuts F) (hG : Cuts G) :
    Cuts fun i => if p i then F i else G i := by
  refine ⟨fun {i a j} h => ?_, fun {i i' n a j} hc hn h => ?_⟩
  · cases hb : p i with
    | true => simp only [hb, if_true] at h; exact hF.1 h
    | false => simp only [hb, Bool.false_eq_true, if_false] at h; exact hG.1 h
  · have hb' : p i' = p i := by rw [hc.1]; exact hp _ _ _
    cases hb : p i with
    | true => simp only [hb', hb, if_true] at h ⊢; exact hF.2 hc hn h
    | false => simp only [hb', hb, Bool.false_eq_true, if_false] at h ⊢; exact hG.2 hc hn h

theorem normalize : Cuts Machine.normalize := by
  refine (congrArg Cuts (funext fun i => ?_)).mp
    (ite (fun i => decide (i.range < Config.top)) (fun _ _ _ => rfl)
      (nextByte.bind fun b => after (fun i => { i with range := i.range <<< 8, code := shiftIn i.code b }) (fun _ _ _ => rfl)
        (fun _ => ⟨rfl, rfl, rfl, rfl⟩) (done ())) (done ()))
  simp [Machine.normalize]

theorem decodeBit (c : Counter) : Cuts (Machine.decodeBit c) := by
  refine (congrArg Cuts (funext fun i => ?_)).mp
    (ite (fun i => decide (i.code < boundOf i.range (i.prob c))) (fun _ _ _ => rfl)
      ((after (fun i => { i with
          range := boundOf i.range (i.prob c)
          probs := ProbFile.write i.probs c (probAfter (i.prob c) false) }) (fun _ _ _ => rfl)
        (fun _ => ⟨rfl, rfl, rfl, rfl⟩) normalize).map fun _ => false)
      ((after (fun i => { i with
          range := i.range - boundOf i.range (i.prob c)
          code := i.code - boundOf i.range (i.prob c)
          probs := ProbFile.write i.probs c (probAfter (i.prob c) true) }) (fun _ _ _ => rfl)
        (fun _ => ⟨rfl, rfl, rfl, rfl⟩) normalize).map fun _ => true))
  simp [Machine.decodeBit]

theorem directBit : Cuts Machine.directBit := by
  refine (congrArg Cuts (funext fun i => ?_)).mp
    (ite (fun i => decide (i.range >>> 1 ≤ i.code)) (fun _ _ _ => rfl)
      ((after (fun i => { i with range := i.range >>> 1, code := i.code - i.range >>> 1 }) (fun _ _ _ => rfl)
        (fun _ => ⟨rfl, rfl, rfl, rfl⟩) normalize).map fun _ => true)
      ((after (fun i => { i with range := i.range >>> 1 }) (fun _ _ _ => rfl)
        (fun _ => ⟨rfl, rfl, rfl, rfl⟩) normalize).map fun _ => false))
  simp [Machine.directBit]

/-- Every decision program. -/
theorem runDec {α : Type} (d : Dec α) : Cuts (Machine.runDec d) := by
  induction d with
  | done a => exact done a
  | ask q k ih =>
    have hq : Cuts (decision q) := by
      cases q
      · exact decodeBit _
      · exact directBit
    refine (congrArg Cuts (funext fun i => ?_)).mp (hq.bind ih)
    simp only [Machine.runDec]
    cases decision q i <;> rfl

theorem loadCode (n : Nat) : Cuts (Machine.loadCode n) := by
  induction n with
  | zero => exact done ()
  | succ n ih =>
    exact nextByte.bind fun b => after (fun i => { i with code := shiftIn i.code b }) (fun _ _ _ => rfl)
      (fun _ => ⟨rfl, rfl, rfl, rfl⟩) ih

/-- RC_INIT looks at the first byte after it has read five (R90). -/
theorem rcInit (pol : InitByte0Policy) : Cuts (Machine.rcInit pol) := by
  have hl : Cuts fun i => Machine.loadCode 5 { i with range := 0xFFFFFFFF, code := 0 } :=
    after (fun i => { i with range := 0xFFFFFFFF, code := 0 }) (fun _ _ _ => rfl) (fun _ => ⟨rfl, rfl, rfl, rfl⟩) (loadCode 5)
  have parts : ∀ {i j : Inst} {a : Unit}, Machine.rcInit pol i = .ok a j →
      ¬(pol = .reject ∧ i.srcByte 0 ≠ 0) ∧ Machine.loadCode 5 { i with range := 0xFFFFFFFF, code := 0 } = .ok a j := by
    intro i j a h
    obtain ⟨a, i1, h1, h2⟩ := Res.bind_eq_ok.1 h
    split at h2
    · cases h2
    · next hp => cases h2; exact ⟨hp, h1⟩
  refine ⟨fun h => hl.1 (parts h).2, fun {i i' n a j} hc hn h => ?_⟩
  obtain ⟨hp, h1⟩ := parts h
  obtain ⟨g1, g2⟩ := hl.2 hc hn h1
  have h5 := (rcInit_ok h).2.2.2
  refine ⟨fun hin => ?_, fun hout => ?_⟩
  · obtain ⟨k, hk, hck⟩ := g1 hin
    refine ⟨k, ?_, hck⟩
    simp only [Machine.rcInit, hk, Res.bind_ok]
    rw [hc.2 0 (by omega), if_neg hp]
  · obtain ⟨k, hk, hip⟩ := g2 hout
    exact ⟨k, by simp only [Machine.rcInit, hk, Res.bind_raised], hip⟩

theorem getByte (d : Word) : Cuts (Machine.getByte d) := by
  refine ⟨fun {i a j} h => ?_, fun {i i' n a j} hc hn h => ?_⟩
  all_goals
    unfold Machine.getByte at h
    split at h
    · cases h
    cases h
  · exact ⟨le_refl _, rfl⟩
  · next hb =>
    refine ⟨fun _ => ⟨i', ?_, hc⟩, fun h => absurd h (by omega)⟩
    have e1 : i'.badDistance d = i.badDistance d := by rw [hc.1]; rfl
    have e2 : i'.back d = i.back d := by rw [hc.1]; rfl
    unfold Machine.getByte
    rw [e1, if_neg hb, e2]

theorem literalPlain : Cuts Machine.literalPlain := by
  refine ⟨fun h => (runDec _).1 h, fun {i i' n a j} hc hn h => ?_⟩
  have e : i'.litContext = i.litContext := by rw [hc.1]; rfl
  simp only [Machine.literalPlain, e]
  exact (runDec _).2 hc hn h

theorem literalMatched : Cuts Machine.literalMatched := by
  refine ⟨fun {i a j} h => ?_, fun {i i' n a j} hc hn h => ?_⟩
  · obtain ⟨mb, i1, h1, h2⟩ := Res.bind_eq_ok.1 h
    exact ⟨((getByte _).1 h1).1.trans ((runDec _).1 h2).1, ((runDec _).1 h2).2.trans ((getByte _).1 h1).2⟩
  · obtain ⟨mb, i1, h1, h2⟩ := Res.bind_eq_ok.1 h
    have h0 : i1 = i := by
      unfold Machine.getByte at h1
      split at h1 <;> cases h1
      rfl
    subst h0
    obtain ⟨k, hk, hck⟩ := ((getByte i1.rep0).2 hc hn h1).1 hn
    have h0' : k = i' := by
      unfold Machine.getByte at hk
      split at hk <;> cases hk
      rfl
    subst h0'
    have e1 : k.rep0 = i1.rep0 := by rw [hc.1]
    have e2 : k.litContext = i1.litContext := by rw [hc.1]; rfl
    simp only [Machine.literalMatched, e1, hk, Res.bind_ok, e2]
    exact (runDec _).2 hc hn h2

theorem litDecode : Cuts Machine.litDecode :=
  ite (fun i => matchedState i.st) (fun _ _ _ => rfl) literalMatched literalPlain

/-- What `posState` and `state` choose is the same on a stream cut short. -/
theorem runDec_at {α : Type} (d : StateIndex → PosState → Dec α) :
    Cuts fun i => Machine.runDec (d i.st i.posState) i := by
  refine ⟨fun h => (runDec _).1 h, fun {i i' n a j} hc hn h => ?_⟩
  have e1 : i'.st = i.st := by rw [hc.1]
  have e2 : i'.posState = i.posState := by rw [hc.1]; rfl
  simp only [e1, e2]
  exact (runDec _).2 hc hn h

theorem matchOperands : Cuts Machine.matchOperands := runDec_at fun _ ps => matchOperandsDec ps

theorem nextKind : Cuts Machine.nextKind := runDec_at kindDec

end Cuts

end Sys2Proof.Machine
end

