-- ==== Sys2Proof/Laws/Packets.lean ====
section
/-! SUPPORT. Laws of the packets: which decisions name a kind, decoding does not depend on the rep registers or on
`state`, one shape for the four packet rows, and the progress a packet makes. -/

namespace Sys2Proof.Machine

theorem Res.map_map {α β γ : Type} (r : Res α) (f : α → β) (g : β → γ) :
    (r.map f).map g = r.map fun a => g (f a) := by cases r <;> rfl

/-! ## Naming decisions -/

/-- The decisions that name a kind are those of R65. -/
theorem kindDec_word {st : StateIndex} {ps : PosState} {ds : List Bool} {k : PacketKind}
    (h : (kindDec st ps).read ds = some (k, [])) :
    (k = .lit → ds = [false]) ∧ (k = .newMatch → ds = [true, false]) ∧
      (k = .shortRep → ds = [true, true, false, false]) ∧ ∀ x, k = .longRep x → ds = spellLongRep x := by
  simp only [kindDec, bitDec, Dec.bind] at h
  rcases ds with _ | ⟨b, ds⟩
  · simp [Dec.read] at h
  cases b
  · simp [Dec.read] at h; rcases h with ⟨rfl, rfl⟩; simp
  simp only [Dec.read, Bool.not_true, Bool.false_eq_true, if_false] at h
  rcases ds with _ | ⟨b, ds⟩
  · simp [Dec.read] at h
  cases b
  · simp [Dec.read] at h; rcases h with ⟨rfl, rfl⟩; simp
  simp only [Dec.read, Bool.not_true, Bool.false_eq_true, if_false] at h
  rcases ds with _ | ⟨b, ds⟩
  · simp [Dec.read] at h
  cases b
  · simp [Dec.read] at h
    rcases ds with _ | ⟨b, ds⟩
    · simp [Dec.read] at h
    cases b <;> simp [Dec.read] at h <;> rcases h with ⟨rfl, rfl⟩ <;> simp [spellLongRep]
  simp only [Dec.read, Bool.not_true, Bool.false_eq_true, if_false] at h
  rcases ds with _ | ⟨b, ds⟩
  · simp [Dec.read] at h
  cases b
  · simp [Dec.read] at h; rcases h with ⟨rfl, rfl⟩; simp [spellLongRep]
  simp only [Dec.read, Bool.not_true, Bool.false_eq_true, if_false] at h
  rcases ds with _ | ⟨b, ds⟩
  · simp [Dec.read] at h
  cases b <;> simp [Dec.read] at h <;> rcases h with ⟨rfl, rfl⟩ <;> simp [spellLongRep]

/-- A packet row executes the packet of its kind. -/
theorem exec_kind (k : PacketKind) (s : State) :
    exec k.instr s = onCurrent (fun i => (packetOf k i).map fun _ => .none) s := by
  cases k with
  | longRep k =>
    fin_cases k <;>
      simp [PacketKind.instr, exec, execLongRep0, execLongRep1, execLongRep2, execLongRep3, packetOf, Res.map_map]
  | _ => simp [PacketKind.instr, exec, execLit, execMatch, execShortRep, packetOf, Res.map_map]

/-! ## Decoding does not read the rep registers or `state` -/

/-- An instance with other rep registers and another `state`. -/
def Inst.withReps (i : Inst) (r0 r1 r2 r3 : Word) (st : StateIndex) : Inst :=
  { i with rep0 := r0, rep1 := r1, rep2 := r2, rep3 := r3, st := st }

/-- The same of a result. -/
def Res.withReps {α : Type} (r : Res α) (r0 r1 r2 r3 : Word) (st : StateIndex) : Res α :=
  match r with
  | .ok a j => .ok a (j.withReps r0 r1 r2 r3 st)
  | .raised e j => .raised e (j.withReps r0 r1 r2 r3 st)

theorem Res.withReps_map {α β : Type} (r : Res α) (f : α → β) (r0 r1 r2 r3 : Word) (st : StateIndex) :
    (r.map f).withReps r0 r1 r2 r3 st = (r.withReps r0 r1 r2 r3 st).map f := by cases r <;> rfl

theorem normalize_withReps (i : Inst) (r0 r1 r2 r3 : Word) (st : StateIndex) :
    Machine.normalize (i.withReps r0 r1 r2 r3 st) = (Machine.normalize i).withReps r0 r1 r2 r3 st := by
  unfold Machine.normalize nextByte
  by_cases h : i.range < Config.top <;> by_cases h2 : i.srcLen ≤ i.ip <;>
    simp [Inst.withReps, Res.withReps, h, h2, Inst.srcByte]

theorem decision_withReps (q : Query) (i : Inst) (r0 r1 r2 r3 : Word) (st : StateIndex) :
    decision q (i.withReps r0 r1 r2 r3 st) = (decision q i).withReps r0 r1 r2 r3 st := by
  cases q with
  | adaptive c =>
    simp only [decision, decodeBit, show (i.withReps r0 r1 r2 r3 st).prob c = i.prob c from rfl,
      show (i.withReps r0 r1 r2 r3 st).code = i.code from rfl, show (i.withReps r0 r1 r2 r3 st).range = i.range from rfl,
      show (i.withReps r0 r1 r2 r3 st).probs = i.probs from rfl]
    split <;> rw [Res.withReps_map, ← normalize_withReps] <;> rfl
  | direct =>
    simp only [decision, directBit, show (i.withReps r0 r1 r2 r3 st).code = i.code from rfl,
      show (i.withReps r0 r1 r2 r3 st).range = i.range from rfl]
    split <;> rw [Res.withReps_map, ← normalize_withReps] <;> rfl

theorem runDec_withReps {α : Type} (d : Dec α) (i : Inst) (r0 r1 r2 r3 : Word) (st : StateIndex) :
    runDec d (i.withReps r0 r1 r2 r3 st) = (runDec d i).withReps r0 r1 r2 r3 st := by
  induction d generalizing i with
  | done a => rfl
  | ask q k ih =>
    simp only [runDec, decision_withReps]
    cases decision q i with
    | ok b j => exact ih b j
    | raised e j => rfl

/-! ## Progress -/

/-- What stays of an instance when a packet completes, and that its cursor is then at least a byte further. -/
def Progress (i j : Inst) : Prop :=
  j.destCapacity = i.destCapacity ∧ j.busy = i.busy ∧ j.srcLen = i.srcLen ∧ j.endReason = i.endReason ∧
    i.op < j.op ∧ j.op ≤ j.destCapacity

theorem copyMatch_progress {i x y : Inst} {d : Word} {n : Nat} (h : copyMatch d n x = .ok () y) (hn : 1 ≤ n)
    (hop : x.op = i.op) (hcap : x.destCapacity = i.destCapacity) (hb : x.busy = i.busy) (hs : x.srcLen = i.srcLen)
    (he : x.endReason = i.endReason) (hroom : i.op < i.destCapacity) : Progress i y := by
  obtain ⟨-, -, b3, b4, b5⟩ := copyMatch_of_ok h (by omega)
  have c1 : y.destCapacity = x.destCapacity := by rw [b4]
  have c2 : y.busy = x.busy := by rw [b4]
  have c3 : y.srcLen = x.srcLen := by rw [b4]
  have c4 : y.endReason = x.endReason := by rw [b4]
  have c5 := b5.1
  exact ⟨by omega, c2.trans hb, c3.trans hs, c4.trans he, by omega, by omega⟩

/-- A packet that is not the end marker makes progress; the end marker changes `endReason` alone of these. -/
theorem packetOf_progress {k : PacketKind} {i j : Inst} {e : Bool} (h : packetOf k i = .ok e j)
    (hroom : i.op < i.destCapacity) :
    (e = false ∧ Progress i j) ∨ (e = true ∧ k = .newMatch ∧ j.op = i.op ∧ j.destCapacity = i.destCapacity ∧
      j.busy = i.busy ∧ j.srcLen = i.srcLen ∧ j.endReason = .endMarker) := by
  cases k with
  | lit =>
    obtain ⟨u, h3, rfl⟩ := Res.map_eq_ok.1 h
    obtain ⟨b, j1, g1, g2, rfl⟩ := litPacket_eq_ok.1 h3
    have hs := litDecode_same g1
    have f1 : j1.op = i.op := by rw [hs]
    have f2 : j1.destCapacity = i.destCapacity := by rw [hs]
    refine .inl ⟨rfl, ?_⟩
    simp only [Progress, Inst.appended]
    exact ⟨f2, by rw [hs], by rw [hs], by rw [hs], by omega, by omega⟩
  | newMatch =>
    obtain ⟨nd, j1, g1, g2⟩ := Res.bind_eq_ok.1 h
    have hs := matchOperands_same g1
    have f1 : j1.op = i.op := by rw [hs]
    have f2 : j1.destCapacity = i.destCapacity := by rw [hs]
    have f3 : j1.busy = i.busy := by rw [hs]
    have f4 : j1.srcLen = i.srcLen := by rw [hs]
    have f5 : j1.endReason = i.endReason := by rw [hs]
    split at g2
    · cases g2
      exact .inr ⟨rfl, rfl, f1, f2, f3, f4, rfl⟩
    · obtain ⟨u, h3, rfl⟩ := Res.map_eq_ok.1 g2
      exact .inl ⟨rfl, copyMatch_progress (i := i) h3 (by have := (matchOperands_range g1).1; omega) f1 f2 f3 f4 f5 hroom⟩
  | shortRep =>
    obtain ⟨u, h3, rfl⟩ := Res.map_eq_ok.1 h
    exact .inl ⟨rfl, copyMatch_progress h3 (le_refl _) rfl rfl rfl rfl rfl hroom⟩
  | longRep k =>
    obtain ⟨u, h3, rfl⟩ := Res.map_eq_ok.1 h
    obtain ⟨n, j1, g1, g2⟩ := Res.bind_eq_ok.1 h3
    have hs := lenDecode_same g1
    have f1 : j1.op = i.op := by rw [hs]; fin_cases k <;> rfl
    have f2 : j1.destCapacity = i.destCapacity := by rw [hs]; fin_cases k <;> rfl
    have f3 : j1.busy = i.busy := by rw [hs]; fin_cases k <;> rfl
    have f4 : j1.srcLen = i.srcLen := by rw [hs]; fin_cases k <;> rfl
    have f5 : j1.endReason = i.endReason := by rw [hs]; fin_cases k <;> rfl
    exact .inl ⟨rfl, copyMatch_progress (i := i) g2 (by have := (lenDecode_range g1).1; omega) f1 f2 f3 f4 f5 hroom⟩

/-- The same of a whole packet, its naming decisions included. -/
theorem decodePacket_progress {i j : Inst} {e : Bool} (h : decodePacket i = .ok e j) (hroom : i.op < i.destCapacity) :
    (e = false ∧ Progress i j) ∨ (e = true ∧ j.op = i.op ∧ j.destCapacity = i.destCapacity ∧ j.busy = i.busy ∧
      j.srcLen = i.srcLen ∧ j.endReason = .endMarker) := by
  obtain ⟨k, i1, h1, h2⟩ := Res.bind_eq_ok.1 h
  have hs : sameButDecoder i i1 := by
    have := runDec_same (kindDec i.st i.posState) i
    rwa [show runDec (kindDec i.st i.posState) i = .ok k i1 from h1] at this
  have e1 : i1.op = i.op := by rw [hs]
  have e2 : i1.destCapacity = i.destCapacity := by rw [hs]
  have e3 : i1.busy = i.busy := by rw [hs]
  have e4 : i1.srcLen = i.srcLen := by rw [hs]
  have e5 : i1.endReason = i.endReason := by rw [hs]
  rcases packetOf_progress h2 (by omega) with ⟨rfl, p1, p2, p3, p4, p5, p6⟩ | ⟨rfl, -, q1, q2, q3, q4, q5⟩
  · exact .inl ⟨rfl, p1.trans e2, p2.trans e3, p3.trans e4, p4.trans e5, by omega, p6⟩
  · exact .inr ⟨rfl, q1.trans e1, q2.trans e2, q3.trans e3, q4.trans e4, q5⟩

end Sys2Proof.Machine
end

