-- ==== Sys2Proof/Laws/Frame.lean ====
section
/-! SUPPORT. What an operation on an instance leaves alone, however it ends and whatever instance it starts from: the
properties, the latched operands and the stream, and every byte of OUT but those it may append. -/

namespace Sys2Proof.Machine

/-- An operation from `i` that, however it ends, keeps the call, moves `op` up by at most `n`, and changes no byte of OUT
below `op`, `n` or more above it, or at or beyond `destCapacity`. -/
def Appends {α : Type} (n : Nat) (i : Inst) (r : Res α) : Prop :=
  sameCall i r.inst ∧ i.op ≤ r.inst.op ∧ r.inst.op ≤ i.op + n ∧
    ∀ a, a < i.op ∨ i.op + n ≤ a ∨ i.destCapacity ≤ a → Memory.read r.inst.out a = Memory.read i.out a

theorem sameCall.refl (i : Inst) : sameCall i i := ⟨⟨rfl, rfl, rfl, rfl⟩, rfl, rfl, rfl, rfl⟩

theorem sameCall.trans {i j k : Inst} (h : sameCall i j) (h' : sameCall j k) : sameCall i k := by
  obtain ⟨⟨a1, a2, a3, a4⟩, b1, b2, b3, b4⟩ := h
  obtain ⟨⟨c1, c2, c3, c4⟩, d1, d2, d3, d4⟩ := h'
  exact ⟨⟨a1.trans c1, a2.trans c2, a3.trans c3, a4.trans c4⟩, d1.trans b1, d2.trans b2, d3.trans b3, d4.trans b4⟩

theorem sameCall_of_decoder {i j : Inst} (h : sameButDecoder i j) : sameCall i j := by
  rw [h]; exact ⟨⟨rfl, rfl, rfl, rfl⟩, rfl, rfl, rfl, rfl⟩

/-- The instance a result holds is the one it leaves. -/
theorem Res.leaves_iff {α : Type} {r : Res α} {j : Inst} : r.leaves j ↔ r.inst = j := by
  cases r <;> simp [Res.leaves]

namespace Appends

theorem ok {α : Type} (n : Nat) (a : α) (i : Inst) : Appends n i (.ok a i) :=
  ⟨.refl i, le_refl _, Nat.le_add_right _ _, fun _ _ => rfl⟩

theorem raised {α : Type} (n : Nat) (e : Err) (i : Inst) : Appends n i (.raised (α := α) e i) :=
  ⟨.refl i, le_refl _, Nat.le_add_right _ _, fun _ _ => rfl⟩

theorem mono {α : Type} {m n : Nat} {i : Inst} {r : Res α} (h : Appends m i r) (hle : m ≤ n) : Appends n i r :=
  ⟨h.1, h.2.1, h.2.2.1.trans (by omega), fun a ha => h.2.2.2 a (by omega)⟩

theorem map {α β : Type} {n : Nat} {i : Inst} {r : Res α} (f : α → β) (h : Appends n i r) : Appends n i (r.map f) := by
  unfold Appends; rw [Res.inst_map]; exact h

theorem bind {α β : Type} {m n : Nat} {i : Inst} {r : Res α} {f : α → Inst → Res β} (h : Appends m i r)
    (hf : ∀ a j, r = .ok a j → Appends n j (f a j)) : Appends (m + n) i (r.bind f) := by
  obtain ⟨h1, h2, h3, h4⟩ := h
  cases hr : r with
  | ok a j =>
    rw [hr] at h1 h2 h3 h4
    obtain ⟨g1, g2, g3, g4⟩ := hf a j hr
    simp only [Res.inst_ok] at h1 h2 h3 h4
    have hc : j.destCapacity = i.destCapacity := h1.2.2.1
    exact ⟨h1.trans g1, by simp only [Res.bind_ok]; omega, by simp only [Res.bind_ok]; omega,
      fun a ha => by rw [Res.bind_ok, g4 a (by omega), h4 a (by omega)]⟩
  | raised e j =>
    rw [hr] at h1 h2 h3 h4
    exact ⟨h1, h2, h3.trans (by omega), fun a ha => h4 a (by omega)⟩

/-- What an operation does from an instance that differs only in the rep registers, `state` and the like. -/
theorem of_same {α : Type} {n : Nat} {i j : Inst} {r : Res α} (hs : sameCall i j) (h1 : j.op = i.op) (h2 : j.out = i.out)
    (h : Appends n j r) : Appends n i r := by
  obtain ⟨a, b, c, d⟩ := h
  rw [h1] at b c
  rw [h1, h2, hs.2.2.1] at d
  exact ⟨hs.trans a, b, c, d⟩

theorem runDec {α : Type} (d : Dec α) (i : Inst) : Appends 0 i (Machine.runDec d i) := by
  have h := runDec_same d i
  exact ⟨sameCall_of_decoder h, by rw [h], by rw [h]; exact le_refl _, fun a _ => by rw [h]⟩

theorem putByte (b : Byte) (i : Inst) : Appends 1 i (Machine.putByte b i) := by
  unfold Machine.putByte
  split
  · exact raised _ _ _
  · exact ⟨⟨⟨rfl, rfl, rfl, rfl⟩, rfl, rfl, rfl, rfl⟩, by simp, by simp, fun a ha => Table.get_set_other _ _ (by omega)⟩

theorem copyLoop (d : Word) (n : Nat) (i : Inst) : Appends n i (Machine.copyLoop d n i) := by
  induction n generalizing i with
  | zero => exact ok _ _ _
  | succ n ih =>
    have h := (putByte (i.back d) i).bind fun (_ : Unit) j _ => ih j
    rw [Nat.add_comm] at h
    exact h

theorem copyMatch (d : Word) (n : Nat) (i : Inst) : Appends n i (Machine.copyMatch d n i) := by
  unfold Machine.copyMatch
  split
  · exact raised _ _ _
  · exact copyLoop d n i

theorem litDecode (i : Inst) : Appends 0 i (Machine.litDecode i) := by
  unfold Machine.litDecode
  split
  · unfold literalMatched getByte
    split
    · exact raised _ _ _
    · exact runDec _ _
  · exact runDec _ _

theorem litPacket (i : Inst) : Appends 1 i (Machine.litPacket i) :=
  ((litDecode i).bind (n := 1) fun b j _ => (putByte b j).bind (n := 0) fun _ k _ =>
    of_same (j := { k with st := litNext i.st }) ⟨⟨rfl, rfl, rfl, rfl⟩, rfl, rfl, rfl, rfl⟩ rfl rfl (ok _ _ _)).mono
      (by omega)

theorem matchOrEos (i : Inst) : Appends 273 i (Machine.matchOrEos i) := by
  refine ((runDec _ _).bind (n := 273) fun nd j hr => ?_).mono (by omega)
  split
  · exact (of_same (j := endRun j) ⟨⟨rfl, rfl, rfl, rfl⟩, rfl, rfl, rfl, rfl⟩ rfl rfl (ok _ _ _))
  · exact (of_same (j := { j.pushRep nd.2 with st := matchNext j.st }) ⟨⟨rfl, rfl, rfl, rfl⟩, rfl, rfl, rfl, rfl⟩ rfl rfl
      (((copyMatch nd.2 nd.1 _).mono (matchOperands_range hr).2).map _))

theorem shortRepPacket (i : Inst) : Appends 1 i (Machine.shortRepPacket i) :=
  of_same (j := { i with st := shortRepNext i.st }) ⟨⟨rfl, rfl, rfl, rfl⟩, rfl, rfl, rfl, rfl⟩ rfl rfl (copyMatch i.rep0 1 _)

theorem longRepPacket (k : Fin 4) (i : Inst) : Appends 273 i (Machine.longRepPacket k i) := by
  have h : Appends 0 i (lenDecode .forRep i.posState (i.rotateRep k)) := by
    match k with
    | 0 | 1 | 2 | 3 =>
      exact of_same (j := i.rotateRep _) ⟨⟨rfl, rfl, rfl, rfl⟩, rfl, rfl, rfl, rfl⟩ rfl rfl (runDec _ _)
  refine (h.bind (n := 273) fun n j hr => ?_).mono (by omega)
  exact of_same (j := { j with st := repNext i.st }) ⟨⟨rfl, rfl, rfl, rfl⟩, rfl, rfl, rfl, rfl⟩ rfl rfl
    ((copyMatch (i.repAt k) n _).mono (lenDecode_range hr).2)

theorem packetOf (k : PacketKind) (i : Inst) : Appends 273 i (Machine.packetOf k i) := by
  cases k with
  | lit => exact ((litPacket i).map _).mono (by omega)
  | newMatch => exact matchOrEos i
  | shortRep => exact ((shortRepPacket i).map _).mono (by omega)
  | longRep k => exact (longRepPacket k i).map _

theorem decodePacket (i : Inst) : Appends 273 i (Machine.decodePacket i) :=
  ((runDec _ _).bind fun k j _ => packetOf k j).mono (by omega)

theorem packets (n : Nat) (i : Inst) : Appends (273 * n) i (Machine.packets n i) := by
  induction n generalizing i with
  | zero => exact ok _ _ _
  | succ n ih =>
    rw [Machine.packets]
    split
    · refine ((decodePacket i).bind (n := 273 * n) fun e j _ => ?_).mono (by omega)
      split
      · exact ok _ _ _
      · exact ih j
    · exact ok _ _ _

theorem rcInit (pol : InitByte0Policy) (i : Inst) : Appends 0 i (Machine.rcInit pol i) := by
  refine (Appends.bind (m := 0) (n := 0) ?_ fun _ j _ => ?_).mono (le_refl _)
  · refine of_same (j := { i with range := 0xFFFFFFFF, code := 0 }) ⟨⟨rfl, rfl, rfl, rfl⟩, rfl, rfl, rfl, rfl⟩ rfl rfl ?_
    have h := (loadCode_decodes 5 { i with range := 0xFFFFFFFF, code := 0 }).1
    have hs : sameButDecoder { i with range := 0xFFFFFFFF, code := 0 } (loadCode 5 { i with range := 0xFFFFFFFF, code := 0 }).inst := by
      revert h
      cases loadCode 5 { i with range := 0xFFFFFFFF, code := 0 } <;> exact fun h => h.1
    exact ⟨sameCall_of_decoder hs, by rw [hs], by rw [hs]; exact le_refl _, fun a _ => by rw [hs]⟩
  · split
    · exact raised _ _ _
    · exact ok _ _ _

/-- The packet loop writes no byte below `op` nor at or beyond `destCapacity` (R47, R140, R150). -/
theorem runInst (pol : InitByte0Policy) (i : Inst) : ∃ n, Appends n i (Machine.runInst pol i) :=
  ⟨_, (rcInit pol i).bind (n := 273 * i.destCapacity) fun _ j hj => by
    have hc : j.destCapacity = i.destCapacity := by
      have h := (rcInit pol i).1
      rw [hj] at h
      exact h.2.2.1
    have h := packets j.destCapacity { j with endReason := .outputFull }
    exact of_same (j := { j with endReason := .outputFull }) ⟨⟨rfl, rfl, rfl, rfl⟩, rfl, rfl, rfl, rfl⟩ rfl rfl (hc ▸ h)⟩

end Appends

end Sys2Proof.Machine
end

