-- ==== Sys2Proof/Laws/PerInstr.lean ====
section
/-! SUPPORT. The per-instruction family WordAccepted: the word of a well-formed instruction is never rejected by the
decoder. One lemma per constructor. -/

namespace Sys2Proof.Laws.WordAccepted

/-- The word of the instruction, where it has one, is accepted by the decoder. -/
def Statement (i : Instr) : Prop :=
  i.wellFormed = true → ∀ r, encode i = some r → ∀ e, decode r ≠ .bad e

/-- An instruction without a word. -/
theorem of_none {i : Instr} (h : encode i = none) : Statement i := by
  intro _ r hr
  rw [h] at hr
  cases hr

/-- An instruction whose word decodes to some instruction. -/
theorem of_some {i j : Instr} {r : Request} (h : encode i = some r) (hd : decode r = .instr j) : Statement i := by
  intro _ r' hr e he
  rw [h] at hr
  cases hr
  rw [hd] at he
  cases he

theorem create (lc lp pb : Nat) (dictSize : Word) : Statement (.create lc lp pb dictSize) :=
  of_some rfl (j := .create lc lp pb dictSize) (by simp [decode, decodeCommand, dictSize.isLt])
theorem destroy (h : Handle) : Statement (.destroy h) := of_some rfl rfl
theorem reset (h : Handle) : Statement (.reset h) := of_some rfl rfl
theorem decompress (h : Handle) (src : List Byte) (destCapacity : Nat) : Statement (.decompress h src destCapacity) :=
  of_some rfl rfl
theorem hdr (bytes : List Byte) : Statement (.hdr bytes) := of_some rfl rfl
theorem streamInit : Statement .streamInit := of_some rfl rfl
theorem lit : Statement .lit := of_some rfl rfl
theorem newMatch : Statement .newMatch := of_some rfl rfl
theorem eos : Statement .eos := of_some rfl rfl
theorem shortRep : Statement .shortRep := of_some rfl rfl
theorem longRep0 : Statement .longRep0 := of_some rfl rfl
theorem longRep1 : Statement .longRep1 := of_some rfl rfl
theorem longRep2 : Statement .longRep2 := of_some rfl rfl
theorem longRep3 : Statement .longRep3 := of_some rfl rfl
theorem literalPlain : Statement .literalPlain := of_some rfl rfl
theorem literalMatched : Statement .literalMatched := of_some rfl rfl
theorem lenLow (c : Coder) (ps : PosState) : Statement (.lenLow c ps) := of_some rfl rfl
theorem lenMid (c : Coder) (ps : PosState) : Statement (.lenMid c ps) := of_some rfl rfl
theorem lenHigh (c : Coder) : Statement (.lenHigh c) := of_some rfl rfl
theorem distS0 : Statement .distS0 := of_some rfl rfl
theorem distS1 : Statement .distS1 := of_some rfl rfl
theorem distS2 : Statement .distS2 := of_some rfl rfl
theorem distS3 : Statement .distS3 := of_some rfl rfl
theorem distS4 : Statement .distS4 := of_some rfl rfl
theorem distS5 : Statement .distS5 := of_some rfl rfl
theorem distS6 : Statement .distS6 := of_some rfl rfl
theorem distS7 : Statement .distS7 := of_some rfl rfl
theorem distS8 : Statement .distS8 := of_some rfl rfl
theorem distS9 : Statement .distS9 := of_some rfl rfl
theorem distS10 : Statement .distS10 := of_some rfl rfl
theorem distS11 : Statement .distS11 := of_some rfl rfl
theorem distS12 : Statement .distS12 := of_some rfl rfl
theorem distS13 : Statement .distS13 := of_some rfl rfl
theorem distS14 : Statement .distS14 := of_some rfl rfl
theorem distS15 : Statement .distS15 := of_some rfl rfl
theorem distS16 : Statement .distS16 := of_some rfl rfl
theorem distS17 : Statement .distS17 := of_some rfl rfl
theorem distS18 : Statement .distS18 := of_some rfl rfl
theorem distS19 : Statement .distS19 := of_some rfl rfl
theorem distS20 : Statement .distS20 := of_some rfl rfl
theorem distS21 : Statement .distS21 := of_some rfl rfl
theorem distS22 : Statement .distS22 := of_some rfl rfl
theorem distS23 : Statement .distS23 := of_some rfl rfl
theorem distS24 : Statement .distS24 := of_some rfl rfl
theorem distS25 : Statement .distS25 := of_some rfl rfl
theorem distS26 : Statement .distS26 := of_some rfl rfl
theorem distS27 : Statement .distS27 := of_some rfl rfl
theorem distS28 : Statement .distS28 := of_some rfl rfl
theorem distS29 : Statement .distS29 := of_some rfl rfl
theorem distS30 : Statement .distS30 := of_some rfl rfl
theorem distS31 : Statement .distS31 := of_some rfl rfl
theorem distS32 : Statement .distS32 := of_some rfl rfl
theorem distS33 : Statement .distS33 := of_some rfl rfl
theorem distS34 : Statement .distS34 := of_some rfl rfl
theorem distS35 : Statement .distS35 := of_some rfl rfl
theorem distS36 : Statement .distS36 := of_some rfl rfl
theorem distS37 : Statement .distS37 := of_some rfl rfl
theorem distS38 : Statement .distS38 := of_some rfl rfl
theorem distS39 : Statement .distS39 := of_some rfl rfl
theorem distS40 : Statement .distS40 := of_some rfl rfl
theorem distS41 : Statement .distS41 := of_some rfl rfl
theorem distS42 : Statement .distS42 := of_some rfl rfl
theorem distS43 : Statement .distS43 := of_some rfl rfl
theorem distS44 : Statement .distS44 := of_some rfl rfl
theorem distS45 : Statement .distS45 := of_some rfl rfl
theorem distS46 : Statement .distS46 := of_some rfl rfl
theorem distS47 : Statement .distS47 := of_some rfl rfl
theorem distS48 : Statement .distS48 := of_some rfl rfl
theorem distS49 : Statement .distS49 := of_some rfl rfl
theorem distS50 : Statement .distS50 := of_some rfl rfl
theorem distS51 : Statement .distS51 := of_some rfl rfl
theorem distS52 : Statement .distS52 := of_some rfl rfl
theorem distS53 : Statement .distS53 := of_some rfl rfl
theorem distS54 : Statement .distS54 := of_some rfl rfl
theorem distS55 : Statement .distS55 := of_some rfl rfl
theorem distS56 : Statement .distS56 := of_some rfl rfl
theorem distS57 : Statement .distS57 := of_some rfl rfl
theorem distS58 : Statement .distS58 := of_some rfl rfl
theorem distS59 : Statement .distS59 := of_some rfl rfl
theorem distS60 : Statement .distS60 := of_some rfl rfl
theorem distS61 : Statement .distS61 := of_some rfl rfl
theorem distS62 : Statement .distS62 := of_some rfl rfl
theorem distS63 : Statement .distS63 := of_some rfl rfl
theorem rcInit : Statement .rcInit := of_none rfl
theorem nextByte : Statement .nextByte := of_none rfl
theorem decodeBit (c : Counter) : Statement (.decodeBit c) := of_none rfl
theorem normalize : Statement .normalize := of_none rfl
theorem decodeDirect (n : Nat) : Statement (.decodeDirect n) := of_none rfl
theorem decodeTree (t : Tree) (n : Nat) : Statement (.decodeTree t n) := of_none rfl
theorem decodeTreeReverse (t : Tree) (base n : Nat) : Statement (.decodeTreeReverse t base n) := of_none rfl
theorem litDecode : Statement .litDecode := of_none rfl
theorem lenDecode (c : Coder) (ps : PosState) : Statement (.lenDecode c ps) := of_none rfl
theorem distDecode (length : Nat) : Statement (.distDecode length) := of_none rfl
theorem putByte (b : Byte) : Statement (.putByte b) := of_none rfl
theorem getByte (distance : Word) : Statement (.getByte distance) := of_none rfl
theorem copyMatch (distance : Word) (length : Nat) : Statement (.copyMatch distance length) := of_none rfl
theorem run : Statement .run := of_none rfl

end Sys2Proof.Laws.WordAccepted
end

