-- ==== Sys2Proof/Tests/Slice0.lean ====
section
/-! SUPPORT. The model's own tests: well-formedness, words written out from spec/30_encoding.md, single steps with results
from spec/95_test_vectors.md, and for every obligation with hypotheses a state and operands that meet them. -/

namespace Sys2Proof.Tests
open Sys2Proof.Machine

/-! ## States -/

/-- A fresh instance with the properties of L1.6. -/
def fresh : Inst := freshInst 3 0 2 0x100000 0

/-- An instance reading `src` whose range decoder stands at the given point. -/
def at_ (src : List Byte) (range code : Word) (ip : Nat) : Inst :=
  { fresh with src := Memory.ofBytes src, srcLen := src.length, range := range, code := code, ip := ip, destCapacity := 300 }

/-- An instance with bytes produced and a capacity. -/
def window (out : List Byte) (cap : Nat) : Inst :=
  { fresh with out := Memory.ofBytes out, op := out.length, destCapacity := cap }

/-- Sixty bytes to read, all 0, right after RC_INIT with the given code, and 12 bytes produced: every operand of every
packet is readable, and the rep registers of L2.11 are in reach. -/
def ready (code : Word) (st : StateIndex) : Inst :=
  { fresh with
    src := Memory.ofBytes (List.replicate 60 0), srcLen := 60, range := 0xFFFFFFFF, code := code, ip := 5,
    out := Memory.ofBytes [0, 1, 2, 3, 4, 5, 6, 7, 8, 9, 10, 11], op := 12, prev := 11, destCapacity := 300,
    rep0 := 5, rep1 := 9, rep2 := 2, rep3 := 7, st := st }

/-- A machine with one instance, under handle 0. -/
def one (i : Inst) : State := { State.reset with insts := [(0, i)], nextHandle := 1 }

/-- What is to be seen of the next state and of its current instance. -/
def seen {α : Type} (f : State → Inst → α) (o : Host.Outcome State Fault Refusal) : Option α :=
  match o with
  | .next s => s.current.map (f s)
  | _ => none

/-- The instance after the naming decisions of the next packet. -/
def named (i : Inst) : Inst :=
  match nextKind i with
  | .ok _ j => j
  | .raised _ j => j

/-! ## Well-formedness: an ill-formed term for each check -/

theorem test_wf_hdr : (Instr.hdr [0, 0, 0, 0, 0]).wellFormed = true ∧ (Instr.hdr [0, 0, 0, 0, 0, 0]).wellFormed = false := by
  decide
theorem test_wf_direct : (Instr.decodeDirect 26).wellFormed = true ∧ (Instr.decodeDirect 27).wellFormed = false := by decide
theorem test_wf_tree :
    (Instr.decodeTree .align 1).wellFormed = true ∧ (Instr.decodeTree .align 5).wellFormed = true ∧
      (Instr.decodeTree .align 8).wellFormed = true ∧ (Instr.decodeTree .align 0).wellFormed = false ∧
      (Instr.decodeTree .align 9).wellFormed = false := by decide
theorem test_wf_reverse :
    (Instr.decodeTreeReverse .align 0 1).wellFormed = true ∧ (Instr.decodeTreeReverse .align 0 5).wellFormed = true ∧
      (Instr.decodeTreeReverse .align 0 0).wellFormed = false ∧
      (Instr.decodeTreeReverse .align 0 6).wellFormed = false := by decide
theorem test_wf_dist :
    (Instr.distDecode 2).wellFormed = true ∧ (Instr.distDecode 273).wellFormed = true ∧
      (Instr.distDecode 1).wellFormed = false ∧ (Instr.distDecode 274).wellFormed = false := by decide
theorem test_wf_copy :
    (Instr.copyMatch 0 1).wellFormed = true ∧ (Instr.copyMatch 0 273).wellFormed = true ∧
      (Instr.copyMatch 0 0).wellFormed = false ∧ (Instr.copyMatch 0 274).wellFormed = false := by decide
theorem test_wf_packet :
    (Packet.newMatch 2 0xFFFFFFFE).wellFormed = true ∧ (Packet.newMatch 2 0xFFFFFFFF).wellFormed = false ∧
      (Packet.newMatch 1 0).wellFormed = false ∧ (Packet.eos 274).wellFormed = false ∧
      (Packet.longRep 0 1).wellFormed = false := by decide

/-! ## Words written out from the encodings -/

/-- R73: the commands by code. -/
theorem test_decode_commands :
    decode (.command 0 none [3, 0, 2, 0x100000] []) = .instr (.create 3 0 2 0x100000) ∧
      decode (.command 1 none [] []) = .instr (.destroy none) ∧
      decode (.command 2 (some 7) [] []) = .instr (.reset (some 7)) ∧
      decode (.command 3 (some 7) [10] [0x00, 0x20]) = .instr (.decompress (some 7) [0x00, 0x20] 10) := by decide

/-- R73: other codes, and operands that are not the command's, are rejected by name. -/
theorem test_decode_rejects :
    decode (.command 4 none [] []) = .bad .unknownCode ∧ decode (.command 0 none [3, 0, 2] []) = .bad .badOperands ∧
      decode (.command 0 none [3, 0, 2, 0x100000000] []) = .bad .badOperands ∧
      decode (.command 1 none [1] []) = .bad .badOperands ∧ decode (.command 2 none [] [0]) = .bad .badOperands ∧
      decode (.command 3 (some 0) [] []) = .bad .badOperands ∧ decode (.stream .packet [true]) = .bad .truncated ∧
      decode (.stream .packet [false, true]) = .bad .trailing ∧ decode (.stream (.len .forMatch 0) [true]) = .bad .truncated ∧
      decode (.stream .dist [true, true]) = .bad .truncated ∧ decode (.stream .init [true]) = .bad .trailing := by decide

/-- R65: the eight packets, EOS by its whole spelling with length 2 (R69). -/
theorem test_decode_packets :
    decode (.stream .packet [false]) = .instr .lit ∧ decode (.stream .packet [true, false]) = .instr .newMatch ∧
      decode (.stream .packet [true, true, false, false]) = .instr .shortRep ∧
      decode (.stream .packet [true, true, false, true]) = .instr .longRep0 ∧
      decode (.stream .packet [true, true, true, false]) = .instr .longRep1 ∧
      decode (.stream .packet [true, true, true, true, false]) = .instr .longRep2 ∧
      decode (.stream .packet [true, true, true, true, true]) = .instr .longRep3 ∧
      decode (.stream .packet ([true, false] ++ [false, false, false, false] ++ List.replicate 36 true)) = .instr .eos := by
  decide

/-- R67, R68 and the formats without selecting decisions. -/
theorem test_decode_formats :
    decode (.stream (.len .forMatch 3) [false]) = .instr (.lenLow .forMatch 3) ∧
      decode (.stream (.len .forRep 3) [true, false]) = .instr (.lenMid .forRep 3) ∧
      decode (.stream (.len .forRep 3) [true, true]) = .instr (.lenHigh .forRep) ∧
      decode (.stream .dist [false, false, false, false, false, false]) = .instr .distS0 ∧
      decode (.stream .dist [false, false, true, true, false, true]) = .instr .distS13 ∧
      decode (.stream .dist [true, false, true, false, false, false]) = .instr .distS40 ∧
      decode (.stream .dist [true, true, true, true, true, true]) = .instr .distS63 ∧
      decode (.stream .init []) = .instr .streamInit ∧ decode (.stream (.literal false) []) = .instr .literalPlain ∧
      decode (.stream (.literal true) []) = .instr .literalMatched ∧
      decode (.header [0x5D, 0x00, 0x00, 0x10, 0x00]) = .instr (.hdr [0x5D, 0x00, 0x00, 0x10, 0x00]) := by decide

/-- The words of the slots are their numbers, six bits, most significant first (R68). -/
theorem test_decode_slots : (List.finRange 64).all (fun k =>
    decode (.stream .dist [k.val.testBit 5, k.val.testBit 4, k.val.testBit 3, k.val.testBit 2, k.val.testBit 1,
      k.val.testBit 0]) == .instr (slotInstr k)) = true := by decide

/-- L2.8: the decisions of lengths. -/
theorem test_spell_length :
    spellLength 2 = [false, false, false, false] ∧ spellLength 8 = [false, true, true, false] ∧
      spellLength 10 = [true, false, false, false, false] ∧ spellLength 12 = [true, false, false, true, false] ∧
      spellLength 18 = [true, true, false, false, false, false, false, false, false, false] ∧
      spellLength 273 = List.replicate 10 true := by decide

/-- L2.9: the decisions of distances. -/
theorem test_spell_distance :
    spellDistance 3 = [false, false, false, false, true, true] ∧
      spellDistance 9 = [false, false, false, true, true, false, true, false] ∧
      spellDistance 150 = [false, false, true, true, true, false, false, true, false, true, true, false] ∧
      spellDistance 1000 = [false, true, false, false, true, true, true, true, true, false, false, false, false, true] ∧
      spellDistance 0xFFFFFFFE = List.replicate 6 true ++ List.replicate 26 true ++ [false, true, true, true] := by decide

/-- L2.12: headers and the fields in them. -/
theorem test_parse_header :
    parseHeader [0x5D, 0x78, 0x56, 0x34, 0x12] = some { lc := 3, lp := 0, pb := 2, dictSize := 0x12345678 } ∧
      parseHeader [0x38, 0x00, 0x10, 0x00, 0x00] = some { lc := 2, lp := 1, pb := 1, dictSize := 0x1000 } ∧
      parseHeader [0xE0, 0x00, 0x10, 0x00, 0x00] = some { lc := 8, lp := 4, pb := 4, dictSize := 0x1000 } ∧
      parseHeader [0xE1, 0x00, 0x10, 0x00, 0x00] = none ∧ parseHeader [0x5D, 0x00, 0x00, 0x10] = none := by decide

/-! ## Host commands (L2.12, L2.13) -/

theorem test_create :
    seen (fun s i => (i.status, s.createStatus, s.ret, i.dictEff, i.numCounters))
      (exec (.create 3 0 2 0x100000)
        { State.reset with allocIn := [true], createStatus := .error .allocationFailed }) =
      some (.ok, .ok, .handle 0, 0x100000, 7991) ∧
    seen (fun _ i => (i.status, i.dictEff, i.numCounters)) (exec (.create 0 0 0 0) { State.reset with allocIn := [true] }) =
      some (.ok, 4096, 2615) := by decide
theorem test_create_traps :
    exec (.create 8 1 0 4096) State.reset =
      .next { State.reset with ret := .error .invalidProperties, createStatus := .error .invalidProperties } ∧
    exec (.create 3 0 2 0x100000) { State.reset with allocIn := [false] } =
      .next { State.reset with ret := .error .allocationFailed, createStatus := .error .allocationFailed } := ⟨rfl, rfl⟩
theorem test_destroy :
    exec (.destroy none) State.reset = .next State.reset ∧
    exec (.destroy (some 0)) (one fresh) = .next { one fresh with insts := [] } := ⟨rfl, rfl⟩
theorem test_reset :
    seen (fun _ i => (i.st, i.rep0, i.prev, i.op, i.ip, i.prob (.choice .forRep))) (exec (.reset (some 0))
      (one { ready 0 7 with probs := [(820, 31)] })) = some (0, 0, 0, 0, 0, 1024) := by decide
theorem test_decompress_P3 :
    seen (fun s i => (i.status, s.ret, i.ip, i.st)) (exec (.decompress (some 0) [0x00, 0x20, 0xC5, 0xFC, 0x00, 0x00, 0x00] 6) (one fresh)) =
        some (.ok, .written 6, 7, 7) ∧
      seen (fun _ i => i.out.map (·.2)) (exec (.decompress (some 0) [0x00, 0x20, 0xC5, 0xFC, 0x00, 0x00, 0x00] 6) (one fresh)) =
        some [0x41, 0x41, 0x41, 0x41, 0x41, 0x41] := by decide
theorem test_decompress_errors :
    seen (fun _ i => (i.status, i.ip, i.op)) (exec (.decompress (some 0) [0x00, 0x20, 0x90, 0xA2] 10) (one fresh)) =
        some (.error .inputExhausted, 4, 0) ∧
      seen (fun _ i => (i.status, i.ip, i.op)) (exec (.decompress (some 0) [0x00, 0x00, 0x00, 0x00, 0x00] 0) (one fresh)) =
        some (.ok, 5, 0) ∧
      seen (fun _ i => (i.status, i.ip, i.op)) (exec (.decompress (some 0) [0x00, 0x20, 0x90, 0xA2, 0x04] 0) (one fresh)) =
        some (.ok, 5, 0) ∧
      seen (fun _ i => (i.status, i.ip, i.op)) (exec (.decompress (some 0) [0x00, 0xC0, 0x00, 0x00, 0x00] 10) (one fresh)) =
        some (.error .distanceOutOfRange, 5, 0) := by decide
/-- R51: an error of one instance leaves the `status` of another. -/
theorem test_decompress_other_status :
    (match exec (.decompress (some 1) [] 0) { one fresh with insts := [(0, fresh), (1, fresh)], nextHandle := 2 } with
      | .next t => t.insts.map fun e => (e.1, e.2.status)
      | _ => []) = [(0, .ok), (1, .error .inputExhausted)] := by decide
theorem test_hdr :
    exec (.hdr [0xE1, 0x00, 0x10, 0x00, 0x00]) State.reset =
      .next { State.reset with
        hdr := [(0, 0xE1), (1, 0x00), (2, 0x10), (3, 0x00), (4, 0x00)], ret := .error .invalidProperties
        createStatus := .error .invalidProperties } := rfl

/-! ## The range decoder (L2.1 to L2.5) -/

theorem test_rcInit :
    seen (fun _ i => (i.range, i.code, i.ip)) (exec .rcInit (one (at_ [0x00, 0x20, 0x90, 0xA2, 0x04, 0x00] 0 7 0))) =
        some (0xFFFFFFFF, 0x2090A204, 5) ∧
      seen (fun _ i => (i.status, i.ip)) (exec .rcInit (one (at_ [0x00, 0x20, 0x90, 0xA2] 0 0 0))) =
        some (.error .inputExhausted, 4) := by decide
theorem test_streamInit :
    seen (fun _ i => (i.range, i.code, i.ip)) (exec .streamInit (one (at_ [0xAB, 0x01, 0x02, 0x03, 0x04] 0 0 0))) =
        some (0xFFFFFFFF, 0x01020304, 5) ∧
      seen (fun _ i => i.status) (exec .streamInit { one (at_ [0xAB, 0x01, 0x02, 0x03, 0x04] 0 0 0) with
        params := { Params.default with initByte0 := .reject } }) = some (.error .formatMismatch) := by decide
theorem test_nextByte :
    seen (fun s i => (s.ret, i.ip)) (exec .nextByte (one (at_ [0x11, 0x22] 0 0 1))) = some (.byte 0x22, 2) ∧
      seen (fun _ i => (i.status, i.ip)) (exec .nextByte (one (at_ [0x11, 0x22] 0 0 2))) =
        some (.error .inputExhausted, 2) := by decide
/-- Rows 1, 4, 6 and 8 of L2.2. -/
theorem test_decodeBit_zero :
    seen (fun s i => (s.ret, i.prob (.isRep 0), i.range, i.code, i.ip))
        (exec (.decodeBit (.isRep 0)) (one (at_ [0xAB] 0xFFFFFFFF 0x2090A204 0))) =
      some (.bit false, 1056, 0x7FFFFC00, 0x2090A204, 0) ∧
    seen (fun s i => (s.ret, i.prob (.isRep 0), i.range, i.code, i.ip))
        (exec (.decodeBit (.isRep 0)) (one { at_ [0xAB] 0x01000000 0 0 with probs := [(192, 31)] })) =
      some (.bit false, 94, 0x03E00000, 0xAB, 1) := by decide
theorem test_decodeBit_one :
    seen (fun s i => (s.ret, i.prob (.isRep 0), i.range, i.code, i.ip))
        (exec (.decodeBit (.isRep 0)) (one { at_ [0xAB] 0x40000000 0x3FFFFFFF 0 with probs := [(192, 31)] })) =
      some (.bit true, 31, 0x3F080000, 0x3F07FFFF, 0) ∧
    seen (fun s i => (s.ret, i.prob (.isRep 0), i.range, i.code, i.ip))
        (exec (.decodeBit (.isRep 0)) (one (at_ [0x5A] 0x01000000 0xFFFFFFFF 0))) =
      some (.bit true, 992, 0x80000000, 0x7FFFFF5A, 1) ∧
    -- R91, R93: at the end of the stream the decision and the update are made, the shift is not
    seen (fun _ i => (i.status, i.range, i.code, i.ip, i.prob (.align 1)))
        (exec (.decodeBit (.align 1)) (one (at_ [0] 0x01000000 0x00800001 1))) =
      some (.error .inputExhausted, 0x00800000, 1, 1, 992) := ⟨by decide, by decide, by decide⟩
theorem test_normalize :
    seen (fun _ i => (i.range, i.code, i.ip)) (exec .normalize (one (at_ [0xCD] 0x01000000 0x00FFFFFF 0))) =
        some (0x01000000, 0x00FFFFFF, 0) ∧
      seen (fun _ i => (i.range, i.code, i.ip)) (exec .normalize (one (at_ [0xCD] 0x00FFFFFF 0x007FFFFF 0))) =
        some (0xFFFFFF00, 0x7FFFFFCD, 1) := by decide
theorem test_decodeDirect :
    seen (fun s i => (s.ret, i.range, i.code)) (exec (.decodeDirect 3) (one (at_ [0x7E] 0x80000000 0x50000000 0))) =
        some (.num 5, 0x10000000, 0) ∧
      seen (fun s i => (s.ret, i.range, i.code)) (exec (.decodeDirect 1) (one (at_ [0x7E] 0x01800000 0x00BFFFFF 0))) =
        some (.num 0, 0xC0000000, 0xBFFFFF7E) ∧
      -- R91, R94: at the end of the stream the decision is made, the shift is not
      seen (fun _ i => (i.status, i.range, i.code, i.ip)) (exec (.decodeDirect 3) (one (at_ [0] 0x01FFFFFF 0x01000000 1))) =
        some (.error .inputExhausted, 0x00FFFFFF, 1, 1) := ⟨by decide, by decide, by decide⟩
theorem test_tree_word :
    (treeDec (.low .forMatch 0) 3).read [true, true, false] = some (6, []) ∧
      Dec.asked (treeDec (.low .forMatch 0) 3) [true, true, false] =
        [.adaptive (.low .forMatch 0 1), .adaptive (.low .forMatch 0 3), .adaptive (.low .forMatch 0 7)] ∧
      (treeDec (.lit 0) 8).read [false, true, false, false, false, false, false, true] = some (0x41, []) := by decide
theorem test_decodeTree :
    seen (fun s i => (s.ret, i.prob (.align 1), i.prob (.align 3), i.prob (.align 7), i.prob (.align 2)))
      (exec (.decodeTree .align 3) (one (at_ [0, 0] 0xFFFFFFFF 0xD0000000 0))) = some (.num 6, 992, 992, 1056, 1024) := by decide
theorem test_reverse_word :
    (reverseDec .align 0 4).read [true, true, false, false] = some (3, []) ∧
      (reverseDec .specPos 2 2).read [true, false] = some (1, []) ∧
      Dec.asked (reverseDec .specPos 2 2) [true, false] = [.adaptive (.specPos 3), .adaptive (.specPos 5)] := by decide
theorem test_decodeTreeReverse :
    seen (fun s i => (s.ret, i.prob (.align 1), i.prob (.align 3), i.prob (.align 7), i.prob (.align 14)))
      (exec (.decodeTreeReverse .align 0 4) (one (at_ [0, 0] 0xFFFFFFFF 0xC8000000 0))) =
        some (.num 3, 992, 992, 1056, 1056) := by decide

/-! ## Literals (L2.6, L2.7) -/

theorem test_litContext :
    ({ freshInst 4 4 0 0 0 with prev := 0xAB, op := 0x1E } : Inst).litContext = 174 ∧
      ({ freshInst 2 1 0 0 0 with prev := 0x62, op := 2 } : Inst).litContext = 2 ∧
      ({ freshInst 5 3 0 0 0 with prev := 0xFF, op := 0xFFFFFFFF } : Inst).litContext = 255 := by decide
theorem test_matched_asked :
    Dec.asked (matchedDec 0 0x61) [false, true, false, true, true, false, false, false] =
      [0x101, 0x202, 0x205, 0x00A, 0x015, 0x02B, 0x056, 0x0AC].map fun j => .adaptive (.lit 0 j) := by decide
theorem test_literalPlain :
    seen (fun s i => (s.ret, i.prob (.lit 0 1), i.prob (.lit 0 2), i.prob (.lit 0 5)))
      (exec .literalPlain (one (at_ [0, 0, 0] 0xFFFFFFFF 0x41800000 0))) = some (.byte 0x41, 1056, 992, 1056) := by decide
/-- Against the match byte 0x06 (six back from op 12); the first decision disagrees, so the rest is plain. -/
theorem test_literalMatched :
    seen (fun s i => (s.ret, i.prob (.lit 0 0x101), i.prob (.lit 0 3), i.prob (.lit 0 6)))
      (exec .literalMatched (one (ready 0x80800000 7))) = some (.byte 0x80, 992, 1056, 1056) := by decide
theorem test_litDecode :
    seen (fun s i => (s.ret, i.prob (.lit 0 1), i.prob (.lit 0 0x101))) (exec .litDecode (one (ready 0x80800000 6))) =
        some (.byte 0x80, 992, 1024) ∧
      seen (fun s i => (s.ret, i.prob (.lit 0 1), i.prob (.lit 0 0x101))) (exec .litDecode (one (ready 0x80800000 7))) =
        some (.byte 0x80, 1024, 992) := by decide
theorem test_lit :
    seen (fun _ i => (i.op, i.st, i.prev, Memory.read i.out 12)) (exec .lit (one (ready 0x80800000 7))) =
        some (13, 4, 0x80, some 0x80) ∧
      seen (fun _ i => i.st) (exec .lit (one (ready 0x80800000 11))) = some 5 := by decide

/-! ## Lengths and distances (L2.8, L2.9) -/

theorem test_lenLow :
    seen (fun s _ => s.ret) (exec (.lenLow .forMatch 3) (one (ready 0xD0000000 0))) = some (.num 8) ∧
      seen (fun s _ => s.ret) (exec (.lenLow .forRep 3) (one (ready 0xF8000000 0))) = some (.num 9) := by decide
theorem test_lenMid :
    seen (fun s _ => s.ret) (exec (.lenMid .forMatch 3) (one (ready 0x50000000 0))) = some (.num 12) ∧
      seen (fun s i => (s.ret, i.prob (.mid .forRep 3 1), i.prob (.mid .forMatch 3 1)))
        (exec (.lenMid .forRep 3) (one (ready 0xF8000000 0))) = some (.num 17, 992, 1024) := by decide
theorem test_lenHigh :
    seen (fun s _ => s.ret) (exec (.lenHigh .forMatch) (one (ready 0 0))) = some (.num 18) ∧
      seen (fun s _ => s.ret) (exec (.lenHigh .forRep) (one (ready 0xFFFFFFF0 0))) = some (.num 273) := by decide
theorem test_lenDecode :
    seen (fun s _ => s.ret) (exec (.lenDecode .forMatch 0) (one (ready 0x6C000000 0))) = some (.num 8) ∧
      seen (fun s i => (s.ret, i.prob (.choice .forRep), i.prob (.choice2 .forRep)))
        (exec (.lenDecode .forRep 0) (one (ready 0x94000000 0))) = some (.num 12, 992, 1056) := by decide
theorem test_lenState : [2, 3, 4, 5, 273].map lenState = [0, 1, 2, 3, 3] := by decide
theorem test_distS_low :
    seen (fun s _ => s.ret) (exec .distS0 (one (ready 0 0))) = some (.num 0) ∧
      seen (fun s _ => s.ret) (exec .distS3 (one (ready 0 0))) = some (.num 3) := by decide
theorem test_distS_footer :
    seen (fun s i => (s.ret, i.prob (.specPos 3), i.prob (.specPos 5))) (exec .distS6 (one (ready 0xA0000000 0))) =
        some (.num 9, 992, 1056) ∧
      seen (fun s i => (s.ret, i.prob (.specPos 84), i.prob (.specPos 114))) (exec .distS13 (one (ready 0xFC000000 0))) =
        some (.num 127, 992, 992) := by decide
theorem test_distS_direct :
    seen (fun s i => (s.ret, i.prob (.align 1), i.prob (.align 5))) (exec .distS14 (one (ready 0x5A000000 0))) =
        some (.num 150, 1056, 992) ∧
      seen (fun s _ => s.ret) (exec .distS62 (one (ready 0 0))) = some (.num 0x80000000) ∧
      seen (fun s _ => s.ret) (exec .distS63 (one (ready 0 0))) = some (.num 0xC0000000) := by decide
theorem test_distDecode :
    seen (fun s i => (s.ret, i.prob (.posSlot 2 1), i.prob (.specPos 3))) (exec (.distDecode 4) (one (ready 0x1A800000 0))) =
      some (.num 9, 1056, 992) := by decide

/-! ## The window (L2.10) -/

theorem test_putByte :
    seen (fun _ i => (i.op, i.prev, i.out.map (·.2))) (exec (.putByte 0x44) (one (window [0x41, 0x42, 0x43] 4))) =
        some (4, 0x44, [0x41, 0x42, 0x43, 0x44]) ∧
      seen (fun _ i => (i.status, i.op)) (exec (.putByte 0x45) (one (window [0x41, 0x42, 0x43, 0x44] 4))) =
        some (.error .outputOverflow, 4) := by decide
theorem test_getByte :
    seen (fun s _ => s.ret) (exec (.getByte 2) (one (window [0x41, 0x42, 0x43] 4))) = some (.byte 0x41) ∧
      seen (fun _ i => i.status) (exec (.getByte 3) (one (window [0x41, 0x42, 0x43] 4))) =
        some (.error .distanceOutOfRange) := by decide
theorem test_copyMatch :
    seen (fun _ i => (i.op, i.prev, i.out.map (·.2))) (exec (.copyMatch 2 7) (one (window [0x41, 0x42, 0x43] 10))) =
        some (10, 0x41, [0x41, 0x42, 0x43, 0x41, 0x42, 0x43, 0x41, 0x42, 0x43, 0x41]) ∧
      seen (fun _ i => i.out.map (·.2)) (exec (.copyMatch 0 2) (one (window [0x41, 0x42, 0x43] 10))) =
        some [0x41, 0x42, 0x43, 0x43, 0x43] := by decide
theorem test_copyMatch_traps :
    seen (fun _ i => (i.status, i.op)) (exec (.copyMatch 1 8) (one (window [0x41, 0x42] 5))) =
        some (.error .outputOverflow, 5) ∧
      seen (fun _ i => (i.status, i.op)) (exec (.copyMatch 5 2) (one (window [0x41] 1))) =
        some (.error .distanceOutOfRange, 1) := by decide

/-! ## Packets (L2.11) -/

theorem test_match :
    seen (fun _ i => (i.rep0, i.rep1, i.rep2, i.rep3, i.st, i.op)) (exec .newMatch (one (ready 0x20E00000 0))) =
        some (3, 5, 9, 2, 7, 16) ∧
      seen (fun _ i => (i.st, i.out.map (·.2))) (exec .newMatch (one (ready 0x20E00000 8))) =
        some (10, [0, 1, 2, 3, 4, 5, 6, 7, 8, 9, 10, 11, 8, 9, 10, 11]) := by decide
/-- Program P5g: its first packet is the end marker. -/
theorem test_eos :
    seen (fun _ i => (i.status, i.endReason, i.op, i.ip, i.st, i.rep0))
      (exec .eos (one (named (at_ [0x00, 0x83, 0xFF, 0xFB, 0xFF, 0xFF, 0xC0, 0x00, 0x00, 0x00] 0xFFFFFFFF 0x83FFFBFF 5)))) =
        some (.ok, .endMarker, 0, 10, 0, 0) := by decide
theorem test_shortRep :
    seen (fun _ i => (i.rep0, i.st, i.op, i.prev)) (exec .shortRep (one (ready 0 2))) = some (5, 9, 13, 6) ∧
      seen (fun _ i => (i.rep0, i.st, i.op, i.prev)) (exec .shortRep (one (ready 0 9))) = some (5, 11, 13, 6) := by decide
theorem test_longRep0 :
    seen (fun _ i => ([i.rep0, i.rep1, i.rep2, i.rep3], i.st, i.op, i.prev)) (exec .longRep0 (one (ready 0x18000000 6))) =
      some ([5, 9, 2, 7], 8, 15, 8) := by decide
theorem test_longRep1 :
    seen (fun _ i => ([i.rep0, i.rep1, i.rep2, i.rep3], i.st, i.op, i.prev)) (exec .longRep1 (one (ready 0x18000000 6))) =
      some ([9, 5, 2, 7], 8, 15, 4) := by decide
theorem test_longRep2 :
    seen (fun _ i => ([i.rep0, i.rep1, i.rep2, i.rep3], i.st, i.op, i.prev)) (exec .longRep2 (one (ready 0x18000000 10))) =
      some ([2, 5, 9, 7], 11, 15, 11) := by decide
theorem test_longRep3 :
    seen (fun _ i => ([i.rep0, i.rep1, i.rep2, i.rep3], i.st, i.op, i.prev)) (exec .longRep3 (one (ready 0x18000000 10))) =
      some ([7, 5, 9, 2], 11, 15, 6) := by decide

/-! ## Runs and the step -/

theorem test_run :
    seen (fun s i => (s.ret, i.st)) (exec .run (one { at_ [0x00, 0x20, 0xC5, 0xFC, 0x00, 0x00, 0x00] 0 0 0 with
      destCapacity := 6 })) = some (.ran 6 7 .outputFull, 7) := by decide
/-- R241: on an instance that has not been reset RUN is refused; after RESET it runs. -/
theorem test_run_notReset :
    exec .run (one (ready 0 0)) = .refused .notReset ∧
      seen (fun s _ => s.ret) (exec .run (one { resetInst (ready 0 0) with destCapacity := 2 })) =
        some (.ran 2 7 .outputFull) := ⟨rfl, by decide⟩
/-- Program P1, its first packet: LIT 0x41. -/
theorem test_step_packet :
    seen (fun _ i => (i.op, i.ip, i.prev, i.busy)) (step (one { at_ [0x00, 0x20, 0x90, 0xA2, 0x04, 0x00, 0x00, 0x00]
      0xFFFFFFFF 0x2090A204 5 with busy := true, destCapacity := 10 })) = some (1, 6, 0x41, true) := by decide
theorem test_step_words :
    seen (fun s _ => s.ret) (step (State.reset.withFetchWord 8 3)) = some (.error .inputExhausted) ∧
      seen (fun s _ => s.ret) (step (State.reset.withFetchWord 8 40)) = some (.num 0x100000) := by decide

/-! ## Witnesses: for each obligation with hypotheses, a state and operands that meet them -/

theorem test_witness_WrittenWordsDecode : 4 ≤ (4 : Fin 64).val ∧ 4 ≤ (63 : Fin 64).val := by decide
theorem test_witness_RequestsReadBack :
    Instr.eos.wellFormed = true ∧
      encode .eos = some (.stream .packet ([true, false, false, false, false, false] ++ List.replicate 36 true)) ∧
      (Instr.hdr [0, 0, 0, 0, 0]).wellFormed = true ∧ encode (.hdr [0, 0, 0, 0, 0]) = some (.header [0, 0, 0, 0, 0]) ∧
      (Instr.create 9 5 5 0xFFFFFFFF).wellFormed = true ∧
      encode (.create 9 5 5 0xFFFFFFFF) = some (.command 0 none [9, 5, 5, 0xFFFFFFFF] []) := by decide
theorem test_witness_SpelledPacketsReadBack :
    (Packet.lit 0xFF).wellFormed = true ∧ (Packet.newMatch 273 0xFFFFFFFE).wellFormed = true ∧
      (Packet.eos 2).wellFormed = true ∧ Packet.shortRep.wellFormed = true ∧ (Packet.longRep 3 273).wellFormed = true := by
  decide
theorem test_witness_ReadPacketsAreSpelled :
    (packetDec ⟨0, 0, 0, .plain⟩).read [true, true, false, false, true] = some (.shortRep, [true]) ∧
      (packetDec ⟨7, 15, 255, .matched 0x61⟩).read [false, false, true, false, true, true, false, false, false] =
        some (.lit 0x58, []) ∧
      48 ≤ (List.replicate 48 true).length := by decide
theorem test_witness_PacketDecisionCounts :
    Packet.shortRep.wellFormed = true ∧ (Packet.lit 0).wellFormed = true ∧
      (Packet.newMatch 273 0x80000000).wellFormed = true := by decide
theorem test_witness_BitOrders : 7 < 2 ^ 3 ∧ 0 < 2 ^ 0 ∧ bitsMsb 3 6 = [true, true, false] ∧ bitsLsb 3 6 = [false, true, true] := by
  decide
theorem test_witness_HeaderRule :
    (224 : Byte).toNat < 225 ∧ 225 ≤ (225 : Byte).toNat ∧ ([0, 0, 0, 0] : List Byte).length < 5 ∧
      (8 ≤ 8 ∧ 4 ≤ 4 ∧ 4 ≤ 4 ∧ parseHeader (headerOf ⟨8, 4, 4, 0x12345678⟩) = some ⟨8, 4, 4, 0x12345678⟩) := by decide

/-- Program P3 before its RC_INIT. -/
def runP3 : Inst := { at_ [0x00, 0x20, 0xC5, 0xFC, 0x00, 0x00, 0x00] 0 0 0 with destCapacity := 6 }

/-- A running instance right after RC_INIT on a stream of zeros. -/
def runningInst : Inst :=
  { fresh.begun [0, 0, 0, 0, 0, 0, 0, 0, 0, 0, 0, 0, 0, 0] 10 0 with range := 0xFFFFFFFF, ip := 5 }

theorem runningInst_legal : runningInst.legal := by
  have h := begun_quiet (i := fresh) (by unfold Inst.propsLegal; decide) [0, 0, 0, 0, 0, 0, 0, 0, 0, 0, 0, 0, 0, 0] 10 0
  refine (Inst.legal_iff _).2 ⟨⟨h.1, ⟨by decide, h.2.1.2⟩, h.2.2.1, h.2.2.2⟩, fun _ => ?_⟩
  refine ⟨by decide, fun a ha => absurd ha (by simp [runningInst, Inst.begun, resetInst]), rfl, ?_, fun h => absurd h (by decide)⟩
  exact ⟨⟨by decide, .inl rfl⟩, ⟨by decide, .inl rfl⟩, ⟨by decide, .inl rfl⟩, by decide, .inl rfl⟩

theorem running_inv : (one runningInst).Inv := by
  refine ⟨rfl, fun e he => ?_, rfl⟩
  simp only [one, List.mem_singleton] at he
  subst he
  exact ⟨by decide, runningInst_legal⟩

theorem fresh_legal : fresh.legal := legal_of_idle (freshInst_quiet _ _ (by decide) (by decide) (by decide) (by decide)) rfl

theorem test_witness_StepRunsRequest :
    ((one fresh).noRun ∧ (one fresh).rows = [] ∧
      ({ one fresh with port := [.command 2 (some 0) [] []] } : State).port = .command 2 (some 0) [] [] :: [] ∧
      decode (HostRequest.command 2 (some 0) [] []).word = .instr (.reset (some 0)) ∧
      (Instr.reset (some 0)).wellFormed = true) ∧
    (decode (RowWord.mk .dist (bitsMsb 6 5)).word = .instr .distS5 ∧ Instr.distS5.wellFormed = true ∧
      ({ one fresh with rows := [⟨.dist, bitsMsb 6 5⟩] } : State).rows = ⟨.dist, bitsMsb 6 5⟩ :: []) ∧
    ∃ t, step { one fresh with port := [.command 2 (some 0) [] []] } = .next t := by
  refine ⟨⟨fun j h => ?_, rfl, rfl, rfl, rfl⟩, ⟨by decide, rfl, rfl⟩, _, rfl⟩
  cases h
  rfl
theorem test_witness_StepRunsPacket :
    (State.reset.noRun ∧ State.reset.rows = [] ∧ State.reset.port = []) ∧
      ((one runningInst).current = some runningInst ∧ runningInst.busy = true ∧ runningInst.op < runningInst.destCapacity ∧
        runningInst.endReason = .outputFull ∧ ∃ j, nextKind runningInst = .ok .lit j) ∧
      (∃ j, nextKind { runningInst with range := 0x01000000, ip := 14 } = .raised .inputExhausted j) ∧
      (({ runningInst with op := 10, ip := 14 } : Inst).ip = 14 ∧ ({ runningInst with op := 10, ip := 13 } : Inst).ip ≠ 14 ∧
        ({ runningInst with op := 10 } : Inst).destCapacity ≤ 10) ∧
      (endRun runningInst).endReason = .endMarker := by
  refine ⟨⟨fun j h => (by cases h), rfl, rfl⟩, ⟨rfl, rfl, by decide, rfl, ?_⟩, ?_, by decide, rfl⟩
  · exact ⟨_, rfl⟩
  · exact ⟨_, rfl⟩
theorem test_witness_StepKeepsInv : (one runningInst).Inv ∧ ∃ t, step (one runningInst) = .next t := ⟨running_inv, _, rfl⟩
theorem test_witness_StepNeverFaults :
    (one fresh).current = some fresh ∧ fresh.hasCounter (.lit 8 0) = false ∧ fresh.hasCounter (.lit 7 767) = true ∧
      fresh.hasEntries .align (2 ^ 6) = false ∧ fresh.hasEntries .align (2 ^ 4) = true ∧
      fresh.hasEntries .specPos (84 + 2 ^ 5) = false ∧ fresh.hasEntries .specPos (83 + 2 ^ 5) = true ∧
      (.adaptive (Tree.align.counter 7) ∈ Dec.asked (treeDec .align 3) [true, true, true]) ∧
      (.adaptive (Tree.specPos.counter (83 + 31)) ∈ Dec.asked (reverseDec .specPos 83 5) [true, true, true, true, false]) ∧
      114 < Tree.specPos.size ∧ (1 + 255 / 2 ^ 0 % 2) * 256 + (2 ^ 7 + 255 / 2 ^ 1) = 767 := by decide
theorem test_witness_StepNeverFaults_props : (freshInst 8 0 4 0 0).propsLegal ∧ (freshInst 4 4 0 0 0).propsLegal := by
  unfold Inst.propsLegal
  decide
theorem test_witness_InstructionFrame :
    (∃ t, exec .lit (one (ready 0x80800000 7)) = .next t) ∧ Instr.target .lit (one fresh) = some 0 ∧
      (∃ t, exec (.hdr [0, 0, 0, 0, 0]) (one fresh) = .next t) ∧ Instr.target (.hdr []) (one fresh) = none ∧
      (∃ t, exec (.reset (some 0)) (one fresh) = .next t) ∧ (∀ bytes, Instr.lit ≠ .hdr bytes) ∧
      ∀ lc lp pb d, Instr.lit ≠ .create lc lp pb d :=
  ⟨⟨_, rfl⟩, rfl, ⟨_, rfl⟩, rfl, ⟨_, rfl⟩, fun _ h => (by cases h), fun _ _ _ _ h => by cases h⟩
theorem test_witness_OperationFrame :
    (one (ready 0x20E00000 0)).current = some (ready 0x20E00000 0) ∧ Instr.decodesOnly .distS6 = true ∧
      Instr.decodesOnly .lit = false ∧ (Instr.appender .newMatch).isSome = true ∧
      (Instr.appender (.copyMatch 2 7)).isSome = true ∧
      (∃ t, exec .distS6 (one (ready 0x20E00000 0)) = .next t) ∧ (∃ j, longRepPacket 1 (ready 0x18000000 6) = .ok () j) ∧
      (∃ j, copyMatch 2 7 (ready 0 0) = .ok () j) ∧
      (∃ j, copyMatch 2 7 { ready 0 0 with destCapacity := 15 } = .raised .outputOverflow j) ∧
      (∃ t, exec .run (one runP3) = .next t) ∧ (runInst .ignore runP3).leaves (runInst .ignore runP3).inst :=
  ⟨rfl, rfl, rfl, rfl, rfl, ⟨_, rfl⟩, ⟨_, rfl⟩, ⟨_, rfl⟩, ⟨_, rfl⟩, ⟨_, rfl⟩, .inl ⟨(), rfl⟩⟩
theorem test_witness_PropertiesAreImmutable :
    ∃ t j, (one runningInst).Inv ∧ step (one runningInst) = .next t ∧ Table.get (one runningInst).insts 0 = some runningInst ∧
      Table.get t.insts 0 = some j := ⟨_, _, running_inv, rfl, rfl, rfl⟩
theorem test_witness_AdaptiveUpdate :
    (31 ≤ (31 : Prob).toNat ∧ (2017 : Prob).toNat ≤ 2017) ∧ (1024 : Prob).toNat = 1024 ∧
      probAfter 2017 false = 2017 ∧ probAfter 31 true = 31 := by decide

/-! ### The range decoder -/

/-- Both outcomes, without and with a byte fetched, and a byte fetched from the last place. -/
theorem test_witness_DecodeBitRule :
    (one (at_ [0xAB] 0x02000000 0x00FFFFFF 0)).current = some (at_ [0xAB] 0x02000000 0x00FFFFFF 0) ∧
      fresh.hasCounter (.isRep 0) = true ∧ fresh.hasCounter (.lit 7 767) = true ∧
      0x01000000 = (0x02000000 : Word).toNat / 2048 * (1024 : Prob).toNat ∧ 0x1000000 ≤ 0x01000000 ∧
      0x00800000 = (0x01000000 : Word).toNat / 2048 * (1024 : Prob).toNat ∧ (0 < (at_ [0xAB] 0x01000000 0 0).srcLen) := by
  decide
theorem test_witness_DecodeDirectRule :
    ((at_ [0] 0x02000000 0 0).range.toNat / 2 = 0x1000000 ∧ (at_ [0] 0x01800000 0 0).ip < (at_ [0] 0x01800000 0 0).srcLen) ∧
      (at_ [0, 0, 0] 0x80000000 0x50000000 0).ip + 3 ≤ (at_ [0, 0, 0] 0x80000000 0x50000000 0).srcLen ∧
      ∃ j k, exec (.decodeDirect 2) (one (at_ [0, 0, 0] 0x80000000 0x50000000 0)) =
          .next ((one (at_ [0, 0, 0] 0x80000000 0x50000000 0)).after j (.num 2)) ∧
        exec (.decodeDirect 1) ((one (at_ [0, 0, 0] 0x80000000 0x50000000 0)).after j (.num 2)) =
          .next ((one (at_ [0, 0, 0] 0x80000000 0x50000000 0)).after k (.num 1)) :=
  ⟨by decide, by decide, _, _, rfl, rfl⟩
theorem test_witness_DecodeTreeRule :
    (fresh.hasEntries .align 1 = true ∧ fresh.hasEntries .align (2 ^ 4) = true ∧ fresh.hasEntries (.lit 7) (2 ^ 8) = true ∧
        (at_ [0, 0, 0] 0xFFFFFFFF 0xD0000000 0).ip + 3 ≤ (at_ [0, 0, 0] 0xFFFFFFFF 0xD0000000 0).srcLen) ∧
      ∃ j k, exec (.decodeTree .align 2) (one (at_ [0, 0, 0] 0xFFFFFFFF 0xD0000000 0)) =
          .next ((one (at_ [0, 0, 0] 0xFFFFFFFF 0xD0000000 0)).after j (.num 3)) ∧
        exec (.decodeBit (Tree.align.counter (2 ^ 2 + 3))) ((one (at_ [0, 0, 0] 0xFFFFFFFF 0xD0000000 0)).after j (.num 3)) =
          .next ((one (at_ [0, 0, 0] 0xFFFFFFFF 0xD0000000 0)).after k (.bit false)) :=
  ⟨by decide, _, _, rfl, rfl⟩
/-- The node after the decisions 1, 1, 0 is 14; after none it is 1. -/
theorem test_witness_DecodeTreeReverseRule :
    (fresh.hasEntries .specPos (83 + 2 ^ 5) = true ∧ fresh.hasEntries .specPos (114 + 1) = true ∧
        fresh.hasEntries .align (0 + 2 ^ 4) = true ∧
        (at_ [0, 0, 0, 0] 0 0 0).ip + 4 ≤ (at_ [0, 0, 0, 0] 0 0 0).srcLen ∧ reverseNode 3 3 = 14 ∧ reverseNode 0 0 = 1) ∧
      ∃ j k, exec (.decodeTreeReverse .align 0 2) (one (at_ [0, 0] 0xFFFFFFFF 0xC8000000 0)) =
          .next ((one (at_ [0, 0] 0xFFFFFFFF 0xC8000000 0)).after j (.num 3)) ∧
        exec (.decodeBit (Tree.align.counter (0 + reverseNode 2 3)))
            ((one (at_ [0, 0] 0xFFFFFFFF 0xC8000000 0)).after j (.num 3)) =
          .next ((one (at_ [0, 0] 0xFFFFFFFF 0xC8000000 0)).after k (.bit false)) :=
  ⟨by decide, _, _, rfl, rfl⟩
theorem test_witness_FetchRule :
    (at_ [0x11, 0x22] 0 0 1).ip < (at_ [0x11, 0x22] 0 0 1).srcLen ∧
      0x1000000 ≤ (at_ [] 0x01000000 0 0).range.toNat ∧ (at_ [0xCD] 0x00FFFFFF 0 0).range.toNat < 0x1000000 ∧
      (at_ [0xCD] 0x00FFFFFF 0 0).ip < (at_ [0xCD] 0x00FFFFFF 0 0).srcLen := by decide
theorem test_witness_InputExhaustedTraps :
    (at_ [0] 0x00FFFFFF 0 1).srcLen ≤ (at_ [0] 0x00FFFFFF 0 1).ip ∧ (at_ [0] 0x00FFFFFF 0 1).range.toNat < 0x1000000 ∧
      (at_ [0] 0x01000000 0 1).hasCounter (.align 1) = true ∧
      0x00800000 = (at_ [0] 0x01000000 0 1).range.toNat / 2048 * ((at_ [0] 0x01000000 0 1).prob (.align 1)).toNat ∧
      ((at_ [0] 0x01000000 0x007FFFFF 1).code.toNat < 0x00800000 ∧ 0x00800000 < 0x1000000) ∧
      (0x00800000 ≤ (at_ [0] 0x01000000 0x00800000 1).code.toNat ∧ 0x01000000 - 0x00800000 < 0x1000000) ∧
      (at_ [0] 0x01FFFFFF 0 1).range.toNat / 2 < 0x1000000 := by decide
/-- The stream of `i` cut to `n` bytes, still listing the rest. -/
def shortened (i : Inst) (n : Nat) : Inst := { i with srcLen := n }

theorem shortened_cutTo (i : Inst) (n : Nat) : cutTo i (shortened i n) n := ⟨rfl, fun _ _ => rfl⟩

/-- A row whose stream is cut inside its operand, and one byte further with it; a MATCH and the naming decisions of a
packet cut inside. -/
theorem test_witness_InputExhaustedTraps_cut :
    (Instr.decodesOnly (.decodeTree .align 2) = true ∧
      cutTo (at_ [0, 0] 0x01000000 0 0) (shortened (at_ [0, 0] 0x01000000 0 0) 0) 0 ∧
      ∃ j, exec (.decodeTree .align 2) (one (at_ [0, 0] 0x01000000 0 0)) =
        .next ((one (at_ [0, 0] 0x01000000 0 0)).after j (.num 0)) ∧ j.ip = 1) ∧
    (∃ j, Instr.operands .newMatch = some (fun i => (matchOperands i).map fun _ => ()) ∧
      matchOperands { ready 0x20E00000 0 with op := 3 } = .ok (4, 3) j ∧ 5 < j.ip) ∧
    ∃ j, nextKind { ready 0 0 with range := 0x01000000 } = .ok .lit j ∧ 5 < j.ip :=
  ⟨⟨rfl, shortened_cutTo _ _, _, rfl, by decide⟩, ⟨_, rfl, rfl, by decide⟩, _, rfl, by decide⟩
/-- The three errors of the rows, and that of the naming decisions. -/
theorem test_witness_InputExhaustedTraps_errors :
    (∃ j, exec .nextByte (one (at_ [] 0 0 0)) = .next ((one (at_ [] 0 0 0)).trapped j .inputExhausted)) ∧
    (∃ j, exec (.getByte 12) (one (ready 0 0)) = .next ((one (ready 0 0)).trapped j .distanceOutOfRange)) ∧
    (∃ j, rcInit .reject (at_ [1, 0, 0, 0, 0] 0 0 0) = .raised .formatMismatch j) ∧
    (∃ j, matchOperands (shortened (ready 0x20E00000 0) 5) = .raised .inputExhausted j) ∧
    ∃ j, nextKind { ready 0 0 with range := 0x01000000, srcLen := 5 } = .raised .inputExhausted j :=
  ⟨⟨at_ [] 0 0 0, rfl⟩, ⟨ready 0 0, rfl⟩, ⟨_, rfl⟩, ⟨_, rfl⟩, _, rfl⟩
/-- R211: cut inside a MATCH whose distance is out of reach. -/
theorem test_match_cut :
    seen (fun _ i => (i.status, i.ip, i.op)) (exec .newMatch (one { ready 0x20E00000 0 with op := 3, srcLen := 5 })) =
      some (.error .inputExhausted, 5, 3) := by decide
theorem test_witness_RangeStaysNormalised :
    (∃ j, exec .rcInit (one (at_ [0, 1, 2, 3, 4] 0 0 0)) = .next ((one (at_ [0, 1, 2, 3, 4] 0 0 0)).after j .none)) ∧
      (∃ j, exec .streamInit (one (at_ [0, 1, 2, 3, 4] 0 0 0)) = .next ((one (at_ [0, 1, 2, 3, 4] 0 0 0)).after j .none)) ∧
      (0x1000000 ≤ (at_ [0] 0x01000000 0 0).range.toNat ∧ (at_ [0] 0x01000000 0 0).probsLegal) ∧
      (∃ j, exec (.decodeBit (.align 1)) (one (at_ [0] 0x01000000 0 0)) =
        .next ((one (at_ [0] 0x01000000 0 0)).after j (.bit false))) ∧
      ∃ j, exec (.decodeDirect 1) (one (at_ [0] 0x01000000 0 0)) = .next ((one (at_ [0] 0x01000000 0 0)).after j (.num 0)) :=
  ⟨⟨_, rfl⟩, ⟨_, rfl⟩, ⟨by decide, rfl, fun _ h => by cases h⟩, ⟨_, rfl⟩, ⟨_, rfl⟩⟩
theorem test_witness_StreamStartRule :
    ((at_ [0, 1, 2, 3, 4] 0 0 0).ip + 5 ≤ (at_ [0, 1, 2, 3, 4] 0 0 0).srcLen ∧
        (one (at_ [0, 1, 2, 3, 4] 0 0 0)).params.initByte0 = .ignore) ∧
      ((at_ [0, 1, 2, 3] 0 0 4).ip ≤ (at_ [0, 1, 2, 3] 0 0 4).srcLen ∧
        (at_ [0, 1, 2, 3] 0 0 0).srcLen < (at_ [0, 1, 2, 3] 0 0 0).ip + 5) ∧
      ({ Params.default with initByte0 := .reject } : Params).initByte0 = .reject ∧
      (at_ [0xAB, 1, 2, 3, 4] 0 0 0).srcByte 0 ≠ 0 ∧ (at_ [0, 1, 2, 3, 4] 0 0 0).srcByte 0 = 0 := by decide
theorem test_witness_FirstPacketRule :
    ∃ j j', rcInit .ignore (fresh.begun [0x00, 0x7F, 0xFF, 0xFB, 0xFF] 1 0) = .ok () j ∧ j.code = 0x7FFFFBFF ∧
      rcInit .reject (fresh.begun [0x00, 0x7F, 0xFF, 0xFC, 0x00] 1 0) = .ok () j' ∧ j'.code = 0x7FFFFC00 :=
  ⟨_, _, rfl, rfl, rfl, rfl⟩

/-! ### Literals -/

theorem test_witness_LiteralContextRule :
    (freshInst 8 0 4 0 0).propsLegal ∧ (freshInst 4 4 0 0 0).propsLegal ∧ (freshInst 0 0 0 0 0).propsLegal := by
  unfold Inst.propsLegal
  decide
/-- `posState` at both ends of `pb`. -/
theorem test_witness_AskedCounters :
    (freshInst 0 4 4 0 0).propsLegal ∧ ({ freshInst 0 4 4 0 0 with op := 0xFF } : Inst).posState = 15 ∧
      ({ freshInst 0 4 0 0 0 with op := 0xFF } : Inst).posState = 0 ∧ ∃ j, nextKind (ready 0 7) = .ok .lit j :=
  ⟨by unfold Inst.propsLegal; decide, by decide, by decide, _, rfl⟩
theorem test_witness_LiteralRowsComplete :
    (one (ready 0 7)).current = some (ready 0 7) ∧ ({ ready 0 7 with ip := 52 } : Inst).ip + 8 ≤ (ready 0 7).srcLen ∧
      ((ready 0 7).lc.toNat ≤ 8 ∧ (ready 0 7).lp.toNat ≤ 4 ∧ (ready 0 7).pb.toNat ≤ 4 ∧
        (ready 0 7).lc.toNat + (ready 0 7).lp.toNat ≤ 8) ∧
      ({ ready 0 7 with rep0 := 11 } : Inst).rep0.toNat < (ready 0 7).op ∧
      ({ ready 0 7 with rep0 := 11 } : Inst).rep0.toNat < (ready 0 7).dictEff := by decide
theorem test_witness_LitCompletes :
    (one (ready 0 6)).current = some (ready 0 6) ∧ ({ ready 0 6 with ip := 52 } : Inst).ip + 8 ≤ (ready 0 6).srcLen ∧
      (ready 0 6).op < ({ ready 0 6 with destCapacity := 13 } : Inst).destCapacity ∧ ¬ 7 ≤ (ready 0 6).st.val ∧
      (7 ≤ (ready 0 7).st.val ∧ (ready 0 7).rep0.toNat < (ready 0 7).op ∧ (ready 0 7).rep0.toNat < (ready 0 7).dictEff) := by
  decide
theorem test_witness_LiteralsNeverOutOfReach :
    (one runningInst).Inv ∧ (one runningInst).current = some runningInst ∧ runningInst.busy = true ∧
      runningInst.op < runningInst.destCapacity := ⟨running_inv, rfl, rfl, by decide⟩

/-! ### Lengths and distances -/

theorem test_witness_LengthRowsComplete :
    (one (ready 0 0)).current = some (ready 0 0) ∧ ({ ready 0 0 with ip := 57 } : Inst).ip + 3 ≤ (ready 0 0).srcLen ∧
      ({ ready 0 0 with ip := 52 } : Inst).ip + 8 ≤ (ready 0 0).srcLen := by decide
/-- One stream for each of the three classes. -/
theorem test_witness_LenDecodeRule :
    (∃ j k, exec (.decodeBit (.choice .forMatch)) (one (ready 0 0)) = .next ((one (ready 0 0)).after j (.bit false)) ∧
      exec (.lenLow .forMatch 0) ((one (ready 0 0)).after j (.bit false)) = .next ((one (ready 0 0)).after k (.num 2))) ∧
    (∃ j j2 k, exec (.decodeBit (.choice .forRep)) (one (ready 0x94000000 0)) =
        .next ((one (ready 0x94000000 0)).after j (.bit true)) ∧
      exec (.decodeBit (.choice2 .forRep)) ((one (ready 0x94000000 0)).after j (.bit true)) =
        .next ((one (ready 0x94000000 0)).after j2 (.bit false)) ∧
      exec (.lenMid .forRep 0) ((one (ready 0x94000000 0)).after j2 (.bit false)) =
        .next ((one (ready 0x94000000 0)).after k (.num 12))) ∧
    (∃ j j2 k, exec (.decodeBit (.choice .forRep)) (one (ready 0xFFFFFFF0 0)) =
        .next ((one (ready 0xFFFFFFF0 0)).after j (.bit true)) ∧
      exec (.decodeBit (.choice2 .forRep)) ((one (ready 0xFFFFFFF0 0)).after j (.bit true)) =
        .next ((one (ready 0xFFFFFFF0 0)).after j2 (.bit true)) ∧
      exec (.lenHigh .forRep) ((one (ready 0xFFFFFFF0 0)).after j2 (.bit true)) =
        .next ((one (ready 0xFFFFFFF0 0)).after k (.num 273))) ∧
    ({ ready 0 0 with ip := 50 } : Inst).ip + 10 ≤ (ready 0 0).srcLen :=
  ⟨⟨_, _, rfl, rfl⟩, ⟨_, _, _, rfl, rfl, rfl⟩, ⟨_, _, _, rfl, rfl, rfl⟩, by decide⟩
theorem test_witness_LenStateRule : 2 ≤ 2 ∧ 2 ≤ 273 ∧ (lenState 2).val = 0 ∧ (lenState 4).val = 2 ∧ (lenState 5).val = 3 := by
  decide
theorem test_witness_LowSlotDistances : (one fresh).current = some fresh := rfl
theorem test_witness_SlotRowsComplete :
    Instr.distS0.slot = some 0 ∧ Instr.distS4.slot = some 4 ∧ Instr.distS63.slot = some 63 ∧
      ({ ready 0 0 with ip := 59 } : Inst).ip + slotBits 4 ≤ (ready 0 0).srcLen ∧
      ({ ready 0 0 with ip := 30 } : Inst).ip + slotBits 63 ≤ (ready 0 0).srcLen ∧
      (one (ready 0 0)).current = some (ready 0 0) := by decide
/-- Slots 13 and 14, where the clauses meet. -/
theorem test_witness_SlotRowsByParts :
    (Instr.distS13.slot = some 13 ∧ 4 ≤ 13 ∧ 13 < 14 ∧
      ∃ j, exec (.decodeTreeReverse .specPos (slotBase 13 - 13) (slotBits 13)) (one (ready 0xFC000000 0)) =
        .next ((one (ready 0xFC000000 0)).after j (.num 31))) ∧
    (Instr.distS14.slot = some 14 ∧ 14 ≤ 14 ∧
      ∃ j k, exec (.decodeDirect (slotBits 14 - 4)) (one (ready 0x5A000000 0)) =
          .next ((one (ready 0x5A000000 0)).after j (.num 1)) ∧
        exec (.decodeTreeReverse .align 0 4) ((one (ready 0x5A000000 0)).after j (.num 1)) =
          .next ((one (ready 0x5A000000 0)).after k (.num 6))) :=
  ⟨⟨rfl, by decide, by decide, _, rfl⟩, rfl, by decide, _, _, rfl, rfl⟩
theorem test_witness_SlotsTileDistances :
    0 < 2 ^ 32 ∧ 0xFFFFFFFF < 2 ^ 32 ∧ (1 ≤ 1 ∧ 1 ≤ 114) ∧ 114 ≤ 114 ∧
      (1 = slotBase 4 - 4 + 1 ∧ 1 < 2 ^ slotBits 4) ∧ (114 = slotBase 13 - 13 + 31 ∧ 31 < 2 ^ slotBits 13) ∧
      slotBase 63 + (2 ^ slotBits 63 - 1) = 0xFFFFFFFF := by decide
theorem test_witness_DistDecodeRule :
    (∃ j k, exec (.decodeTree (.posSlot (lenState 4)) 6) (one (ready 0x1A800000 0)) =
        .next ((one (ready 0x1A800000 0)).after j (.num (6 : Fin 64).val)) ∧
      exec (slotInstr 6) ((one (ready 0x1A800000 0)).after j (.num (6 : Fin 64).val)) =
        .next ((one (ready 0x1A800000 0)).after k (.num 9))) ∧
    ({ ready 0 0 with ip := 24 } : Inst).ip + 36 ≤ (ready 0 0).srcLen := ⟨⟨_, _, rfl, rfl⟩, by decide⟩

/-! ### The window -/

theorem test_witness_WindowByteRule :
    (window [0x41, 0x42, 0x43] 4).op < (window [0x41, 0x42, 0x43] 4).destCapacity ∧
      (window [0x41, 0x42, 0x43, 0x44] 4).destCapacity ≤ (window [0x41, 0x42, 0x43, 0x44] 4).op ∧
      ((2 : Word).toNat < (window [0x41, 0x42, 0x43] 4).op ∧ (2 : Word).toNat < max (window [] 4).dictSize.toNat 4096) ∧
      (window [0x41, 0x42, 0x43] 4).op ≤ (3 : Word).toNat ∧ max (freshInst 0 0 0 0 0).dictSize.toNat 4096 ≤ (4096 : Word).toNat := by
  decide
theorem test_witness_CopyMatchCompletes :
    ((2 : Word).toNat < (window [0x41, 0x42, 0x43] 10).op ∧ (2 : Word).toNat < (window [0x41, 0x42, 0x43] 10).dictEff ∧
        (window [0x41, 0x42, 0x43] 10).op + 7 ≤ (window [0x41, 0x42, 0x43] 10).destCapacity) ∧
      ((window [0x41] 1).op ≤ (1 : Word).toNat ∧ (freshInst 0 0 0 4096 0).dictEff ≤ (4096 : Word).toNat) ∧
      ((1 : Word).toNat < (window [0x41, 0x42] 5).op ∧ (1 : Word).toNat < (window [0x41, 0x42] 5).dictEff ∧
        (window [0x41, 0x42] 5).op ≤ (window [0x41, 0x42] 5).destCapacity ∧
        (window [0x41, 0x42] 5).destCapacity < (window [0x41, 0x42] 5).op + 4) := by decide
theorem test_witness_OverlapLaw :
    ∃ j, exec (.copyMatch 2 7) (one (window [0x41, 0x42, 0x43] 10)) =
      .next ((one (window [0x41, 0x42, 0x43] 10)).after j .none) ∧ 6 < 7 := ⟨_, rfl, by decide⟩

/-! ### Packets -/

theorem test_witness_MatchCompletes :
    (∃ j, matchOperands (ready 0x20E00000 0) = .ok (4, 3) j) ∧ (3 : Word) ≠ 0xFFFFFFFF ∧
      (3 : Word).toNat < (ready 0x20E00000 0).op ∧ (3 : Word).toNat < (ready 0x20E00000 0).dictEff ∧
      (ready 0x20E00000 0).op + 4 ≤ ({ ready 0x20E00000 0 with destCapacity := 16 } : Inst).destCapacity :=
  ⟨⟨_, rfl⟩, by decide⟩

/-- Program P5g after the naming decisions of its first packet. -/
def eosInst : Inst :=
  named (at_ [0x00, 0x83, 0xFF, 0xFB, 0xFF, 0xFF, 0xC0, 0x00, 0x00, 0x00] 0xFFFFFFFF 0x83FFFBFF 5)

theorem test_witness_EosCompletes : ∃ j, matchOperands eosInst = .ok (2, 0xFFFFFFFF) j := ⟨_, rfl⟩
theorem test_witness_MatchOperandsReadable :
    (one (ready 0x20E00000 0)).current = some (ready 0x20E00000 0) ∧
      ({ ready 0x20E00000 0 with ip := 14 } : Inst).ip + 46 ≤ (ready 0x20E00000 0).srcLen ∧
      ∃ j k, exec (.lenDecode .forMatch (ready 0x20E00000 0).posState) (one (ready 0x20E00000 0)) =
          .next ((one (ready 0x20E00000 0)).after j (.num 4)) ∧
        exec (.distDecode 4) ((one (ready 0x20E00000 0)).after j (.num 4)) =
          .next ((one (ready 0x20E00000 0)).after k (.num 3)) := ⟨rfl, by decide, _, _, rfl, rfl⟩
theorem test_witness_ShortRepCompletes :
    (one (ready 0 2)).current = some (ready 0 2) ∧ ({ ready 0 2 with rep0 := 11 } : Inst).rep0.toNat < (ready 0 2).op ∧
      (ready 0 2).rep0.toNat < (ready 0 2).dictEff ∧
      (ready 0 2).op < ({ ready 0 2 with destCapacity := 13 } : Inst).destCapacity := by decide
theorem test_witness_LongRepsComplete :
    (one (ready 0x18000000 6)).current = some (ready 0x18000000 6) ∧
      longRepMoves (ready 0x18000000 6) .longRep1 1 9 5 2 7 ∧ longRepMoves (ready 0x18000000 6) .longRep3 3 7 5 9 2 ∧
      (∃ j, lenDecode .forRep (ready 0x18000000 6).posState (ready 0x18000000 6) = .ok 3 j) ∧
      (9 : Word).toNat < (ready 0x18000000 6).op ∧ (9 : Word).toNat < (ready 0x18000000 6).dictEff ∧
      (ready 0x18000000 6).op + 3 ≤ ({ ready 0x18000000 6 with destCapacity := 15 } : Inst).destCapacity ∧
      ({ ready 0 6 with ip := 50 } : Inst).ip + 10 ≤ (ready 0 6).srcLen :=
  ⟨rfl, .inr (.inl ⟨rfl, rfl, rfl⟩), .inr (.inr (.inr ⟨rfl, rfl, rfl⟩)), ⟨_, rfl⟩, by decide⟩
theorem test_witness_CopyingPacketsTrap :
    (({ ready 0 6 with rep0 := 12 } : Inst).op ≤ 12 ∧ (freshInst 0 0 0 4096 0).dictEff ≤ (4096 : Word).toNat) ∧
      ((ready 0 6).rep0.toNat < (ready 0 6).op ∧ (ready 0 6).rep0.toNat < (ready 0 6).dictEff ∧
        ({ ready 0 6 with destCapacity := 12 } : Inst).destCapacity ≤ (ready 0 6).op) ∧
      (longRepMoves { ready 0x18000000 6 with rep2 := 12 } .longRep2 2 12 5 9 7 ∧
        ∃ j, lenDecode .forRep 0 { ready 0x18000000 6 with rep2 := 12 } = .ok 3 j) ∧
      (longRepMoves { ready 0x18000000 6 with destCapacity := 14 } .longRep1 1 9 5 2 7 ∧
        (∃ j, lenDecode .forRep 0 { ready 0x18000000 6 with destCapacity := 14 } = .ok 3 j) ∧
        (12 ≤ 14 ∧ 14 < 12 + 3)) ∧
      (∃ j, matchOperands { ready 0x20E00000 0 with op := 3 } = .ok (4, 3) j) ∧ (3 : Word) ≠ 0xFFFFFFFF ∧
      3 ≤ (3 : Word).toNat ∧ (∃ j, matchOperands { ready 0x20E00000 0 with destCapacity := 13 } = .ok (4, 3) j) ∧
      13 < 12 + 4 :=
  ⟨by decide, by decide, ⟨.inr (.inr (.inl ⟨rfl, rfl, rfl⟩)), _, rfl⟩, ⟨.inr (.inl ⟨rfl, rfl, rfl⟩), ⟨_, rfl⟩, by decide⟩,
    ⟨_, rfl⟩, by decide, by decide, ⟨_, rfl⟩, by decide⟩
/-- R158, R208, R211: LONGREP1 fills the output and overflows, its registers rotated. -/
theorem test_longRep_overflow :
    seen (fun _ i => (i.status, i.op, [i.rep0, i.rep1, i.rep2, i.rep3], i.st))
        (exec .longRep1 (one { ready 0x18000000 6 with destCapacity := 14 })) =
      some (.error .outputOverflow, 14, [9, 5, 2, 7], 8) := by decide
theorem test_witness_PacketBounds :
    (ready 0 6).ip ≤ (ready 0 6).srcLen ∧ (ready 0 6).op ≤ (ready 0 6).destCapacity ∧
      (∃ j, decodePacket (ready 0 6) = .ok false j) ∧
      ∃ j, decodePacket { ready 0 6 with destCapacity := 12 } = .raised .outputOverflow j :=
  ⟨by decide, by decide, ⟨_, rfl⟩, _, rfl⟩

/-! ### Runs -/

theorem test_witness_PacketLoopRule :
    (ready 0 6).destCapacity ≤ (ready 0 6).op + 288 ∧ (window [0x41] 1).destCapacity ≤ (window [0x41] 1).op + 0 := by decide

theorem test_witness_RunRule :
    ((one runP3).current = some runP3 ∧ runP3.atReset = true ∧ (ready 0 0).atReset = false) ∧
    (∃ j k, rcInit .ignore runP3 = .ok () j ∧ packets j.destCapacity { j with endReason := .outputFull } = .ok () k) ∧
    (∃ j, rcInit .ignore (at_ [0, 0, 0, 0] 0 0 0) = .raised .inputExhausted j) ∧
    (∃ j k, rcInit .ignore (at_ [0, 0x20, 0x90, 0xA2, 4] 0 0 0) = .ok () j ∧
      packets j.destCapacity { j with endReason := .outputFull } = .raised .inputExhausted k) ∧
    (∃ j, exec .run (one runP3) = .next ((one runP3).after j (.ran 6 7 .outputFull))) ∧
    (fresh.atReset = true ∧ fresh.destCapacity = 0 ∧ (one fresh).params.initByte0 = .ignore ∧
      5 ≤ (at_ [0, 0, 0, 0, 0] 0 0 0).srcLen) ∧
    (∀ a, a < (at_ (List.replicate 14 0) 0 0 0).srcLen → (at_ (List.replicate 14 0) 0 0 0).srcByte a = 0) ∧
    5 + 9 * 1 ≤ (at_ (List.replicate 14 0) 0 0 0).srcLen :=
  ⟨by decide, ⟨_, _, rfl, rfl⟩, ⟨_, rfl⟩, ⟨_, _, rfl, rfl⟩, ⟨_, rfl⟩, by decide, by decide, by decide⟩
theorem test_witness_PacketStepsAreRun :
    (one runningInst).current = some runningInst ∧ runningInst.busy = true ∧ runningInst.endReason = .outputFull := by decide

/-! ### Host commands -/

theorem test_witness_PropertyValidation :
    (8 < 9 ∨ 4 < 0 ∨ 4 < 0 ∨ 8 < 9 + 0) ∧ (8 < 8 ∨ 4 < 1 ∨ 4 < 0 ∨ 8 < 8 + 1) ∧ ¬(8 < 4 ∨ 4 < 4 ∨ 4 < 4 ∨ 8 < 4 + 4) ∧
      4096 ≤ (4096 : Word).toNat ∧ State.reset.params.dictMin = .clamp ∧ 225 ≤ (225 : Byte).toNat ∧
      seen (fun _ _ => ()) (exec (.create 4 4 4 0) { State.reset with allocIn := [true] }) = some () := by decide
theorem test_witness_CreateCompletes :
    8 ≤ 8 ∧ 0 ≤ 4 ∧ 4 ≤ 4 ∧ 8 + 0 ≤ 8 ∧ State.reset.params.dictMin = .clamp ∧ 4096 ≤ (4096 : Word).toNat ∧
      ({ State.reset with allocIn := [true] } : State).allocIn = true :: [] ∧
      ({ State.reset with allocIn := [true] } : State).allocAnswer = true ∧ State.reset.allocIn = [] := by decide
theorem test_witness_CreateTraps :
    (({ Params.default with dictMin := .reject } : Params).dictMin = .reject ∧ (4095 : Word).toNat < 4096) ∧
      4 ≤ 8 ∧ 4 ≤ 4 ∧ 4 + 4 ≤ 8 ∧ ({ State.reset with allocIn := [false] } : State).allocAnswer = false := by decide
theorem test_witness_DestroyAndReset : Table.get (one fresh).insts 0 = some fresh ∧ fresh.busy = false := by decide
theorem test_witness_HandleRefusals :
    Table.get (one fresh).insts 1 = none ∧ Table.get (one runningInst).insts 0 = some runningInst ∧
      runningInst.busy = true ∧ State.reset.current = none ∧ Instr.ofHost .run = false ∧ Instr.ofHost .lit = false ∧
      (Table.get (one fresh).insts 0 = some fresh ∧ fresh.busy = false ∧
        fitsUsize { Params.default with usizeBits := some 32 } (2 ^ 32) = false) ∧
      decode (HostRequest.command 4 none [] []).word = .bad .unknownCode ∧
      decode (HostRequest.header [0, 0, 0, 0, 0, 0]).word = .instr (.hdr [0, 0, 0, 0, 0, 0]) ∧
      (Instr.hdr [0, 0, 0, 0, 0, 0]).wellFormed = false ∧ decode (RowWord.mk .packet [true]).word = .bad .truncated := by
  decide
theorem test_witness_HandleRefusals_noRun : State.reset.noRun ∧ State.reset.rows = [] :=
  ⟨fun _ h => (by cases h), rfl⟩
theorem test_witness_DecompressCompletes :
    (Table.get (one fresh).insts 0 = some fresh ∧ fresh.busy = false ∧ fitsUsize Params.default 7 = true ∧
      ∃ j, runInst .ignore (fresh.begun [0x00, 0x20, 0xC5, 0xFC, 0x00, 0x00, 0x00] 6 0) = .ok () j ∧ j.ip = 7 ∧ j.op = 6) ∧
    (∃ j, runInst .ignore (fresh.begun [0x00, 0x00, 0x00, 0x00, 0x00, 0x00] 0 0) = .ok () j ∧ j.ip ≠ 6) ∧
    (∃ j, runInst .ignore (fresh.begun [0x00, 0xC0, 0x00, 0x00, 0x00] 10 0) = .raised .distanceOutOfRange j) ∧
    ([0x00, 0x20, 0x90, 0xA2] : List Byte).length < 5 ∧ fitsUsize Params.default 4 = true :=
  ⟨⟨rfl, rfl, rfl, _, rfl, rfl, rfl⟩, ⟨_, rfl, by decide⟩, ⟨_, rfl⟩, by decide⟩
theorem test_witness_CorruptionSafety :
    Table.get (one fresh).insts 0 = some fresh ∧ fresh.legal ∧ fresh.busy = false ∧
      fitsUsize (one fresh).params 7 = true ∧ fitsUsize (one fresh).params 0 = true := ⟨rfl, fresh_legal, rfl, rfl, rfl⟩
/-- One instance has run before, the other has not. -/
theorem test_witness_DecompressIsPure :
    (one fresh).params.initByte0 = (one (ready 0 7)).params.initByte0 ∧ Table.get (one fresh).insts 0 = some fresh ∧
      Table.get (one (ready 0 7)).insts 0 = some (ready 0 7) ∧ sameProps fresh (ready 0 7) ∧ fresh.propsLegal ∧
      (∃ t, exec (.decompress (some 0) [0x00, 0x20, 0xC5, 0xFC, 0x00, 0x00, 0x00] 6) (one fresh) = .next t) ∧
      ∃ t, exec (.decompress (some 0) [0x00, 0x20, 0xC5, 0xFC, 0x00, 0x00, 0x00] 6) (one (ready 0 7)) = .next t :=
  ⟨rfl, rfl, rfl, ⟨rfl, rfl, rfl, rfl⟩, fresh_legal.1, ⟨_, rfl⟩, _, rfl⟩

end Sys2Proof.Tests
end

section
/-! SUPPORT. What an instruction and a step leave of the port, the placed rows and the parameters, and what the step turns
to with no run in progress. -/

namespace Sys2Proof.Machine

/-! ## What the host can send -/

/-- A command word decodes to a host command only (R73). -/
theorem decodeCommand_ofHost {code : Nat} {hd : Handle} {nums : List Nat} {bytes : List Byte} {i : Instr}
    (h : decodeCommand code hd nums bytes = .instr i) : Instr.ofHost i = true := by
  revert h
  fun_cases decodeCommand code hd nums bytes <;> rintro ⟨⟩ <;> rfl

/-- A host request that decodes at all decodes to a command or a header (R73, R193). -/
theorem decode_hostRequest_ofHost {r : HostRequest} {i : Instr} (h : decode r.word = .instr i) :
    Instr.ofHost i = true := by
  cases r with
  | command code hd nums bytes => exact decodeCommand_ofHost h
  | header bytes => cases h; rfl

/-! ## What every instruction leaves alone -/

/-- The port, the placed rows and the parameters are the same in both states: what the host has lined up and what the
implementation fixes. -/
def State.sameInputs (s t : State) : Prop := t.port = s.port ∧ t.rows = s.rows ∧ t.params = s.params

theorem State.sameInputs.rfl {s : State} : s.sameInputs s := ⟨.refl _, .refl _, .refl _⟩

theorem takeException_sameInputs (e : Err) (who : Handle) (s : State) : s.sameInputs (takeException e who s) := by
  unfold takeException
  split
  · exact .rfl
  · split <;> exact .rfl

theorem decompressed_sameInputs (n : Nat) (s : State) (r : Res Nat) : s.sameInputs (decompressed n s r) := by
  cases r with
  | ok w i => exact .rfl
  | raised e i => exact takeException_sameInputs e (some n) (s.putInst n i)

theorem onCurrent_sameInputs {f : Inst → Res Value} {s t : State} (h : onCurrent f s = .next t) : s.sameInputs t := by
  obtain ⟨-, hport, hparams, -, -, -, -, hrows, -⟩ := onCurrent_frame h
  exact ⟨hport, hrows, hparams⟩

theorem onCounters_sameInputs {ok : Inst → Bool} {f : Inst → Res Value} {s t : State}
    (h : onCounters ok f s = .next t) : s.sameInputs t := by
  obtain ⟨-, hport, hparams, -, -, -, -, hrows, -⟩ := onCounters_frame h
  exact ⟨hport, hrows, hparams⟩

/-- A command on a handle answers a next state only where its handle is live and runs no command (R184, R242). -/
theorem onHandle_next {h : Handle} {s t : State} {f : Nat → Inst → Host.Outcome State Fault Refusal}
    (ht : onHandle h s f = .next t) :
    ∃ n i, h = some n ∧ Table.get s.insts n = some i ∧ i.busy = false ∧ f n i = .next t := by
  unfold onHandle at ht
  split at ht
  · cases ht
  · next n =>
    split at ht
    · cases ht
    · next i hi =>
      cases hb : i.busy with
      | true => rw [hb] at ht; cases ht
      | false => rw [hb] at ht; exact ⟨n, i, rfl, hi, hb, ht⟩

theorem execCreate_sameInputs {lc lp pb : Nat} {d : Word} {s t : State} (h : execCreate lc lp pb d s = .next t) :
    s.sameInputs t := by
  have hdrawn : s.sameInputs s.allocDrawn := ⟨s.allocDrawn_port, s.allocDrawn_rows, s.allocDrawn_params⟩
  cases h
  split
  · split <;> exact hdrawn
  · exact .rfl

theorem execDestroy_sameInputs {hd : Handle} {s t : State} (h : execDestroy hd s = .next t) : s.sameInputs t := by
  cases hd with
  | none => cases h; exact .rfl
  | some n =>
    simp only [execDestroy] at h
    obtain ⟨_, _, -, -, -, hnext⟩ := onHandle_next h
    cases hnext
    exact .rfl

theorem execReset_sameInputs {hd : Handle} {s t : State} (h : execReset hd s = .next t) : s.sameInputs t := by
  obtain ⟨_, _, -, -, -, hnext⟩ := onHandle_next h
  cases hnext
  exact .rfl

theorem execDecompress_sameInputs {hd : Handle} {src : List Byte} {cap : Nat} {s t : State}
    (h : execDecompress hd src cap s = .next t) : s.sameInputs t := by
  obtain ⟨n, i, -, -, -, hnext⟩ := onHandle_next h
  split at hnext
  · cases hnext
    exact decompressed_sameInputs n { s with cur := n, draws := s.draws + 1 } _
  · cases hnext

theorem execHdr_sameInputs {bytes : List Byte} {s t : State} (h : execHdr bytes s = .next t) : s.sameInputs t := by
  cases h
  split <;> exact .rfl

/-- How an instruction executes: as a host command or a header, or as an operation on what is current in one of the
three frames such an operation has. -/
theorem exec_frames (i : Instr) (s : State) :
    Instr.ofHost i = true ∨ (∃ f, exec i s = onCurrent f s) ∨ (∃ ok f, exec i s = onCounters ok f s) ∨
      ∃ f, exec i s = onReset f s := by
  cases i with
  | create | destroy | reset | decompress | hdr => exact .inl rfl
  | decodeBit | decodeTree | decodeTreeReverse => exact .inr (.inr (.inl ⟨_, _, rfl⟩))
  | run => exact .inr (.inr (.inr ⟨_, rfl⟩))
  | _ => exact .inr (.inl ⟨_, rfl⟩)

theorem exec_ofHost_sameInputs {i : Instr} (hi : Instr.ofHost i = true) {s t : State} (h : exec i s = .next t) :
    s.sameInputs t := by
  cases i with
  | create => exact execCreate_sameInputs h
  | destroy => exact execDestroy_sameInputs h
  | reset => exact execReset_sameInputs h
  | decompress => exact execDecompress_sameInputs h
  | hdr => exact execHdr_sameInputs h
  | _ => cases hi

/-- No instruction touches the port, the placed rows or the parameters (logs 2, 3). -/
theorem exec_sameInputs {i : Instr} {s t : State} (h : exec i s = .next t) : s.sameInputs t := by
  rcases exec_frames i s with hi | ⟨f, hf⟩ | ⟨ok, f, hf⟩ | ⟨f, hf⟩
  · exact exec_ofHost_sameInputs hi h
  · exact onCurrent_sameInputs (hf ▸ h)
  · exact onCounters_sameInputs (hf ▸ h)
  · exact onCurrent_sameInputs (onReset_next (hf ▸ h)).1

/-! ## What is fetched -/

/-- The state that fetching leaves, whether an instruction is to execute in it or not, has the property `P`. -/
def Fetched.leaves (P : State → Prop) : Fetched → Prop
  | .instr _ t => P t
  | .settled t => P t
  | .refused _ => True

theorem Fetched.leaves.mono {P Q : State → Prop} {f : Fetched} (hf : f.leaves P) (h : ∀ t, P t → Q t) : f.leaves Q := by
  cases f with
  | instr i t => exact h t hf
  | settled t => exact h t hf
  | refused r => trivial

/-- A step ends in the state fetching left, or in the one that executing the fetched instruction there leaves. -/
theorem step_next {s t : State} (h : step s = .next t) {P : State → Prop} (hf : (fetch s).leaves P) :
    P t ∨ ∃ i u, P u ∧ exec i u = .next t := by
  unfold step at h
  cases hfetch : fetch s with
  | instr i u => rw [hfetch] at h hf; exact .inr ⟨i, u, hf, h⟩
  | settled u => rw [hfetch] at h hf; cases h; exact .inl hf
  | refused r => rw [hfetch] at h; cases h

theorem fetchWord_instr {r : Request} {i : Instr} (hd : decode r = .instr i) (hw : i.wellFormed = true) (s : State) :
    fetchWord r s = .instr i s := by
  simp only [fetchWord, hd, hw, if_true]

theorem fetchWord_leaves (r : Request) {s : State} {P : State → Prop} (h : P s) : (fetchWord r s).leaves P := by
  unfold fetchWord
  split
  · trivial
  · split
    · exact h
    · trivial

/-- Fetching a packet of a run touches neither the port nor the placed rows nor the parameters. -/
theorem fetchPacket_leaves_sameInputs (i : Inst) (s : State) : (fetchPacket i s).leaves s.sameInputs := by
  unfold fetchPacket
  split
  · split
    · exact .rfl
    · next e i1 _ => exact takeException_sameInputs e (some s.cur) (s.putInst s.cur i1)
  · exact decompressed_sameInputs s.cur s (sizeCheck i)

theorem fetchIdle_of_noRows {s : State} (h : s.rows = []) : fetchIdle s = fetchRequest s := by
  simp only [fetchIdle, h]

theorem fetchIdle_of_row {s : State} {w : RowWord} {more : List RowWord} (h : s.rows = w :: more) :
    fetchIdle s = fetchWord w.word { s with rows := more } := by
  simp only [fetchIdle, h]

theorem fetchRequest_of_request {s : State} {r : HostRequest} {rest : List HostRequest} (h : s.port = r :: rest) :
    fetchRequest s = fetchWord r.word { s with port := rest } := by
  simp only [fetchRequest, h]

theorem fetchRequest_leaves_rows (s : State) : (fetchRequest s).leaves (·.rows = s.rows) := by
  cases hp : s.port with
  | nil => simp only [fetchRequest, hp]; rfl
  | cons r rest => rw [fetchRequest_of_request hp]; exact fetchWord_leaves r.word rfl

/-- Fetching places no row. -/
theorem fetch_leaves_noRows {s : State} (h : s.rows = []) : (fetch s).leaves (·.rows = []) := by
  have hidle : (fetchIdle s).leaves (·.rows = []) := by
    rw [fetchIdle_of_noRows h, ← h]
    exact fetchRequest_leaves_rows s
  unfold fetch
  split
  · exact hidle
  · next i _ =>
    split
    · exact (fetchPacket_leaves_sameInputs i s).mono fun t ⟨_, hrows, _⟩ => hrows.trans h
    · exact hidle

/-! ## The step -/

/-- No step places a row (log 3). -/
theorem step_noRows {s t : State} (h : s.rows = []) (ht : step s = .next t) : t.rows = [] := by
  rcases step_next ht (fetch_leaves_noRows h) with hrows | ⟨i, u, hu, hexec⟩
  · exact hrows
  · obtain ⟨-, hrows, -⟩ := exec_sameInputs hexec
    exact hrows.trans hu

/-- A step that finds a word with a well-formed instruction executes it in the state fetching left. -/
theorem step_of_fetchWord {s t : State} {r : Request} {i : Instr} (hf : fetch s = fetchWord r t)
    (hd : decode r = .instr i) (hw : i.wellFormed = true) : step s = exec i t := by
  simp only [step, hf, fetchWord_instr hd hw]

/-- Settles O8: the fetch turns to the placed row, else to the port; a request decodes to what the host can send, and
neither fetching nor executing places a row. -/
theorem stepRunsRequest : Obligations.StepRunsRequest := by
  intro s
  refine ⟨fun hrun hrows r rest i hport hd hw => ⟨?_, decode_hostRequest_ofHost hd⟩, fun hrun w more i hrows hd hw => ?_,
    fun hrows t => step_noRows hrows⟩
  · refine step_of_fetchWord ?_ hd hw
    calc fetch s = fetchIdle s := fetch_noRun hrun
      _ = fetchRequest s := fetchIdle_of_noRows hrows
      _ = fetchWord r.word { s with port := rest } := fetchRequest_of_request hport
  · refine step_of_fetchWord ?_ hd hw
    calc fetch s = fetchIdle s := fetch_noRun hrun
      _ = fetchWord w.word { s with rows := more } := fetchIdle_of_row hrows

end Sys2Proof.Machine
end

section
/-! SUPPORT. The invariant is kept by every step: the counters of a tree's array, what an instruction that is no host
command does to what is current, what the host commands do to the table of instances, and the fetch. -/

namespace Sys2Proof.Machine

/-! ## The counters of a tree's array -/

/-- Within the array, entry `k` lies `k` above the first entry: no index wraps (R98). -/
theorem counterIndex_counter {t : Tree} {k : Nat} (h : k < t.size) :
    counterIndex (t.counter k) = counterIndex (t.counter 0) + k := by
  cases t <;> simp only [Tree.size] at h <;>
    simp only [Tree.counter, counterIndex, Fin.val_ofNat, Nat.mod_eq_of_lt h, Nat.zero_mod] <;> omega

/-- Where the last of `m` entries is in the file, so is every entry below it. -/
theorem hasEntries_lt {i : Inst} {t : Tree} {m k : Nat} (h : i.hasEntries t m = true) (hk : k < m) :
    counterIndex (t.counter k) < i.numCounters := by
  simp only [Inst.hasEntries, Inst.hasCounter, Bool.and_eq_true, decide_eq_true_eq] at h
  obtain ⟨hsize, hlast⟩ := h
  rw [counterIndex_counter (by omega)] at hlast ⊢
  omega

theorem keeps_treeDec {i : Inst} {t : Tree} {n : Nat} (h : i.hasEntries t (2 ^ n) = true) :
    Keeps i (runDec (treeDec t n) i) :=
  keeps_runDec fun _ => Dec.asksOnly_mono (treeDec_asksOnly t n) fun _ ⟨_, _, hk, hc⟩ => hc ▸ hasEntries_lt h hk

theorem keeps_reverseDec {i : Inst} {t : Tree} {base n : Nat} (h : i.hasEntries t (base + 2 ^ n) = true) :
    Keeps i (runDec (reverseDec t base n) i) :=
  keeps_runDec fun _ => Dec.asksOnly_mono (reverseDec_asksOnly t base n) fun _ ⟨_, _, hk, hc⟩ =>
    hc ▸ hasEntries_lt h (by omega)

theorem runDec_bitDec (c : Counter) (i : Inst) : runDec (bitDec c) i = decodeBit c i := by
  simp only [bitDec, runDec, decision]
  cases decodeBit c i <;> rfl

theorem keeps_decodeBit {i : Inst} {c : Counter} (h : i.hasCounter c = true) : Keeps i (decodeBit c i) := by
  rw [← runDec_bitDec]
  exact keeps_runDec fun _ => ⟨fun d hd => by cases hd; exact of_decide_eq_true h, fun _ => trivial⟩

theorem nextByte_decodes (i : Inst) : Decodes 1 i (nextByte i) ∧ (nextByte i).inst.probs = i.probs := by
  by_cases h : i.ip < i.srcLen
  · rw [nextByte_ok h]
    exact ⟨⟨rfl, Nat.le_succ _, le_refl _, fun _ => h⟩, rfl⟩
  · rw [nextByte_raised (by omega)]
    exact ⟨⟨rfl, le_refl _, by omega, rfl, by omega, fun _ => by omega⟩, rfl⟩

theorem Decodes.same {α : Type} {n : Nat} {i : Inst} {r : Res α} (h : Decodes n i r) : sameButDecoder i r.inst := by
  cases r <;> exact h.1

/-- An operation of the decoder that leaves the counters alone keeps what it is handed legal. -/
theorem Decodes.keeps {α : Type} {n : Nat} {i : Inst} {r : Res α} (h : Decodes n i r) (hp : r.inst.probs = i.probs) :
    Keeps i r := by
  intro ⟨hprops, hcur, hprobs, hmem⟩
  have hip : r.inst.ip ≤ i.srcLen := by
    cases r with
    | ok a j => exact h.2.2.2 hcur.1
    | raised e j => exact le_of_eq (h.2.2.2.2.2 hcur.1)
  refine ⟨quiet_of_decoder h.same ⟨hprops, hcur, hprobs, hmem⟩ hip (hp ▸ hprobs), sameBase_of_decoder h.same, ?_⟩
  rw [h.same]

theorem keeps_ranOf {i : Inst} {r : Res Unit} (h : Keeps i r) : Keeps i (ranOf r) := by
  cases r <;> exact h

/-! ## An instruction that is no host command -/

/-- An operation that answers acted on what is current, and its result is settled. -/
theorem onCurrent_settles {f : Inst → Res Value} {s t : State} (h : onCurrent f s = .next t) :
    ∃ i, s.current = some i ∧ t = settle s.cur s (f i) := by
  unfold onCurrent at h
  split at h
  · cases h
  · next i hi => cases h; exact ⟨i, hi, rfl⟩

theorem onCounters_settles {ok : Inst → Bool} {f : Inst → Res Value} {s t : State} (h : onCounters ok f s = .next t) :
    ∃ i, s.current = some i ∧ ok i = true ∧ t = settle s.cur s (f i) := by
  unfold onCounters at h
  split at h
  · cases h
  · next i hi =>
    split at h
    · next hok => cases h; exact ⟨i, hi, hok, rfl⟩
    · cases h

/-- The frames in which the instructions that are no host command execute, each with an operation that keeps the
instances it is handed legal. -/
theorem exec_keeps {i : Instr} (hi : Instr.ofHost i = false) (s : State) :
    (∃ f, (∀ j, Keeps j (f j)) ∧ exec i s = onCurrent f s) ∨
      (∃ ok f, (∀ j, ok j = true → Keeps j (f j)) ∧ exec i s = onCounters ok f s) ∨
      ∃ f, (∀ j, Keeps j (f j)) ∧ exec i s = onReset f s := by
  cases i with
  | create | destroy | reset | decompress | hdr => cases hi
  | decodeBit => exact .inr (.inl ⟨_, _, fun j hj => (keeps_decodeBit hj).map _, rfl⟩)
  | decodeTree => exact .inr (.inl ⟨_, _, fun j hj => (keeps_treeDec hj).map _, rfl⟩)
  | decodeTreeReverse => exact .inr (.inl ⟨_, _, fun j hj => (keeps_reverseDec hj).map _, rfl⟩)
  | run => exact .inr (.inr ⟨_, fun j => keeps_ranOf (keeps_runInst _ j), rfl⟩)
  | streamInit | rcInit => exact .inl ⟨_, fun j => (keeps_rcInit _ j).map _, rfl⟩
  | lit => exact .inl ⟨_, fun j => (keeps_litPacket j).map _, rfl⟩
  | newMatch | eos => exact .inl ⟨_, fun j => (keeps_matchOrEos j).map _, rfl⟩
  | shortRep => exact .inl ⟨_, fun j => (keeps_shortRep j).map _, rfl⟩
  | longRep0 | longRep1 | longRep2 | longRep3 => exact .inl ⟨_, fun j => (keeps_longRep _ j).map _, rfl⟩
  | literalPlain => exact .inl ⟨_, fun j => (keeps_literalPlain j).map _, rfl⟩
  | literalMatched => exact .inl ⟨_, fun j => (keeps_literalMatched j).map _, rfl⟩
  | litDecode => exact .inl ⟨_, fun j => (keeps_litDecode j).map _, rfl⟩
  | lenLow => exact .inl ⟨_, fun j => (keeps_fixed (lowDec_fixed _ _) j).map _, rfl⟩
  | lenMid => exact .inl ⟨_, fun j => (keeps_fixed (midDec_fixed _ _) j).map _, rfl⟩
  | lenHigh => exact .inl ⟨_, fun j => (keeps_fixed (highDec_fixed _) j).map _, rfl⟩
  | lenDecode => exact .inl ⟨_, fun j => (keeps_fixed (lenDec_fixed _ _) j).map _, rfl⟩
  | distDecode => exact .inl ⟨_, fun j => (keeps_fixed (distDec_fixed _) j).map _, rfl⟩
  | nextByte => exact .inl ⟨_, fun j => ((nextByte_decodes j).1.keeps (nextByte_decodes j).2).map _, rfl⟩
  | normalize => exact .inl ⟨_, fun j => ((normalize_decodes j).keeps (normalize_inst_probs j)).map _, rfl⟩
  | decodeDirect => exact .inl ⟨_, fun j => (keeps_fixed (directDec_asksOnly _ _) j).map _, rfl⟩
  | putByte => exact .inl ⟨_, fun j => (keeps_putByte _ j).map _, rfl⟩
  | getByte => exact .inl ⟨_, fun j => (keeps_getByte _ j).map _, rfl⟩
  | copyMatch => exact .inl ⟨_, fun j => (keeps_copyMatch _ _ j).map _, rfl⟩
  | _ => exact .inl ⟨_, fun j => (keeps_fixed (slotDec_fixed _) j).map _, rfl⟩

/-- What such an instruction does when it answers a next state: an operation that keeps what is current legal, its
result settled (R205). -/
theorem exec_settles {i : Instr} (hi : Instr.ofHost i = false) {s t : State} (h : exec i s = .next t) :
    ∃ j r, s.current = some j ∧ Keeps j r ∧ t = settle s.cur s r := by
  rcases exec_keeps hi s with ⟨f, hf, he⟩ | ⟨ok, f, hf, he⟩ | ⟨f, hf, he⟩ <;> rw [he] at h
  · obtain ⟨j, hj, ht⟩ := onCurrent_settles h
    exact ⟨j, f j, hj, hf j, ht⟩
  · obtain ⟨j, hj, hok, ht⟩ := onCounters_settles h
    exact ⟨j, f j, hj, hf j hok, ht⟩
  · obtain ⟨j, hj, ht⟩ := onCurrent_settles (onReset_next h).1
    exact ⟨j, f j, hj, hf j, ht⟩

theorem settle_inv {s : State} (h : s.Inv) {j : Inst} (hj : s.current = some j) (hidle : j.busy = false) {r : Res Value}
    (hr : Keeps j r) : (settle s.cur s r).Inv := by
  obtain ⟨hquiet, hbase, -⟩ := hr ((Inst.legal_iff j).1 (h.legal hj)).1
  cases r with
  | ok v k =>
    obtain ⟨-, -, -, hbusy, -⟩ := hbase
    exact h.after hj (legal_of_idle hquiet (hbusy.trans hidle)) v
  | raised e k =>
    rw [settle_raised]
    exact h.trapped hj hquiet e

/-! ## The host commands -/

theorem takeException_inv {s : State} (h : s.Inv) (e : Err) : (takeException e none s).Inv := h.congr rfl rfl rfl

theorem State.Inv.allocDrawn {s : State} (h : s.Inv) : s.allocDrawn.Inv :=
  h.congr s.allocDrawn_insts s.allocDrawn_nextHandle s.allocDrawn_hdr

theorem propertiesOk_legal {pol : DictMinPolicy} {lc lp pb : Nat} {d : Word} (h : propertiesOk pol lc lp pb d = true) :
    lc ≤ 8 ∧ lp ≤ 4 ∧ pb ≤ 4 ∧ lc + lp ≤ 8 := by
  simp only [propertiesOk, Bool.and_eq_true, decide_eq_true_eq] at h
  obtain ⟨⟨⟨⟨hlc, hlp⟩, hpb⟩, hsum⟩, -⟩ := h
  exact ⟨hlc, hlp, hpb, hsum⟩

/-- CREATE with legal properties puts what it builds under the next handle (R180, R184). -/
theorem State.Inv.built {s : State} (h : s.Inv) {lc lp pb : Nat} (d : Word)
    (hp : lc ≤ 8 ∧ lp ≤ 4 ∧ pb ≤ 4 ∧ lc + lp ≤ 8) : (s.built lc lp pb d).Inv := by
  obtain ⟨hrising, hinsts, hhdr⟩ := h
  obtain ⟨hlc, hlp, hpb, hsum⟩ := hp
  have hfresh : (freshInst lc lp pb d s.draws).legal :=
    legal_of_idle (freshInst_quiet d s.draws hlc hlp hpb hsum) rfl
  obtain ⟨hr, hl⟩ := insts_set hrising (fun e he => ⟨Nat.lt_succ_of_lt (hinsts e he).1, (hinsts e he).2⟩)
    (Nat.lt_succ_self s.nextHandle) hfresh
  exact ⟨hr, hl, hhdr⟩

theorem execCreate_inv {s t : State} (h : s.Inv) {lc lp pb : Nat} {d : Word} (ht : execCreate lc lp pb d s = .next t) :
    t.Inv := by
  cases ht
  split
  · next hok =>
    split
    · exact h.allocDrawn.built d (propertiesOk_legal hok)
    · exact takeException_inv h.allocDrawn _
  · exact takeException_inv h _

/-- What DESTROY does when it answers (R185). -/
theorem execDestroy_next {s t : State} {hd : Handle} (ht : execDestroy hd s = .next t) :
    (hd = none ∧ t = { s with ret := .none }) ∨
      ∃ n, hd = some n ∧ t = { s with insts := Table.erase s.insts n, ret := .none } := by
  cases hd with
  | none => cases ht; exact .inl ⟨rfl, rfl⟩
  | some n =>
    obtain ⟨m, i, hm, -, -, hnext⟩ := onHandle_next (by simpa only [execDestroy] using ht)
    cases hm
    cases hnext
    exact .inr ⟨n, rfl, rfl⟩

/-- What RESET does when it answers (R186). -/
theorem execReset_next {s t : State} {hd : Handle} (ht : execReset hd s = .next t) :
    ∃ n i, hd = some n ∧ Table.get s.insts n = some i ∧ i.busy = false ∧
      t = { s with insts := Table.set s.insts n (resetInst i), cur := n, ret := .none } := by
  obtain ⟨n, i, hn, hi, hbusy, hnext⟩ := onHandle_next ht
  cases hnext
  exact ⟨n, i, hn, hi, hbusy, rfl⟩

/-- What DECOMPRESS does when it answers (R187). -/
theorem execDecompress_next {s t : State} {hd : Handle} {src : List Byte} {cap : Nat}
    (ht : execDecompress hd src cap s = .next t) :
    ∃ n i, hd = some n ∧ Table.get s.insts n = some i ∧ i.busy = false ∧
      t = decompressed n { s with cur := n, draws := s.draws + 1 }
        (decompressInst s.params.initByte0 src cap s.draws i) := by
  obtain ⟨n, i, hn, hi, hbusy, hnext⟩ := onHandle_next ht
  split at hnext
  · cases hnext
    exact ⟨n, i, hn, hi, hbusy, rfl⟩
  · cases hnext

theorem execDestroy_inv {s t : State} (h : s.Inv) {hd : Handle} (ht : execDestroy hd s = .next t) : t.Inv := by
  rcases execDestroy_next ht with ⟨-, rfl⟩ | ⟨n, -, rfl⟩
  · exact h.congr rfl rfl rfl
  · obtain ⟨hrising, hinsts, hhdr⟩ := h
    exact ⟨Table.rising_erase hrising n, fun e he => hinsts e (Table.mem_erase he).1, hhdr⟩

/-- Putting something legal under a handle given out keeps the invariant. -/
theorem State.Inv.putAt {s : State} (h : s.Inv) {n : Nat} (hn : n < s.nextHandle) {j : Inst} (hj : j.legal) :
    (s.putInst n j).Inv := by
  obtain ⟨hrising, hinsts, hhdr⟩ := h
  obtain ⟨hr, hl⟩ := insts_set hrising hinsts hn hj
  exact ⟨hr, hl, hhdr⟩

theorem execReset_inv {s t : State} (h : s.Inv) {hd : Handle} (ht : execReset hd s = .next t) : t.Inv := by
  obtain ⟨n, i, -, hi, hbusy, rfl⟩ := execReset_next ht
  have hreset := legal_of_idle (resetInst_quiet ((Inst.legal_iff i).1 (h.legal hi)).1) hbusy
  exact (h.putAt (h.handle_lt hi) hreset).congr rfl rfl rfl

/-- The exact-size check moves nothing but `busy` and `status` (R189). -/
theorem sizeCheck_inst (i : Inst) :
    (sizeCheck i).inst = i ∨ (sizeCheck i).inst = { i with busy := false, status := .ok } := by
  unfold sizeCheck
  split
  · exact .inl rfl
  · exact .inr rfl

theorem sizeCheck_quiet {i : Inst} (h : i.quiet) : (sizeCheck i).inst.quiet := by
  rcases sizeCheck_inst i with hi | hi <;> rw [hi] <;> exact h

theorem sizeCheck_ready {i j : Inst} {w : Nat} (h : sizeCheck i = .ok w j) : j.busy = false := by
  unfold sizeCheck at h
  split at h
  · cases h
  · cases h; rfl

theorem takeException_putInst (e : Err) (n : Nat) (s : State) (j : Inst) :
    takeException e (some n) (s.putInst n j) =
      { s with insts := Table.set s.insts n (j.abandoned e s.draws), ret := .error e, draws := s.draws + 1 } := by
  simp [takeException, State.putInst]

/-- The end of a DECOMPRESS keeps the invariant: what ran is Ready, or abandoned (R187, R205). -/
theorem decompressed_inv {s : State} (h : s.Inv) {n : Nat} (hn : n < s.nextHandle) {r : Res Nat} (hq : r.inst.quiet)
    (hready : ∀ w j, r = .ok w j → j.busy = false) : (decompressed n s r).Inv := by
  cases r with
  | ok w j => exact (h.putAt hn (legal_of_idle hq (hready w j rfl))).congr rfl rfl rfl
  | raised e j =>
    rw [decompressed, takeException_putInst]
    exact (h.putAt hn (abandoned_legal hq e s.draws)).congr rfl rfl rfl

theorem decompressInst_quiet {i : Inst} (h : i.propsLegal) (pol : InitByte0Policy) (src : List Byte) (cap ep : Nat) :
    (decompressInst pol src cap ep i).inst.quiet := by
  have hrun := (keeps_runInst pol (i.begun src cap ep) (begun_quiet h src cap ep)).1
  unfold decompressInst
  cases hr : runInst pol (i.begun src cap ep) with
  | ok u j => rw [hr] at hrun; exact sizeCheck_quiet hrun
  | raised e j => rw [hr] at hrun; exact hrun

theorem decompressInst_ready {pol : InitByte0Policy} {src : List Byte} {cap ep w : Nat} {i j : Inst}
    (h : decompressInst pol src cap ep i = .ok w j) : j.busy = false := by
  obtain ⟨-, k, -, hk⟩ := Res.bind_eq_ok.1 h
  exact sizeCheck_ready hk

theorem execDecompress_inv {s t : State} (h : s.Inv) {hd : Handle} {src : List Byte} {cap : Nat}
    (ht : execDecompress hd src cap s = .next t) : t.Inv := by
  obtain ⟨n, i, -, hi, -, rfl⟩ := execDecompress_next ht
  have hcalled : State.Inv { s with cur := n, draws := s.draws + 1 } := h.congr rfl rfl rfl
  exact decompressed_inv hcalled (h.handle_lt hi) (decompressInst_quiet (h.legal hi).1 _ _ _ _) fun w j =>
    decompressInst_ready

theorem execHdr_inv {s t : State} (h : s.Inv) {bytes : List Byte} (ht : execHdr bytes s = .next t) : t.Inv := by
  obtain ⟨hrising, hinsts, -⟩ := h
  cases ht
  split <;> exact ⟨hrising, hinsts, Memory.wf_ofBytes bytes⟩

/-! ## The step -/

/-- Every instruction keeps the invariant where no run is in progress. -/
theorem exec_inv_idle {i : Instr} {s t : State} (h : s.Inv) (hidle : s.noRun) (ht : exec i s = .next t) : t.Inv := by
  cases hi : Instr.ofHost i with
  | false =>
    obtain ⟨j, r, hj, hr, rfl⟩ := exec_settles hi ht
    exact settle_inv h hj (hidle j hj) hr
  | true =>
    cases i with
    | create => exact execCreate_inv h ht
    | destroy => exact execDestroy_inv h ht
    | reset => exact execReset_inv h ht
    | decompress => exact execDecompress_inv h ht
    | hdr => exact execHdr_inv h ht
    | _ => cases hi

/-- Taking a row or a request off its list leaves the machine proper alone. -/
theorem fetchIdle_leaves {s : State} {P : State → Prop} (hs : P s) (hport : ∀ p, P { s with port := p })
    (hrows : ∀ r, P { s with rows := r }) : (fetchIdle s).leaves P := by
  unfold fetchIdle fetchRequest
  split
  · split
    · exact hs
    · exact fetchWord_leaves _ (hport _)
  · exact fetchWord_leaves _ (hrows _)

/-- During a run the step turns to the next packet. -/
theorem fetch_running {s : State} {i : Inst} (hi : s.current = some i) (hb : i.busy = true) : fetch s = fetchPacket i s := by
  simp only [State.current] at hi
  simp only [fetch, hi, hb, if_true]

/-- Where a run is in progress, what is current is live and Busy. -/
theorem busy_of_not_noRun {s : State} (h : ¬ s.noRun) : ∃ i, s.current = some i ∧ i.busy = true := by
  simpa [State.noRun] using h

/-- The step of a run: the next packet, its naming decisions taken; or their exception; or the end of the DECOMPRESS
(R150, R189). -/
theorem step_running {s t : State} {i : Inst} (hi : s.current = some i) (hb : i.busy = true) (ht : step s = .next t) :
    (∃ k j, nextKind i = .ok k j ∧ exec k.instr (s.putInst s.cur j) = .next t) ∨
      (∃ e j, nextKind i = .raised e j ∧ t = s.trapped j e) ∨ t = decompressed s.cur s (sizeCheck i) := by
  simp only [step, fetch_running hi hb, fetchPacket] at ht
  cases hrun : i.running with
  | false =>
    simp only [hrun, Bool.false_eq_true, if_false] at ht
    cases ht
    exact .inr (.inr rfl)
  | true =>
    simp only [hrun, if_true] at ht
    cases hk : nextKind i with
    | ok k j =>
      rw [hk] at ht
      exact .inl ⟨k, j, rfl, ht⟩
    | raised e j =>
      rw [hk] at ht
      cases ht
      exact .inr (.inl ⟨e, j, rfl, takeException_current s j e⟩)

/-- A packet of a run keeps the invariant, what runs fit to run on. -/
theorem exec_kind_inv {k : PacketKind} {s t : State} (h : s.Inv) (ht : exec k.instr s = .next t) : t.Inv := by
  rw [exec_kind] at ht
  refine onCurrent_inv_running (fun i => (keeps_packetOf k i).map _) (fun i j v hq hl hv => ?_) h ht
  obtain ⟨e, he, -⟩ := Res.map_eq_ok.1 hv
  exact packetOf_runLegal hq hl he

/-- The naming decisions of a packet leave what runs legal. -/
theorem nextKind_legal {i j : Inst} {k : PacketKind} (h : i.legal) (hb : i.busy = true) (hk : nextKind i = .ok k j) :
    j.legal := by
  obtain ⟨hq, hrun⟩ := (Inst.legal_iff i).1 h
  have hkind := (keeps_nextKind i hq).1
  rw [hk] at hkind
  exact (Inst.legal_iff j).2 ⟨hkind, fun _ => nextKind_runLegal hq (hrun hb) hk⟩

theorem step_running_inv {s t : State} (h : s.Inv) {i : Inst} (hi : s.current = some i) (hb : i.busy = true)
    (ht : step s = .next t) : t.Inv := by
  have hq := ((Inst.legal_iff i).1 (h.legal hi)).1
  rcases step_running hi hb ht with ⟨k, j, hk, hexec⟩ | ⟨e, j, hk, rfl⟩ | rfl
  · exact exec_kind_inv (h.putInst hi (nextKind_legal (h.legal hi) hb hk)) hexec
  · have hkind := (keeps_nextKind i hq).1
    rw [hk] at hkind
    exact h.trapped hi hkind e
  · exact decompressed_inv h (h.handle_lt hi) (sizeCheck_quiet hq) fun w j => sizeCheck_ready

/-- Settles O11: a run steps by packets, each of which keeps what runs legal and fit to run on; with no run
the step executes a row or a request on Ready instances. -/
theorem stepKeepsInv : Obligations.StepKeepsInv := by
  intro s t h ht
  by_cases hidle : s.noRun
  · have hfetch : (fetch s).leaves fun u => u.Inv ∧ u.noRun := by
      rw [fetch_noRun hidle]
      exact fetchIdle_leaves ⟨h, hidle⟩ (fun _ => ⟨h.congr rfl rfl rfl, hidle⟩) fun _ =>
        ⟨h.congr rfl rfl rfl, hidle⟩
    rcases step_next ht hfetch with ⟨hinv, -⟩ | ⟨i, u, ⟨hinv, hu⟩, hexec⟩
    · exact hinv
    · exact exec_inv_idle hinv hu hexec
  · obtain ⟨i, hi, hb⟩ := busy_of_not_noRun hidle
    exact step_running_inv h hi hb ht

end Sys2Proof.Machine
end

section
/-! SUPPORT. Frames: what an instruction leaves of the machine outside its target, what an operation leaves of what it
acts on, and that the properties never change. -/

namespace Sys2Proof.Machine

/-! ## The frame of an instruction -/

/-- From `s` to `t` nothing of the machine has changed that is not the target's: the instances under every other handle,
HDR, the handles given out, the answers lined up, and the `status` of CREATE. -/
def State.changesOnly (target : Handle) (s t : State) : Prop :=
  (∀ n, some n ≠ target → Table.get t.insts n = Table.get s.insts n) ∧ t.hdr = s.hdr ∧
    t.nextHandle = s.nextHandle ∧ t.allocIn = s.allocIn ∧ t.createStatus = s.createStatus

theorem State.changesOnly_set {s t : State} {n : Nat} {j : Inst} (h : t.insts = Table.set s.insts n j)
    (hrest : t.hdr = s.hdr ∧ t.nextHandle = s.nextHandle ∧ t.allocIn = s.allocIn ∧ t.createStatus = s.createStatus) :
    s.changesOnly (some n) t :=
  ⟨fun m hm => by rw [h]; exact Table.get_set_other _ _ fun e => hm (congrArg some e), hrest⟩

theorem settle_changesOnly (s : State) (r : Res Value) : s.changesOnly (some s.cur) (settle s.cur s r) := by
  cases r with
  | ok v j => exact State.changesOnly_set rfl ⟨rfl, rfl, rfl, rfl⟩
  | raised e j => rw [settle_raised]; exact State.changesOnly_set rfl ⟨rfl, rfl, rfl, rfl⟩

theorem decompressed_changesOnly (n : Nat) (s : State) (r : Res Nat) : s.changesOnly (some n) (decompressed n s r) := by
  cases r with
  | ok w j => exact State.changesOnly_set rfl ⟨rfl, rfl, rfl, rfl⟩
  | raised e j => rw [decompressed, takeException_putInst]; exact State.changesOnly_set rfl ⟨rfl, rfl, rfl, rfl⟩

/-- An instruction that is no host command acts on what is current (log 6). -/
theorem target_of_not_ofHost {i : Instr} (hi : Instr.ofHost i = false) (s : State) : Instr.target i s = some s.cur := by
  cases i with
  | create | destroy | reset | decompress | hdr => cases hi
  | _ => rfl

/-- Every instruction but CREATE and HDR changes nothing outside its target. -/
theorem exec_changesOnly {i : Instr} {s t : State} (hcreate : ∀ lc lp pb d, i ≠ .create lc lp pb d)
    (hhdr : ∀ bytes, i ≠ .hdr bytes) (ht : exec i s = .next t) : s.changesOnly (Instr.target i s) t := by
  cases hi : Instr.ofHost i with
  | false =>
    obtain ⟨j, r, -, -, rfl⟩ := exec_settles hi ht
    rw [target_of_not_ofHost hi]
    exact settle_changesOnly s r
  | true =>
    cases i with
    | create lc lp pb d => exact absurd rfl (hcreate lc lp pb d)
    | hdr bytes => exact absurd rfl (hhdr bytes)
    | destroy hd =>
      rcases execDestroy_next ht with ⟨-, rfl⟩ | ⟨n, rfl, rfl⟩
      · exact ⟨fun _ _ => rfl, rfl, rfl, rfl, rfl⟩
      · exact ⟨fun m hm => Table.get_erase_other _ fun e => hm (congrArg some e), rfl, rfl, rfl, rfl⟩
    | reset hd =>
      obtain ⟨n, i, rfl, -, -, rfl⟩ := execReset_next ht
      exact State.changesOnly_set rfl ⟨rfl, rfl, rfl, rfl⟩
    | decompress hd src cap =>
      obtain ⟨n, i, rfl, -, -, rfl⟩ := execDecompress_next ht
      exact decompressed_changesOnly n { s with cur := n, draws := s.draws + 1 } _
    | _ => cases hi

/-- CREATE fills the next handle, or touches none (R180, R205). -/
theorem execCreate_frame {lc lp pb : Nat} {d : Word} {s t : State} (ht : execCreate lc lp pb d s = .next t) :
    t.hdr = s.hdr ∧ (t.insts = s.insts ∨ ∃ j, t.insts = Table.set s.insts s.nextHandle j) := by
  cases ht
  split
  · split
    · exact ⟨s.allocDrawn_hdr, .inr ⟨_, by rw [State.built_insts, s.allocDrawn_insts, s.allocDrawn_nextHandle]⟩⟩
    · exact ⟨s.allocDrawn_hdr, .inl s.allocDrawn_insts⟩
  · exact ⟨rfl, .inl rfl⟩

theorem execHdr_frame {bytes : List Byte} {s t : State} (ht : execHdr bytes s = .next t) :
    t.insts = s.insts ∧ t.nextHandle = s.nextHandle ∧ t.allocIn = s.allocIn := by
  cases ht
  split <;> exact ⟨rfl, rfl, rfl⟩

/-- Settles O13: the port, the rows and the parameters by `exec_sameInputs`; of the rest CREATE and HDR change what they
alone may, every other instruction nothing outside its target. -/
theorem instructionFrame : Obligations.InstructionFrame := by
  intro i s t ht
  obtain ⟨hport, hrows, hparams⟩ := exec_sameInputs ht
  by_cases hcreate : ∃ lc lp pb d, i = .create lc lp pb d
  · obtain ⟨lc, lp, pb, d, rfl⟩ := hcreate
    obtain ⟨hhdr, hinsts⟩ := execCreate_frame ht
    refine ⟨fun n hn => ?_, hport, hrows, hparams, fun _ => hhdr, fun h => absurd rfl (h lc lp pb d)⟩
    rcases hinsts with hinsts | ⟨j, hinsts⟩
    · rw [hinsts]
    · rw [hinsts]
      exact Table.get_set_other _ _ fun e => hn (congrArg some e)
  by_cases hhdr : ∃ bytes, i = .hdr bytes
  · obtain ⟨bytes, rfl⟩ := hhdr
    obtain ⟨hinsts, hnext, halloc⟩ := execHdr_frame ht
    exact ⟨fun n _ => by rw [hinsts], hport, hrows, hparams, fun h => absurd rfl (h bytes), fun _ =>
      ⟨hnext, halloc, fun h => absurd rfl (h bytes)⟩⟩
  · obtain ⟨hinsts, hh, hnext, halloc, hstatus⟩ := exec_changesOnly
      (fun lc lp pb d e => hcreate ⟨lc, lp, pb, d, e⟩) (fun bytes e => hhdr ⟨bytes, e⟩) ht
    exact ⟨hinsts, hport, hrows, hparams, fun _ => hh, fun _ => ⟨hnext, halloc, fun _ => hstatus⟩⟩

/-! ## The frame of the operations -/

theorem getByte_same (d : Word) (i : Inst) : sameButDecoder i (getByte d i).inst := by
  unfold getByte
  split <;> exact .refl i

theorem rcInit_same (pol : InitByte0Policy) (i : Inst) : sameButDecoder i (rcInit pol i).inst := by
  have hload : sameButDecoder i (loadCode 5 { i with range := 0xFFFFFFFF, code := 0 }).inst :=
    sameButDecoder.trans (j := { i with range := 0xFFFFFFFF, code := 0 }) rfl (loadCode_decodes 5 _).1.same
  unfold rcInit
  cases h : loadCode 5 { i with range := 0xFFFFFFFF, code := 0 } with
  | raised e j => rw [h] at hload; exact hload
  | ok u j =>
    rw [h] at hload
    rw [Res.bind_ok]
    split <;> exact hload

theorem literalMatched_same (i : Inst) : sameButDecoder i (literalMatched i).inst := by
  unfold literalMatched getByte
  split
  · exact .refl i
  · exact runDec_same _ i

theorem litDecode_inst_same (i : Inst) : sameButDecoder i (litDecode i).inst := by
  unfold litDecode
  split
  · exact literalMatched_same i
  · exact runDec_same _ i

theorem sameButDecoder.map {α β : Type} {i : Inst} {r : Res α} (h : sameButDecoder i r.inst) (f : α → β) :
    sameButDecoder i (r.map f).inst := by
  rw [Res.inst_map]
  exact h

/-- The frames in which the rows that only decode execute, each with an operation that changes the decoder's part only. -/
theorem exec_decodesOnly {row : Instr} (hrow : Instr.decodesOnly row = true) (s : State) :
    (∃ f, (∀ j, sameButDecoder j (f j).inst) ∧ exec row s = onCurrent f s) ∨
      ∃ ok f, (∀ j, sameButDecoder j (f j).inst) ∧ exec row s = onCounters ok f s := by
  cases row with
  | create | destroy | reset | decompress | hdr | run | putByte | copyMatch => cases hrow
  | lit | newMatch | eos | shortRep | longRep0 | longRep1 | longRep2 | longRep3 => cases hrow
  | decodeBit => exact .inr ⟨_, _, fun j => (decodeBit_decodes _ j).same.map _, rfl⟩
  | decodeTree | decodeTreeReverse => exact .inr ⟨_, _, fun j => (runDec_same _ j).map _, rfl⟩
  | streamInit | rcInit => exact .inl ⟨_, fun j => (rcInit_same _ j).map _, rfl⟩
  | nextByte => exact .inl ⟨_, fun j => (nextByte_decodes j).1.same.map _, rfl⟩
  | normalize => exact .inl ⟨_, fun j => (normalize_decodes j).same.map _, rfl⟩
  | literalMatched => exact .inl ⟨_, fun j => (literalMatched_same j).map _, rfl⟩
  | litDecode => exact .inl ⟨_, fun j => (litDecode_inst_same j).map _, rfl⟩
  | getByte => exact .inl ⟨_, fun j => (getByte_same _ j).map _, rfl⟩
  | _ => exact .inl ⟨_, fun j => (runDec_same _ j).map _, rfl⟩

/-- Such a row, when it answers, settles the result of an operation that changes the decoder's part only. -/
theorem exec_decodesOnly_settles {row : Instr} (hrow : Instr.decodesOnly row = true) {s t : State} {i : Inst}
    (hi : s.current = some i) (ht : exec row s = .next t) :
    ∃ r : Res Value, sameButDecoder i r.inst ∧ t = settle s.cur s r := by
  rcases exec_decodesOnly hrow s with ⟨f, hf, he⟩ | ⟨ok, f, hf, he⟩ <;> rw [he] at ht
  · obtain ⟨j, hj, rfl⟩ := onCurrent_settles ht
    cases hi.symm.trans hj
    exact ⟨f i, hf i, rfl⟩
  · obtain ⟨j, hj, -, rfl⟩ := onCounters_settles ht
    cases hi.symm.trans hj
    exact ⟨f i, hf i, rfl⟩

/-- A settled result is the value returned or the exception taken, with what the operation left. -/
theorem settle_cases (s : State) (r : Res Value) :
    (∃ v, settle s.cur s r = s.after r.inst v) ∨ ∃ e, settle s.cur s r = s.trapped r.inst e := by
  cases r with
  | ok v j => exact .inl ⟨v, rfl⟩
  | raised e j => exact .inr ⟨e, settle_raised s e j⟩

/-- An appending row executes its operation on what is current and returns no value. -/
theorem exec_appender {row : Instr} {n : Nat} {f : Inst → Res Unit} (h : Instr.appender row = some (n, f)) (s : State) :
    exec row s = onCurrent (fun i => (f i).map fun _ => .none) s := by
  cases row with
  | lit | shortRep | longRep0 | longRep1 | longRep2 | longRep3 | putByte | copyMatch => cases h; rfl
  | newMatch | eos => cases h; simp only [exec, execMatch, execEos, Res.map_map]
  | _ => cases h

/-- An appending row appends no more than it may (R47, R140). -/
theorem appender_appends {row : Instr} {n : Nat} {f : Inst → Res Unit} (h : Instr.appender row = some (n, f)) (i : Inst) :
    Appends n i (f i) := by
  cases row with
  | lit => cases h; exact Appends.litPacket i
  | newMatch | eos => cases h; exact (Appends.matchOrEos i).map _
  | shortRep => cases h; exact Appends.shortRepPacket i
  | longRep0 | longRep1 | longRep2 | longRep3 => cases h; exact Appends.longRepPacket _ i
  | putByte b => cases h; exact Appends.putByte b i
  | copyMatch d n => cases h; exact Appends.copyMatch d n i
  | _ => cases h

theorem putByte_sameButWindow (b : Byte) (i : Inst) : sameButWindow i (putByte b i).inst := by
  unfold putByte
  split <;> exact rfl

theorem copyLoop_sameButWindow (d : Word) (n : Nat) (i : Inst) : sameButWindow i (copyLoop d n i).inst := by
  induction n generalizing i with
  | zero => exact .refl i
  | succ n ih =>
    have hput := putByte_sameButWindow (i.back d) i
    rw [copyLoop]
    cases h : putByte (i.back d) i with
    | ok u j => rw [h] at hput; exact hput.trans (ih j)
    | raised e j => rw [h] at hput; exact hput

theorem copyMatch_sameButWindow (d : Word) (n : Nat) (i : Inst) : sameButWindow i (copyMatch d n i).inst := by
  unfold copyMatch
  split
  · exact .refl i
  · exact copyLoop_sameButWindow d n i

/-- PUTBYTE and COPYMATCH touch the window's part only (R140, R142). -/
theorem appender_sameButWindow {row : Instr} {n : Nat} {f : Inst → Res Unit} (h : Instr.appender row = some (n, f))
    (hrow : (∃ b, row = .putByte b) ∨ ∃ d m, row = .copyMatch d m) (i : Inst) : sameButWindow i (f i).inst := by
  rcases hrow with ⟨b, rfl⟩ | ⟨d, m, rfl⟩ <;> cases h
  · exact putByte_sameButWindow b i
  · exact copyMatch_sameButWindow _ _ i

theorem ranOf_inst (r : Res Unit) : (ranOf r).inst = r.inst := by cases r <;> rfl

/-- RUN, when it answers, settles the result of the packet loop from what is current (R150). -/
theorem execRun_settles {s t : State} {i : Inst} (hi : s.current = some i) (ht : execRun s = .next t) :
    t = settle s.cur s (ranOf (runInst s.params.initByte0 i)) := by
  obtain ⟨j, hj, ht⟩ := onCurrent_settles (onReset_next ht).1
  cases hi.symm.trans hj
  exact ht

/-- Settles O14: the decoding rows by `exec_decodesOnly`; the appending ones and the packet loop by how far each may
append from wherever it starts. -/
theorem operationFrame : Obligations.OperationFrame := by
  intro row s i hi
  refine ⟨fun hrow t ht => ?_, fun n f hf => ⟨fun j hj => ?_, fun e j hj => ?_, fun j hj => ?_⟩, ?_⟩
  · obtain ⟨r, hr, rfl⟩ := exec_decodesOnly_settles hrow hi ht
    exact ⟨r.inst, hr, settle_cases s r⟩
  · rw [exec_appender hf]
    exact onCurrent_ok hi (by rw [hj]; rfl)
  · rw [exec_appender hf]
    exact onCurrent_raised hi (by rw [hj]; rfl)
  · obtain rfl := Res.leaves_iff.1 hj
    obtain ⟨hcall, -, -, hout⟩ := appender_appends hf i
    exact ⟨hcall, hout, fun hrow => appender_sameButWindow hf hrow i⟩
  · rintro rfl
    refine ⟨fun t ht => ⟨(runInst s.params.initByte0 i).inst, Res.leaves_iff.2 rfl, ?_⟩, fun j hj => ?_⟩
    · rw [execRun_settles hi ht, ← ranOf_inst]
      exact settle_cases s _
    · obtain rfl := Res.leaves_iff.1 hj
      obtain ⟨n, hcall, -, -, hout⟩ := Appends.runInst s.params.initByte0 i
      exact ⟨hcall, fun a ha => hout a (ha.imp_right .inr)⟩

/-! ## The properties -/

theorem sameProps.refl (i : Inst) : sameProps i i := ⟨rfl, rfl, rfl, rfl⟩

theorem sameProps.trans {i j k : Inst} (h : sameProps i j) (h' : sameProps j k) : sameProps i k := by
  obtain ⟨hlc, hlp, hpb, hdict⟩ := h
  obtain ⟨hlc', hlp', hpb', hdict'⟩ := h'
  exact ⟨hlc.trans hlc', hlp.trans hlp', hpb.trans hpb', hdict.trans hdict'⟩

/-- What is settled under the current handle has the properties of what the operation left. -/
theorem settle_get (s : State) (r : Res Value) :
    ∃ k, Table.get (settle s.cur s r).insts s.cur = some k ∧ sameProps r.inst k := by
  cases r with
  | ok v j => exact ⟨j, Table.get_set_same _ _ _, .refl j⟩
  | raised e j => rw [settle_raised]; exact ⟨_, Table.get_set_same _ _ _, .refl j⟩

theorem decompressed_get (n : Nat) (s : State) (r : Res Nat) :
    ∃ k, Table.get (decompressed n s r).insts n = some k ∧ sameProps r.inst k := by
  cases r with
  | ok w j => exact ⟨j, Table.get_set_same _ _ _, .refl j⟩
  | raised e j => rw [decompressed, takeException_putInst]; exact ⟨_, Table.get_set_same _ _ _, .refl j⟩

theorem sizeCheck_sameProps (i : Inst) : sameProps i (sizeCheck i).inst := by
  rcases sizeCheck_inst i with hi | hi <;> rw [hi] <;> exact .refl i

theorem decompressInst_sameProps (pol : InitByte0Policy) (src : List Byte) (cap ep : Nat) (i : Inst) :
    sameProps i (decompressInst pol src cap ep i).inst := by
  obtain ⟨-, ⟨hprops, -⟩, -⟩ := Appends.runInst pol (i.begun src cap ep)
  unfold decompressInst
  cases hr : runInst pol (i.begun src cap ep) with
  | ok u j => rw [hr] at hprops; exact sameProps.trans hprops (sizeCheck_sameProps j)
  | raised e j => rw [hr] at hprops; exact hprops

/-- Whatever is live in both `s` and `t` under one handle has the same properties in both. -/
def State.keepsProps (s t : State) : Prop :=
  ∀ (n : Nat) (i j : Inst), Table.get s.insts n = some i → Table.get t.insts n = some j → sameProps i j

/-- Where only one handle's content changes, and keeps its properties, all are kept. -/
theorem State.keepsProps_of_get {s t : State} {n : Nat} {i k : Inst} (hi : Table.get s.insts n = some i)
    (hk : Table.get t.insts n = some k) (hprops : sameProps i k)
    (hother : ∀ m, some m ≠ some n → Table.get t.insts m = Table.get s.insts m) : s.keepsProps t := by
  intro m i' j' hi' hj'
  by_cases hm : m = n
  · subst hm
    cases hi.symm.trans hi'
    cases hk.symm.trans hj'
    exact hprops
  · rw [hother m fun e => hm (Option.some.inj e), hi'] at hj'
    cases hj'
    exact .refl i'

theorem State.keepsProps_of_insts {s t : State} (h : t.insts = s.insts) : s.keepsProps t := by
  intro n i j hi hj
  rw [h, hi] at hj
  cases hj
  exact .refl i

theorem decompressed_keepsProps {s : State} {n : Nat} {i : Inst} (hi : Table.get s.insts n = some i) {r : Res Nat}
    (hr : sameProps i r.inst) : s.keepsProps (decompressed n s r) := by
  obtain ⟨k, hk, hprops⟩ := decompressed_get n s r
  exact State.keepsProps_of_get hi hk (hr.trans hprops) (decompressed_changesOnly n s r).1

theorem execCreate_keepsProps {lc lp pb : Nat} {d : Word} {s t : State} (h : s.Inv)
    (ht : execCreate lc lp pb d s = .next t) : s.keepsProps t := by
  rcases (execCreate_frame ht).2 with hinsts | ⟨k, hinsts⟩
  · exact State.keepsProps_of_insts hinsts
  · intro n i j hi hj
    have hn := h.handle_lt hi
    rw [hinsts, Table.get_set_other _ _ (by omega), hi] at hj
    cases hj
    exact .refl i

theorem execDestroy_keepsProps {hd : Handle} {s t : State} (ht : execDestroy hd s = .next t) : s.keepsProps t := by
  rcases execDestroy_next ht with ⟨-, rfl⟩ | ⟨n, -, rfl⟩
  · exact State.keepsProps_of_insts rfl
  · intro m i j hi hj
    by_cases hm : m = n
    · subst hm
      rw [Table.get_erase_same] at hj
      cases hj
    · rw [Table.get_erase_other _ hm, hi] at hj
      cases hj
      exact .refl i

/-- No instruction changes the properties of what is live (R18, R234). -/
theorem exec_keepsProps {i : Instr} {s t : State} (h : s.Inv) (ht : exec i s = .next t) : s.keepsProps t := by
  cases hi : Instr.ofHost i with
  | false =>
    obtain ⟨j, r, hj, hr, rfl⟩ := exec_settles hi ht
    obtain ⟨-, ⟨hprops, -⟩, -⟩ := hr ((Inst.legal_iff j).1 (h.legal hj)).1
    obtain ⟨k, hk, hk'⟩ := settle_get s r
    exact State.keepsProps_of_get hj hk (sameProps.trans hprops hk') (settle_changesOnly s r).1
  | true =>
    cases i with
    | create => exact execCreate_keepsProps h ht
    | destroy => exact execDestroy_keepsProps ht
    | reset =>
      obtain ⟨n, i, -, hi, -, rfl⟩ := execReset_next ht
      exact State.keepsProps_of_get hi (Table.get_set_same _ _ _) (.refl i) fun m hm =>
        Table.get_set_other _ _ fun e => hm (congrArg some e)
    | decompress =>
      obtain ⟨n, i, -, hi, -, rfl⟩ := execDecompress_next ht
      exact decompressed_keepsProps (s := { s with cur := n, draws := s.draws + 1 }) hi
        (decompressInst_sameProps _ _ _ _ i)
    | hdr => exact State.keepsProps_of_insts (execHdr_frame ht).1
    | _ => cases hi

/-- Properties kept from a state `u` in which all that was live in `s` stands with its properties. -/
theorem State.keepsProps_of_live {s u t : State}
    (hlive : ∀ n i, Table.get s.insts n = some i → ∃ k, Table.get u.insts n = some k ∧ sameProps i k)
    (h : u.keepsProps t) : s.keepsProps t := by
  intro n i j hi hj
  obtain ⟨k, hk, hprops⟩ := hlive n i hi
  exact hprops.trans (h n k j hk hj)

theorem putInst_live {s : State} {n : Nat} {i k : Inst} (hi : Table.get s.insts n = some i) (hprops : sameProps i k) :
    ∀ m j, Table.get s.insts m = some j → ∃ k', Table.get (s.putInst n k).insts m = some k' ∧ sameProps j k' := by
  intro m j hj
  by_cases hm : m = n
  · subst hm
    cases hi.symm.trans hj
    exact ⟨k, Table.get_set_same _ _ _, hprops⟩
  · exact ⟨j, (Table.get_set_other _ _ hm).trans hj, .refl j⟩

theorem step_running_keepsProps {s t : State} (h : s.Inv) {i : Inst} (hi : s.current = some i) (hb : i.busy = true)
    (ht : step s = .next t) : s.keepsProps t := by
  have hprops := (sameBase_of_decoder (runDec_same (kindDec i.st i.posState) i)).1
  rcases step_running hi hb ht with ⟨k, j, hk, hexec⟩ | ⟨e, j, hk, rfl⟩ | rfl
  · rw [show runDec (kindDec i.st i.posState) i = .ok k j from hk] at hprops
    refine State.keepsProps_of_live (putInst_live hi hprops) (exec_keepsProps ?_ hexec)
    exact h.putInst hi (nextKind_legal (h.legal hi) hb hk)
  · rw [show runDec (kindDec i.st i.posState) i = .raised e j from hk] at hprops
    exact State.keepsProps_of_get hi (State.current_trapped s j e) hprops fun m hm =>
      Table.get_set_other _ _ fun e => hm (congrArg some e)
  · exact decompressed_keepsProps hi (sizeCheck_sameProps i)

/-- Settles O15: a packet of a run keeps the properties of what runs, a command those of its target, and CREATE takes a
handle under which nothing is live. -/
theorem propertiesAreImmutable : Obligations.PropertiesAreImmutable := by
  intro s t n i j h ht hi hj
  refine (?_ : s.keepsProps t) n i j hi hj
  by_cases hidle : s.noRun
  · have hfetch : (fetch s).leaves fun u => u.Inv ∧ u.insts = s.insts := by
      rw [fetch_noRun hidle]
      exact fetchIdle_leaves ⟨h, rfl⟩ (fun _ => ⟨h.congr rfl rfl rfl, rfl⟩) fun _ => ⟨h.congr rfl rfl rfl, rfl⟩
    rcases step_next ht hfetch with ⟨-, hinsts⟩ | ⟨i, u, ⟨hinv, hinsts⟩, hexec⟩
    · exact State.keepsProps_of_insts hinsts
    · exact State.keepsProps_of_live (fun m k hk => ⟨k, hinsts ▸ hk, .refl k⟩) (exec_keepsProps hinv hexec)
  · obtain ⟨i, hi, hb⟩ := busy_of_not_noRun hidle
    exact step_running_keepsProps h hi hb ht

end Sys2Proof.Machine
end

section
/-! SUPPORT. No index of the probability file is outside it, no step faults, and `range` stays normalised. -/

namespace Sys2Proof.Machine

/-! ## The counters asked -/

theorem Dec.asksWithin_of_asksOnly {α : Type} {d : Dec α} {i : Inst}
    (h : Dec.asksOnly (fun c => counterIndex c < i.numCounters) d) : Dec.asksWithin d i := fun ds _ hc =>
  decide_eq_true (Dec.asked_of_asksOnly h ds hc)

theorem litDec_asksOnly (ctx : Fin 256) (mode : LitMode) : Dec.asksOnly (ofTree (.lit ctx)) (litDec ctx mode) := by
  cases mode with
  | plain => exact plainDec_asksOnly ctx
  | matched mb => exact matchedDec_asksOnly ctx mb

/-- A literal in its own context asks counters within the file (R98, R110). -/
theorem litDec_asks {i : Inst} (h : i.propsLegal) (mode : LitMode) :
    Dec.asksOnly (fun c => counterIndex c < i.numCounters) (litDec i.litContext mode) :=
  Dec.asksOnly_mono (litDec_asksOnly _ mode) fun _ hc => litCounter_lt h hc

/-- A packet asks the fixed counters and those of its literal. -/
theorem packetDec_asks {i : Inst} (h : i.propsLegal) (st : StateIndex) (ps : PosState) (mode : LitMode) :
    Dec.asksOnly (fun c => counterIndex c < i.numCounters) (packetDec ⟨st, ps, i.litContext, mode⟩) := by
  refine Dec.asksOnly_bind (asksOnly_of_fixed (kindDec_fixed st ps) i) fun k => ?_
  cases k with
  | lit => exact Dec.asksOnly_map (litDec_asks h mode)
  | newMatch => exact Dec.asksOnly_map (asksOnly_of_fixed (matchOperandsDec_fixed ps) i)
  | shortRep => trivial
  | longRep k => exact Dec.asksOnly_map (asksOnly_of_fixed (lenDec_fixed .forRep ps) i)

/-! ## No index wraps -/

/-- The entry of a matched literal's array after `k` decisions (R113): below 768. -/
theorem matchedEntry_lt {k : Nat} (hk : k < 8) (mb b : Byte) :
    (1 + mb.toNat / 2 ^ (7 - k) % 2) * 256 + (2 ^ k + b.toNat / 2 ^ (8 - k)) < 768 := by
  have hb : b.toNat / 2 ^ (8 - k) < 2 ^ k := by
    rw [Nat.div_lt_iff_lt_mul (Nat.two_pow_pos _), ← Nat.pow_add, Nat.add_sub_cancel' (by omega)]
    exact b.isLt
  have hk7 : 2 ^ k ≤ 2 ^ 7 := Nat.pow_le_pow_right (by omega) (by omega)
  have hbit : mb.toNat / 2 ^ (7 - k) % 2 < 2 := Nat.mod_lt _ (by omega)
  omega

/-- Below the size of its array different indices are different counters. -/
theorem counter_inj {t : Tree} {k k' : Nat} (hk : k < t.size) (hk' : k' < t.size) (h : t.counter k = t.counter k') :
    k = k' := by
  have hindex := congrArg counterIndex h
  rw [counterIndex_counter hk, counterIndex_counter hk'] at hindex
  omega

/-- The footer trees of slots 4 to 13 stay within their array of 115 (R128). -/
theorem footer_le_specPos {slot : Nat} (h4 : 4 ≤ slot) (h14 : slot < 14) :
    slotBase slot - slot + 2 ^ slotBits slot ≤ Tree.specPos.size := by
  interval_cases slot <;> decide

/-! ## No step faults -/

theorem onCurrent_ne_fault (f : Inst → Res Value) (s : State) (e : Fault) : onCurrent f s ≠ .fault e := by
  unfold onCurrent
  split <;> nofun

theorem onHandle_ne_fault {h : Handle} {s : State} {f : Nat → Inst → Host.Outcome State Fault Refusal} {e : Fault}
    (hf : ∀ n i, f n i ≠ .fault e) : onHandle h s f ≠ .fault e := by
  unfold onHandle
  split
  · nofun
  · split
    · nofun
    · split
      · nofun
      · exact hf _ _

/-- No host command faults. -/
theorem exec_ofHost_ne_fault {i : Instr} (hi : Instr.ofHost i = true) (s : State) (e : Fault) : exec i s ≠ .fault e := by
  cases i with
  | create | hdr => nofun
  | destroy hd =>
    cases hd with
    | none => nofun
    | some n =>
      simp only [exec, execDestroy]
      exact onHandle_ne_fault fun _ _ => nofun
  | reset => exact onHandle_ne_fault fun _ _ => nofun
  | decompress =>
    refine onHandle_ne_fault fun _ _ => ?_
    split <;> nofun
  | _ => cases hi

/-- A row of one of the stream's formats acts on what is current, without naming a counter. -/
theorem exec_row {i : Instr} (h : isStreamRow i = true ∨ ∃ k, i.slot = some k) (s : State) :
    ∃ f, exec i s = onCurrent f s := by
  cases i with
  | create | destroy | reset | decompress | hdr | decodeBit | decodeTree | decodeTreeReverse | run =>
    rcases h with h | ⟨k, h⟩ <;> cases h
  | _ => exact ⟨_, rfl⟩

/-- An instruction that is fetched is what a request or a row spells: never an internal operation. -/
def Fetched.spelled : Fetched → Prop
  | .instr i _ => Instr.ofHost i = true ∨ isStreamRow i = true ∨ ∃ k, i.slot = some k
  | _ => True

theorem fetchWord_spelled (r : Request) (s : State) : (fetchWord r s).spelled := by
  unfold fetchWord
  split
  · trivial
  · next i hi =>
    split
    · exact decode_rows hi
    · trivial

theorem fetchIdle_spelled (s : State) : (fetchIdle s).spelled := by
  unfold fetchIdle fetchRequest
  split
  · split
    · trivial
    · exact fetchWord_spelled _ _
  · exact fetchWord_spelled _ _

theorem isStreamRow_kind (k : PacketKind) : isStreamRow k.instr = true := by
  cases k with
  | longRep k => fin_cases k <;> rfl
  | _ => rfl

theorem fetchPacket_spelled (i : Inst) (s : State) : (fetchPacket i s).spelled := by
  unfold fetchPacket
  split
  · split
    · exact .inr (.inl (isStreamRow_kind _))
    · trivial
  · trivial

theorem fetch_spelled (s : State) : (fetch s).spelled := by
  unfold fetch
  split
  · exact fetchIdle_spelled s
  · split
    · exact fetchPacket_spelled _ s
    · exact fetchIdle_spelled s

/-- No step faults, from any state (R98, R220). -/
theorem step_ne_fault (s : State) (e : Fault) : step s ≠ .fault e := by
  have hfetch := fetch_spelled s
  unfold step
  cases hf : fetch s with
  | instr i u =>
    rw [hf] at hfetch
    rcases hfetch with hi | hi
    · exact exec_ofHost_ne_fault hi u e
    · obtain ⟨f, hexec⟩ := exec_row hi u
      exact fun h => onCurrent_ne_fault f u e (hexec.symm.trans h)
  | settled u => nofun
  | refused r => nofun

/-- An internal operation handed counters outside the file stops (U16, log 24). -/
theorem onCounters_fault {ok : Inst → Bool} {f : Inst → Res Value} {s : State} {i : Inst} (hi : s.current = some i)
    (hok : ok i = false) : onCounters ok f s = .fault .noSuchCounter := by
  simp only [State.current] at hi
  simp [onCounters, hi, hok]

/-- Settles O12: every program asks fixed counters or those of its own literal context, trees stay within their arrays,
and what a step fetches is never an internal operation. -/
theorem stepNeverFaults : Obligations.StepNeverFaults := by
  refine ⟨fun i st ps mode c n slot h => ?_, fun t base n k k' mb b ds c => ?_, fun c ps ls ctx slot => ?_,
    fun s e => ?_⟩
  · exact ⟨Dec.asksWithin_of_asksOnly (packetDec_asks h st ps mode),
      Dec.asksWithin_of_asksOnly (asksOnly_of_fixed (kindDec_fixed st ps) i),
      Dec.asksWithin_of_asksOnly (litDec_asks h mode),
      Dec.asksWithin_of_asksOnly (asksOnly_of_fixed (lenDec_fixed c ps) i),
      Dec.asksWithin_of_asksOnly (asksOnly_of_fixed (distDec_fixed n) i),
      Dec.asksWithin_of_asksOnly (asksOnly_of_fixed (slotDec_fixed slot) i)⟩
  · exact ⟨Dec.asked_of_asksOnly (treeDec_asksOnly t n) ds, Dec.asked_of_asksOnly (reverseDec_asksOnly t base n) ds,
      fun hk => matchedEntry_lt hk mb b, counter_inj⟩
  · exact ⟨le_refl 8, le_refl 8, le_refl 256, le_refl 64, le_refl 16, le_refl 768, footer_le_specPos⟩
  · exact ⟨step_ne_fault s e, fun i c t base n hi =>
      ⟨fun h => onCounters_fault hi h, fun h => onCounters_fault hi h, fun h => onCounters_fault hi h⟩⟩

/-! ## A normalised range -/

/-- Settles O23: RC_INIT sets `range` to all ones; a decision leaves at least 2^16 of a normalised `range`, which the
normalisation that ends it shifts up (R11, R97). -/
theorem rangeStaysNormalised : Obligations.RangeStaysNormalised := by
  intro s i j v hi
  have init : onCurrent (fun i => (rcInit s.params.initByte0 i).map fun _ => Value.none) s = .next (s.after j v) →
      0x1000000 ≤ j.range.toNat := by
    intro h
    obtain ⟨u, hu, -⟩ := Res.map_eq_ok.1 ((onCurrent_after hi).1 h)
    rw [(rcInit_ok hu).1]
    decide
  refine ⟨init, init, fun hrange hprobs => ⟨fun c h => ?_, fun n h => ?_⟩⟩
  · obtain ⟨-, hdec⟩ := (onCounters_after hi).1 h
    obtain ⟨b, hb, -⟩ := Res.map_eq_ok.1 hdec
    exact decision_range (q := .adaptive c) hrange (fun d _ => probsIn_prob hprobs d) hb
  · obtain ⟨x, hx, -⟩ := Res.map_eq_ok.1 ((onCurrent_after hi).1 h)
    exact runDec_range (directDec_asksOnly n _) hprobs hrange hx

end Sys2Proof.Machine
end

section
/-! SUPPORT. The host commands: reset, CREATE, DESTROY, RESET and DECOMPRESS on a live handle, and what is refused. -/

namespace Sys2Proof.Machine

/-- Settles O10: the table of instances is empty. -/
theorem resetIsLegalAndEmpty : Obligations.ResetIsLegalAndEmpty := by
  obtain ⟨hhdr, hrising⟩ := reset_wf
  exact ⟨fun _ => rfl, hrising, fun e he => absurd he List.not_mem_nil, hhdr⟩

/-! ## CREATE -/

theorem allocAnswer_cons {s : State} {b : Bool} {more : List Bool} (h : s.allocIn = b :: more) :
    s.allocAnswer = b ∧ s.allocDrawn = { s with allocIn := more } := by
  simp [State.allocAnswer, State.allocDrawn, h]

theorem allocAnswer_nil {s : State} (h : s.allocIn = []) :
    s.allocAnswer = Config.allocOk s.draws ∧ s.allocDrawn = { s with draws := s.draws + 1 } := by
  simp [State.allocAnswer, State.allocDrawn, h]

theorem propertiesOk_of_legal {pol : DictMinPolicy} {lc lp pb : Nat} {d : Word} (hlc : lc ≤ 8) (hlp : lp ≤ 4)
    (hpb : pb ≤ 4) (hsum : lc + lp ≤ 8) (hdict : pol = .clamp ∨ 4096 ≤ d.toNat) :
    propertiesOk pol lc lp pb d = true := by
  simp only [propertiesOk, hlc, hlp, hpb, hsum, decide_true, Bool.and_self, Bool.true_and, Bool.or_eq_true,
    decide_eq_true_eq]
  exact hdict.imp (fun h => by rw [h]; rfl) id

/-- CREATE on legal properties builds when the environment allocates (R180). -/
theorem execCreate_built {s : State} {lc lp pb : Nat} {d : Word} (hok : propertiesOk s.params.dictMin lc lp pb d = true)
    (halloc : s.allocAnswer = true) : exec (.create lc lp pb d) s = .next (s.allocDrawn.built lc lp pb d) := by
  simp only [exec, execCreate, hok, halloc, if_true]

theorem freshInst_dictEff (lc lp pb : Nat) (d : Word) (n : Nat) :
    (freshInst lc lp pb d n).dictEff = if d.toNat < 4096 then 4096 else d.toNat := by
  simp only [Inst.dictEff, freshInst, Config.dictMin]
  split <;> omega

/-- Settles O54: on legal properties the answer of `ALLOC_OK` decides, and what is built is `freshInst`. -/
theorem createCompletes : Obligations.CreateCompletes := by
  refine ⟨fun s b more => ⟨allocAnswer_cons, allocAnswer_nil⟩, fun s lc lp pb d hlc hlp hpb hsum hdict halloc => ?_⟩
  have hexec := execCreate_built (propertiesOk_of_legal hlc hlp hpb hsum hdict) halloc
  refine ⟨_, freshInst lc lp pb d s.allocDrawn.draws, hexec, ?_⟩
  simp only [State.built_ret, State.built_createStatus, State.built_nextHandle, State.built_cur, State.built_allocIn,
    State.built_draws, State.built_insts, State.allocDrawn_insts, State.allocDrawn_nextHandle, Table.get_set_same,
    true_and]
  refine ⟨fun n hn => Table.get_set_other _ _ hn, rfl, rfl, ?_, ?_, ?_, rfl, freshInst_dictEff lc lp pb d _,
    fun c => rfl, rfl, rfl, rfl, rfl, rfl, rfl, rfl, rfl⟩
  all_goals
    simp only [freshInst, BitVec.toNat_ofNat]
    omega

/-! ## A command on a handle -/

theorem onHandle_live {s : State} {n : Nat} {i : Inst} {f : Nat → Inst → Host.Outcome State Fault Refusal}
    (hi : Table.get s.insts n = some i) (hb : i.busy = false) : onHandle (some n) s f = f n i := by
  simp [onHandle, hi, hb]

theorem onHandle_dead {s : State} {n : Nat} {f : Nat → Inst → Host.Outcome State Fault Refusal}
    (hi : Table.get s.insts n = none) : onHandle (some n) s f = .refused (.deadHandle n) := by
  simp only [onHandle, hi]

theorem onHandle_busy {s : State} {n : Nat} {i : Inst} {f : Nat → Inst → Host.Outcome State Fault Refusal}
    (hi : Table.get s.insts n = some i) (hb : i.busy = true) : onHandle (some n) s f = .refused (.instanceBusy n) := by
  simp only [onHandle, hi, hb, if_true]

theorem exec_destroy_some (n : Nat) (s : State) : exec (.destroy (some n)) s =
    onHandle (some n) s fun n _ => .next { s with insts := Table.erase s.insts n, ret := .none } := by
  simp only [exec, execDestroy]

theorem exec_reset (hd : Handle) (s : State) : exec (.reset hd) s =
    onHandle hd s fun n i => .next { s with insts := Table.set s.insts n (resetInst i), cur := n, ret := .none } := rfl

theorem exec_decompress (hd : Handle) (src : List Byte) (cap : Nat) (s : State) : exec (.decompress hd src cap) s =
    onHandle hd s fun n i =>
      if fitsUsize s.params src.length && fitsUsize s.params cap then
        .next (decompressed n { s with cur := n, draws := s.draws + 1 }
          (decompressInst s.params.initByte0 src cap s.draws i))
      else .refused .operandTooWide := rfl

theorem exec_reset_live {s : State} {n : Nat} {i : Inst} (hi : Table.get s.insts n = some i) (hb : i.busy = false) :
    exec (.reset (some n)) s =
      .next { s with insts := Table.set s.insts n (resetInst i), cur := n, ret := .none } :=
  (exec_reset (some n) s).trans (onHandle_live hi hb)

theorem resetInst_atReset (i : Inst) : (resetInst i).atReset = true := decide_eq_true rfl

/-- Settles O56: both commands act on the table at their handle; `resetInst` is idempotent. -/
theorem destroyAndReset : Obligations.DestroyAndReset := by
  refine fun s n i => ⟨rfl, fun hi hb => ⟨?_, ?_⟩⟩
  · refine ⟨_, (exec_destroy_some n s).trans (onHandle_live hi hb), ?_, rfl, fun m hm => Table.get_erase_other _ hm⟩
    simp only [State.phase, Table.get_erase_same]
  · refine ⟨_, resetInst i, exec_reset_live hi hb, ?_, rfl, fun c => rfl, resetInst_atReset i, rfl⟩
    rw [exec_reset_live (i := resetInst i) (Table.get_set_same _ _ _) hb]
    simp only [Table.set_set]
    rfl

/-! ## Refusals -/

theorem exec_noInstance {row : Instr} {s : State} (hs : s.current = none) (hrow : Instr.ofHost row = false) :
    exec row s = .refused .noInstance := by
  rcases exec_frames row s with h | ⟨f, hf⟩ | ⟨ok, f, hf⟩ | ⟨f, hf⟩
  · rw [hrow] at h; cases h
  · exact hf.trans (onCurrent_none hs)
  · simp only [State.current] at hs
    rw [hf]
    simp only [onCounters, hs]
  · exact hf.trans (onReset_none hs)

theorem step_refused_of_fetchWord {s t : State} {r : Request} (hf : fetch s = fetchWord r t) :
    (∀ e, decode r = .bad e → step s = .refused (.undecodable e)) ∧
      ∀ i, decode r = .instr i → i.wellFormed = false → step s = .refused .illFormed := by
  refine ⟨fun e he => ?_, fun i hi hw => ?_⟩
  · simp only [step, hf, fetchWord, he]
  · simp only [step, hf, fetchWord, hi, hw, Bool.false_eq_true, if_false]

theorem decompress_tooWide {s : State} {n : Nat} {i : Inst} {src : List Byte} {cap : Nat}
    (hi : Table.get s.insts n = some i) (hb : i.busy = false)
    (hwide : fitsUsize s.params src.length = false ∨ fitsUsize s.params cap = false) :
    exec (.decompress (some n) src cap) s = .refused .operandTooWide := by
  rw [exec_decompress, onHandle_live hi hb, if_neg]
  rcases hwide with h | h <;> simp [h]

/-- Settles O57: each refusal is that of the frame the instruction executes in, or of the word the step fetches. -/
theorem handleRefusals : Obligations.HandleRefusals := by
  intro s n i src cap row
  refine ⟨rfl, rfl, fun hi => ?_, fun hi hb => ?_, decompress_tooWide, exec_noInstance,
    fun hrun hrows r rest hport => ?_, fun hrun w more e hrows => ?_⟩
  · exact ⟨(exec_destroy_some n s).trans (onHandle_dead hi), (exec_reset _ s).trans (onHandle_dead hi),
      (exec_decompress _ src cap s).trans (onHandle_dead hi)⟩
  · exact ⟨(exec_destroy_some n s).trans (onHandle_busy hi hb), (exec_reset _ s).trans (onHandle_busy hi hb),
      (exec_decompress _ src cap s).trans (onHandle_busy hi hb)⟩
  · have hf : fetch s = fetchWord r.word { s with port := rest } := by
      rw [fetch_noRun hrun, fetchIdle_of_noRows hrows, fetchRequest_of_request hport]
    exact ⟨(step_refused_of_fetchWord hf).1, (step_refused_of_fetchWord hf).2 row⟩
  · have hf : fetch s = fetchWord w.word { s with rows := more } := by
      rw [fetch_noRun hrun, fetchIdle_of_row hrows]
    exact (step_refused_of_fetchWord hf).1 e

/-! ## DECOMPRESS -/

theorem decompress_live {s : State} {n : Nat} {i : Inst} {src : List Byte} {cap : Nat}
    (hi : Table.get s.insts n = some i) (hb : i.busy = false) (hsrc : fitsUsize s.params src.length = true)
    (hcap : fitsUsize s.params cap = true) :
    exec (.decompress (some n) src cap) s = .next (decompressed n { s with cur := n, draws := s.draws + 1 }
      (decompressInst s.params.initByte0 src cap s.draws i)) := by
  rw [exec_decompress, onHandle_live hi hb, if_pos]
  rw [hsrc, hcap]
  rfl

/-- The state in which a DECOMPRESS on handle `n` has raised `e`, having got as far as `j` (R190, R205). -/
theorem decompressed_raised (n : Nat) (s : State) (e : Err) (j : Inst) :
    decompressed n { s with cur := n, draws := s.draws + 1 } (.raised e j) =
      { s with
        insts := Table.set s.insts n { j with busy := false, status := .error e, out := [], epoch := s.draws + 1 }
        cur := n
        ret := .error e
        draws := s.draws + 2 } :=
  takeException_putInst e n { s with cur := n, draws := s.draws + 1 } j

theorem sizeCheck_pass {i : Inst} (hip : i.ip = i.srcLen) (hop : i.op = i.destCapacity) :
    sizeCheck i = .ok i.op { i with busy := false, status := .ok } := by
  simp [sizeCheck, hip, hop]

theorem sizeCheck_fail {i : Inst} (h : i.ip ≠ i.srcLen ∨ i.op ≠ i.destCapacity) :
    sizeCheck i = .raised .formatMismatch i := if_pos h

/-- A stream too short for the bytes asked of it runs out (R91). -/
theorem loadCode_exhausted {n : Nat} {i : Inst} (hip : i.ip ≤ i.srcLen) (h : i.srcLen < i.ip + n) :
    ∃ j, loadCode n i = .raised .inputExhausted j := by
  induction n generalizing i with
  | zero => omega
  | succ n ih =>
    by_cases hmore : i.ip < i.srcLen
    · rw [loadCode_step hmore]
      exact ih (by exact hmore) (by simp only; omega)
    · rw [loadCode, nextByte_raised (by omega)]
      exact ⟨i, rfl⟩

theorem runInst_exhausted (pol : InitByte0Policy) {i : Inst} (hip : i.ip ≤ i.srcLen) (h : i.srcLen < i.ip + 5) :
    ∃ j, runInst pol i = .raised .inputExhausted j := by
  obtain ⟨j, hj⟩ := loadCode_exhausted (i := { i with range := 0xFFFFFFFF, code := 0 }) hip h
  exact ⟨j, by simp only [runInst, rcInit, hj, Res.bind_raised]⟩

theorem begun_start (i : Inst) (src : List Byte) (cap n : Nat) :
    (i.begun src cap n).busy = true ∧ (i.begun src cap n).atReset = true ∧ (i.begun src cap n).srcLen = src.length ∧
      (i.begun src cap n).destCapacity = cap ∧ (∀ a, Memory.read (i.begun src cap n).src a = src[a]?) ∧
      (∀ a, Memory.read (i.begun src cap n).out a = none) ∧ sameProps i (i.begun src cap n) ∧
      (i.begun src cap n).status = i.status :=
  ⟨rfl, resetInst_atReset _, rfl, rfl, Memory.read_ofBytes src, fun _ => rfl, ⟨rfl, rfl, rfl, rfl⟩, rfl⟩

/-- Settles O58: the result of RUN from the start goes through the exact-size check; the latched operands are
those of the call, which no run changes. -/
theorem decompressCompletes : Obligations.DecompressCompletes := by
  intro s n i j src cap hi hb hsrc hcap
  have hexec := decompress_live hi hb hsrc hcap
  refine ⟨begun_start i src cap s.draws, fun hrun => ?_, fun e hrun => ?_, fun hshort => ?_⟩
  · obtain ⟨-, ⟨-, hlen, hdest, -, -⟩, -⟩ := Appends.runInst s.params.initByte0 (i.begun src cap s.draws)
    rw [hrun] at hlen hdest
    rw [hexec, decompressInst, hrun, Res.bind_ok]
    refine ⟨fun hip hop => ?_, fun h => ?_⟩
    · rw [sizeCheck_pass (hip.trans hlen.symm) (hop.trans hdest.symm), ← hop]
      rfl
    · rw [sizeCheck_fail (h.imp (fun hne e => hne (e.trans hlen)) fun hne e => hne (e.trans hdest)), decompressed_raised]
  · rw [hexec, decompressInst, hrun, Res.bind_raised, decompressed_raised]
  · obtain ⟨k, hk⟩ := runInst_exhausted s.params.initByte0 (i := i.begun src cap s.draws) (Nat.zero_le _)
      (by simpa using hshort)
    rw [hexec, decompressInst, hk, Res.bind_raised, decompressed_raised]
    exact ⟨_, _, rfl, rfl, Table.get_set_same _ _ _, rfl, rfl⟩

end Sys2Proof.Machine
end

section
/-! SUPPORT. Bit order and the header: what the walks of a tree, of direct decisions and of a reverse tree read from the
bits of a number, and what a header's five bytes say. -/

namespace Sys2Proof.Machine

/-! ## Reading a program that goes on -/

/-- A program that goes on after `d` reads on from where `d` ends. -/
theorem Dec.read_bind {α β : Type} {d : Dec α} {ds rest : List Bool} {a : α} (h : d.read ds = some (a, rest))
    (f : α → Dec β) : (d.bind f).read ds = (f a).read rest := by
  induction d generalizing ds with
  | done b => cases h; rfl
  | ask q k ih =>
    cases ds with
    | nil => cases h
    | cons b ds => exact ih b h

theorem Dec.read_map {α β : Type} {d : Dec α} {ds rest : List Bool} {a : α} (h : d.read ds = some (a, rest))
    (f : α → β) : (d.map f).read ds = some (f a, rest) := Dec.read_bind h _

/-! ## Bit orders (R43, R94, R95, R96) -/

/-- A walk that takes the top bit of `v` first: the value so far moves up to make room for the low `n` bits. -/
theorem msb_step (m n v : Nat) :
    (2 * m + (v.testBit n).toNat) * 2 ^ n + v % 2 ^ n = m * 2 ^ (n + 1) + v % 2 ^ (n + 1) := by
  rw [Nat.mod_pow_succ, Nat.toNat_testBit, Nat.pow_succ]
  ring

/-- A walk that takes the bottom bit of `v` first: the bits above it have twice the weight. -/
theorem lsb_step (w n v : Nat) :
    (v.testBit 0).toNat * w + 2 * w * (v / 2 % 2 ^ n) = w * (v % 2 ^ (n + 1)) := by
  rw [Nat.pow_succ', Nat.mod_mul, Nat.toNat_testBit, pow_zero, Nat.div_one]
  ring

theorem treeWalk_read (t : Tree) (n m v : Nat) (rest : List Bool) :
    (treeWalk t n m).read (bitsMsb n v ++ rest) = some (m * 2 ^ n + v % 2 ^ n, rest) := by
  induction n generalizing m with
  | zero => simp [treeWalk, bitsMsb, Dec.read, Nat.mod_one]
  | succ n ih => rw [← msb_step]; exact ih _

theorem directWalk_read (n m v : Nat) (rest : List Bool) :
    (directWalk n m).read (bitsMsb n v ++ rest) = some (m * 2 ^ n + v % 2 ^ n, rest) := by
  induction n generalizing m with
  | zero => simp [directWalk, bitsMsb, Dec.read, Nat.mod_one]
  | succ n ih => rw [← msb_step]; exact ih _

theorem reverseWalk_read (t : Tree) (base n m w x v : Nat) (rest : List Bool) :
    (reverseWalk t base n m w x).read (bitsLsb n v ++ rest) = some (x + w * (v % 2 ^ n), rest) := by
  induction n generalizing m w x v with
  | zero => simp [reverseWalk, bitsLsb, Dec.read, Nat.mod_one]
  | succ n ih => rw [← lsb_step, ← Nat.add_assoc]; exact ih _ _ _ _

theorem treeDec_read (t : Tree) {n v : Nat} (h : v < 2 ^ n) (rest : List Bool) :
    (treeDec t n).read (bitsMsb n v ++ rest) = some (v, rest) := by
  have hw := treeWalk_read t n 1 v rest
  rw [Nat.mod_eq_of_lt h, Nat.one_mul] at hw
  rw [treeDec, Dec.read_map hw, Nat.add_sub_cancel_left]

theorem directDec_read {n v : Nat} (h : v < 2 ^ n) (rest : List Bool) :
    (directDec n).read (bitsMsb n v ++ rest) = some (v, rest) := by
  rw [directDec, directWalk_read, Nat.mod_eq_of_lt h, Nat.zero_mul, Nat.zero_add]

theorem reverseDec_read (t : Tree) (base : Nat) {n v : Nat} (h : v < 2 ^ n) (rest : List Bool) :
    (reverseDec t base n).read (bitsLsb n v ++ rest) = some (v, rest) := by
  rw [reverseDec, reverseWalk_read, Nat.mod_eq_of_lt h, Nat.one_mul, Nat.zero_add]

/-- Settles O6: each walk reads the low `n` bits of `v`, by induction on `n`, and `v` has no others. -/
theorem bitOrders : Obligations.BitOrders := fun t base _ _ rest h =>
  ⟨treeDec_read t h rest, directDec_read h rest, reverseDec_read t base h rest⟩

/-! ## The header (R41, R61, R62) -/

/-- A byte put above the `k` bits of a number. -/
theorem or_shiftLeft_toNat {x : Word} {b : Byte} {k : Nat} (hk : k + 8 ≤ 32) (hx : x.toNat < 2 ^ k) :
    (x ||| b.setWidth 32 <<< k).toNat = x.toNat + b.toNat * 2 ^ k := by
  have hb : b.toNat * 2 ^ k < 2 ^ 32 :=
    calc b.toNat * 2 ^ k < 2 ^ 8 * 2 ^ k := Nat.mul_lt_mul_of_pos_right b.isLt (Nat.two_pow_pos k)
      _ = 2 ^ (k + 8) := by rw [← Nat.pow_add, Nat.add_comm]
      _ ≤ 2 ^ 32 := Nat.pow_le_pow_right (by omega) hk
  have hw : b.toNat % 2 ^ 32 = b.toNat := Nat.mod_eq_of_lt (by omega)
  rw [BitVec.toNat_or, BitVec.toNat_shiftLeft, BitVec.toNat_setWidth, hw, Nat.shiftLeft_eq, Nat.mod_eq_of_lt hb,
    Nat.mul_comm, Nat.or_comm, ← Nat.two_pow_add_eq_or_of_lt hx, Nat.add_comm]

/-- The four bytes as a number, the first the least (R41). -/
theorem le32_toNat (b1 b2 b3 b4 : Byte) :
    (le32 b1 b2 b3 b4).toNat = b1.toNat + b2.toNat * 256 + b3.toNat * 65536 + b4.toNat * 16777216 := by
  have h1 : (b1.setWidth 32).toNat = b1.toNat := by rw [BitVec.toNat_setWidth]; omega
  have h2 := or_shiftLeft_toNat (x := b1.setWidth 32) (b := b2) (k := 8) (by omega) (by omega)
  have h3 := or_shiftLeft_toNat (b := b3) (k := 16) (by omega) (lt_of_eq_of_lt h2 (by omega))
  have h4 := or_shiftLeft_toNat (b := b4) (k := 24) (by omega) (lt_of_eq_of_lt h3 (by omega))
  rw [le32, h4, h3, h2, h1]
  rfl

/-- The bytes of a word, least first, are the word again. -/
theorem le32_bytes (d : Word) :
    le32 (d.setWidth 8) ((d >>> 8).setWidth 8) ((d >>> 16).setWidth 8) ((d >>> 24).setWidth 8) = d := by
  apply BitVec.eq_of_toNat_eq
  simp only [le32_toNat, BitVec.toNat_setWidth, BitVec.toNat_ushiftRight, Nat.shiftRight_eq_div_pow]
  omega

theorem parseHeader_of_lt {d : Byte} (h : d.toNat < 225) (b1 b2 b3 b4 : Byte) :
    parseHeader [d, b1, b2, b3, b4] =
      some { lc := d.toNat % 9, lp := d.toNat / 9 % 5, pb := d.toNat / 45, dictSize := le32 b1 b2 b3 b4 } :=
  if_neg (Nat.not_le.2 h)

theorem parseHeader_of_le {d : Byte} (h : 225 ≤ d.toNat) (b1 b2 b3 b4 : Byte) :
    parseHeader [d, b1, b2, b3, b4] = none := if_pos h

theorem parseHeader_short {bytes : List Byte} (h : bytes.length < 5) : parseHeader bytes = none := by
  unfold parseHeader
  split
  · simp only [List.length_cons] at h; omega
  · rfl

theorem parseHeader_headerOf {q : Properties} (hlc : q.lc ≤ 8) (hlp : q.lp ≤ 4) (hpb : q.pb ≤ 4) :
    parseHeader (headerOf q) = some q := by
  have hd : (BitVec.ofNat 8 ((q.pb * 5 + q.lp) * 9 + q.lc)).toNat = (q.pb * 5 + q.lp) * 9 + q.lc := by
    rw [BitVec.toNat_ofNat]; omega
  rw [headerOf, parseHeader_of_lt (by omega), hd, le32_bytes, show ((q.pb * 5 + q.lp) * 9 + q.lc) % 9 = q.lc by omega,
    show ((q.pb * 5 + q.lp) * 9 + q.lc) / 9 % 5 = q.lp by omega,
    show ((q.pb * 5 + q.lp) * 9 + q.lc) / 45 = q.pb by omega]

theorem exec_hdr_parsed {bytes : List Byte} {p : Properties} (h : parseHeader bytes = some p) (s : State) :
    exec (.hdr bytes) s = .next { s with hdr := Memory.ofBytes bytes, ret := .props p } := by
  simp only [exec, execHdr, h]

theorem exec_hdr_malformed {bytes : List Byte} (h : parseHeader bytes = none) (s : State) :
    exec (.hdr bytes) s =
      .next { s with
        hdr := Memory.ofBytes bytes, ret := .error .invalidProperties, createStatus := .error .invalidProperties } := by
  simp only [exec, execHdr, h, takeException]

/-- Settles O7: HDR follows the parse of its bytes, which the first byte and their number decide. -/
theorem headerRule : Obligations.HeaderRule := by
  intro s d b1 b2 b3 b4 short q
  refine ⟨fun h => ?_, fun h => ?_, fun h => ?_, parseHeader_headerOf⟩
  · exact ⟨_, exec_hdr_parsed (parseHeader_of_lt h b1 b2 b3 b4) s, rfl, rfl, rfl, le32_toNat b1 b2 b3 b4⟩
  · exact exec_hdr_malformed (parseHeader_of_le h b1 b2 b3 b4) s
  · exact exec_hdr_malformed (parseHeader_short h) s

end Sys2Proof.Machine
end

section
/-! SUPPORT. The cursors of a packet: how many bytes each part of it reads, and that from cursors within their buffers
it leaves them so, however it ends. -/

namespace Sys2Proof.Machine

/-- From `i` to `j` the stream cursor moved on by at most `n`, and cursors within their buffers stayed so (R13, R14). -/
def Advances (n : Nat) (i j : Inst) : Prop :=
  i.ip ≤ j.ip ∧ j.ip ≤ i.ip + n ∧ (i.cursorsLegal → j.cursorsLegal)

namespace Advances

theorem refl (i : Inst) : Advances 0 i i := ⟨le_refl _, le_refl _, id⟩

theorem mono {m n : Nat} {i j : Inst} (h : Advances m i j) (hle : m ≤ n) : Advances n i j :=
  ⟨h.1, h.2.1.trans (Nat.add_le_add_left hle _), h.2.2⟩

theorem trans {m n : Nat} {i j k : Inst} (h : Advances m i j) (h' : Advances n j k) : Advances (m + n) i k := by
  obtain ⟨a1, a2, a3⟩ := h
  obtain ⟨b1, b2, b3⟩ := h'
  exact ⟨a1.trans b1, by omega, b3 ∘ a3⟩

theorem bind {α β : Type} {m n : Nat} {i : Inst} {r : Res α} {f : α → Inst → Res β} (h : Advances m i r.inst)
    (hf : ∀ a j, r = .ok a j → Advances n j (f a j).inst) : Advances (m + n) i (r.bind f).inst := by
  cases r with
  | ok a j => exact h.trans (hf a j rfl)
  | raised e j => exact h.mono (Nat.le_add_right m n)

theorem map {α β : Type} {n : Nat} {i : Inst} {r : Res α} (f : α → β) (h : Advances n i r.inst) :
    Advances n i (r.map f).inst := by rwa [Res.inst_map]

/-- An update of registers that are no cursor moves none. -/
theorem of_update {n : Nat} {i j k : Inst} (hip : j.ip = i.ip) (hlen : j.srcLen = i.srcLen) (hop : j.op = i.op)
    (hcap : j.destCapacity = i.destCapacity) (h : Advances n j k) : Advances n i k := by
  simpa only [Advances, Inst.cursorsLegal, hip, hlen, hop, hcap] using h

theorem of_decodes {α : Type} {n : Nat} {i : Inst} {r : Res α} (h : Decodes n i r) : Advances n i r.inst := by
  have hs := h.same
  have hip : i.ip ≤ r.inst.ip ∧ r.inst.ip ≤ i.ip + n ∧ (i.ip ≤ i.srcLen → r.inst.ip ≤ i.srcLen) := by
    cases r with
    | ok a j => exact h.2
    | raised e j =>
      obtain ⟨-, h1, h2, -, -, h3⟩ := h
      exact ⟨h1, Nat.le_of_lt h2, fun hle => le_of_eq (h3 hle)⟩
  refine ⟨hip.1, hip.2.1, fun hc => ?_⟩
  rw [hs]
  exact ⟨hip.2.2 hc.1, hc.2⟩

theorem runDec {α : Type} {d : Dec α} {n : Nat} (h : Dec.within d n) (i : Inst) :
    Advances n i (Machine.runDec d i).inst := of_decodes (runDec_decodes h i)

/-- The window reads nothing and stays within `destCapacity`. -/
theorem of_windows {α : Type} {i : Inst} {r : Res α} (hs : sameButWindow i r.inst)
    (h : i.op ≤ i.destCapacity → Windows i r) : Advances 0 i r.inst := by
  have hip : r.inst.ip = i.ip := by rw [hs]
  refine ⟨le_of_eq hip.symm, le_of_eq hip, fun hc => ?_⟩
  obtain ⟨-, -, hop, -⟩ := h hc.2
  rw [hs]
  exact ⟨hc.1, hop⟩

theorem putByte (b : Byte) (i : Inst) : Advances 0 i (Machine.putByte b i).inst :=
  of_windows (putByte_sameButWindow b i) (putByte_windows b)

theorem copyMatch (d : Word) (n : Nat) (i : Inst) : Advances 0 i (Machine.copyMatch d n i).inst :=
  of_windows (copyMatch_sameButWindow d n i) (copyMatch_windows d n)

theorem getByte (d : Word) (i : Inst) : Advances 0 i (Machine.getByte d i).inst := by
  unfold Machine.getByte
  split <;> exact .refl i

/-! ## The packets -/

theorem litDecode (i : Inst) : Advances 8 i (Machine.litDecode i).inst := by
  unfold Machine.litDecode
  split
  · exact (getByte i.rep0 i).bind fun mb j _ => runDec (litDec_within j.litContext (.matched mb)) j
  · exact runDec (litDec_within i.litContext .plain) i

theorem litPacket (i : Inst) : Advances 8 i (Machine.litPacket i).inst :=
  (litDecode i).bind (n := 0) fun b j _ => (putByte b j).bind (n := 0) fun _ _ _ => of_update rfl rfl rfl rfl (.refl _)

theorem matchOrEos (i : Inst) : Advances 46 i (Machine.matchOrEos i).inst := by
  refine (runDec (matchOperandsDec_within i.posState) i).bind (n := 0) fun nd j _ => ?_
  split
  · exact of_update (j := endRun j) rfl rfl rfl rfl (.refl _)
  · exact of_update (j := { j.pushRep nd.2 with st := matchNext j.st }) rfl rfl rfl rfl ((copyMatch nd.2 nd.1 _).map _)

theorem shortRepPacket (i : Inst) : Advances 0 i (Machine.shortRepPacket i).inst :=
  of_update (j := { i with st := shortRepNext i.st }) rfl rfl rfl rfl (copyMatch i.rep0 1 _)

theorem longRepPacket (k : Fin 4) (i : Inst) : Advances 10 i (Machine.longRepPacket k i).inst := by
  refine of_update (j := i.rotateRep k) (by simp) (by simp) (by simp) (by simp) ?_
  exact (runDec (lenDec_within .forRep i.posState) _).bind (n := 0) fun n j _ =>
    of_update (j := { j with st := repNext i.st }) rfl rfl rfl rfl (copyMatch (i.repAt k) n _)

end Advances

/-- At most how many decisions follow the naming decisions of a packet (R72). -/
def operandBits : PacketKind → Nat
  | .lit => 8
  | .newMatch => 46
  | .shortRep => 0
  | .longRep _ => 10

/-- At most how many decisions name a packet (R65). -/
def nameBits : PacketKind → Nat
  | .newMatch => 2
  | _ => 5

/-- The two bounds together (R72). -/
theorem nameBits_add_operandBits (k : PacketKind) : nameBits k + operandBits k ≤ 48 := by
  cases k <;> simp [nameBits, operandBits]

theorem packetOf_advances (k : PacketKind) (i : Inst) : Advances (operandBits k) i (packetOf k i).inst := by
  cases k with
  | lit => exact (Advances.litPacket i).map _
  | newMatch => exact Advances.matchOrEos i
  | shortRep => exact (Advances.shortRepPacket i).map _
  | longRep k => exact (Advances.longRepPacket k i).map _

theorem nextKind_advances (i : Inst) : Advances 5 i (nextKind i).inst := Advances.runDec (kindDec_within _ _) i

/-- The names are a prefix code: MATCH, whose operands are the longest, has a name of two decisions (R65). -/
theorem nextKind_advances_ok {i j : Inst} {k : PacketKind} (h : nextKind i = .ok k j) : Advances (nameBits k) i j := by
  have hany : Advances 5 i j := by simpa only [h, Res.inst_ok] using nextKind_advances i
  cases k with
  | newMatch =>
    obtain ⟨ds, hread, hip⟩ := runDec_reads h
    obtain ⟨-, hword, -⟩ := kindDec_word hread
    rw [hword rfl] at hip
    exact ⟨hany.1, hip, hany.2.2⟩
  | lit | shortRep | longRep => exact hany

theorem decodePacket_advances (i : Inst) : Advances 48 i (decodePacket i).inst := by
  unfold decodePacket
  cases hk : nextKind i with
  | ok k j =>
    exact ((nextKind_advances_ok hk).trans (packetOf_advances k j)).mono (nameBits_add_operandBits k)
  | raised e j =>
    have h := (nextKind_advances i).mono (n := 48) (by omega)
    rwa [hk] at h

/-- Settles O49: the cursors by `decodePacket_advances`, the bytes of OUT by `Appends.decodePacket`. -/
theorem packetBounds : Obligations.PacketBounds := by
  intro i j hip hop hj
  obtain rfl := Res.leaves_iff.1 hj
  obtain ⟨hge, hle, hlegal⟩ := decodePacket_advances i
  obtain ⟨⟨-, hlen, hcap, -⟩, hopge, hople, hout⟩ := Appends.decodePacket i
  obtain ⟨hsrc, hdest⟩ := hlegal ⟨hip, hop⟩
  rw [hlen] at hsrc
  rw [hcap] at hdest
  exact ⟨hge, hle, hsrc, hopge, hople, hdest, fun a ha => hout a (ha.imp_right .inr)⟩

end Sys2Proof.Machine
end

section
/-! SUPPORT. Words of decisions: which words a decision program reads whole, that these are the spellings of
30_encoding.md, and that the word of an instruction decodes to it. -/

namespace Sys2Proof.Machine

/-! ## The words of a program -/

/-- The program reads the whole word and answers `a`. -/
def Dec.spells {α : Type} (d : Dec α) (w : List Bool) (a : α) : Prop := d.read w = some (a, [])

theorem Dec.spells_done {α : Type} {a b : α} {w : List Bool} : Dec.spells (.done a) w b ↔ w = [] ∧ b = a := by
  simp [Dec.spells, Dec.read, and_comm, eq_comm]

theorem Dec.spells_ask {α : Type} {q : Query} {k : Bool → Dec α} {w : List Bool} {a : α} :
    Dec.spells (.ask q k) w a ↔ ∃ b v, w = b :: v ∧ Dec.spells (k b) v a := by
  cases w <;> simp [Dec.spells, Dec.read]

/-- What a program reads is one of its words, and it leaves what follows the word. -/
theorem Dec.read_iff {α : Type} {d : Dec α} {ds rest : List Bool} {a : α} :
    d.read ds = some (a, rest) ↔ ∃ w, ds = w ++ rest ∧ Dec.spells d w a := by
  induction d generalizing ds with
  | done b => simp [Dec.spells_done, Dec.read, and_comm, eq_comm]
  | ask q k ih =>
    cases ds with
    | nil => simp [Dec.spells_ask, Dec.read]
    | cons b ds =>
      rw [Dec.read, ih]
      constructor
      · rintro ⟨w, rfl, hw⟩
        exact ⟨b :: w, rfl, Dec.spells_ask.2 ⟨b, w, rfl, hw⟩⟩
      · rintro ⟨w, hds, hw⟩
        obtain ⟨c, v, rfl, hv⟩ := Dec.spells_ask.1 hw
        cases hds
        exact ⟨v, rfl, hv⟩

theorem Dec.spells_bind {α β : Type} {d : Dec α} {f : α → Dec β} {w : List Bool} {b : β} :
    Dec.spells (d.bind f) w b ↔ ∃ a u v, w = u ++ v ∧ Dec.spells d u a ∧ Dec.spells (f a) v b := by
  induction d generalizing w with
  | done a => simp [Dec.bind, Dec.spells_done]
  | ask q k ih =>
    simp only [Dec.bind, Dec.spells_ask, ih]
    constructor
    · rintro ⟨c, -, rfl, a, u, v, rfl, hu, hv⟩
      exact ⟨a, c :: u, v, rfl, ⟨c, u, rfl, hu⟩, hv⟩
    · rintro ⟨a, -, v, rfl, ⟨c, u, rfl, hu⟩, hv⟩
      exact ⟨c, u ++ v, rfl, a, u, v, rfl, hu, hv⟩

theorem Dec.spells_map {α β : Type} {d : Dec α} {f : α → β} {w : List Bool} {b : β} :
    Dec.spells (d.map f) w b ↔ ∃ a, Dec.spells d w a ∧ b = f a := by
  simp only [Dec.map, Dec.spells_bind, Dec.spells_done]
  constructor
  · rintro ⟨a, u, -, rfl, hu, rfl, hb⟩
    exact ⟨a, by rwa [List.append_nil], hb⟩
  · rintro ⟨a, hu, hb⟩
    exact ⟨a, w, [], (List.append_nil w).symm, hu, rfl, hb⟩

theorem Dec.spells_of_read {α : Type} {d : Dec α} {w : List Bool} {a : α}
    (h : ∀ rest, d.read (w ++ rest) = some (a, rest)) : Dec.spells d w a := by
  have hw := h []
  rwa [List.append_nil] at hw

/-- Numbers counted from `base` up: the words are those of the number without it. -/
theorem Dec.spells_offset {d : Dec Nat} {n : Nat} {bits : Nat → List Bool}
    (hd : ∀ w x, Dec.spells d w x ↔ x < 2 ^ n ∧ w = bits x) (base : Nat) {w : List Bool} {x : Nat} :
    Dec.spells (d.map (base + ·)) w x ↔ (base ≤ x ∧ x < base + 2 ^ n) ∧ w = bits (x - base) := by
  simp only [Dec.spells_map, hd]
  constructor
  · rintro ⟨v, ⟨hv, rfl⟩, rfl⟩
    exact ⟨by omega, by rw [Nat.add_sub_cancel_left]⟩
  · rintro ⟨hx, rfl⟩
    exact ⟨x - base, ⟨by omega, rfl⟩, by omega⟩

/-- One `DecodeBit`, then the program its decision chooses. -/
theorem bitDec_bind_spells {α : Type} {c : Counter} {f : Bool → Dec α} {w : List Bool} {a : α} :
    Dec.spells ((bitDec c).bind f) w a ↔ ∃ b v, w = b :: v ∧ Dec.spells (f b) v a := Dec.spells_ask

/-- A word is no longer than the decisions its program may ask. -/
theorem Dec.spells_length {α : Type} {d : Dec α} {n : Nat} (h : Dec.within d n) {w : List Bool} {a : α}
    (hw : Dec.spells d w a) : w.length ≤ n := by
  induction d generalizing n w with
  | done b => simp [(Dec.spells_done.1 hw).1]
  | ask q k ih =>
    obtain ⟨b, v, rfl, hv⟩ := Dec.spells_ask.1 hw
    cases n with
    | zero => exact h.elim
    | succ n => exact Nat.succ_le_succ (ih b (h b) hv)

/-- As many decisions as a program may ask are enough for it. -/
theorem Dec.read_of_within {α : Type} {d : Dec α} {n : Nat} (h : Dec.within d n) {ds : List Bool}
    (hds : n ≤ ds.length) : ∃ a rest, d.read ds = some (a, rest) := by
  induction d generalizing n ds with
  | done a => exact ⟨a, ds, rfl⟩
  | ask q k ih =>
    cases n with
    | zero => exact h.elim
    | succ n =>
      cases ds with
      | nil => simp at hds
      | cons b ds => exact ih b (h b) (Nat.le_of_succ_le_succ hds)

/-! ## Bit orders (R43) -/

@[simp] theorem bitsMsb_length (n v : Nat) : (bitsMsb n v).length = n := by
  induction n with
  | zero => rfl
  | succ n ih => rw [bitsMsb, List.length_cons, ih]

theorem bitsMsb_mod {j n : Nat} (h : j ≤ n) (v : Nat) : bitsMsb j (v % 2 ^ n) = bitsMsb j v := by
  induction j with
  | zero => rfl
  | succ j ih => simp [bitsMsb, Nat.testBit_mod_two_pow, ih (by omega), show j < n by omega]

/-- Every word is the bits of a number, most significant first. -/
theorem exists_bitsMsb (w : List Bool) : ∃ v, v < 2 ^ w.length ∧ w = bitsMsb w.length v := by
  induction w with
  | nil => exact ⟨0, by simp, rfl⟩
  | cons b w ih =>
    obtain ⟨v, hv, hw⟩ := ih
    have htop : 2 ^ w.length * b.toNat ≤ 2 ^ w.length * 1 := Nat.mul_le_mul_left _ (Bool.toNat_le b)
    have hlow : (2 ^ w.length * b.toNat + v) % 2 ^ w.length = v := by rw [Nat.mul_add_mod, Nat.mod_eq_of_lt hv]
    have hbit : (2 ^ w.length * b.toNat + v).testBit w.length = b := by
      rw [Nat.testBit_two_pow_mul_add _ hv]
      cases b <;> simp
    refine ⟨2 ^ w.length * b.toNat + v, ?_, ?_⟩
    · rw [List.length_cons, Nat.pow_succ]
      omega
    · rw [List.length_cons, bitsMsb, hbit, ← bitsMsb_mod (le_refl _), hlow, ← hw]

/-- Every word is the bits of a number, least significant first. -/
theorem exists_bitsLsb (w : List Bool) : ∃ v, v < 2 ^ w.length ∧ w = bitsLsb w.length v := by
  induction w with
  | nil => exact ⟨0, by simp, rfl⟩
  | cons b w ih =>
    obtain ⟨v, hv, hw⟩ := ih
    have hb := Bool.toNat_le b
    have hbit : (2 * v + b.toNat).testBit 0 = b := by cases b <;> simp [Nat.testBit_zero]
    refine ⟨2 * v + b.toNat, ?_, ?_⟩
    · rw [List.length_cons, Nat.pow_succ]
      omega
    · rw [List.length_cons, bitsLsb, hbit, show (2 * v + b.toNat) / 2 = v by omega, ← hw]

/-- A program of at most `n` decisions that reads the `n` bits of every number has no other words: a shorter one would
be the start of one of these. -/
theorem spells_bits {α : Type} {d : Dec α} {n : Nat} {bits : Nat → List Bool} {f : Nat → α} (hd : Dec.within d n)
    (hall : ∀ w : List Bool, w.length = n → ∃ v, v < 2 ^ n ∧ w = bits v)
    (hread : ∀ v, v < 2 ^ n → Dec.spells d (bits v) (f v)) {w : List Bool} {a : α} :
    Dec.spells d w a ↔ ∃ v, v < 2 ^ n ∧ w = bits v ∧ a = f v := by
  constructor
  · intro hw
    have hlen := Dec.spells_length hd hw
    obtain ⟨v, hv, hpad⟩ := hall (w ++ List.replicate (n - w.length) false) (by simp; omega)
    have hlong := Dec.read_iff.2 ⟨w, rfl (a := w ++ List.replicate (n - w.length) false), hw⟩
    rw [hpad, show d.read (bits v) = some (f v, []) from hread v hv] at hlong
    obtain ⟨rfl, hrest⟩ := Prod.mk.inj (Option.some.inj hlong)
    exact ⟨v, hv, by rwa [← hrest, List.append_nil] at hpad, rfl⟩
  · rintro ⟨v, hv, rfl, rfl⟩
    exact hread v hv

theorem exists_bitsMsb_of_length {n : Nat} {w : List Bool} (h : w.length = n) : ∃ v, v < 2 ^ n ∧ w = bitsMsb n v :=
  h ▸ exists_bitsMsb w

theorem exists_bitsLsb_of_length {n : Nat} {w : List Bool} (h : w.length = n) : ∃ v, v < 2 ^ n ∧ w = bitsLsb n v :=
  h ▸ exists_bitsLsb w

/-- The same of a program that answers the number itself. -/
theorem spells_number {d : Dec Nat} {n : Nat} {bits : Nat → List Bool} (hd : Dec.within d n)
    (hall : ∀ w : List Bool, w.length = n → ∃ v, v < 2 ^ n ∧ w = bits v)
    (hread : ∀ v, v < 2 ^ n → Dec.spells d (bits v) v) {w : List Bool} {x : Nat} :
    Dec.spells d w x ↔ x < 2 ^ n ∧ w = bits x := by
  rw [spells_bits (f := id) hd hall hread]
  simp

theorem treeDec_spells {t : Tree} {n x : Nat} {w : List Bool} :
    Dec.spells (treeDec t n) w x ↔ x < 2 ^ n ∧ w = bitsMsb n x :=
  spells_number (treeDec_within t n) (fun _ => exists_bitsMsb_of_length) fun _ hv =>
    Dec.spells_of_read (treeDec_read t hv)

theorem directDec_spells {n x : Nat} {w : List Bool} :
    Dec.spells (directDec n) w x ↔ x < 2 ^ n ∧ w = bitsMsb n x :=
  spells_number (directDec_within n) (fun _ => exists_bitsMsb_of_length) fun _ hv =>
    Dec.spells_of_read (directDec_read hv)

theorem reverseDec_spells {t : Tree} {base n x : Nat} {w : List Bool} :
    Dec.spells (reverseDec t base n) w x ↔ x < 2 ^ n ∧ w = bitsLsb n x :=
  spells_number (reverseDec_within t base n) (fun _ => exists_bitsLsb_of_length) fun _ hv =>
    Dec.spells_of_read (reverseDec_read t base hv)

/-! ## Literals (R66) -/

/-- A matched literal has the decisions of a plain one: the match byte chooses only the counters they ask (R113). -/
theorem matchedWalk_read (ctx : Fin 256) (n m mb v : Nat) (rest : List Bool) :
    (matchedWalk ctx n m mb).read (bitsMsb n v ++ rest) = some (m * 2 ^ n + v % 2 ^ n, rest) := by
  induction n generalizing m mb with
  | zero => simp [matchedWalk, bitsMsb, Dec.read, Nat.mod_one]
  | succ n ih =>
    rw [← msb_step]
    simp only [matchedWalk, bitsMsb, List.cons_append, Dec.read]
    split
    · exact ih _ _
    · exact treeWalk_read _ _ _ _ _

theorem litDec_spells_bits (ctx : Fin 256) (mode : LitMode) (b : Byte) :
    Dec.spells (litDec ctx mode) (bitsMsb 8 b.toNat) b := by
  cases mode with
  | plain => exact Dec.spells_map.2 ⟨b.toNat, treeDec_spells.2 ⟨b.isLt, rfl⟩, by simp⟩
  | matched mb =>
    have hb : BitVec.ofNat 8 (2 ^ 8 + b.toNat) = b := by
      apply BitVec.eq_of_toNat_eq
      rw [BitVec.toNat_ofNat]
      omega
    have h := matchedWalk_read ctx 8 1 mb.toNat b.toNat []
    rw [List.append_nil, Nat.mod_eq_of_lt b.isLt, Nat.one_mul] at h
    exact Dec.spells_map.2 ⟨_, h, hb.symm⟩

theorem litDec_spells {ctx : Fin 256} {mode : LitMode} {w : List Bool} {b : Byte} :
    Dec.spells (litDec ctx mode) w b ↔ w = bitsMsb 8 b.toNat := by
  rw [spells_bits (f := BitVec.ofNat 8) (litDec_within ctx mode) (fun _ => exists_bitsMsb_of_length) fun v hv => by
    have h := litDec_spells_bits ctx mode (BitVec.ofNat 8 v)
    rwa [BitVec.toNat_ofNat, Nat.mod_eq_of_lt hv] at h]
  constructor
  · rintro ⟨v, hv, rfl, rfl⟩
    rw [BitVec.toNat_ofNat, Nat.mod_eq_of_lt hv]
  · intro hw
    exact ⟨b.toNat, b.isLt, hw, by simp⟩

/-! ## Lengths (R67) -/

theorem lengthOk_iff {n : Nat} : lengthOk n = true ↔ 2 ≤ n ∧ n ≤ 273 := by simp [lengthOk]

theorem lowDec_spells {c : Coder} {ps : PosState} {w : List Bool} {n : Nat} :
    Dec.spells (lowDec c ps) w n ↔ (2 ≤ n ∧ n < 10) ∧ w = bitsMsb 3 (n - 2) :=
  Dec.spells_offset (fun _ _ => treeDec_spells) 2

theorem midDec_spells {c : Coder} {ps : PosState} {w : List Bool} {n : Nat} :
    Dec.spells (midDec c ps) w n ↔ (10 ≤ n ∧ n < 18) ∧ w = bitsMsb 3 (n - 10) :=
  Dec.spells_offset (fun _ _ => treeDec_spells) 10

theorem highDec_spells {c : Coder} {w : List Bool} {n : Nat} :
    Dec.spells (highDec c) w n ↔ (18 ≤ n ∧ n < 274) ∧ w = bitsMsb 8 (n - 18) :=
  Dec.spells_offset (fun _ _ => treeDec_spells) 18

theorem spellLength_low {n : Nat} (h : n < 10) : spellLength n = false :: bitsMsb 3 (n - 2) := if_pos h

theorem spellLength_mid {n : Nat} (h10 : 10 ≤ n) (h18 : n < 18) :
    spellLength n = true :: false :: bitsMsb 3 (n - 10) := by
  rw [spellLength, if_neg (by omega), if_pos h18]

theorem spellLength_high {n : Nat} (h : 18 ≤ n) : spellLength n = true :: true :: bitsMsb 8 (n - 18) := by
  rw [spellLength, if_neg (by omega), if_neg (by omega)]

/-- The words of a length, by its class (R67, R121). -/
theorem lenDec_spells {c : Coder} {ps : PosState} {w : List Bool} {n : Nat} :
    Dec.spells (lenDec c ps) w n ↔ lengthOk n = true ∧ w = spellLength n := by
  simp only [lenDec, bitDec_bind_spells, Bool.exists_bool, if_true, Bool.false_eq_true, if_false, lowDec_spells,
    midDec_spells, highDec_spells, lengthOk_iff]
  constructor
  · rintro (⟨v, rfl, hn, rfl⟩ | ⟨v, rfl, ⟨u, rfl, hn, rfl⟩ | ⟨u, rfl, hn, rfl⟩⟩)
    · exact ⟨by omega, (spellLength_low hn.2).symm⟩
    · exact ⟨by omega, (spellLength_mid hn.1 hn.2).symm⟩
    · exact ⟨by omega, (spellLength_high hn.1).symm⟩
  · rintro ⟨hn, rfl⟩
    by_cases h10 : n < 10
    · exact .inl ⟨_, spellLength_low h10, by omega, rfl⟩
    · refine .inr ?_
      by_cases h18 : n < 18
      · exact ⟨_, spellLength_mid (by omega) h18, .inl ⟨_, rfl, by omega, rfl⟩⟩
      · exact ⟨_, spellLength_high (by omega), .inr ⟨_, rfl, by omega, rfl⟩⟩

/-! ## Distances (R68, R131) -/

/-- From 4 up a distance has, below its top bit and the bit after it, as many bits as its slot has extra bits. -/
theorem inSlot_iff_div {slot d : Nat} (h : 4 ≤ slot) :
    inSlot slot d ↔ d / 2 ^ slotBits slot = 2 + slot % 2 := by
  rw [inSlot, if_neg (by omega), slotBase, Nat.div_eq_iff (Nat.two_pow_pos _)]
  have := Nat.two_pow_pos (slotBits slot)
  omega

/-- The top bit of a number and the one after it are its quotient by a power of two (R131). -/
theorem log2_eq_succ_iff {d e : Nat} (hd : d ≠ 0) : d.log2 = e + 1 ↔ 2 ≤ d / 2 ^ e ∧ d / 2 ^ e < 4 := by
  rw [Nat.log2_eq_iff hd, Nat.le_div_iff_mul_le (Nat.two_pow_pos e), Nat.div_lt_iff_lt_mul (Nat.two_pow_pos e),
    Nat.pow_succ, Nat.pow_succ]
  omega

/-- A distance lies in its slot (R131). -/
theorem inSlot_slotOf (d : Nat) : inSlot (slotOf d) d := by
  by_cases h : d < 4
  · have hslot : slotOf d = d := if_pos h
    rw [hslot, inSlot, if_pos h]
  · have hlog : 2 ≤ d.log2 := (Nat.le_log2 (by omega)).2 (by omega)
    have hslot : slotOf d = 2 * d.log2 + d / 2 ^ (d.log2 - 1) % 2 := if_neg h
    have hbits : slotBits (slotOf d) = d.log2 - 1 := by unfold slotBits; omega
    obtain ⟨hlow, hhigh⟩ := (log2_eq_succ_iff (d := d) (e := d.log2 - 1) (by omega)).1 (by omega)
    rw [inSlot_iff_div (by omega), hbits]
    omega

/-- The slot a distance lies in is its own (R131). -/
theorem slotOf_of_inSlot {slot d : Nat} (h : inSlot slot d) : slotOf d = slot := by
  by_cases h4 : slot < 4
  · rw [inSlot, if_pos h4] at h
    subst h
    exact if_pos h4
  · have hdiv := (inSlot_iff_div (by omega)).1 h
    have hd : ¬d < 4 := by
      have htwo : 2 ^ 1 ≤ 2 ^ slotBits slot := Nat.pow_le_pow_right (by omega) (by unfold slotBits; omega)
      have hlow : 2 * 2 ^ slotBits slot ≤ d := (Nat.le_div_iff_mul_le (Nat.two_pow_pos _)).1 (by omega)
      omega
    have hlog : d.log2 = slotBits slot + 1 := (log2_eq_succ_iff (by omega)).2 (by omega)
    rw [slotOf, if_neg hd, hlog, Nat.add_sub_cancel, hdiv]
    unfold slotBits
    omega

theorem slotOf_lt {d : Nat} (h : d < 2 ^ 32) : slotOf d < 64 := by
  by_cases h4 : d < 4
  · rw [slotOf, if_pos h4]; omega
  · have hlog : d.log2 < 32 := (Nat.log2_lt (by omega)).2 h
    rw [slotOf, if_neg h4]
    omega

theorem slotDec_spells {slot : Nat} {w : List Bool} {d : Nat} :
    Dec.spells (slotDec slot) w d ↔ inSlot slot d ∧ w = spellExtra slot (d - slotBase slot) := by
  unfold slotDec inSlot spellExtra
  split
  · rw [Dec.spells_done, and_comm]
  · split
    · exact Dec.spells_offset (fun _ _ => reverseDec_spells) (slotBase slot)
    · have hbits : 2 ^ slotBits slot = 2 ^ (slotBits slot - 4) * 2 ^ 4 := by
        rw [← Nat.pow_add, Nat.sub_add_cancel (by unfold slotBits; omega)]
      simp only [Dec.spells_bind, directDec_spells, Dec.spells_map, reverseDec_spells]
      constructor
      · rintro ⟨x, u, v, rfl, ⟨hx, rfl⟩, y, ⟨hy, rfl⟩, rfl⟩
        refine ⟨by omega, ?_⟩
        rw [show slotBase slot + x * 16 + y - slotBase slot = x * 16 + y by omega, show (x * 16 + y) / 16 = x by omega,
          show (x * 16 + y) % 16 = y by omega]
      · rintro ⟨hd, rfl⟩
        exact ⟨_, _, _, rfl, ⟨by omega, rfl⟩, _, ⟨by omega, rfl⟩, by omega⟩

theorem distDec_spells {n : Nat} {w : List Bool} {d : Nat} :
    Dec.spells (distDec n) w d ↔ d < 2 ^ 32 ∧ w = spellDistance d := by
  simp only [distDec, Dec.spells_bind, treeDec_spells, slotDec_spells]
  constructor
  · rintro ⟨slot, u, v, rfl, ⟨hslot, rfl⟩, hd, rfl⟩
    exact ⟨inSlot_lt hslot hd, by rw [spellDistance, slotOf_of_inSlot hd]⟩
  · rintro ⟨hd, rfl⟩
    exact ⟨slotOf d, _, _, rfl, ⟨slotOf_lt hd, rfl⟩, inSlot_slotOf d, rfl⟩

theorem matchOperandsDec_spells {ps : PosState} {w : List Bool} {n : Nat} {d : Word} :
    Dec.spells (matchOperandsDec ps) w (n, d) ↔ lengthOk n = true ∧ w = spellLength n ++ spellDistance d.toNat := by
  simp only [matchOperandsDec, Dec.spells_bind, lenDec_spells, Dec.spells_map, distDec_spells, Prod.mk.injEq]
  constructor
  · rintro ⟨m, u, v, rfl, ⟨hm, rfl⟩, x, ⟨hx, rfl⟩, rfl, rfl⟩
    exact ⟨hm, by rw [BitVec.toNat_ofNat, Nat.mod_eq_of_lt hx]⟩
  · rintro ⟨hn, rfl⟩
    exact ⟨n, _, _, rfl, ⟨hn, rfl⟩, d.toNat, ⟨d.isLt, rfl⟩, rfl, by simp⟩

/-! ## Packets (R65, R69) -/

/-- The decisions that name a kind (R65). -/
def PacketKind.name : PacketKind → List Bool
  | .lit => [false]
  | .newMatch => [true, false]
  | .shortRep => [true, true, false, false]
  | .longRep k => spellLongRep k

theorem kindDec_spells {st : StateIndex} {ps : PosState} {w : List Bool} {k : PacketKind} :
    Dec.spells (kindDec st ps) w k ↔ w = PacketKind.name k := by
  constructor
  · intro h
    obtain ⟨hlit, hmatch, hshort, hlong⟩ := kindDec_word h
    cases k with
    | lit => exact hlit rfl
    | newMatch => exact hmatch rfl
    | shortRep => exact hshort rfl
    | longRep k => exact hlong k rfl
  · rintro rfl
    cases k with
    | longRep k => fin_cases k <;> rfl
    | _ => rfl

/-- The words of a packet, in every context: the name of its kind, then its operands (R65 to R69). -/
theorem packetDec_spells {x : PacketContext} {w : List Bool} {p : Packet} :
    Dec.spells (packetDec x) w p ↔ p.wellFormed = true ∧ w = spell p := by
  simp only [packetDec, Dec.spells_bind, kindDec_spells]
  constructor
  · rintro ⟨k, -, v, rfl, rfl, hv⟩
    cases k with
    | lit =>
      obtain ⟨b, hb, rfl⟩ := Dec.spells_map.1 hv
      rw [litDec_spells.1 hb]
      exact ⟨rfl, rfl⟩
    | newMatch =>
      obtain ⟨⟨n, d⟩, hnd, rfl⟩ := Dec.spells_map.1 hv
      obtain ⟨hn, rfl⟩ := matchOperandsDec_spells.1 hnd
      by_cases hd : d = Config.eosDistance
      · subst hd
        rw [if_pos rfl]
        exact ⟨hn, rfl⟩
      · rw [if_neg hd]
        exact ⟨by simp [Packet.wellFormed, hn, hd], rfl⟩
    | shortRep =>
      obtain ⟨rfl, rfl⟩ := Dec.spells_done.1 hv
      exact ⟨rfl, rfl⟩
    | longRep k =>
      obtain ⟨n, hlen, rfl⟩ := Dec.spells_map.1 hv
      obtain ⟨hn, rfl⟩ := lenDec_spells.1 hlen
      exact ⟨hn, rfl⟩
  · rintro ⟨hp, rfl⟩
    cases p with
    | lit b => exact ⟨.lit, _, _, rfl, rfl, Dec.spells_map.2 ⟨b, litDec_spells.2 rfl, rfl⟩⟩
    | newMatch n d =>
      simp only [Packet.wellFormed, Bool.and_eq_true, bne_iff_ne] at hp
      obtain ⟨hn, hd⟩ := hp
      exact ⟨.newMatch, _, _, rfl, rfl,
        Dec.spells_map.2 ⟨(n, d), matchOperandsDec_spells.2 ⟨hn, rfl⟩, (if_neg hd).symm⟩⟩
    | eos n =>
      exact ⟨.newMatch, _, _, rfl, rfl,
        Dec.spells_map.2 ⟨(n, Config.eosDistance), matchOperandsDec_spells.2 ⟨hp, rfl⟩, (if_pos rfl).symm⟩⟩
    | shortRep => exact ⟨.shortRep, _, [], rfl, rfl, Dec.spells_done.2 ⟨rfl, rfl⟩⟩
    | longRep k n => exact ⟨.longRep k, _, _, rfl, rfl, Dec.spells_map.2 ⟨n, lenDec_spells.2 ⟨hp, rfl⟩, rfl⟩⟩

/-- Every path of a packet asks at most 48 decisions (R72). -/
theorem packetDec_within (x : PacketContext) : Dec.within (packetDec x) 48 := by
  intro isMatch
  cases isMatch
  · exact Dec.within_mono (n := 8) (m := 47) (Dec.within_map (litDec_within x.ctx x.mode)) (by omega)
  intro isRep
  cases isRep
  · exact Dec.within_map (matchOperandsDec_within x.ps)
  have hlong : ∀ k n, 10 ≤ n → Dec.within (operandsDec x (.longRep k)) n := fun k n hn =>
    Dec.within_mono (Dec.within_map (lenDec_within .forRep x.ps)) hn
  intro isRepG0
  cases isRepG0
  · intro isLong
    cases isLong
    · trivial
    · exact hlong 0 44 (by omega)
  intro isRepG1
  cases isRepG1
  · exact hlong 1 44 (by omega)
  intro isRepG2
  cases isRepG2
  · exact hlong 2 43 (by omega)
  · exact hlong 3 43 (by omega)

/-- Settles O3: the words of a packet are its spelling, and what follows a word is left. -/
theorem spelledPacketsReadBack : Obligations.SpelledPacketsReadBack := fun _ p _ hp =>
  Dec.read_iff.2 ⟨spell p, rfl, packetDec_spells.2 ⟨hp, rfl⟩⟩

/-- Settles O4: what is read is a word of a packet, and no path of a packet asks more than 48 decisions. -/
theorem readPacketsAreSpelled : Obligations.ReadPacketsAreSpelled := by
  refine fun x ds => ⟨fun p rest h => ?_, Dec.read_of_within (packetDec_within x)⟩
  obtain ⟨w, rfl, hw⟩ := Dec.read_iff.1 h
  obtain ⟨hp, rfl⟩ := packetDec_spells.1 hw
  exact ⟨hp, rfl⟩

theorem four_le_spellLength (n : Nat) : 4 ≤ (spellLength n).length := by
  unfold spellLength
  split
  · simp
  · split <;> simp

theorem spell_length_le {p : Packet} (h : p.wellFormed = true) : (spell p).length ≤ 48 :=
  Dec.spells_length (packetDec_within ⟨0, 0, 0, .plain⟩) (packetDec_spells.2 ⟨h, rfl⟩)

theorem four_le_spell (p : Packet) : 4 ≤ (spell p).length := by
  cases p with
  | lit b => simp [spell]
  | newMatch n d => have := four_le_spellLength n; simp only [spell, List.length_cons, List.length_append]; omega
  | eos n => have := four_le_spellLength n; simp only [spell, List.length_cons, List.length_append]; omega
  | shortRep => exact le_refl 4
  | longRep k n => have := four_le_spellLength n; simp only [spell, List.length_append]; omega

/-- Settles O5: the upper bound is that of the decoder's paths. -/
theorem packetDecisionCounts : Obligations.PacketDecisionCounts := by
  refine ⟨fun p hp => ⟨four_le_spell p, spell_length_le hp, ?_, ?_⟩, by decide⟩
  · rintro rfl
    rfl
  · rintro b rfl
    simp [spell]

/-! ## The words of instructions (R61, R65, R67, R68, R73) -/

theorem encode_slot {i : Instr} {k : Nat} (h : i.slot = some k) : encode i = some (encodeSlot k) := by
  cases i <;> cases h <;> rfl

theorem slotInstr_of_slot {i : Instr} {k : Nat} (h : i.slot = some k) : slotInstr (Fin.ofNat 64 k) = i := by
  cases i <;> cases h <;> rfl

theorem decode_encodeSlot {k : Nat} (h : k < 64) : decode (encodeSlot k) = .instr (slotInstr (Fin.ofNat 64 k)) := by
  have hread : (treeDec (.posSlot 0) 6).read (bitsMsb 6 k) = some (k, []) := treeDec_spells.2 ⟨h, rfl⟩
  simp only [encodeSlot, decode, decodeStream, decodeDistWord, hread]

theorem decode_create (lc lp pb : Nat) (d : Word) :
    decode (.command 0 none [lc, lp, pb, d.toNat] []) = .instr (.create lc lp pb d) := by
  simp [decode, decodeCommand, d.isLt]

/-- The naming decisions by themselves are the word of their kind's row. -/
theorem decode_name (k : PacketKind) : decode (.stream .packet (PacketKind.name k)) = .instr k.instr := by
  have hread : (kindDec 0 0).read (PacketKind.name k) = some (k, []) := kindDec_spells.2 rfl
  simp only [decode, decodeStream, decodePacketWord, hread]

/-- Naming decisions that go on are the word of EOS when the operands after them are those of an end marker (R69). -/
theorem decodePacketWord_eos {ds rest : List Bool} {n : Nat} (hname : (kindDec 0 0).read ds = some (.newMatch, rest))
    (hoperands : Dec.spells (matchOperandsDec 0) rest (n, Config.eosDistance)) : decodePacketWord ds = .instr .eos := by
  have hread : (matchOperandsDec 0).read rest = some ((n, Config.eosDistance), []) := hoperands
  cases rest with
  | nil => cases hread
  | cons b rest => simp only [decodePacketWord, hname, if_true, hread]

theorem decode_spell_eos {n : Nat} (h : lengthOk n = true) :
    decode (.stream .packet (spell (.eos n))) = .instr .eos :=
  decodePacketWord_eos (Dec.read_iff.2 ⟨_, rfl, kindDec_spells.2 rfl⟩) (matchOperandsDec_spells.2 ⟨h, rfl⟩)

/-- Settles O2: a distance row has its slot's word; every other word is that of a command, a header, a packet's name, an
end marker or a class. -/
theorem requestsReadBack : Obligations.RequestsReadBack := by
  intro i r _ hr
  cases hslot : i.slot with
  | some k =>
    rw [encode_slot hslot] at hr
    cases hr
    rw [decode_encodeSlot (slot_lt hslot), slotInstr_of_slot hslot]
  | none =>
    cases i with
    | create lc lp pb d => cases hr; exact decode_create lc lp pb d
    | destroy | reset | decompress | hdr | streamInit | literalPlain | literalMatched => cases hr; rfl
    | lit => cases hr; exact decode_name .lit
    | newMatch => cases hr; exact decode_name .newMatch
    | shortRep => cases hr; exact decode_name .shortRep
    | longRep0 => cases hr; exact decode_name (.longRep 0)
    | longRep1 => cases hr; exact decode_name (.longRep 1)
    | longRep2 => cases hr; exact decode_name (.longRep 2)
    | longRep3 => cases hr; exact decode_name (.longRep 3)
    | eos => cases hr; exact decode_spell_eos rfl
    | lenLow | lenMid | lenHigh => cases hr; rfl
    | rcInit | nextByte | decodeBit | normalize | decodeDirect | decodeTree | decodeTreeReverse | litDecode => cases hr
    | lenDecode | distDecode | putByte | getByte | copyMatch | run => cases hr
    | _ => cases hslot

/-- From 4 up a number of the opcode table is a slot (log 4). -/
theorem tableRequest_slot {k : Nat} (h4 : 4 ≤ k) (h : k < 64) : tableRequest 8 k = encodeSlot k := by
  obtain ⟨n, rfl⟩ : ∃ n, k = n + 4 := ⟨k - 4, by omega⟩
  rw [tableRequest, Nat.mod_eq_of_lt (by omega)]
  rfl

/-- Settles O1: a word that `encode` gives decodes to its row; a table number from 4 up is the word of its slot. -/
theorem writtenWordsDecode : Obligations.WrittenWordsDecode := by
  refine ⟨decode_create 3 0 2 0x100000, rfl, rfl, rfl, decode_name .lit, decode_name .newMatch, decode_name .shortRep,
    decode_name (.longRep 2), rfl, decode_encodeSlot (k := 14) (by omega), rfl, rfl, rfl, rfl,
    fun slot h4 => ?_⟩
  rw [decodeTableWord, tableRequest_slot h4 slot.isLt, decode_encodeSlot slot.isLt]
  simp

end Sys2Proof.Machine
end

section
/-! SUPPORT. The start of a stream, and the counters that naming decisions and literals ask. -/

namespace Sys2Proof.Machine

/-! ## The start of a stream (R63, R90) -/

/-- RC_INIT with five bytes left: it takes them, and only then examines the first of the stream (R90, D9). -/
theorem rcInit_five (pol : InitByte0Policy) {i : Inst} (h : i.ip + 5 ≤ i.srcLen) :
    ∃ j, sameButDecoder i j ∧ j.ip = i.ip + 5 ∧
      j.code.toNat = (((i.srcByte (i.ip + 1)).toNat * 256 + (i.srcByte (i.ip + 2)).toNat) * 256 +
        (i.srcByte (i.ip + 3)).toNat) * 256 + (i.srcByte (i.ip + 4)).toNat ∧
      rcInit pol i = if pol = .reject ∧ i.srcByte 0 ≠ 0 then .raised .formatMismatch j else .ok () j := by
  obtain ⟨j, hload, hip, hcode⟩ := loadCode_five (i := { i with range := 0xFFFFFFFF, code := 0 }) h rfl
  have hsame : sameButDecoder i j := by
    have hdec := (loadCode_decodes 5 { i with range := 0xFFFFFFFF, code := 0 }).1.same
    rw [hload] at hdec
    exact sameButDecoder.trans (j := { i with range := 0xFFFFFFFF, code := 0 }) rfl hdec
  refine ⟨j, hsame, hip, hcode, ?_⟩
  rw [rcInit, hload, Res.bind_ok]

/-- RC_INIT with fewer than five bytes left stops at the end of the stream (R91, R211). -/
theorem rcInit_exhausted (pol : InitByte0Policy) {i : Inst} (hip : i.ip ≤ i.srcLen) (h : i.srcLen < i.ip + 5) :
    ∃ j, j.ip = i.srcLen ∧ sameButDecoder i j ∧ rcInit pol i = .raised .inputExhausted j := by
  obtain ⟨j, hload⟩ := loadCode_exhausted (i := { i with range := 0xFFFFFFFF, code := 0 }) hip h
  have hdec := (loadCode_decodes 5 { i with range := 0xFFFFFFFF, code := 0 }).1
  rw [hload] at hdec
  obtain ⟨hsame, -, -, -, -, hend⟩ := hdec
  exact ⟨j, hend hip, sameButDecoder.trans (j := { i with range := 0xFFFFFFFF, code := 0 }) rfl hsame,
    by rw [rcInit, hload, Res.bind_raised]⟩

theorem exec_rcInit_ok {s : State} {i j : Inst} (hi : s.current = some i) (h : rcInit s.params.initByte0 i = .ok () j) :
    exec .rcInit s = .next (s.after j .none) ∧ exec .streamInit s = .next (s.after j .none) :=
  ⟨onCurrent_ok hi (by rw [h]; rfl), onCurrent_ok hi (by rw [h]; rfl)⟩

theorem exec_rcInit_raised {s : State} {i j : Inst} {e : Err} (hi : s.current = some i)
    (h : rcInit s.params.initByte0 i = .raised e j) :
    exec .rcInit s = .next (s.trapped j e) ∧ exec .streamInit s = .next (s.trapped j e) :=
  ⟨onCurrent_raised hi (by rw [h]; rfl), onCurrent_raised hi (by rw [h]; rfl)⟩

/-- Settles O24: both rows run RC_INIT, which five bytes, fewer, or a rejected first byte decide. -/
theorem streamStartRule : Obligations.StreamStartRule := by
  intro s i hi
  refine ⟨fun hfive haccept => ?_, fun hip hshort => ?_, fun hfive hpol hbyte => ?_⟩
  · obtain ⟨j, hsame, hip, hcode, hinit⟩ := rcInit_five s.params.initByte0 hfive
    rw [if_neg fun h => haccept.elim (fun e => by rw [h.1] at e; cases e) h.2] at hinit
    obtain ⟨hrange, -, hprobs, -⟩ := rcInit_ok hinit
    obtain ⟨hrc, hstream⟩ := exec_rcInit_ok hi hinit
    exact ⟨j, hrc, hstream, hsame, hprobs, hrange, hip, hcode⟩
  · obtain ⟨j, hend, hsame, hinit⟩ := rcInit_exhausted s.params.initByte0 hip hshort
    exact ⟨j, hend, hsame, exec_rcInit_raised hi hinit⟩
  · obtain ⟨j, hsame, hip, -, hinit⟩ := rcInit_five s.params.initByte0 hfive
    rw [if_pos ⟨hpol, hbyte⟩] at hinit
    exact ⟨j, hip, hsame, exec_rcInit_raised hi hinit⟩

/-! ## The counters asked (R65, R112, R113) -/

theorem Dec.asked_map {α β : Type} (d : Dec α) (f : α → β) (ds : List Bool) :
    Dec.asked (d.map f) ds = Dec.asked d ds := by
  induction d generalizing ds with
  | done a => rfl
  | ask q k ih =>
    cases ds with
    | nil => rfl
    | cons b ds => exact congrArg (q :: ·) (ih b ds)

/-- The node after `k` of the `n` decisions that lead from node `m` to the last node `leaf` (R95). -/
def nodeAfter (n leaf k : Nat) : Nat := leaf / 2 ^ (n - k)

theorem nodeAfter_zero (n m v : Nat) : nodeAfter n (m * 2 ^ n + v % 2 ^ n) 0 = m := by
  rw [nodeAfter, Nat.sub_zero, Nat.mul_comm, Nat.mul_add_div (Nat.two_pow_pos n),
    Nat.div_eq_of_lt (Nat.mod_lt _ (Nat.two_pow_pos n)), Nat.add_zero]

theorem nodeAfter_succ (n leaf k : Nat) : nodeAfter (n + 1) leaf (k + 1) = nodeAfter n leaf k := by
  rw [nodeAfter, nodeAfter, Nat.add_sub_add_right]

/-- The nodes of a whole tree: a leading 1 and the decisions so far. -/
theorem nodeAfter_root {n k v : Nat} (hk : k ≤ n) (hv : v < 2 ^ n) :
    nodeAfter n (1 * 2 ^ n + v % 2 ^ n) k = 2 ^ k + v / 2 ^ (n - k) := by
  rw [nodeAfter, Nat.mod_eq_of_lt hv, Nat.one_mul, ← Nat.sub_add_cancel hk, Nat.add_sub_cancel, Nat.pow_add,
    Nat.mul_add_div (Nat.two_pow_pos _)]

/-- What a walk asks: the nodes it passes (R95). -/
theorem treeWalk_asked (t : Tree) (n m v : Nat) :
    Dec.asked (treeWalk t n m) (bitsMsb n v) =
      (List.range n).map fun k => .adaptive (t.counter (nodeAfter n (m * 2 ^ n + v % 2 ^ n) k)) := by
  induction n generalizing m with
  | zero => rfl
  | succ n ih =>
    rw [List.range_succ_eq_map, List.map_cons, List.map_map, nodeAfter_zero]
    simp only [treeWalk, bitsMsb, Dec.asked, ih, msb_step, Function.comp_def, nodeAfter_succ]

/-- The bias of the node a matched literal asks after `k` of `n` decisions `v`: the block of the next match bit while the
decisions agree with the match byte, none after that (R113). -/
def matchBias (n v mb k : Nat) : Nat :=
  if v / 2 ^ (n - k) = mb / 2 ^ (n - k) then (1 + mb / 2 ^ (n - 1 - k) % 2) * 256 else 0

theorem matchBias_zero {n v mb : Nat} (h : v / 2 ^ n = mb / 2 ^ n) :
    matchBias n v mb 0 = (1 + mb / 2 ^ (n - 1) % 2) * 256 := if_pos h

theorem matchBias_succ (n v mb k : Nat) : matchBias (n + 1) v mb (k + 1) = matchBias n v mb k := by
  simp only [matchBias, Nat.add_sub_add_right, Nat.add_sub_cancel, show n - (k + 1) = n - 1 - k by omega]

/-- After a disagreement there is no bias again. -/
theorem matchBias_of_ne {n v mb : Nat} (h : v / 2 ^ n ≠ mb / 2 ^ n) {k : Nat} (hk : k ≤ n) : matchBias n v mb k = 0 := by
  refine if_neg fun e => h ?_
  rw [← Nat.sub_add_cancel hk, Nat.pow_add, ← Nat.div_div_eq_div_mul, ← Nat.div_div_eq_div_mul, e]

/-- The top bit of the match byte shifted so far is its next bit (R113). -/
theorem matchBit {n : Nat} (hn : n + 1 ≤ 8) (mb : Nat) : mb * 2 ^ (8 - (n + 1)) % 256 / 128 % 2 = mb / 2 ^ n % 2 := by
  have h256 : 256 = 2 ^ (n + 1) * 2 ^ (8 - (n + 1)) := by
    rw [← Nat.pow_add, Nat.add_sub_cancel' hn]
  have h128 : 128 = 2 ^ n * 2 ^ (8 - (n + 1)) := by
    rw [← Nat.pow_add, show n + (8 - (n + 1)) = 7 by omega]
  rw [h256, h128, Nat.mul_mod_mul_right, Nat.mul_div_mul_right _ _ (Nat.two_pow_pos _), Nat.pow_succ,
    Nat.mod_mul_right_div_self, Nat.mod_mod]

/-- What a matched walk asks, from a node whose decisions `v` has in common with the match byte (R113). -/
theorem matchedWalk_asked (ctx : Fin 256) {n : Nat} (hn : n ≤ 8) (m : Nat) {v mb : Nat} (h : v / 2 ^ n = mb / 2 ^ n) :
    Dec.asked (matchedWalk ctx n m (mb * 2 ^ (8 - n) % 256)) (bitsMsb n v) =
      (List.range n).map fun k => .adaptive ((Tree.lit ctx).counter
        (matchBias n v mb k + nodeAfter n (m * 2 ^ n + v % 2 ^ n) k)) := by
  induction n generalizing m with
  | zero => rfl
  | succ n ih =>
    have hshift : 2 * (mb * 2 ^ (8 - (n + 1)) % 256) % 256 = mb * 2 ^ (8 - n) % 256 := by
      rw [Nat.mul_mod_mod, show 8 - n = 8 - (n + 1) + 1 by omega, Nat.pow_succ]
      congr 1
      ring
    have hnext : v / 2 ^ n = mb / 2 ^ n ↔ (v.testBit n).toNat = mb / 2 ^ n % 2 := by
      rw [Nat.toNat_testBit]
      rw [Nat.pow_succ, ← Nat.div_div_eq_div_mul, ← Nat.div_div_eq_div_mul] at h
      omega
    rw [List.range_succ_eq_map, List.map_cons, List.map_map, nodeAfter_zero, matchBias_zero h]
    simp only [matchedWalk, bitsMsb, Dec.asked, matchBit hn, Nat.add_sub_cancel, Function.comp_def, nodeAfter_succ,
      matchBias_succ, ← msb_step]
    congr 1
    split
    · next hagree => rw [hshift]; exact ih (by omega) _ (hnext.2 hagree)
    · next hne =>
      rw [treeWalk_asked]
      refine List.map_congr_left fun k hk => ?_
      rw [matchBias_of_ne (mt hnext.1 hne) (Nat.le_of_lt (List.mem_range.1 hk)), Nat.zero_add]

theorem plainDec_asked (ctx : Fin 256) (b : Byte) : Dec.asked (plainDec ctx) (bitsMsb 8 b.toNat) =
    (List.range 8).map fun k => .adaptive ((Tree.lit ctx).counter (2 ^ k + b.toNat / 2 ^ (8 - k))) := by
  rw [plainDec, Dec.asked_map, treeDec, Dec.asked_map, treeWalk_asked]
  exact List.map_congr_left fun k hk => by rw [nodeAfter_root (Nat.le_of_lt (List.mem_range.1 hk)) b.isLt]

theorem matchedDec_asked (ctx : Fin 256) (mb b : Byte) : Dec.asked (matchedDec ctx mb) (bitsMsb 8 b.toNat) =
    (List.range 8).map fun k => .adaptive ((Tree.lit ctx).counter
      (matchBias 8 b.toNat mb.toNat k + (2 ^ k + b.toNat / 2 ^ (8 - k)))) := by
  have hall : b.toNat / 2 ^ 8 = mb.toNat / 2 ^ 8 := by
    rw [Nat.div_eq_of_lt b.isLt, Nat.div_eq_of_lt mb.isLt]
  have hmb : mb.toNat * 2 ^ (8 - 8) % 256 = mb.toNat := by omega
  have hwalk := matchedWalk_asked ctx (le_refl 8) 1 hall
  rw [hmb] at hwalk
  rw [matchedDec, Dec.asked_map, hwalk]
  exact List.map_congr_left fun k hk => by rw [nodeAfter_root (Nat.le_of_lt (List.mem_range.1 hk)) b.isLt]

theorem posState_val {i : Inst} (h : i.propsLegal) : i.posState.val = i.op &&& (2 ^ i.pb.toNat - 1) := by
  obtain ⟨-, -, hpb, -⟩ := h
  have hle : 2 ^ i.pb.toNat ≤ 2 ^ 4 := Nat.pow_le_pow_right (by omega) hpb
  have hlt := Nat.mod_lt i.op (Nat.two_pow_pos i.pb.toNat)
  rw [Nat.and_two_pow_sub_one_eq_mod, Inst.posState, Fin.val_ofNat, Nat.mod_eq_of_lt (by omega)]

theorem runDec_bitDec_bind {α : Type} (c : Counter) (f : Bool → Dec α) (i : Inst) :
    runDec ((bitDec c).bind f) i = (decodeBit c i).bind fun b j => runDec (f b) j := by
  rw [runDec_bind, runDec_bitDec]

theorem Res.bind_congr {α β : Type} (r : Res α) {f g : α → Inst → Res β} (h : ∀ a i, f a i = g a i) :
    r.bind f = r.bind g := by
  rw [show f = g from funext fun a => funext (h a)]

/-- Settles O27: the naming decisions by their program; a literal asks the nodes on the way to its leaf, biased while the
match byte agrees. -/
theorem askedCounters : Obligations.AskedCounters := by
  refine ⟨fun st ps => ⟨rfl, rfl, fun b => rfl, rfl, fun b => rfl⟩,
    fun ctx mb b => ⟨plainDec_asked ctx b, matchedDec_asked ctx mb b⟩, fun i => ⟨posState_val, ?_⟩⟩
  rw [nextKind, kindDec, runDec_bitDec_bind]
  refine Res.bind_congr _ fun m i1 => ?_
  cases m with
  | false => rfl
  | true =>
    refine (runDec_bitDec_bind _ _ i1).trans (Res.bind_congr _ fun r i2 => ?_)
    cases r with
    | false => rfl
    | true =>
      refine (runDec_bitDec_bind _ _ i2).trans (Res.bind_congr _ fun g0 i3 => ?_)
      cases g0 with
      | false => exact runDec_bitDec_bind _ _ i3
      | true =>
        refine (runDec_bitDec_bind _ _ i3).trans (Res.bind_congr _ fun g1 i4 => ?_)
        cases g1 with
        | false => rfl
        | true => exact runDec_bitDec_bind _ _ i4

end Sys2Proof.Machine
end

section
/-! SUPPORT. The length rows, the packets MATCH and EOS with their operands, and the validation of the properties. -/

namespace Sys2Proof.Machine

/-! ## Length rows (R67, R122 to R124) -/

theorem hasEntries_of_fixed {t : Tree} (h : ∀ ctx, t ≠ .lit ctx) {n : Nat} (hn : n ≤ t.size) (i : Inst) :
    i.hasEntries t n = true := by
  rw [Inst.hasEntries, Inst.hasCounter, Bool.and_eq_true, decide_eq_true_iff, decide_eq_true_iff]
  exact ⟨hn, (isFixed_of_tree h _).lt i⟩

/-- DECODETREE with a byte left for every decision (R95). -/
theorem treeDec_completes (t : Tree) {n : Nat} {i : Inst} (hin : i.ip + n ≤ i.srcLen) :
    ∃ v j, runDec (treeDec t n) i = .ok v j ∧ v < 2 ^ n ∧ sameButDecoder i j ∧ j.ip ≤ i.ip + n ∧
      ∀ d, ¬ofTree t d → j.prob d = i.prob d := by
  obtain ⟨v, j, hv⟩ := runDec_completes (treeDec_within t n) hin
  have hdec := runDec_decodes (treeDec_within t n) i
  rw [hv] at hdec
  obtain ⟨hsame, -, hip, -⟩ := hdec
  refine ⟨v, j, hv, runDec_ensures (treeDec_ensures t n) hv, hsame, hip, fun d hd => ?_⟩
  have hasks : Dec.asksOnly (ofTree t) (treeDec t n) :=
    Dec.asksOnly_mono (treeDec_asksOnly t n) fun _ ⟨k, _, _, hk⟩ => ⟨k, hk⟩
  have hprob := runDec_prob hasks i hd
  rwa [hv] at hprob

/-- A row that answers `base` and the value of a tree of fixed counters, beside DECODETREE of that tree. -/
theorem lengthRow_completes {row : Instr} {t : Tree} {base n : Nat} (ht : ∀ ctx, t ≠ .lit ctx) (hn : 2 ^ n ≤ t.size)
    {s : State} {i : Inst} (hi : s.current = some i)
    (hrow : exec row s = onCurrent (fun j => (runDec ((treeDec t n).map (base + ·)) j).map .num) s)
    (hin : i.ip + n ≤ i.srcLen) :
    ∃ v j, exec row s = .next (s.after j (.num v)) ∧ base ≤ v ∧ v < base + 2 ^ n ∧
      exec (.decodeTree t n) s = .next (s.after j (.num (v - base))) ∧ sameButDecoder i j ∧ j.ip ≤ i.ip + n ∧
      ∀ d, ¬ofTree t d → j.prob d = i.prob d := by
  obtain ⟨v, j, hv, hlt, hframe⟩ := treeDec_completes t hin
  refine ⟨base + v, j, hrow.trans (onCurrent_ok hi ?_), Nat.le_add_right _ _, by omega, ?_, hframe⟩
  · rw [runDec_map, hv]
    rfl
  · rw [Nat.add_sub_cancel_left]
    exact onCounters_ok hi (hasEntries_of_fixed ht hn i) (by rw [hv]; rfl)

/-- Settles O31: each row is its base and its tree. -/
theorem lengthRowsComplete : Obligations.LengthRowsComplete := by
  intro s i c ps hi
  refine ⟨fun hin => ?_, fun hin => ?_, fun hin => ?_⟩
  · obtain ⟨n, j, hrow, hge, hlt, hrest⟩ := lengthRow_completes (row := .lenLow c ps) (t := .low c ps) (base := 2) nofun
      (le_refl 8) hi rfl hin
    exact ⟨n, j, hrow, hge, Nat.le_of_lt_succ hlt, hrest⟩
  · obtain ⟨n, j, hrow, hge, hlt, hrest⟩ := lengthRow_completes (row := .lenMid c ps) (t := .mid c ps) (base := 10) nofun
      (le_refl 8) hi rfl hin
    exact ⟨n, j, hrow, hge, Nat.le_of_lt_succ hlt, hrest⟩
  · obtain ⟨n, j, hrow, hge, hlt, hrest⟩ := lengthRow_completes (row := .lenHigh c) (t := .high c) (base := 18) nofun
      (le_refl 256) hi rfl hin
    exact ⟨n, j, hrow, hge, Nat.le_of_lt_succ hlt, hrest⟩

/-! ## MATCH and EOS (R152, R154, R155) -/

/-- The rows MATCH and EOS run one meaning, which the distance decides (R69, log 19). -/
theorem exec_matchOrEos {s : State} {i k : Inst} {e : Bool} (hi : s.current = some i) (h : matchOrEos i = .ok e k) :
    exec .newMatch s = .next (s.after k .none) ∧ exec .eos s = .next (s.after k .none) :=
  ⟨onCurrent_ok hi (by rw [h]; rfl), onCurrent_ok hi (by rw [h]; rfl)⟩

theorem matchOrEos_of_eos {i j : Inst} {n : Nat} (h : matchOperands i = .ok (n, Config.eosDistance) j) :
    matchOrEos i = .ok true (endRun j) := by
  rw [matchOrEos, h, Res.bind_ok, if_pos rfl]

theorem matchOrEos_of_match {i j : Inst} {n : Nat} {d : Word} (h : matchOperands i = .ok (n, d) j)
    (hd : d ≠ Config.eosDistance) : matchOrEos i = (commitMatch n d j).map fun _ => false := by
  rw [matchOrEos, h, Res.bind_ok, if_neg hd]

/-- A copy in reach, with room for it, after the registers of MATCH are committed (R154, R161, R163). -/
theorem commitMatch_ok {i : Inst} {n : Nat} {d : Word} (hop : d.toNat < i.op) (hdict : d.toNat < i.dictEff)
    (hroom : i.op + n ≤ i.destCapacity) :
    ∃ k, commitMatch n d i = .ok () k ∧ sameButWindow { i.pushRep d with st := matchNext i.st } k ∧
      copied i k d.toNat n :=
  copyMatch_ok (i := { i.pushRep d with st := matchNext i.st }) hop hdict hroom

/-- What decoding changes is no part of a copy. -/
theorem copied_of_sameButDecoder {i j k : Inst} {d n : Nat} (h : sameButDecoder i j) (hc : copied j k d n) :
    copied i k d n := by
  rw [h] at hc
  exact hc

/-- Settles O42: the operands change the decoder's part only, and the copy is in reach and has room. -/
theorem matchCompletes : Obligations.MatchCompletes := by
  intro s i j n d hi hoperands hd hop hdict hroom
  have hsame := matchOperands_same hoperands
  obtain ⟨k, hcommit, hwindow, hcopied⟩ := commitMatch_ok (i := j) (n := n) (d := d) (by rw [hsame]; exact hop)
    (by rw [hsame]; exact hdict) (by rw [hsame]; exact hroom)
  have hmatch : matchOrEos i = .ok false k := by rw [matchOrEos_of_match hoperands hd, hcommit]; rfl
  obtain ⟨hrow, heos⟩ := exec_matchOrEos hi hmatch
  refine ⟨k, hrow, heos, ?_, hsame, copied_of_sameButDecoder hsame hcopied⟩
  rw [hsame] at hwindow ⊢
  exact hwindow

/-- Settles O43: the end marker's distance ends the run. -/
theorem eosCompletes : Obligations.EosCompletes := by
  intro s i j n hi hoperands
  obtain ⟨hrow, heos⟩ := exec_matchOrEos hi (matchOrEos_of_eos hoperands)
  exact ⟨heos, hrow, matchOperands_same hoperands⟩

/-- The operands of MATCH are a length, then the distance read with it (R154). -/
theorem matchOperands_eq (i : Inst) : matchOperands i =
    (lenDecode .forMatch i.posState i).bind fun n j => (distDecode n j).map fun d => (n, BitVec.ofNat 32 d) := by
  rw [matchOperands, matchOperandsDec, runDec_bind]
  exact Res.bind_congr _ fun n j => runDec_map _ _ j

/-- Settles O44: the operands ask at most 46 decisions; LEN_DECODE and DIST_DECODE return what their parts of them read. -/
theorem matchOperandsReadable : Obligations.MatchOperandsReadable := by
  refine fun s i hi => ⟨fun hin => ?_, fun n d j k hlen hdist => ?_⟩
  · obtain ⟨⟨n, d⟩, j, hj⟩ := runDec_completes (matchOperandsDec_within i.posState) hin
    have hoperands : matchOperands i = .ok (n, d) j := hj
    have hip := (Advances.runDec (matchOperandsDec_within i.posState) i).2.1
    rw [hj] at hip
    obtain ⟨hge, hle⟩ := matchOperands_range hoperands
    exact ⟨n, d, j, hoperands, hge, hle, matchOperands_same hoperands, hip⟩
  · obtain ⟨m, hm, hmn⟩ := Res.map_eq_ok.1 ((onCurrent_after hi).1 hlen)
    cases hmn
    rw [← State.after_after s j k (.num n)] at hdist
    obtain ⟨x, hx, hxd⟩ := Res.map_eq_ok.1 ((onCurrent_after (s.current_after j (.num n))).1 hdist)
    cases hxd
    rw [matchOperands_eq, hm, Res.bind_ok, hx]
    rfl

/-! ## The validation of the properties (R181, R182) -/

theorem propertiesOk_of_illegal {pol : DictMinPolicy} {lc lp pb : Nat} {d : Word}
    (h : 8 < lc ∨ 4 < lp ∨ 4 < pb ∨ 8 < lc + lp) : propertiesOk pol lc lp pb d = false := by
  rw [Bool.eq_false_iff]
  intro hok
  obtain ⟨hlc, hlp, hpb, hsum⟩ := propertiesOk_legal hok
  omega

/-- Settles O53: CREATE and HDR raise InvalidProperties with nothing built; on legal properties CREATE allocates or
builds. -/
theorem propertyValidation : Obligations.PropertyValidation := by
  refine ⟨fun s lc lp pb d h => ?_, fun s t lc lp pb d h hdict ht => ?_, fun s d b1 b2 b3 b4 h => ?_⟩
  · refine ⟨takeException .invalidProperties none s, ?_, rfl, rfl, rfl⟩
    simp only [exec, execCreate, propertiesOk_of_illegal h, Bool.false_eq_true, if_false]
  · have hok : propertiesOk s.params.dictMin lc lp pb d = true :=
      propertiesOk_of_legal (by omega) (by omega) (by omega) (by omega) hdict.symm
    cases halloc : s.allocAnswer with
    | true =>
      rw [execCreate_built hok halloc] at ht
      cases ht
      exact ⟨nofun, nofun⟩
    | false =>
      simp only [exec, execCreate, hok, halloc, if_true, Bool.false_eq_true, if_false] at ht
      cases ht
      exact ⟨nofun, nofun⟩
  · exact ⟨_, exec_hdr_malformed (parseHeader_of_le h b1 b2 b3 b4) s, rfl, rfl, rfl⟩

end Sys2Proof.Machine
end

section
/-! SUPPORT. The range decoder in numbers: a decision before its normalisation, what a program leaves when the stream
holds enough for it, and one decision more at the end of a tree. -/

namespace Sys2Proof.Machine

/-! ## A decision before its normalisation (R93, R94) -/

/-- What an adaptive decision with outcome `b` leaves before the normalisation: the interval chosen and the asked counter
updated (R92, R93). -/
def Inst.decided (i : Inst) (c : Counter) (b : Bool) : Inst :=
  { i with
    range := if b then i.range - boundOf i.range (i.prob c) else boundOf i.range (i.prob c)
    code := if b then i.code - boundOf i.range (i.prob c) else i.code
    probs := ProbFile.write i.probs c (probAfter (i.prob c) b) }

/-- What a direct decision with outcome `b` leaves before the normalisation (R94). -/
def Inst.halved (i : Inst) (b : Bool) : Inst :=
  { i with range := i.range >>> 1, code := if b then i.code - i.range >>> 1 else i.code }

theorem prob_congr {i j : Inst} (h : j.probs = i.probs) (c : Counter) : j.prob c = i.prob c := by
  rw [Inst.prob, Inst.prob, h]

/-- DECODEBIT is its decision, then NORMALIZE (R93, R97). -/
theorem decodeBit_eq {c : Counter} {i : Inst} {bound : Nat} (h : bound = i.range.toNat / 2048 * (i.prob c).toNat) :
    decodeBit c i = (normalize (i.decided c (decide (bound ≤ i.code.toNat)))).map fun _ =>
      decide (bound ≤ i.code.toNat) := by
  rw [← boundOf_toNat] at h
  rcases decodeBit_cases c i with ⟨hlt, heq⟩ | ⟨hle, heq⟩
  · rw [decide_eq_false (by omega : ¬bound ≤ i.code.toNat)]
    exact heq
  · rw [decide_eq_true (by omega : bound ≤ i.code.toNat)]
    exact heq

/-- The interval an adaptive decision chooses, in numbers (R93). -/
theorem decided_nat {c : Counter} {i : Inst} {bound : Nat} (h : bound = i.range.toNat / 2048 * (i.prob c).toNat) :
    (i.decided c (decide (bound ≤ i.code.toNat))).range.toNat =
        (if i.code.toNat < bound then bound else i.range.toNat - bound) ∧
      (i.decided c (decide (bound ≤ i.code.toNat))).code.toNat =
        (if i.code.toNat < bound then i.code.toNat else i.code.toNat - bound) := by
  rw [← boundOf_toNat] at h
  by_cases hlt : i.code.toNat < bound
  · rw [decide_eq_false (by omega : ¬bound ≤ i.code.toNat), if_pos hlt, if_pos hlt]
    exact ⟨h.symm, rfl⟩
  · rw [decide_eq_true (by omega : bound ≤ i.code.toNat), if_neg hlt, if_neg hlt, h]
    exact ⟨BitVec.toNat_sub_of_le (boundOf_le _ _), BitVec.toNat_sub_of_le (BitVec.le_def.2 (by omega))⟩

theorem decided_same (i : Inst) (c : Counter) (b : Bool) : sameButDecoder i (i.decided c b) := rfl

/-- The asked counter is updated by the outcome, no other changes (R92, R93). -/
theorem decided_prob (i : Inst) (c : Counter) (b : Bool) :
    (i.decided c b).prob c = probAfter (i.prob c) b ∧ ∀ d, d ≠ c → (i.decided c b).prob d = i.prob d :=
  ⟨prob_write_same i c _, fun _ hd => prob_write_other i _ hd⟩

/-- A direct decision is its halving, then NORMALIZE (R94, R97). -/
theorem directBit_eq (i : Inst) : directBit i = (normalize (i.halved (decide (i.range.toNat / 2 ≤ i.code.toNat)))).map
    fun _ => decide (i.range.toNat / 2 ≤ i.code.toNat) := by
  rcases directBit_cases i with ⟨hle, heq⟩ | ⟨hlt, heq⟩
  · rw [decide_eq_true hle]
    exact heq
  · rw [decide_eq_false (Nat.not_le.2 hlt)]
    exact heq

/-- The half a direct decision chooses, in numbers (R94). -/
theorem halved_nat (i : Inst) :
    (i.halved (decide (i.range.toNat / 2 ≤ i.code.toNat))).range.toNat = i.range.toNat / 2 ∧
      (i.halved (decide (i.range.toNat / 2 ≤ i.code.toNat))).code.toNat =
        (if i.range.toNat / 2 ≤ i.code.toNat then i.code.toNat - i.range.toNat / 2 else i.code.toNat) := by
  have hhalf : (i.range >>> 1).toNat = i.range.toNat / 2 := by simp [Nat.shiftRight_eq_div_pow]
  refine ⟨hhalf, ?_⟩
  by_cases hle : i.range.toNat / 2 ≤ i.code.toNat
  · rw [decide_eq_true hle, if_pos hle, ← hhalf]
    exact BitVec.toNat_sub_of_le (BitVec.le_def.2 (by omega))
  · rw [decide_eq_false hle, if_neg hle]
    rfl

theorem halved_same (i : Inst) (b : Bool) : sameButDecoder i (i.halved b) := rfl

/-- Settles O16: `probAfter` in numbers; each bound of the range is a fixed point of one of the two updates. -/
theorem adaptiveUpdate : Obligations.AdaptiveUpdate := by
  intro p
  have hzero := probAfter_zero p
  have hone := probAfter_one p
  refine ⟨hzero, hone, fun h b => probOk_probAfter h b, fun h => ?_, fun h => ?_, fun h => ?_⟩
  · exact BitVec.eq_of_toNat_eq (by omega)
  · exact BitVec.eq_of_toNat_eq (by omega)
  · omega

/-- Settles O21: NEXTBYTE and NORMALIZE with a byte left, or none needed. -/
theorem fetchRule : Obligations.FetchRule := by
  intro s i hi
  refine ⟨fun hin => onCurrent_ok hi ?_, fun hrange => onCurrent_ok hi ?_, fun hrange hin => ?_⟩
  · rw [nextByte_ok hin]
    rfl
  · rw [normalize_id hrange]
    rfl
  · obtain ⟨j, hj, hsame, hprobs, hnum⟩ := normalize_nat i (.inr hin)
    rw [if_neg (Nat.not_le.2 hrange)] at hnum
    exact ⟨j, onCurrent_ok hi (by rw [hj]; rfl), hsame, hprobs, hnum⟩

/-- Settles O17: DECODEBIT is a decision, whose interval and counters are known in numbers, then NORMALIZE, which touches
no counter. -/
theorem decodeBitRule : Obligations.DecodeBitRule := by
  intro s i c bound range code hi hc hbound hrange hcode hin
  obtain ⟨hr, hcd⟩ := decided_nat hbound
  rw [← hrange] at hr
  rw [← hcode] at hcd
  obtain ⟨j, hj, hsame, hprobs, hnum⟩ := normalize_nat (i.decided c (decide (bound ≤ i.code.toNat))) (hr ▸ hin)
  obtain ⟨hasked, hother⟩ := decided_prob i c (decide (bound ≤ i.code.toNat))
  rw [hr, hcd] at hnum
  exact ⟨j, onCounters_ok hi hc (by rw [decodeBit_eq hbound, hj]; rfl), (decided_same i c _).trans hsame,
    (prob_congr hprobs c).trans hasked, fun d hd => (prob_congr hprobs d).trans (hother d hd), hnum⟩

/-! ## A program with enough of the stream left -/

/-- A program completes with a byte left for every decision it may ask: its value, the decoder's part alone, the bytes read
and the counters it leaves alone (R93 to R96). -/
theorem runDec_completes_frame {α : Type} {P : α → Prop} {Q : Counter → Prop} {d : Dec α} {n : Nat} {i : Inst}
    (hwithin : Dec.within d n) (hensures : Dec.ensures P d) (hasks : Dec.asksOnly Q d) (hin : i.ip + n ≤ i.srcLen) :
    ∃ a j, runDec d i = .ok a j ∧ P a ∧ sameButDecoder i j ∧ i.ip ≤ j.ip ∧ j.ip ≤ i.ip + n ∧
      ∀ c, ¬Q c → j.prob c = i.prob c := by
  obtain ⟨a, j, hj⟩ := runDec_completes hwithin hin
  have hdec := runDec_decodes hwithin i
  rw [hj] at hdec
  obtain ⟨hsame, hge, hle, -⟩ := hdec
  refine ⟨a, j, hj, runDec_ensures hensures hj, hsame, hge, hle, fun c hc => ?_⟩
  have hprob := runDec_prob hasks i hc
  rwa [hj] at hprob

/-! ## Direct decisions (R94) -/

theorem directBit_inst_probs (i : Inst) : (directBit i).inst.probs = i.probs := by
  rw [directBit_eq, Res.inst_map, normalize_inst_probs]
  rfl

/-- Direct decisions touch no counter. -/
theorem directWalk_inst_probs (n v : Nat) (i : Inst) : (runDec (directWalk n v) i).inst.probs = i.probs := by
  induction n generalizing v i with
  | zero => rfl
  | succ n ih =>
    have hbit := directBit_inst_probs i
    rw [directWalk, runDec, decision]
    cases hb : directBit i with
    | ok b j => rw [hb] at hbit; exact (ih _ j).trans hbit
    | raised e j => rw [hb] at hbit; exact hbit

theorem runDec_directDec_one (i : Inst) : runDec (directDec 1) i = (directBit i).map Bool.toNat := by
  rw [directDec, directWalk_snoc]
  simp only [directWalk, runDec, Res.bind_ok, Nat.mul_zero, Nat.zero_add]

/-- One direct decision more doubles the value and adds its bit. -/
theorem runDec_directDec_succ {n v b : Nat} {i j k : Inst} (h : runDec (directDec n) i = .ok v j)
    (hb : runDec (directDec 1) j = .ok b k) : runDec (directDec (n + 1)) i = .ok (2 * v + b) k := by
  rw [runDec_directDec_one] at hb
  obtain ⟨x, hx, rfl⟩ := Res.map_eq_ok.1 hb
  rw [directDec] at h ⊢
  rw [directWalk_snoc, h, Res.bind_ok, hx, Res.map_ok]

/-- A result tagged as a value, without the tag. -/
theorem Res.map_eq_ok_iff {α β : Type} {f : α → β} (hf : Function.Injective f) {r : Res α} {a : α} {j : Inst} :
    r.map f = .ok (f a) j ↔ r = .ok a j := by
  rw [Res.map_eq_ok]
  exact ⟨fun ⟨x, hx, hfx⟩ => hf hfx ▸ hx, fun h => ⟨a, h, rfl⟩⟩

theorem exec_decodeDirect_after {s : State} {i j : Inst} {n v : Nat} (hi : s.current = some i) :
    exec (.decodeDirect n) s = .next (s.after j (.num v)) ↔ runDec (directDec n) i = .ok v j :=
  (onCurrent_after hi).trans (Res.map_eq_ok_iff fun _ _ => Value.num.inj)

/-- Settles O18: a direct decision is a halving, then NORMALIZE; the walk of one decision more is one decision at the
end. -/
theorem decodeDirectRule : Obligations.DecodeDirectRule := by
  rintro s i n range code hi rfl hcode
  refine ⟨(exec_decodeDirect_after hi).2 rfl, fun hin => ?_, fun hin => ?_, fun v j b k hv hb => ?_⟩
  · obtain ⟨hr, hcd⟩ := halved_nat i
    rw [← hcode] at hcd
    obtain ⟨j, hj, hsame, hprobs, hnum⟩ := normalize_nat (i.halved (decide (i.range.toNat / 2 ≤ i.code.toNat))) (hr ▸ hin)
    rw [hr, hcd] at hnum
    refine ⟨j, (exec_decodeDirect_after hi).2 ?_, (halved_same i _).trans hsame, hprobs, hnum⟩
    rw [runDec_directDec_one, directBit_eq, hj]
    rfl
  · obtain ⟨v, j, hv, hlt, hsame, hge, hle, -⟩ := runDec_completes_frame (directDec_within n) (directDec_ensures n)
      (directDec_asksOnly n fun _ => True) hin
    have hprobs := directWalk_inst_probs n 0 i
    rw [show runDec (directWalk n 0) i = .ok v j from hv] at hprobs
    exact ⟨v, j, (exec_decodeDirect_after hi).2 hv, hlt, hsame, hprobs, hge, hle⟩
  · rw [← State.after_after s j k (.num v), exec_decodeDirect_after (s.current_after j (.num v))] at hb
    exact (exec_decodeDirect_after hi).2 (runDec_directDec_succ ((exec_decodeDirect_after hi).1 hv) hb)

/-! ## Bit trees (R95, R96) -/

theorem onCounters_num {ok : Inst → Bool} {d : Dec Nat} {s : State} {i j : Inst} {v : Nat} (hi : s.current = some i) :
    onCounters ok (fun i => (runDec d i).map .num) s = .next (s.after j (.num v)) ↔
      ok i = true ∧ runDec d i = .ok v j :=
  (onCounters_after hi).trans (and_congr_right fun _ => Res.map_eq_ok_iff fun _ _ => Value.num.inj)

/-- A DECODEBIT that completed on what an operation before it left. -/
theorem decodeBit_of_exec_after {s : State} {j k : Inst} {w : Value} {c : Counter} {b : Bool}
    (h : exec (.decodeBit c) (s.after j w) = .next (s.after k (.bit b))) : decodeBit c j = .ok b k := by
  rw [← State.after_after s j k w] at h
  exact (Res.map_eq_ok_iff fun _ _ => Value.bit.inj).1 ((onCounters_after (s.current_after j w)).1 h).2

/-- One decision more at the end of a tree asks the node reached (R95). -/
theorem runDec_treeDec_succ {t : Tree} {n v : Nat} {b : Bool} {i j k : Inst} (h : runDec (treeDec t n) i = .ok v j)
    (hb : decodeBit (t.counter (2 ^ n + v)) j = .ok b k) :
    runDec (treeDec t (n + 1)) i = .ok (2 * v + b.toNat) k := by
  rw [treeDec, runDec_map] at h ⊢
  obtain ⟨node, hnode, hv⟩ := Res.map_eq_ok.1 h
  obtain ⟨hge, -⟩ := runDec_ensures (treeWalk_ensures t n 1) hnode
  obtain rfl : node = 2 ^ n + v := by omega
  rw [treeWalk_snoc, hnode, Res.bind_ok, hb, Res.map_ok, Res.map_ok, Nat.pow_succ]
  congr 1
  omega

/-- One decision more at the end of a reverse tree asks the node its decisions lead to, and has the next weight (R96). -/
theorem runDec_reverseDec_succ {t : Tree} {base n v : Nat} {b : Bool} {i j k : Inst}
    (h : runDec (reverseDec t base n) i = .ok v j)
    (hb : decodeBit (t.counter (base + reverseNode n v)) j = .ok b k) :
    runDec (reverseDec t base (n + 1)) i = .ok (v + b.toNat * 2 ^ n) k := by
  obtain ⟨u, hu, hsnoc⟩ := reverseWalk_snoc t base n 1 1 0 (le_refl 1) h
  obtain rfl : u = v := by omega
  rw [Nat.sub_self, Nat.mul_zero, Nat.zero_add, hb] at hsnoc
  rw [reverseDec, hsnoc, Res.map_ok, Nat.zero_add, Nat.mul_one]

/-- Settles O19: a tree completes as a program does; the walk of one decision more is one decision at the end. -/
theorem decodeTreeRule : Obligations.DecodeTreeRule := by
  refine fun s i t n hi => ⟨fun hone => (onCounters_num hi).2 ⟨hone, rfl⟩, fun hentries hin => ?_,
    fun v j b k hentries hv hb => ?_⟩
  · obtain ⟨v, j, hv, hlt, hsame, hge, hle, hprob⟩ := runDec_completes_frame (treeDec_within t n) (treeDec_ensures t n)
      (treeDec_asksOnly t n) hin
    exact ⟨v, j, (onCounters_num hi).2 ⟨hentries, hv⟩, hlt, hsame, hge, hle, fun c hc =>
      hprob c fun ⟨m, h1, h2, hm⟩ => hc m h1 h2 hm⟩
  · obtain ⟨-, hv⟩ := (onCounters_num hi).1 hv
    exact (onCounters_num hi).2 ⟨hentries, runDec_treeDec_succ hv (decodeBit_of_exec_after hb)⟩

/-- Settles O20: the same of a reverse tree. -/
theorem decodeTreeReverseRule : Obligations.DecodeTreeReverseRule := by
  refine fun s i t base n hi => ⟨fun hone => (onCounters_num hi).2 ⟨hone, rfl⟩, fun hentries hin => ?_,
    fun v j b k hentries hv hb => ?_⟩
  · obtain ⟨v, j, hv, hlt, hsame, hge, hle, hprob⟩ := runDec_completes_frame (reverseDec_within t base n)
      (reverseDec_ensures t base n) (reverseDec_asksOnly t base n) hin
    exact ⟨v, j, (onCounters_num hi).2 ⟨hentries, hv⟩, hlt, hsame, hge, hle, fun c hc =>
      hprob c fun ⟨m, h1, h2, hm⟩ => hc m h1 h2 hm⟩
  · obtain ⟨-, hv⟩ := (onCounters_num hi).1 hv
    exact (onCounters_num hi).2 ⟨hentries, runDec_reverseDec_succ hv (decodeBit_of_exec_after hb)⟩

end Sys2Proof.Machine
end

section
/-! SUPPORT. The end of the stream: what is left where a byte is missing, how the rows that only decode raise, and that on a
stream cut short they raise at the cut. -/

namespace Sys2Proof.Machine

/-! ## A byte missing in a decision (R91, R97) -/

/-- DECODEBIT at the end of the stream: the decision is made, the shift is missing (R93, R97). -/
theorem exec_decodeBit_exhausted {s : State} {i : Inst} {c : Counter} {bound : Nat} (hi : s.current = some i)
    (hc : i.hasCounter c = true) (hin : i.srcLen ≤ i.ip) (hbound : bound = i.range.toNat / 2048 * (i.prob c).toNat)
    (hrange : (i.decided c (decide (bound ≤ i.code.toNat))).range.toNat < 0x1000000) :
    exec (.decodeBit c) s = .next (s.trapped (i.decided c (decide (bound ≤ i.code.toNat))) .inputExhausted) :=
  onCounters_raised hi hc (by rw [decodeBit_eq hbound, normalize_raised hrange hin]; rfl)

/-- DECODEDIRECT at the end of the stream: its first decision is made, the shift is missing (R94, R97). -/
theorem runDec_directDec_exhausted {i : Inst} (hrange : i.range.toNat / 2 < 0x1000000) (hin : i.srcLen ≤ i.ip) (n : Nat) :
    runDec (directDec (n + 1)) i =
      .raised .inputExhausted (i.halved (decide (i.range.toNat / 2 ≤ i.code.toNat))) := by
  have hbit : directBit i = .raised .inputExhausted (i.halved (decide (i.range.toNat / 2 ≤ i.code.toNat))) := by
    rw [directBit_eq, normalize_raised (i := i.halved _) (by rw [(halved_nat i).1]; exact hrange) hin]
    rfl
  rw [directDec, directWalk, runDec, decision, hbit]

/-! ## A stream put in place of another -/

theorem State.after_putInst (s : State) (i j : Inst) (v : Value) : (s.putInst s.cur i).after j v = s.after j v := by
  simp [State.after, State.putInst]

theorem State.trapped_putInst (s : State) (i j : Inst) (e : Err) :
    (s.putInst s.cur i).trapped j e = s.trapped j e := by
  simp [State.trapped, State.putInst]

/-- The same exception taken stopped at the same place of the stream. -/
theorem State.trapped_ip {s : State} {i j : Inst} {e f : Err} (h : s.trapped i e = s.trapped j f) : i.ip = j.ip := by
  have hcur := congrArg State.current h
  rw [State.current_trapped, State.current_trapped] at hcur
  simpa only [Inst.abandoned_ip] using congrArg Inst.ip (Option.some.inj hcur)

theorem onCurrent_eq_onCounters (f : Inst → Res Value) (s : State) : onCurrent f s = onCounters (fun _ => true) f s := by
  unfold onCurrent onCounters
  split <;> rfl

/-- An operation that left a trapped state raised that error, where that state stands in the stream. -/
theorem onCounters_trapped {ok : Inst → Bool} {f : Inst → Res Value} {s : State} {i j : Inst} {e : Err}
    (hi : s.current = some i) (h : onCounters ok f s = .next (s.trapped j e)) : ∃ k, f i = .raised e k ∧ k.ip = j.ip := by
  obtain ⟨i', hi', -, ht⟩ := onCounters_settles h
  cases hi.symm.trans hi'
  cases hf : f i with
  | ok v k =>
    rw [hf, settle_ok] at ht
    exact absurd ht.symm State.after_ne_trapped
  | raised e' k =>
    rw [hf, settle_raised] at ht
    exact ⟨k, by rw [State.trapped_inj ht], (State.trapped_ip ht).symm⟩

/-! ## How an operation that reads the stream raises -/

/-- Error `e` at `j` is a byte missing at the end of the stream of `i` (R91, R204). -/
def exhausted (i : Inst) (e : Err) (j : Inst) : Prop :=
  e = .inputExhausted ∧ i.srcLen ≤ j.ip ∧ (i.ip ≤ i.srcLen → j.ip = i.srcLen)

theorem Decodes.exhausted {α : Type} {n : Nat} {i j : Inst} {e : Err} {r : Res α} (h : Decodes n i r)
    (hr : r = .raised e j) : exhausted i e j := by
  subst hr
  obtain ⟨-, -, -, he, hip, hend⟩ := h
  exact ⟨he, hip, hend⟩

theorem runDec_exhausted {α : Type} {d : Dec α} {i j : Inst} {e : Err} (h : runDec d i = .raised e j) :
    exhausted i e j := by
  obtain ⟨n, hn⟩ := Dec.within_some d
  exact (runDec_decodes hn i).exhausted h

theorem getByte_raised_error {d : Word} {i j : Inst} {e : Err} (h : getByte d i = .raised e j) :
    e = .distanceOutOfRange := by
  unfold getByte at h
  split at h <;> cases h
  rfl

/-- A matched literal raises for a match byte out of reach, or at the end of the stream (R111, R113). -/
theorem literalMatched_raised {i j : Inst} {e : Err} (h : literalMatched i = .raised e j) :
    exhausted i e j ∨ e = .distanceOutOfRange := by
  rcases Res.bind_eq_raised.1 h with hget | ⟨mb, k, hget, hlit⟩
  · exact .inr (getByte_raised_error hget)
  · obtain rfl := getByte_inst hget
    exact .inl (runDec_exhausted hlit)

/-- A literal looks for the match byte from state 7 up only (R111, R114). -/
theorem litDecode_raised {i j : Inst} {e : Err} (h : litDecode i = .raised e j) :
    exhausted i e j ∨ e = .distanceOutOfRange ∧ 7 ≤ i.st.val := by
  unfold litDecode at h
  split at h
  · next hst => exact (literalMatched_raised h).imp_right fun he => ⟨he, of_decide_eq_true hst⟩
  · exact .inl (runDec_exhausted h)

/-- RC_INIT raises at the end of the stream, or for a rejected first byte (R90, R91). -/
theorem rcInit_raised {pol : InitByte0Policy} {i j : Inst} {e : Err} (h : rcInit pol i = .raised e j) :
    exhausted i e j ∨ e = .formatMismatch ∧ pol = .reject := by
  rcases Res.bind_eq_raised.1 h with hload | ⟨u, k, -, hbyte⟩
  · exact .inl ((loadCode_decodes 5 { i with range := 0xFFFFFFFF, code := 0 }).1.exhausted hload)
  · split at hbyte <;> cases hbyte
    next hpol => exact .inr ⟨rfl, hpol.1⟩

/-! ## The rows that only decode -/

/-- The errors of a row that only decodes, by row: the end of the stream, a distance out of reach, a rejected first byte
(R90, R91, R111, R141). -/
def decodingError (row : Instr) (pol : InitByte0Policy) (i : Inst) (e : Err) (j : Inst) : Prop :=
  exhausted i e j ∨
    e = .distanceOutOfRange ∧
      ((∃ d, row = .getByte d) ∨ row = .literalMatched ∨ row = .litDecode ∧ 7 ≤ i.st.val) ∨
    e = .formatMismatch ∧ (row = .rcInit ∨ row = .streamInit) ∧ pol = .reject

/-- A row executes, under a policy, as one operation on what is current, whose outcome on a stream cut short is known and
whose errors are those of a row that only decodes. -/
def Reads (row : Instr) (pol : InitByte0Policy) : Prop :=
  ∃ (ok : Inst → Bool) (f : Inst → Res Value), (∀ (i : Inst) src n, ok { i with src := src, srcLen := n } = ok i) ∧
    Cuts f ∧ (∀ i e j, f i = .raised e j → decodingError row pol i e j) ∧
    ∀ s : State, s.params.initByte0 = pol → exec row s = onCounters ok f s

namespace Reads

/-- A row that acts on what is current through an operation and tags its result. -/
theorem current {α : Type} {row : Instr} {pol : InitByte0Policy} {F : Inst → Res α} {g : α → Value} (hcuts : Cuts F)
    (herr : ∀ i e j, F i = .raised e j → decodingError row pol i e j)
    (hexec : ∀ s : State, s.params.initByte0 = pol → exec row s = onCurrent (fun i => (F i).map g) s) : Reads row pol :=
  ⟨fun _ => true, _, fun _ _ _ => rfl, hcuts.map g, fun i e j h => herr i e j (Res.map_eq_raised.1 h),
    fun s hs => (hexec s hs).trans (onCurrent_eq_onCounters _ s)⟩

/-- A row whose operand names counters. -/
theorem counters {α : Type} {row : Instr} {pol : InitByte0Policy} {ok : Inst → Bool} {F : Inst → Res α} {g : α → Value}
    (hok : ∀ (i : Inst) src n, ok { i with src := src, srcLen := n } = ok i) (hcuts : Cuts F)
    (herr : ∀ i e j, F i = .raised e j → exhausted i e j)
    (hexec : ∀ s, exec row s = onCounters ok (fun i => (F i).map g) s) : Reads row pol :=
  ⟨ok, _, hok, hcuts.map g, fun i e j h => .inl (herr i e j (Res.map_eq_raised.1 h)), fun s _ => hexec s⟩

/-- A row that runs a decision program. -/
theorem program {α : Type} {row : Instr} {pol : InitByte0Policy} (d : Dec α) (g : α → Value)
    (hexec : ∀ s, exec row s = onCurrent (fun i => (runDec d i).map g) s) : Reads row pol :=
  current (Cuts.runDec d) (fun _ _ _ h => .inl (runDec_exhausted h)) fun s _ => hexec s

end Reads

/-- Every row that only decodes reads the stream so. -/
theorem decodesOnly_reads {row : Instr} (hrow : Instr.decodesOnly row = true) (pol : InitByte0Policy) : Reads row pol := by
  cases row with
  | create | destroy | reset | decompress | hdr | run | putByte | copyMatch => cases hrow
  | lit | newMatch | eos | shortRep | longRep0 | longRep1 | longRep2 | longRep3 => cases hrow
  | decodeBit c =>
    exact .counters (ok := fun i => i.hasCounter c) (fun _ _ _ => rfl) (Cuts.decodeBit c)
      (fun i _ _ h => (decodeBit_decodes c i).exhausted h) fun _ => rfl
  | decodeTree t n =>
    exact .counters (ok := fun i => i.hasEntries t (2 ^ n)) (fun _ _ _ => rfl) (Cuts.runDec _)
      (fun _ _ _ h => runDec_exhausted h) fun _ => rfl
  | decodeTreeReverse t base n =>
    exact .counters (ok := fun i => i.hasEntries t (base + 2 ^ n)) (fun _ _ _ => rfl) (Cuts.runDec _)
      (fun _ _ _ h => runDec_exhausted h) fun _ => rfl
  | rcInit =>
    exact .current (g := fun _ => .none) (Cuts.rcInit pol) (fun _ _ _ h => (rcInit_raised h).imp_right fun ⟨he, hpol⟩ =>
      .inr ⟨he, .inl rfl, hpol⟩) fun s hs => by subst hs; rfl
  | streamInit =>
    exact .current (g := fun _ => .none) (Cuts.rcInit pol) (fun _ _ _ h => (rcInit_raised h).imp_right fun ⟨he, hpol⟩ =>
      .inr ⟨he, .inr rfl, hpol⟩) fun s hs => by subst hs; rfl
  | nextByte => exact .current Cuts.nextByte (fun i _ _ h => .inl ((nextByte_decodes i).1.exhausted h)) fun _ _ => rfl
  | normalize => exact .current Cuts.normalize (fun i _ _ h => .inl ((normalize_decodes i).exhausted h)) fun _ _ => rfl
  | getByte d =>
    exact .current (Cuts.getByte d) (fun _ _ _ h => .inr (.inl ⟨getByte_raised_error h, .inl ⟨d, rfl⟩⟩)) fun _ _ => rfl
  | literalPlain => exact .current Cuts.literalPlain (fun _ _ _ h => .inl (runDec_exhausted h)) fun _ _ => rfl
  | literalMatched =>
    exact .current Cuts.literalMatched (fun _ _ _ h => (literalMatched_raised h).imp_right fun he =>
      .inl ⟨he, .inr (.inl rfl)⟩) fun _ _ => rfl
  | litDecode =>
    exact .current Cuts.litDecode (fun _ _ _ h => (litDecode_raised h).imp_right fun ⟨he, hst⟩ =>
      .inl ⟨he, .inr (.inr ⟨rfl, hst⟩)⟩) fun _ _ => rfl
  | _ => exact .program _ _ fun _ => rfl

/-- Where such a row raises. -/
theorem Reads.trapped {row : Instr} {s : State} (h : Reads row s.params.initByte0) {i j : Inst} {e : Err}
    (hi : s.current = some i) (ht : exec row s = .next (s.trapped j e)) :
    decodingError row s.params.initByte0 i e j := by
  obtain ⟨ok, f, -, -, herr, hexec⟩ := h
  rw [hexec s rfl] at ht
  obtain ⟨k, hk, hip⟩ := onCounters_trapped hi ht
  have hkerr := herr i e k hk
  rwa [decodingError, exhausted, hip] at hkerr

/-- Such a row on a stream cut to `n` bytes, where it completes on the whole one. -/
theorem Reads.cut {row : Instr} {s : State} (h : Reads row s.params.initByte0) {i i' j : Inst} {n : Nat} {v : Value}
    (hi : s.current = some i) (hcut : cutTo i i' n) (hn : i.ip ≤ n) (hj : exec row s = .next (s.after j v)) :
    (j.ip ≤ n → ∃ k, exec row (s.putInst s.cur i') = .next (s.after k v) ∧ cutTo j k n) ∧
      (n < j.ip → ∃ k, exec row (s.putInst s.cur i') = .next (s.trapped k .inputExhausted) ∧ k.ip = n) := by
  obtain ⟨ok, f, hok, hcuts, -, hexec⟩ := h
  rw [hexec s rfl] at hj
  obtain ⟨hoki, hf⟩ := (onCounters_after hi).1 hj
  have hok' : ok i' = true := by rw [hcut.1, hok, hoki]
  obtain ⟨hwhole, hshort⟩ := hcuts.2 hcut hn hf
  rw [hexec (s.putInst s.cur i') rfl]
  refine ⟨fun hle => ?_, fun hlt => ?_⟩
  · obtain ⟨k, hk, hkcut⟩ := hwhole hle
    exact ⟨k, (onCounters_ok (s.current_putInst i') hok' hk).trans (by rw [State.after_putInst]), hkcut⟩
  · obtain ⟨k, hk, hip, -⟩ := hshort hlt
    exact ⟨k, (onCounters_raised (s.current_putInst i') hok' hk).trans (by rw [State.trapped_putInst]), hip⟩

/-! ## The operands of packets -/

theorem operands_cuts {row : Instr} {f : Inst → Res Unit} (h : Instr.operands row = some f) : Cuts f := by
  cases row with
  | lit => cases h; exact Cuts.litDecode.map _
  | newMatch | eos => cases h; exact Cuts.matchOperands.map _
  | longRep0 | longRep1 | longRep2 | longRep3 => cases h; exact (Cuts.runDec_at fun _ ps => lenDec .forRep ps).map _
  | _ => cases h

theorem operands_raised {row : Instr} {f : Inst → Res Unit} (h : Instr.operands row = some f) {i j : Inst} {e : Err}
    (hj : f i = .raised e j) : exhausted i e j ∨ e = .distanceOutOfRange ∧ row = .lit ∧ 7 ≤ i.st.val := by
  cases row with
  | lit =>
    cases h
    exact (litDecode_raised (Res.map_eq_raised.1 hj)).imp_right fun ⟨he, hst⟩ => ⟨he, rfl, hst⟩
  | newMatch | eos | longRep0 | longRep1 | longRep2 | longRep3 =>
    cases h
    exact .inl (runDec_exhausted (Res.map_eq_raised.1 hj))
  | _ => cases h

theorem sameButDecoder.op {i j : Inst} (h : sameButDecoder i j) : j.op = i.op := by rw [h]

/-- Rotating the rep registers touches nothing else (R161). -/
theorem rotateRep_eq_withReps (i : Inst) (k : Fin 4) :
    ∃ r0 r1 r2 r3, i.rotateRep k = i.withReps r0 r1 r2 r3 i.st := by
  match k with
  | 0 | 1 | 2 | 3 => exact ⟨_, _, _, _, rfl⟩

/-- A long rep raises what its length raises, which does not depend on the rep registers (R157 to R160). -/
theorem longRepPacket_raised {i j : Inst} {e : Err} (k : Fin 4) (h : lenDecode .forRep i.posState i = .raised e j) :
    ∃ x, longRepPacket k i = .raised e x ∧ x.ip = j.ip ∧ x.op = j.op := by
  obtain ⟨r0, r1, r2, r3, hrot⟩ := rotateRep_eq_withReps i k
  refine ⟨j.withReps r0 r1 r2 r3 i.st, ?_, rfl, rfl⟩
  rw [lenDecode] at h
  rw [longRepPacket, lenDecode, hrot, runDec_withReps, h]
  rfl

/-- A packet raises what its operands raise, before it writes a byte (R211). -/
theorem exec_operands_raised {row : Instr} {f : Inst → Res Unit} (h : Instr.operands row = some f) {s : State} {i j : Inst}
    {e : Err} (hi : s.current = some i) (hj : f i = .raised e j) :
    ∃ k, exec row s = .next (s.trapped k e) ∧ k.ip = j.ip ∧ k.op = i.op := by
  cases row with
  | lit =>
    cases h
    have hlit := Res.map_eq_raised.1 hj
    have hsame := litDecode_inst_same i
    rw [hlit] at hsame
    exact ⟨j, onCurrent_raised hi (by rw [litPacket, hlit]; rfl), rfl, hsame.op⟩
  | newMatch | eos =>
    cases h
    have hops := Res.map_eq_raised.1 hj
    have hsame := runDec_same (matchOperandsDec i.posState) i
    rw [← matchOperands, hops] at hsame
    exact ⟨j, onCurrent_raised hi (by rw [matchOrEos, hops]; rfl), rfl, hsame.op⟩
  | longRep0 | longRep1 | longRep2 | longRep3 =>
    cases h
    have hlen := Res.map_eq_raised.1 hj
    have hsame := runDec_same (lenDec .forRep i.posState) i
    rw [← lenDecode, hlen] at hsame
    obtain ⟨k, hk, hip, hop⟩ := longRepPacket_raised _ hlen
    exact ⟨k, onCurrent_raised hi (by rw [hk]; rfl), hip, hop.trans hsame.op⟩
  | _ => cases h

/-- Settles O22: NORMALIZE raises before it shifts; each row that only decodes runs one operation whose errors are known and
which does the same on every stream as far as it reads; a packet raises with its operands. -/
theorem inputExhaustedTraps : Obligations.InputExhaustedTraps := by
  refine ⟨fun s i c n bound hi hin hbound => ?_, fun s i row hi => ⟨fun hrow => ?_, fun f hf => ?_, fun e j hj => ?_,
    fun i' n k j hcut hn hlt hj => ?_⟩⟩
  · obtain ⟨hr, hcd⟩ := decided_nat hbound
    obtain ⟨hasked, hother⟩ := decided_prob i c (decide (bound ≤ i.code.toNat))
    refine ⟨onCurrent_raised hi (by rw [nextByte_raised hin]; rfl),
      fun hrange => onCurrent_raised hi (by rw [normalize_raised hrange hin]; rfl), fun hc hlt hlow => ?_,
      fun hc hle hlow => ?_, fun hlow => ?_⟩
    · rw [if_pos hlt] at hr hcd
      refine ⟨_, exec_decodeBit_exhausted hi hc hin hbound (by rw [hr]; exact hlow), rfl, hr, BitVec.eq_of_toNat_eq hcd,
        rfl, hasked.trans ?_, hother⟩
      rw [decide_eq_false (Nat.not_le.2 hlt)]
    · rw [if_neg (Nat.not_lt.2 hle)] at hr hcd
      refine ⟨_, exec_decodeBit_exhausted hi hc hin hbound (by rw [hr]; exact hlow), rfl, hr, hcd, rfl,
        hasked.trans ?_, hother⟩
      rw [decide_eq_true hle]
    · obtain ⟨hr, hcd⟩ := halved_nat i
      refine ⟨i.halved _, onCurrent_raised hi ?_, halved_same i _, rfl, hr, rfl, hcd⟩
      rw [runDec_directDec_exhausted hlow hin]
      rfl
  · have hreads := decodesOnly_reads hrow s.params.initByte0
    exact ⟨fun e j ht => hreads.trapped hi ht, fun i' n v j hcut hn hj => hreads.cut hi hcut hn hj⟩
  · refine ⟨fun e j hj => ⟨(operands_raised hf hj).imp_left fun ⟨he, hip, _⟩ => ⟨he, hip⟩,
      exec_operands_raised hf hi hj⟩, fun i' n j hcut hn hlt hj => ?_⟩
    obtain ⟨x, hx, hxip, -⟩ := ((operands_cuts hf).2 hcut hn hj).2 hlt
    obtain ⟨k, hk, hip, hop⟩ := exec_operands_raised hf (s.current_putInst i') hx
    rw [State.trapped_putInst] at hk
    exact ⟨k, hk, hip.trans hxip, hop.trans (by rw [hcut.1])⟩
  · obtain ⟨he, hip, -⟩ := runDec_exhausted hj
    exact ⟨he, hip⟩
  · obtain ⟨x, hx, hip, -⟩ := (Cuts.nextKind.2 hcut hn hj).2 hlt
    exact ⟨x, hx, hip⟩

end Sys2Proof.Machine
end

section
/-! SUPPORT. Two runs side by side: what an operation does on what agrees in all but `status`, `endReason` and the free
values of unlisted bytes (log 10) agrees so again. -/

namespace Sys2Proof.Machine

/-- RC_INIT finds its first byte missing (R90, R91). -/
theorem rcInit_at_end (pol : InitByte0Policy) {i : Inst} (h : i.srcLen ≤ i.ip) :
    rcInit pol i = .raised .inputExhausted { i with range := 0xFFFFFFFF, code := 0 } := by
  have hbyte := nextByte_raised (i := { i with range := 0xFFFFFFFF, code := 0 }) h
  rw [rcInit, loadCode, hbyte, Res.bind_raised, Res.bind_raised]

/-! ## What agrees -/

/-- All that a run can depend on: everything but `status`, `endReason` and which unspecified contents the unlisted bytes
are. -/
def Inst.core (i : Inst) : Inst := { i with status := .ok, endReason := .outputFull, epoch := 0 }

/-- `j` agrees with `i` in all that a run can depend on, and every byte a run can read is listed: SRC below `srcLen`, OUT
below `op` (R25, R26, R220). -/
def Twin (i j : Inst) : Prop :=
  j.core = i.core ∧ (∀ a, a < i.srcLen → (Memory.read i.src a).isSome) ∧
    ∀ a, a < i.op → (Memory.read i.out a).isSome

/-- Two results that agree: the same value and twins, or the same error. -/
def Alike {α : Type} : Res α → Res α → Prop
  | .ok a i, .ok b j => a = b ∧ Twin i j
  | .raised e _, .raised f _ => e = f
  | _, _ => False

namespace Twin

/-- Whatever does not depend on what may differ is the same of both. -/
theorem field {β : Type} {i j : Inst} (h : Twin i j) (g : Inst → β) (hg : ∀ k : Inst, g k.core = g k) : g j = g i := by
  rw [← hg j, h.1, hg i]

/-- A run reads the same bytes of SRC and of OUT from both: they are listed. -/
theorem srcByte {i j : Inst} (h : Twin i j) {a : Nat} (ha : a < i.srcLen) : j.srcByte a = i.srcByte a := by
  obtain ⟨b, hb⟩ := Option.isSome_iff_exists.1 (h.2.1 a ha)
  have hsrc : j.src = i.src := h.field (·.src) fun _ => rfl
  simp only [Inst.srcByte, hsrc, hb, Option.getD_some]

theorem outByte {i j : Inst} (h : Twin i j) {a : Nat} (ha : a < i.op) : j.outByte a = i.outByte a := by
  obtain ⟨b, hb⟩ := Option.isSome_iff_exists.1 (h.2.2 a ha)
  have hout : j.out = i.out := h.field (·.out) fun _ => rfl
  simp only [Inst.outByte, hout, hb, Option.getD_some]

/-- An update of registers that leaves the memories and `op` alone. -/
theorem update {i j : Inst} (h : Twin i j) (u : Inst → Inst) (hu : ∀ k : Inst, (u k).core = (u k.core).core)
    (hk : ∀ k : Inst, (u k).src = k.src ∧ (u k).srcLen = k.srcLen ∧ (u k).out = k.out ∧ (u k).op = k.op) :
    Twin (u i) (u j) := by
  obtain ⟨hsrc, hlen, hout, hop⟩ := hk i
  refine ⟨by rw [hu j, h.1, ← hu i], ?_, ?_⟩
  · rw [hsrc, hlen]
    exact h.2.1
  · rw [hout, hop]
    exact h.2.2

/-- A byte appended to both (R140). -/
theorem appended {i j : Inst} (h : Twin i j) (b : Byte) : Twin (i.appended b) (j.appended b) := by
  have hu : ∀ k : Inst, (k.appended b).core = (k.core.appended b).core := fun _ => rfl
  refine ⟨by rw [hu j, h.1, ← hu i], h.2.1, fun a ha => ?_⟩
  by_cases hao : a = i.op
  · subst hao
    exact Option.isSome_iff_exists.2 ⟨b, Table.get_set_same _ _ _⟩
  · have hlt : a < i.op := Nat.lt_of_le_of_ne (Nat.le_of_lt_succ ha) hao
    exact (congrArg Option.isSome (Table.get_set_other i.out b hao)).trans (h.2.2 a hlt)

end Twin

/-- An operation that a run is made of: on twins its results agree. -/
def Twins {α : Type} (F : Inst → Res α) : Prop := ∀ i j : Inst, Twin i j → Alike (F i) (F j)

namespace Twins

theorem done {α : Type} (a : α) : Twins fun i => Res.ok a i := fun _ _ h => ⟨rfl, h⟩

theorem bind {α β : Type} {F : Inst → Res α} {G : α → Inst → Res β} (hF : Twins F) (hG : ∀ a, Twins (G a)) :
    Twins fun i => (F i).bind G := by
  intro i j h
  have hr := hF i j h
  revert hr
  show Alike (F i) (F j) → Alike ((F i).bind G) ((F j).bind G)
  cases F i <;> cases F j
  · rintro ⟨rfl, hij⟩
    exact hG _ _ _ hij
  · exact False.elim
  · exact False.elim
  · exact id

theorem map {α β : Type} {F : Inst → Res α} (f : α → β) (hF : Twins F) : Twins fun i => (F i).map f := by
  refine (congrArg Twins (funext fun i => ?_)).mp (hF.bind fun a => done (f a))
  cases F i <;> rfl

/-- First an update that leaves the memories and `op` alone. -/
theorem after {α : Type} {F : Inst → Res α} (u : Inst → Inst) (hu : ∀ k : Inst, (u k).core = (u k.core).core)
    (hk : ∀ k : Inst, (u k).src = k.src ∧ (u k).srcLen = k.srcLen ∧ (u k).out = k.out ∧ (u k).op = k.op)
    (hF : Twins F) : Twins fun i => F (u i) := fun i j h => hF (u i) (u j) (h.update u hu hk)

/-- An operation chosen by what both agree in. -/
theorem choose {α β : Type} (g : Inst → β) {F : β → Inst → Res α} (hg : ∀ k : Inst, g k.core = g k)
    (hF : ∀ b, Twins (F b)) : Twins fun i => F (g i) i := by
  intro i j h
  show Alike (F (g i) i) (F (g j) j)
  rw [h.field g hg]
  exact hF _ i j h

theorem ite {α : Type} {F G : Inst → Res α} (p : Inst → Bool) (hp : ∀ k : Inst, p k.core = p k) (hF : Twins F)
    (hG : Twins G) : Twins fun i => if p i then F i else G i :=
  choose p (F := fun b i => if b then F i else G i) hp fun b => by
    cases b
    · exact hG
    · exact hF

/-! ## The decoder -/

theorem nextByte : Twins Machine.nextByte := by
  intro i j h
  have hlen : j.srcLen = i.srcLen := h.field (·.srcLen) fun _ => rfl
  have hip : j.ip = i.ip := h.field (·.ip) fun _ => rfl
  by_cases hin : i.ip < i.srcLen
  · rw [nextByte_ok hin, nextByte_ok (by omega)]
    refine ⟨by rw [hip, h.srcByte hin], ?_⟩
    exact h.update (fun k => { k with ip := k.ip + 1 }) (fun _ => rfl) fun _ => ⟨rfl, rfl, rfl, rfl⟩
  · rw [nextByte_raised (by omega), nextByte_raised (by omega)]
    exact rfl

theorem normalize : Twins Machine.normalize := by
  refine (congrArg Twins (funext fun i => ?_)).mp
    (ite (fun i => decide (i.range < Config.top)) (fun _ => rfl)
      (nextByte.bind fun b => after (fun i => { i with range := i.range <<< 8, code := shiftIn i.code b }) (fun _ => rfl)
        (fun _ => ⟨rfl, rfl, rfl, rfl⟩) (done ())) (done ()))
  simp [Machine.normalize]

theorem decodeBit (c : Counter) : Twins (Machine.decodeBit c) := by
  refine (congrArg Twins (funext fun i => (decodeBit_eq (c := c) (i := i) rfl).symm)).mp
    (choose (fun i => decide (i.range.toNat / 2048 * (i.prob c).toNat ≤ i.code.toNat))
      (F := fun b i => (Machine.normalize (i.decided c b)).map fun _ => b) (fun _ => rfl) fun b => ?_)
  exact (after (fun i => i.decided c b) (fun _ => rfl) (fun _ => ⟨rfl, rfl, rfl, rfl⟩) normalize).map fun _ => b

theorem directBit : Twins Machine.directBit := by
  refine (congrArg Twins (funext fun i => (directBit_eq i).symm)).mp
    (choose (fun i => decide (i.range.toNat / 2 ≤ i.code.toNat))
      (F := fun b i => (Machine.normalize (i.halved b)).map fun _ => b) (fun _ => rfl) fun b => ?_)
  exact (after (fun i => i.halved b) (fun _ => rfl) (fun _ => ⟨rfl, rfl, rfl, rfl⟩) normalize).map fun _ => b

theorem runDec {α : Type} (d : Dec α) : Twins (Machine.runDec d) := by
  induction d with
  | done a => exact done a
  | ask q k ih =>
    have hq : Twins (decision q) := by
      cases q
      · exact decodeBit _
      · exact directBit
    refine (congrArg Twins (funext fun i => ?_)).mp (hq.bind ih)
    simp only [Machine.runDec]
    cases decision q i <;> rfl

theorem loadCode (n : Nat) : Twins (Machine.loadCode n) := by
  induction n with
  | zero => exact done ()
  | succ n ih =>
    exact nextByte.bind fun b => after (fun i => { i with code := shiftIn i.code b }) (fun _ => rfl)
      (fun _ => ⟨rfl, rfl, rfl, rfl⟩) ih

/-- An error, whatever it is raised on. -/
theorem raise {α : Type} (e : Err) : Twins fun i => Res.raised (α := α) e i := fun _ _ _ => rfl

/-- RC_INIT examines the first byte after five have been read, so it is listed (R90). -/
theorem rcInit (pol : InitByte0Policy) : Twins (Machine.rcInit pol) := by
  intro i j h
  have hload : Twins fun k => Machine.loadCode 5 { k with range := 0xFFFFFFFF, code := 0 } :=
    after (fun k => { k with range := 0xFFFFFFFF, code := 0 }) (fun _ => rfl) (fun _ => ⟨rfl, rfl, rfl, rfl⟩) (loadCode 5)
  have hlen : j.srcLen = i.srcLen := h.field (·.srcLen) fun _ => rfl
  by_cases hsrc : 0 < i.srcLen
  · rw [Machine.rcInit, Machine.rcInit, h.srcByte hsrc]
    refine bind hload (fun _ => ?_) i j h
    by_cases hbyte : pol = .reject ∧ i.srcByte 0 ≠ 0
    · simp only [if_pos hbyte]
      exact raise _
    · simp only [if_neg hbyte]
      exact done ()
  · rw [rcInit_at_end pol (by omega), rcInit_at_end pol (by omega)]
    exact rfl

/-! ## The window -/

theorem getByte (d : Word) : Twins (Machine.getByte d) := by
  intro i j h
  have hbad : j.badDistance d = i.badDistance d := h.field (·.badDistance d) fun _ => rfl
  have hop : j.op = i.op := h.field (·.op) fun _ => rfl
  cases hb : i.badDistance d with
  | true =>
    rw [hb] at hbad
    rw [getByte_raised (Inst.badDistance_true.1 hb), getByte_raised (Inst.badDistance_true.1 hbad)]
    exact rfl
  | false =>
    rw [hb] at hbad
    obtain ⟨hlt, hdict⟩ := Inst.badDistance_false.1 hb
    obtain ⟨hlt', hdict'⟩ := Inst.badDistance_false.1 hbad
    rw [getByte_ok hlt hdict, getByte_ok hlt' hdict', Inst.back, Inst.back, hop, h.outByte (by omega)]
    exact ⟨rfl, h⟩

theorem putByte (b : Byte) : Twins (Machine.putByte b) := by
  intro i j h
  have hop : j.op = i.op := h.field (·.op) fun _ => rfl
  have hcap : j.destCapacity = i.destCapacity := h.field (·.destCapacity) fun _ => rfl
  by_cases hroom : i.op < i.destCapacity
  · rw [putByte_ok b hroom, putByte_ok b (by omega)]
    exact ⟨rfl, h.appended b⟩
  · rw [putByte_raised b (by omega), putByte_raised b (by omega)]
    exact rfl

/-- A copy in reach reads bytes already produced. -/
theorem copyLoop {d : Word} {n : Nat} {i j : Inst} (h : Twin i j) (hd : d.toNat < i.op) :
    Alike (Machine.copyLoop d n i) (Machine.copyLoop d n j) := by
  induction n generalizing i j with
  | zero => exact ⟨rfl, h⟩
  | succ n ih =>
    have hop : j.op = i.op := h.field (·.op) fun _ => rfl
    have hcap : j.destCapacity = i.destCapacity := h.field (·.destCapacity) fun _ => rfl
    have hback : j.back d = i.back d := by rw [Inst.back, Inst.back, hop, h.outByte (by omega)]
    rw [Machine.copyLoop, Machine.copyLoop, hback]
    by_cases hroom : i.op < i.destCapacity
    · rw [putByte_ok _ hroom, putByte_ok _ (by omega)]
      exact ih (h.appended _) (Nat.lt_succ_of_lt hd)
    · rw [putByte_raised _ (by omega), putByte_raised _ (by omega)]
      exact rfl

theorem copyMatch (d : Word) (n : Nat) : Twins (Machine.copyMatch d n) := by
  intro i j h
  have hbad : j.badDistance d = i.badDistance d := h.field (·.badDistance d) fun _ => rfl
  rw [Machine.copyMatch, Machine.copyMatch, hbad]
  cases hb : i.badDistance d with
  | true => exact rfl
  | false => exact copyLoop h (Inst.badDistance_false.1 hb).1

/-! ## The packets -/

theorem literalPlain : Twins Machine.literalPlain :=
  choose (·.litContext) (F := fun ctx i => Machine.runDec (plainDec ctx) i) (fun _ => rfl) fun _ => runDec _

theorem literalMatched : Twins Machine.literalMatched :=
  choose (·.rep0) (F := fun d i => (Machine.getByte d i).bind fun mb k => Machine.runDec (matchedDec k.litContext mb) k)
    (fun _ => rfl) fun d => (getByte d).bind fun mb =>
      choose (·.litContext) (F := fun ctx i => Machine.runDec (matchedDec ctx mb) i) (fun _ => rfl) fun _ => runDec _

theorem litDecode : Twins Machine.litDecode :=
  ite (fun i => matchedState i.st) (fun _ => rfl) literalMatched literalPlain

theorem litPacket : Twins Machine.litPacket :=
  choose (·.st) (F := fun st i => (Machine.litDecode i).bind fun b k =>
      (Machine.putByte b k).bind fun _ x => .ok () { x with st := litNext st }) (fun _ => rfl) fun st =>
    litDecode.bind fun b => (putByte b).bind fun _ =>
      after (fun x => { x with st := litNext st }) (fun _ => rfl) (fun _ => ⟨rfl, rfl, rfl, rfl⟩) (done ())

theorem matchOrEos : Twins Machine.matchOrEos := by
  have hoperands : Twins matchOperands :=
    choose (·.posState) (F := fun ps i => Machine.runDec (matchOperandsDec ps) i) (fun _ => rfl) fun _ => runDec _
  refine hoperands.bind fun nd => ?_
  by_cases heos : nd.2 = Config.eosDistance
  · simp only [if_pos heos]
    exact after endRun (fun _ => rfl) (fun _ => ⟨rfl, rfl, rfl, rfl⟩) (done true)
  · simp only [if_neg heos]
    exact (after (fun i => { i.pushRep nd.2 with st := matchNext i.st }) (fun _ => rfl)
      (fun _ => ⟨rfl, rfl, rfl, rfl⟩) (copyMatch nd.2 nd.1)).map fun _ => false

theorem shortRepPacket : Twins Machine.shortRepPacket :=
  choose (·.rep0) (F := fun d i => Machine.copyMatch d 1 { i with st := shortRepNext i.st }) (fun _ => rfl) fun d =>
    after (fun i => { i with st := shortRepNext i.st }) (fun _ => rfl) (fun _ => ⟨rfl, rfl, rfl, rfl⟩) (copyMatch d 1)

theorem longRepPacket (k : Fin 4) : Twins (Machine.longRepPacket k) := by
  have hrotate : ∀ ps, Twins fun i => lenDecode .forRep ps (i.rotateRep k) := fun ps =>
    after (fun i => i.rotateRep k) (fun _ => by match k with | 0 | 1 | 2 | 3 => rfl) (fun i => by simp) (runDec _)
  exact choose (fun i => (i.posState, i.repAt k, i.st))
    (F := fun x i => (lenDecode .forRep x.1 (i.rotateRep k)).bind fun n j =>
      Machine.copyMatch x.2.1 n { j with st := repNext x.2.2 })
    (fun _ => by match k with | 0 | 1 | 2 | 3 => rfl) fun x => (hrotate x.1).bind fun n =>
      after (fun i => { i with st := repNext x.2.2 }) (fun _ => rfl) (fun _ => ⟨rfl, rfl, rfl, rfl⟩) (copyMatch x.2.1 n)

theorem packetOf (k : PacketKind) : Twins (Machine.packetOf k) := by
  cases k with
  | lit => exact litPacket.map _
  | newMatch => exact matchOrEos
  | shortRep => exact shortRepPacket.map _
  | longRep k => exact (longRepPacket k).map _

theorem decodePacket : Twins Machine.decodePacket :=
  bind (F := nextKind) (choose (fun i => (i.st, i.posState)) (F := fun x i => Machine.runDec (kindDec x.1 x.2) i)
    (fun _ => rfl) fun _ => runDec _) packetOf

theorem packets (n : Nat) : Twins (Machine.packets n) := by
  induction n with
  | zero => exact done ()
  | succ n ih =>
    refine (congrArg Twins (funext fun i => ?_)).mp
      (ite (fun i => decide (i.op < i.destCapacity)) (fun _ => rfl)
        (decodePacket.bind (G := fun ended i => if ended then .ok () i else Machine.packets n i) fun ended => ?_) (done ()))
    · simp [Machine.packets]
    · cases ended
      · exact ih
      · exact done ()

/-! ## A run -/

theorem runInst (pol : InitByte0Policy) : Twins (Machine.runInst pol) :=
  (rcInit pol).bind fun _ =>
    choose (·.destCapacity) (F := fun n i => Machine.packets n { i with endReason := .outputFull }) (fun _ => rfl) fun n =>
      after (fun i => { i with endReason := .outputFull }) (fun _ => rfl) (fun _ => ⟨rfl, rfl, rfl, rfl⟩) (packets n)

theorem sizeCheck : Twins Machine.sizeCheck := by
  refine (congrArg Twins (funext fun i => ?_)).mp
    (ite (fun i => decide (i.ip ≠ i.srcLen ∨ i.op ≠ i.destCapacity)) (fun _ => rfl) (raise .formatMismatch)
      (choose (·.op) (F := fun n i => .ok n { i with busy := false, status := .ok }) (fun _ => rfl) fun n =>
        after (fun i => { i with busy := false, status := .ok }) (fun _ => rfl) (fun _ => ⟨rfl, rfl, rfl, rfl⟩) (done n)))
  simp only [decide_eq_true_eq, Machine.sizeCheck]

end Twins

/-! ## DECOMPRESS -/

/-- What a DECOMPRESS starts from, but for `range` and `code`, which RC_INIT sets before anything reads them (R90). -/
def Inst.started (i : Inst) (src : List Byte) (cap ep : Nat) : Inst := { i.begun src cap ep with range := 0, code := 0 }

theorem runInst_begun (pol : InitByte0Policy) (i : Inst) (src : List Byte) (cap ep : Nat) :
    runInst pol (i.begun src cap ep) = runInst pol (i.started src cap ep) := rfl

/-- Two starts of the same call on the same properties (R191, R241). -/
theorem started_twin {i j : Inst} (h : sameProps i j) (src : List Byte) (cap ep ep' : Nat) :
    Twin (i.started src cap ep) (j.started src cap ep') := by
  refine ⟨?_, fun a ha => ?_, fun a ha => absurd ha (Nat.not_lt_zero a)⟩
  · obtain ⟨hlc, hlp, hpb, hdict⟩ := h
    simp only [Inst.core, Inst.started, Inst.begun, resetInst, hlc, hlp, hpb, hdict]
  · have hread : Memory.read (Memory.ofBytes src) a = src[a]? := Memory.read_ofBytes src a
    exact (congrArg Option.isSome hread).trans (by rw [List.getElem?_eq_getElem (by exact ha)]; rfl)

theorem decompressInst_alike {i j : Inst} (h : sameProps i j) (pol : InitByte0Policy) (src : List Byte)
    (cap ep ep' : Nat) : Alike (decompressInst pol src cap ep i) (decompressInst pol src cap ep' j) := by
  rw [decompressInst, decompressInst, runInst_begun, runInst_begun]
  exact (Twins.runInst pol).bind (fun _ => Twins.sizeCheck) _ _ (started_twin h src cap ep ep')

theorem sizeCheck_ok_status {i j : Inst} {n : Nat} (h : sizeCheck i = .ok n j) : j.status = .ok := by
  unfold sizeCheck at h
  split at h <;> cases h
  rfl

theorem decompressInst_ok_status {pol : InitByte0Policy} {src : List Byte} {cap ep n : Nat} {i j : Inst}
    (h : decompressInst pol src cap ep i = .ok n j) : j.status = .ok := by
  obtain ⟨-, k, -, hk⟩ := Res.bind_eq_ok.1 h
  exact sizeCheck_ok_status hk

/-- Settles O60: two calls with the same properties, stream and capacity start as twins but for `range` and `code`, and
stay so to the end, where the result alone decides `status`. -/
theorem decompressIsPure : Obligations.DecompressIsPure := by
  intro s s' t t' n n' i i' src cap hpol hi hi' _ hprops ht ht'
  obtain ⟨_, k, ⟨⟩, hk, -, rfl⟩ := execDecompress_next ht
  obtain ⟨_, k', ⟨⟩, hk', -, rfl⟩ := execDecompress_next ht'
  cases hi.symm.trans hk
  cases hi'.symm.trans hk'
  have halike := decompressInst_alike hprops s.params.initByte0 src cap s.draws s'.draws
  rw [← hpol]
  cases hr : decompressInst s.params.initByte0 src cap s.draws i with
  | ok w j =>
    cases hr' : decompressInst s.params.initByte0 src cap s'.draws i' with
    | ok w' j' =>
      rw [hr, hr'] at halike
      obtain ⟨rfl, htwin⟩ := halike
      have hout : j'.out = j.out := htwin.field (·.out) fun _ => rfl
      exact ⟨rfl, j, j', Table.get_set_same _ _ _, Table.get_set_same _ _ _,
        (decompressInst_ok_status hr).trans (decompressInst_ok_status hr').symm, fun _ a => by rw [hout]⟩
    | raised e' j' => rw [hr, hr'] at halike; exact halike.elim
  | raised e j =>
    cases hr' : decompressInst s.params.initByte0 src cap s'.draws i' with
    | ok w' j' => rw [hr, hr'] at halike; exact halike.elim
    | raised e' j' =>
      rw [hr, hr'] at halike
      obtain rfl : e = e' := halike
      rw [decompressed_raised, decompressed_raised]
      exact ⟨rfl, _, _, Table.get_set_same _ _ _, Table.get_set_same _ _ _, rfl, fun h => nomatch h⟩

end Sys2Proof.Machine
end

section
/-! SUPPORT. The literal operand and LIT: the context in shifts and masks, what LIT_DECODE runs, and why it has the match
byte it needs. -/

namespace Sys2Proof.Machine

/-! ## The literal context (R110) -/

theorem litContextNat_eq_or (i : Inst) : i.litContextNat =
    (i.prev.toNat >>> (8 - i.lc.toNat)) <<< i.lp.toNat ||| (i.op &&& (2 ^ i.lp.toNat - 1)) := by
  have hlow : i.op % 2 ^ i.lp.toNat < 2 ^ i.lp.toNat := Nat.mod_lt _ (Nat.two_pow_pos _)
  rw [Nat.and_two_pow_sub_one_eq_mod, ← Nat.shiftLeft_add_eq_or_of_lt hlow, Nat.shiftLeft_eq,
    Nat.shiftRight_eq_div_pow, Inst.litContextNat]

/-- Settles O26: the low bits of `op` fit below the shifted bits of `prev`, so the sum is an OR. -/
theorem literalContextRule : Obligations.LiteralContextRule := by
  intro i hprops
  rw [litContext_val hprops]
  exact ⟨litContextNat_eq_or i, litContextNat_lt hprops.1⟩

/-! ## The literal rows (R112, R113) -/

/-- A literal completes with a byte left for each of its 8 decisions, in either mode. -/
theorem litDec_completes (mode : LitMode) {i : Inst} (hin : i.ip + 8 ≤ i.srcLen) :
    ∃ b j, runDec (litDec i.litContext mode) i = .ok b j ∧ sameButDecoder i j ∧ j.ip ≤ i.ip + 8 ∧
      ∀ c, ¬ofTree (.lit i.litContext) c → j.prob c = i.prob c := by
  have hwithin := litDec_within i.litContext mode
  obtain ⟨b, j, hj⟩ := runDec_completes hwithin hin
  have hdec := runDec_decodes hwithin i
  rw [hj] at hdec
  obtain ⟨hsame, -, hip, -⟩ := hdec
  refine ⟨b, j, hj, hsame, hip, fun c hc => ?_⟩
  have hprob := runDec_prob (litDec_asksOnly i.litContext mode) i hc
  rwa [hj] at hprob

/-- A plain literal is the value of its tree (R112). -/
theorem treeDec_of_plainDec {ctx : Fin 256} {i j : Inst} {b : Byte} (h : runDec (plainDec ctx) i = .ok b j) :
    runDec (treeDec (.lit ctx) 8) i = .ok b.toNat j := by
  rw [plainDec, runDec_map] at h
  obtain ⟨v, hv, rfl⟩ := Res.map_eq_ok.1 h
  have hlt : v < 2 ^ 8 := runDec_ensures (treeDec_ensures (.lit ctx) 8) hv
  rw [hv, BitVec.toNat_ofNat, Nat.mod_eq_of_lt hlt]

theorem hasEntries_lit {i : Inst} (h : i.propsLegal) : i.hasEntries (.lit i.litContext) (2 ^ 8) = true := by
  rw [Inst.hasEntries, Inst.hasCounter, Bool.and_eq_true, decide_eq_true_iff, decide_eq_true_iff]
  exact ⟨show 2 ^ 8 ≤ 768 by decide, litCounter_lt h ⟨_, rfl⟩⟩

/-- A matched literal with its match position in reach reads against the byte there (R111). -/
theorem literalMatched_of_reach {i : Inst} (hop : i.rep0.toNat < i.op) (hdict : i.rep0.toNat < i.dictEff) :
    literalMatched i = runDec (litDec i.litContext (.matched (i.back i.rep0))) i := by
  rw [literalMatched, getByte_ok hop hdict, Res.bind_ok]
  rfl

/-- Settles O28: either row runs the literal of its mode, the plain one that of the tree. -/
theorem literalRowsComplete : Obligations.LiteralRowsComplete := by
  refine fun s i hi hin => ⟨?_, fun hop hdict => ?_⟩
  · obtain ⟨b, j, hj, hsame, hip, hprob⟩ := litDec_completes .plain hin
    refine ⟨b, j, onCurrent_ok hi (Res.map_eq_ok.2 ⟨b, hj, rfl⟩), hsame, hip, fun hprops => ?_, hprob⟩
    exact (onCounters_num hi).2 ⟨hasEntries_lit hprops, treeDec_of_plainDec hj⟩
  · obtain ⟨b, j, hj, hsame, hip, hprob⟩ := litDec_completes (.matched (i.back i.rep0)) hin
    have hmatched := (literalMatched_of_reach hop hdict).trans hj
    exact ⟨b, j, onCurrent_ok hi (Res.map_eq_ok.2 ⟨b, hmatched, rfl⟩), hsame, hip, hj, hprob⟩

/-! ## LIT_DECODE and LIT (R111, R114, R153) -/

theorem litDecode_of_lt {i : Inst} (h : i.st.val < 7) : litDecode i = literalPlain i :=
  if_neg (by rw [matchedState, decide_eq_true_iff]; omega)

theorem litDecode_of_ge {i : Inst} (h : 7 ≤ i.st.val) : litDecode i = literalMatched i :=
  if_pos (decide_eq_true h)

/-- In a matched state the match position is in reach (R111, R141). -/
def Inst.matchByteInReach (i : Inst) : Prop :=
  7 ≤ i.st.val → i.rep0.toNat < i.op ∧ i.rep0.toNat < i.dictEff

/-- Then LIT_DECODE only runs the literal of its mode (R114). -/
theorem litDecode_of_reach {i : Inst} (h : i.matchByteInReach) :
    ∃ mode, litDecode i = runDec (litDec i.litContext mode) i := by
  by_cases hst : i.st.val < 7
  · exact ⟨.plain, litDecode_of_lt hst⟩
  · obtain ⟨hop, hdict⟩ := h (Nat.le_of_not_lt hst)
    exact ⟨_, (litDecode_of_ge (Nat.le_of_not_lt hst)).trans (literalMatched_of_reach hop hdict)⟩

/-- Two operations that answer alike on the current instance act alike on the state. -/
theorem onCurrent_congr {f g : Inst → Res Value} {s : State} {i : Inst} (hi : s.current = some i) (h : f i = g i) :
    onCurrent f s = onCurrent g s := by
  cases hg : g i with
  | ok v j => rw [onCurrent_ok hi hg, onCurrent_ok hi (h.trans hg)]
  | raised e j => rw [onCurrent_raised hi hg, onCurrent_raised hi (h.trans hg)]

theorem exec_litDecode {s : State} {i : Inst} (hi : s.current = some i) :
    exec .litDecode s = if i.st.val < 7 then exec .literalPlain s else exec .literalMatched s := by
  split
  · next h => exact onCurrent_congr hi (congrArg (Res.map Value.byte) (litDecode_of_lt h))
  · next h => exact onCurrent_congr hi (congrArg (Res.map Value.byte) (litDecode_of_ge (Nat.le_of_not_lt h)))

/-- LIT once its byte is decoded and has room (R153). -/
theorem litPacket_ok {i j : Inst} {b : Byte} (h : litDecode i = .ok b j) (hroom : i.op < i.destCapacity) :
    litPacket i = .ok ()
      { j with out := Memory.write i.out i.op b, prev := b, op := i.op + 1, st := litNext i.st } := by
  have hsame := litDecode_same h
  refine litPacket_eq_ok.2 ⟨b, j, h, by rw [hsame]; exact hroom, ?_⟩
  rw [hsame]
  rfl

/-- Settles O29: LIT_DECODE runs the literal of its mode, and LIT appends its byte. -/
theorem litCompletes : Obligations.LitCompletes := by
  refine fun s i hi => ⟨exec_litDecode hi, fun hin hroom hreach => ?_⟩
  obtain ⟨mode, hmode⟩ := litDecode_of_reach hreach
  obtain ⟨b, j, hj, hsame, hip, hprob⟩ := litDec_completes mode hin
  have hlit : litDecode i = .ok b j := hmode.trans hj
  exact ⟨b, j, onCurrent_ok hi (Res.map_eq_ok.2 ⟨b, hlit, rfl⟩), hsame, hip, hprob,
    onCurrent_ok hi (Res.map_eq_ok.2 ⟨(), litPacket_ok hlit hroom, rfl⟩),
    fun a ha => Table.get_set_other i.out b ha⟩

/-! ## Literals within a run (R111, R140) -/

/-- Between the packets of a run the most recent distance is in reach in every matched state (R111, R207). -/
theorem Inst.runLegal.matchByteInReach {i : Inst} (h : i.runLegal) : i.matchByteInReach := by
  obtain ⟨-, -, -, ⟨hrep0, -⟩, hop⟩ := h
  exact fun hst => ⟨hop hst, hrep0.1⟩

/-- With its match position in reach and room for the byte, a LIT raises at the end of the stream only. -/
theorem litPacket_raised {i k : Inst} {e : Err} (hreach : i.matchByteInReach) (hroom : i.op < i.destCapacity)
    (h : litPacket i = .raised e k) : e = .inputExhausted := by
  rcases Res.bind_eq_raised.1 h with hlit | ⟨b, j, hlit, -⟩
  · obtain ⟨mode, hmode⟩ := litDecode_of_reach hreach
    obtain ⟨he, -⟩ := runDec_exhausted (hmode.symm.trans hlit)
    exact he
  · rw [litPacket_ok hlit hroom] at h
    cases h

/-- Settles O30: a legal running instance has its match byte in reach, so LIT raises InputExhausted or nothing. -/
theorem literalsNeverOutOfReach : Obligations.LiteralsNeverOutOfReach := by
  intro s i hinv hi hbusy hroom j
  have hrun : i.runLegal := ((Inst.legal_iff i).1 (hinv.legal hi)).2 hbusy
  have hexhausted : ∀ e, exec .lit s = .next (s.trapped j e) → e = .inputExhausted := fun e ht =>
    have ⟨_, hk⟩ := onCurrent_trapped hi ht
    litPacket_raised hrun.matchByteInReach hroom (Res.map_eq_raised.1 hk)
  exact ⟨fun ht => absurd (hexhausted _ ht) nofun, fun ht => absurd (hexhausted _ ht) nofun⟩

end Sys2Proof.Machine
end

section
/-! SUPPORT. The length and distance operands: the class and slot decisions and then a row, the parts of a slot's row,
how the slots and the footer trees tile, and the long reps. -/

namespace Sys2Proof.Machine

/-! ## Rows that run a program -/

theorem onCurrent_num {d : Dec Nat} {s : State} {i j : Inst} {v : Nat} (hi : s.current = some i) :
    onCurrent (fun i => (runDec d i).map .num) s = .next (s.after j (.num v)) ↔ runDec d i = .ok v j :=
  (onCurrent_after hi).trans (Res.map_eq_ok_iff fun _ _ => Value.num.inj)

/-- The same on what an operation before it left. -/
theorem onCurrent_num_after {d : Dec Nat} {s : State} {j k : Inst} {w : Value} {v : Nat} :
    onCurrent (fun i => (runDec d i).map .num) (s.after j w) = .next (s.after k (.num v)) ↔ runDec d j = .ok v k := by
  rw [← State.after_after s j k w]
  exact onCurrent_num (s.current_after j w)

theorem onCounters_num_after {ok : Inst → Bool} {d : Dec Nat} {s : State} {j k : Inst} {w : Value} {v : Nat} :
    onCounters ok (fun i => (runDec d i).map .num) (s.after j w) = .next (s.after k (.num v)) ↔
      ok j = true ∧ runDec d j = .ok v k := by
  rw [← State.after_after s j k w]
  exact onCounters_num (s.current_after j w)

theorem decodeBit_of_exec {s : State} {i j : Inst} {c : Counter} {b : Bool} (hi : s.current = some i)
    (h : exec (.decodeBit c) s = .next (s.after j (.bit b))) : decodeBit c i = .ok b j :=
  (Res.map_eq_ok_iff fun _ _ => Value.bit.inj).1 ((onCounters_after hi).1 h).2

theorem treeDec_asksOnly_ofTree (t : Tree) (n : Nat) : Dec.asksOnly (ofTree t) (treeDec t n) :=
  Dec.asksOnly_mono (treeDec_asksOnly t n) fun _ ⟨k, _, _, hk⟩ => ⟨k, hk⟩

theorem reverseDec_asksOnly_ofTree (t : Tree) (base n : Nat) : Dec.asksOnly (ofTree t) (reverseDec t base n) :=
  Dec.asksOnly_mono (reverseDec_asksOnly t base n) fun _ ⟨k, _, _, hk⟩ => ⟨base + k, hk⟩

/-! ## LEN_DECODE (R120, R121) -/

/-- The counters of a length coder that a length in the row `ps` may ask (R23, R120). -/
def ofLenCoder (c : Coder) (ps : PosState) (d : Counter) : Prop :=
  d = .choice c ∨ d = .choice2 c ∨ ofTree (.low c ps) d ∨ ofTree (.mid c ps) d ∨ ofTree (.high c) d

theorem bitDec_asksOnly {P : Counter → Prop} {c : Counter} (h : P c) : Dec.asksOnly P (bitDec c) :=
  ⟨fun _ hd => Query.adaptive.inj hd ▸ h, fun _ => trivial⟩

theorem lenDec_asksOnly (c : Coder) (ps : PosState) : Dec.asksOnly (ofLenCoder c ps) (lenDec c ps) := by
  refine Dec.asksOnly_bind (bitDec_asksOnly (.inl rfl)) fun b => ?_
  cases b with
  | false => exact Dec.asksOnly_map (Dec.asksOnly_mono (treeDec_asksOnly_ofTree _ _) fun _ h => .inr (.inr (.inl h)))
  | true =>
    refine Dec.asksOnly_bind (bitDec_asksOnly (.inr (.inl rfl))) fun b2 => ?_
    cases b2 with
    | false =>
      exact Dec.asksOnly_map (Dec.asksOnly_mono (treeDec_asksOnly_ofTree _ _) fun _ h => .inr (.inr (.inr (.inl h))))
    | true =>
      exact Dec.asksOnly_map (Dec.asksOnly_mono (treeDec_asksOnly_ofTree _ _) fun _ h => .inr (.inr (.inr (.inr h))))

/-- The first class decision answers 0: the row LEN.LOW (R121). -/
theorem runDec_lenDec_low {c : Coder} (ps : PosState) {i j : Inst} (h : decodeBit (.choice c) i = .ok false j) :
    runDec (lenDec c ps) i = runDec (lowDec c ps) j := by
  rw [lenDec, runDec_bitDec_bind, h]
  rfl

/-- The first class decision answers 1: the second one tells LEN.MID from LEN.HIGH (R121). -/
theorem runDec_lenDec_above {c : Coder} (ps : PosState) {i j k : Inst} {b : Bool}
    (h : decodeBit (.choice c) i = .ok true j) (h2 : decodeBit (.choice2 c) j = .ok b k) :
    runDec (lenDec c ps) i = runDec (if b then highDec c else midDec c ps) k := by
  rw [lenDec, runDec_bitDec_bind, h, Res.bind_ok, if_pos rfl, runDec_bitDec_bind, h2]
  rfl

/-- LEN_DECODE with a byte left for each of its at most 10 decisions (R121). -/
theorem lenDec_completes (c : Coder) (ps : PosState) {i : Inst} (hin : i.ip + 10 ≤ i.srcLen) :
    ∃ n j, runDec (lenDec c ps) i = .ok n j ∧ (2 ≤ n ∧ n ≤ 273) ∧ sameButDecoder i j ∧ i.ip ≤ j.ip ∧ j.ip ≤ i.ip + 10 ∧
      ∀ d, ¬ofLenCoder c ps d → j.prob d = i.prob d :=
  runDec_completes_frame (lenDec_within c ps) (lenDec_ensures c ps) (lenDec_asksOnly c ps) hin

/-- Settles O32: the class decisions lead to the program of the class's row; a length asks at most 10 decisions, all of
counters of its coder. -/
theorem lenDecodeRule : Obligations.LenDecodeRule := by
  refine fun s i c ps hi => ⟨fun n j k hb hrow => ?_, fun n j j2 k hb hb2 hrow => ?_, fun n j j2 k hb hb2 hrow => ?_,
    fun hin => ?_⟩
  · have hrun := runDec_lenDec_low ps (decodeBit_of_exec hi hb)
    exact (onCurrent_num hi).2 (hrun.trans (onCurrent_num_after.1 hrow))
  · have hrun := runDec_lenDec_above ps (decodeBit_of_exec hi hb) (decodeBit_of_exec_after hb2)
    exact (onCurrent_num hi).2 (hrun.trans (onCurrent_num_after.1 hrow))
  · have hrun := runDec_lenDec_above ps (decodeBit_of_exec hi hb) (decodeBit_of_exec_after hb2)
    exact (onCurrent_num hi).2 (hrun.trans (onCurrent_num_after.1 hrow))
  · obtain ⟨n, j, hj, ⟨hge, hle⟩, hsame, -, hip, hprob⟩ := lenDec_completes c ps hin
    refine ⟨n, j, (onCurrent_num hi).2 hj, hge, hle, hsame, hip, fun d h1 h2 h3 h4 h5 => hprob d ?_⟩
    rintro (h | h | h | h | h)
    exacts [h1 h, h2 h, h3 h, h4 h, h5 h]

/-! ## The slots (R125 to R131) -/

/-- Settles O33: `lenState` by its four branches. -/
theorem lenStateRule : Obligations.LenStateRule := by
  intro n hn
  unfold lenState
  split
  · next h => rw [show n = 2 by omega]; rfl
  · split
    · next h => rw [h]; rfl
    · split
      · next h => rw [h]; rfl
      · exact (min_eq_right (by omega)).symm

theorem slotDec_of_low {slot : Nat} (h : slot < 4) : slotDec slot = .done slot := if_pos h

/-- A slot from 4 to 13 reads its extra bits by a footer tree (R128). -/
theorem slotDec_of_footer {slot : Nat} (h4 : 4 ≤ slot) (h14 : slot < 14) : slotDec slot =
    (reverseDec .specPos (slotBase slot - slot) (slotBits slot)).map (slotBase slot + ·) := by
  rw [slotDec, if_neg (by omega), if_pos h14]

/-- A slot from 14 up reads direct decisions, then the align tree (R129). -/
theorem slotDec_of_direct {slot : Nat} (h14 : 14 ≤ slot) : slotDec slot = (directDec (slotBits slot - 4)).bind fun d =>
    (reverseDec .align 0 4).map fun a => slotBase slot + d * 16 + a := by
  rw [slotDec, if_neg (by omega), if_neg (by omega)]

/-- A slot asks a decision for each extra bit (R126). -/
theorem slotDec_within_bits (slot : Nat) : Dec.within (slotDec slot) (slotBits slot) := by
  by_cases h4 : slot < 4
  · rw [slotDec_of_low h4]
    cases slotBits slot <;> trivial
  by_cases h14 : slot < 14
  · rw [slotDec_of_footer (by omega) h14]
    exact Dec.within_map (reverseDec_within _ _ _)
  · rw [slotDec_of_direct (by omega)]
    refine Dec.within_mono
      (Dec.within_bind (directDec_within _) (m := 4) fun _ => Dec.within_map (reverseDec_within _ _ _)) ?_
    unfold slotBits
    omega

theorem slotDec_asksOnly (slot : Nat) : Dec.asksOnly (fun c => ofTree .specPos c ∨ ofTree .align c) (slotDec slot) := by
  by_cases h4 : slot < 4
  · rw [slotDec_of_low h4]
    trivial
  by_cases h14 : slot < 14
  · rw [slotDec_of_footer (by omega) h14]
    exact Dec.asksOnly_map (Dec.asksOnly_mono (reverseDec_asksOnly_ofTree _ _ _) fun _ => .inl)
  · rw [slotDec_of_direct (by omega)]
    exact Dec.asksOnly_bind (directDec_asksOnly _ _) fun _ =>
      Dec.asksOnly_map (Dec.asksOnly_mono (reverseDec_asksOnly_ofTree _ _ _) fun _ => .inr)

theorem exec_slot_num {row : Instr} {slot : Nat} (hrow : row.slot = some slot) {s : State} {i j : Inst} {d : Nat}
    (hi : s.current = some i) : exec row s = .next (s.after j (.num d)) ↔ runDec (slotDec slot) i = .ok d j := by
  rw [exec_slot hrow]
  exact onCurrent_num hi

/-- A slot below 4 is its own distance (R127). -/
theorem exec_lowSlot {row : Instr} {slot : Nat} (hrow : row.slot = some slot) (h : slot < 4) {s : State} {i : Inst}
    (hi : s.current = some i) : exec row s = .next (s.after i (.num slot)) :=
  (exec_slot_num hrow hi).2 (by rw [slotDec_of_low h]; rfl)

/-- Settles O34: the rows of the slots below 4. -/
theorem lowSlotDistances : Obligations.LowSlotDistances := fun _ _ hi =>
  ⟨exec_lowSlot rfl (by decide) hi, exec_lowSlot rfl (by decide) hi, exec_lowSlot rfl (by decide) hi,
    exec_lowSlot rfl (by decide) hi⟩

/-- Settles O35: a slot below 4 reads nothing; any other asks a decision for each extra bit. -/
theorem slotRowsComplete : Obligations.SlotRowsComplete := by
  intro row slot s i hrow hi hin
  by_cases h4 : slot < 4
  · exact ⟨slot, i, exec_lowSlot hrow h4 hi, by rw [inSlot, if_pos h4], .refl i, Nat.le_add_right _ _, fun _ _ _ => rfl⟩
  · obtain ⟨d, j, hj, hd, hsame, -, hip, hprob⟩ := runDec_completes_frame (slotDec_within_bits slot)
      (slotDec_ensures slot) (slotDec_asksOnly slot) (hin (by omega))
    exact ⟨d, j, (exec_slot_num hrow hi).2 hj, hd, hsame, hip, fun c hfooter halign =>
      hprob c (not_or.2 ⟨hfooter, halign⟩)⟩

/-- Settles O36: a slot's program by its parts. -/
theorem slotRowsByParts : Obligations.SlotRowsByParts := by
  refine fun row slot s i hrow hi => ⟨fun h4 h14 v j hv => ?_, fun h14 v a j k hv ha => ?_⟩
  · obtain ⟨-, hv⟩ := (onCounters_num hi).1 hv
    rw [exec_slot_num hrow hi, slotDec_of_footer h4 h14, runDec_map, hv]
    rfl
  · have hv := (onCurrent_num hi).1 hv
    obtain ⟨-, ha⟩ := onCounters_num_after.1 ha
    rw [exec_slot_num hrow hi, slotDec_of_direct h14, runDec_bind, hv, Res.bind_ok, runDec_map, ha]
    rfl

/-! ## The footer trees tile `P.specPos` (R128) -/

/-- The offset of a slot's footer tree in `P.specPos`: its nodes stand from the next entry up. -/
def footerOffset (slot : Nat) : Nat := slotBase slot - slot

/-- A footer tree ends where the next one begins. -/
theorem footerOffset_succ {slot : Nat} (h4 : 4 ≤ slot) (h14 : slot < 14) :
    footerOffset (slot + 1) = footerOffset slot + (2 ^ slotBits slot - 1) := by
  interval_cases slot <;> decide

theorem footerOffset_mono {k slot : Nat} (h4 : 4 ≤ k) (h : k ≤ slot) (h14 : slot ≤ 14) :
    footerOffset k ≤ footerOffset slot := by
  induction slot, h using Nat.le_induction with
  | base => exact le_refl _
  | succ slot hle ih =>
    rw [footerOffset_succ (by omega) (by omega)]
    exact Nat.le_add_right_of_le (ih (by omega))

/-- Every entry up to where tree `n` begins is a node of a tree before it. -/
theorem exists_footer_of_le {e n : Nat} (he : 1 ≤ e) (h4 : 4 ≤ n) (h14 : n ≤ 14) (h : e ≤ footerOffset n) :
    ∃ slot, 4 ≤ slot ∧ slot < n ∧ footerOffset slot < e ∧ e ≤ footerOffset (slot + 1) := by
  induction n, h4 using Nat.le_induction with
  | base => exact absurd h (Nat.not_le.2 he)
  | succ n hn ih =>
    by_cases hlt : footerOffset n < e
    · exact ⟨n, hn, n.lt_succ_self, hlt, h⟩
    · obtain ⟨slot, h1, h2, h3⟩ := ih (by omega) (Nat.le_of_not_lt hlt)
      exact ⟨slot, h1, by omega, h3⟩

/-- An entry not beyond tree `k` is in no tree after it. -/
theorem footer_le_of_entry {e k slot : Nat} (h4 : 4 ≤ k) (h14 : slot < 14) (hk : e ≤ footerOffset (k + 1))
    (hslot : footerOffset slot < e) : slot ≤ k := by
  by_contra hlt
  have hmono := footerOffset_mono (k := k + 1) (slot := slot) (by omega) (by omega) (by omega)
  omega

/-- The entries of a footer tree's nodes, from its offset up to the next one's. -/
theorem footer_node_iff {slot m : Nat} (h4 : 4 ≤ slot) (h14 : slot < 14) : 1 ≤ m ∧ m < 2 ^ slotBits slot ↔
    footerOffset slot < footerOffset slot + m ∧ footerOffset slot + m ≤ footerOffset (slot + 1) := by
  have := Nat.two_pow_pos (slotBits slot)
  rw [footerOffset_succ h4 h14]
  omega

/-- Settles O37: a distance is in the slot `slotOf` gives alone; the footer trees follow each other without a gap. -/
theorem slotsTileDistances : Obligations.SlotsTileDistances := by
  refine ⟨fun d hd => ⟨slotOf d, slotOf_lt hd, inSlot_slotOf d, fun _ _ hk => (slotOf_of_inSlot hk).symm⟩,
    fun e h1 h114 => ?_⟩
  obtain ⟨slot, h4, h14, hlow, hhigh⟩ := exists_footer_of_le h1 (by decide) (le_refl 14) h114
  obtain ⟨m, rfl⟩ := Nat.exists_eq_add_of_le (Nat.le_of_lt hlow)
  obtain ⟨hm1, hm⟩ := (footer_node_iff h4 h14).2 ⟨hlow, hhigh⟩
  refine ⟨slot, m, h4, h14, hm1, hm, rfl, fun k m' hk4 hk14 hm1' hm' heq => ?_⟩
  obtain ⟨hklow, hkhigh⟩ := (footer_node_iff hk4 hk14).1 ⟨hm1', hm'⟩
  rw [← show footerOffset slot + m = footerOffset k + m' from heq] at hklow hkhigh
  obtain rfl : k = slot :=
    Nat.le_antisymm (footer_le_of_entry h4 hk14 hhigh hklow) (footer_le_of_entry hk4 h14 hkhigh hlow)
  exact ⟨rfl, (Nat.add_left_cancel heq).symm⟩

/-! ## DIST_DECODE (R126) -/

/-- The counters of a distance after a length of `lenState` `ls` (R23, R126). -/
def ofDistance (ls : Fin 4) (c : Counter) : Prop := ofTree (.posSlot ls) c ∨ ofTree .specPos c ∨ ofTree .align c

theorem distDec_asksOnly (n : Nat) : Dec.asksOnly (ofDistance (lenState n)) (distDec n) :=
  Dec.asksOnly_bind (Dec.asksOnly_mono (treeDec_asksOnly_ofTree _ _) fun _ => .inl) fun slot =>
    Dec.asksOnly_mono (slotDec_asksOnly slot) fun _ => .inr

/-- Settles O38: the slot's tree leads to the program of the slot's row; a distance asks at most 36 decisions, all of
distance counters. -/
theorem distDecodeRule : Obligations.DistDecodeRule := by
  refine fun s i n hi => ⟨fun slot d j k hslot hrow => ?_, fun hin => ?_⟩
  · obtain ⟨-, hslot⟩ := (onCounters_num hi).1 hslot
    rw [exec_slot (slotInstr_slot slot)] at hrow
    refine (onCurrent_num hi).2 ?_
    rw [distDec, runDec_bind, hslot]
    exact onCurrent_num_after.1 hrow
  · obtain ⟨d, j, hj, hlt, hsame, -, hip, hprob⟩ := runDec_completes_frame (distDec_within n) (distDec_ensures n)
      (distDec_asksOnly n) hin
    exact ⟨d, j, (onCurrent_num hi).2 hj, hlt, hsame, hip, fun c hslot hfooter halign =>
      hprob c (not_or.2 ⟨hslot, not_or.2 ⟨hfooter, halign⟩⟩)⟩

/-! ## LONGREP0 to LONGREP3 (R157 to R161) -/

/-- The row of long rep `k` copies from register `k`, which it moves to the front. -/
theorem longRepMoves.rotates {i : Inst} {row : Instr} {k : Fin 4} {dist r1 r2 r3 : Word}
    (h : longRepMoves i row k dist r1 r2 r3) :
    (∀ s, exec row s = onCurrent (fun j => (longRepPacket k j).map fun _ => .none) s) ∧ i.repAt k = dist ∧
      i.rotateRep k = i.withReps dist r1 r2 r3 i.st := by
  rcases h with ⟨rfl, rfl, h⟩ | ⟨rfl, rfl, h⟩ | ⟨rfl, rfl, h⟩ | ⟨rfl, rfl, h⟩ <;> cases h <;>
    exact ⟨fun _ => rfl, rfl, rfl⟩

/-- A long rep once its length is decoded: the registers and `state` are committed, then the copy (D29). -/
theorem longRepPacket_of_len {i j : Inst} {k : Fin 4} {dist r1 r2 r3 : Word} {n : Nat}
    (hrot : i.rotateRep k = i.withReps dist r1 r2 r3 i.st) (hlen : lenDecode .forRep i.posState i = .ok n j) :
    longRepPacket k i = copyMatch (i.repAt k) n (j.withReps dist r1 r2 r3 (repNext i.st)) := by
  rw [lenDecode] at hlen
  rw [longRepPacket, lenDecode, hrot, runDec_withReps, hlen]
  rfl

/-- Settles O46: the length changes the decoder's part only, and the copy is in reach and has room. -/
theorem longRepsComplete : Obligations.LongRepsComplete := by
  refine fun s i row m dist r1 r2 r3 hi hmoves => ⟨fun n j hlen hop hdict hroom => ?_, fun hin => ?_⟩
  · obtain ⟨hexec, hdist, hrot⟩ := hmoves.rotates
    have hsame := lenDecode_same hlen
    have hpacket := longRepPacket_of_len hrot hlen
    rw [hdist] at hpacket
    obtain ⟨k, hk, hwindow, hcopied⟩ := copyMatch_ok (i := j.withReps dist r1 r2 r3 (repNext i.st)) (d := dist) (n := n)
      (by rw [hsame]; exact hop) (by rw [hsame]; exact hdict) (by rw [hsame]; exact hroom)
    refine ⟨k, ?_, hsame, hwindow, copied_of_sameButDecoder hsame hcopied⟩
    rw [hexec]
    exact onCurrent_ok hi (by rw [hpacket, hk]; rfl)
  · obtain ⟨n, j, hj, ⟨hge, hle⟩, -⟩ := lenDec_completes .forRep i.posState hin
    exact ⟨n, j, hj, hge, hle, (onCurrent_num hi).2 hj⟩

end Sys2Proof.Machine
end

section
/-! SUPPORT. The window: its two byte operations, the copy, and the overlap law. -/

namespace Sys2Proof.Machine

/-- Settles O39: PUTBYTE by the room left, GETBYTE by the reach of its distance; a write lists its byte and leaves every
other index alone. -/
theorem windowByteRule : Obligations.WindowByteRule := by
  refine fun s i b d hi => ⟨fun hroom => ⟨?_, Table.get_set_same _ _ _, fun _ ha => Table.get_set_other _ _ ha⟩,
    fun hfull => ?_, fun hop hdict => ?_, fun hbad => ?_⟩
  · exact onCurrent_ok hi (Res.map_eq_ok.2 ⟨(), putByte_ok b hroom, rfl⟩)
  · exact onCurrent_raised hi (Res.map_eq_raised.2 (putByte_raised b hfull))
  · exact onCurrent_ok hi (Res.map_eq_ok.2 ⟨_, getByte_ok hop hdict, rfl⟩)
  · exact onCurrent_raised hi (Res.map_eq_raised.2 (getByte_raised hbad))

/-- Settles O40: in reach, the room decides between a whole copy and one cut short; out of reach nothing is copied. -/
theorem copyMatchCompletes : Obligations.CopyMatchCompletes := by
  refine fun s i d n hi => ⟨fun hop hdict hroom => ?_, fun hbad => ?_, fun hop hdict hcap hfull => ?_⟩
  · obtain ⟨j, hj, hwindow, hcopied⟩ := copyMatch_ok hop hdict hroom
    exact ⟨j, onCurrent_ok hi (Res.map_eq_ok.2 ⟨(), hj, rfl⟩), hwindow, hcopied⟩
  · exact onCurrent_raised hi (Res.map_eq_raised.2 (copyMatch_badDistance n hbad))
  · obtain ⟨j, hj, hwindow, hcopied⟩ := copyMatch_overflow hop hdict hcap hfull
    exact ⟨j, hj, onCurrent_raised hi (Res.map_eq_raised.2 hj), hwindow, hcopied⟩

/-- A copy of at least one byte that completes had room for its first (R140, R142). -/
theorem copyMatch_room {i j : Inst} {d : Word} {n : Nat} (h : copyMatch d n i = .ok () j) (hn : 0 < n) :
    i.op < i.destCapacity := by
  by_contra hfull
  obtain ⟨m, rfl⟩ := Nat.exists_eq_add_one.2 hn
  by_cases hbad : i.op ≤ d.toNat ∨ i.dictEff ≤ d.toNat
  · rw [copyMatch_badDistance _ hbad] at h
    cases h
  · rw [not_or, Nat.not_le, Nat.not_le] at hbad
    rw [copyMatch, Inst.badDistance_false.2 hbad, if_neg Bool.false_ne_true, copyLoop,
      putByte_raised _ (Nat.le_of_not_lt hfull)] at h
    cases h

/-- Settles O41: a copy with a byte `k` started within the output, so it copied with the period of its distance. -/
theorem overlapLaw : Obligations.OverlapLaw := by
  intro s i j d n k hi hexec hk
  obtain ⟨u, hcopy, -⟩ := Res.map_eq_ok.1 ((onCurrent_after hi).1 hexec)
  have hroom : i.op < i.destCapacity := copyMatch_room hcopy (Nat.zero_lt_of_lt hk)
  obtain ⟨-, -, -, -, -, hbytes, -⟩ := copyMatch_of_ok hcopy hroom.le
  exact Inst.outByte_of_read (hbytes k hk)

end Sys2Proof.Machine
end

section
/-! SUPPORT. The transition tables, SHORTREP, and where the copying packets trap on their copy. -/

namespace Sys2Proof.Machine

/-- Settles O48: each table entry by entry. -/
theorem transitionTables : Obligations.TransitionTables := by
  refine ⟨?_, ?_, ?_, ?_⟩ <;> decide

/-! ## A copy of one byte (R142, R156) -/

theorem copyMatch_of_reach {i : Inst} {d : Word} (n : Nat) (hop : d.toNat < i.op) (hdict : d.toNat < i.dictEff) :
    copyMatch d n i = copyLoop d n i := by
  rw [copyMatch, Inst.badDistance_false.2 ⟨hop, hdict⟩, if_neg Bool.false_ne_true]

theorem copyMatch_one {i : Inst} {d : Word} (hop : d.toNat < i.op) (hdict : d.toNat < i.dictEff)
    (hroom : i.op < i.destCapacity) : copyMatch d 1 i = .ok () (i.appended (i.back d)) := by
  rw [copyMatch_of_reach 1 hop hdict, copyLoop, putByte_ok _ hroom]
  rfl

/-- With no room left a copy of at least one byte writes none (R140, R208). -/
theorem copyMatch_full {i : Inst} {d : Word} (n : Nat) (hop : d.toNat < i.op) (hdict : d.toNat < i.dictEff)
    (hfull : i.destCapacity ≤ i.op) : copyMatch d (n + 1) i = .raised .outputOverflow i := by
  rw [copyMatch_of_reach _ hop hdict, copyLoop, putByte_raised _ hfull]
  rfl

/-- Settles O45: `state` is committed, then one byte is copied. -/
theorem shortRepCompletes : Obligations.ShortRepCompletes := by
  refine fun s i hi hop hdict hroom => ⟨onCurrent_ok hi (Res.map_eq_ok.2 ⟨(), ?_, rfl⟩),
    fun a b ha => Table.get_set_other i.out b ha⟩
  exact copyMatch_one (i := { i with st := shortRepNext i.st }) hop hdict hroom

/-! ## Traps on the copy (R207, R208) -/

section
variable {i j : Inst} {d : Word} {n : Nat} (r0 r1 r2 r3 : Word) (st : StateIndex)

/-- Once the operands are decoded and the registers committed, a distance out of reach traps before any byte is written
(R207, D29). -/
theorem copyMatch_decoded_badDistance (hsame : sameButDecoder i j) (hbad : i.op ≤ d.toNat ∨ i.dictEff ≤ d.toNat) :
    copyMatch d n (j.withReps r0 r1 r2 r3 st) = .raised .distanceOutOfRange (j.withReps r0 r1 r2 r3 st) :=
  copyMatch_badDistance n (by rw [hsame]; exact hbad)

/-- And a copy longer than the room fills the output up (R208, D29). -/
theorem copyMatch_decoded_overflow (hsame : sameButDecoder i j) (hop : d.toNat < i.op) (hdict : d.toNat < i.dictEff)
    (hcap : i.op ≤ i.destCapacity) (hfull : i.destCapacity < i.op + n) :
    ∃ y, copyMatch d n (j.withReps r0 r1 r2 r3 st) = .raised .outputOverflow y ∧
      sameButWindow (j.withReps r0 r1 r2 r3 st) y ∧ copied i y d.toNat (i.destCapacity - i.op) := by
  obtain ⟨y, hy, hwindow, hcopied⟩ := copyMatch_overflow (i := j.withReps r0 r1 r2 r3 st) (d := d) (n := n)
    (by rw [hsame]; exact hop) (by rw [hsame]; exact hdict) (by rw [hsame]; exact hcap) (by rw [hsame]; exact hfull)
  have hroom : (j.withReps r0 r1 r2 r3 st).destCapacity - (j.withReps r0 r1 r2 r3 st).op = i.destCapacity - i.op := by
    rw [hsame]
    rfl
  rw [hroom] at hcopied
  exact ⟨y, hy, hwindow, copied_of_sameButDecoder hsame hcopied⟩

end

/-- MATCH once its operands are decoded: the registers and `state` are committed, then the copy (R154, R161, D29). -/
theorem matchOrEos_of_operands {i j : Inst} {n : Nat} {d : Word} (h : matchOperands i = .ok (n, d) j)
    (hd : d ≠ Config.eosDistance) : matchOrEos i =
      (copyMatch d n (j.withReps d i.rep0 i.rep1 i.rep2 (matchNext i.st))).map fun _ => false := by
  rw [matchOrEos_of_match h hd, commitMatch, matchOperands_same h]
  rfl

/-- The rows MATCH and EOS trap alike (log 19). -/
theorem exec_matchOrEos_raised {s : State} {i k : Inst} {e : Err} (hi : s.current = some i)
    (h : matchOrEos i = .raised e k) :
    exec .newMatch s = .next (s.trapped k e) ∧ exec .eos s = exec .newMatch s :=
  ⟨onCurrent_raised hi (Res.map_eq_raised.2 h), rfl⟩

/-- Settles O47: each packet commits its registers and then copies, so it traps as its copy does. -/
theorem copyingPacketsTrap : Obligations.CopyingPacketsTrap := by
  refine fun s i hi => ⟨fun hbad => ?_, fun hop hdict hfull => ?_,
    fun row m dist r1 r2 r3 n j x hmoves hlen hx => ?_, fun n d j x hoperands hd hx => ?_⟩
  · exact onCurrent_raised hi
      (Res.map_eq_raised.2 (copyMatch_badDistance (i := { i with st := shortRepNext i.st }) 1 hbad))
  · exact onCurrent_raised hi
      (Res.map_eq_raised.2 (copyMatch_full (i := { i with st := shortRepNext i.st }) 0 hop hdict hfull))
  · obtain ⟨hexec, hdist, hrot⟩ := hmoves.rotates
    have hsame := lenDecode_same hlen
    have hpacket := longRepPacket_of_len hrot hlen
    obtain rfl : x = j.withReps dist r1 r2 r3 (repNext i.st) := hx
    rw [hdist] at hpacket
    rw [hexec]
    refine ⟨fun hbad => ?_, fun hop hdict hcap hfull => ?_⟩
    · exact onCurrent_raised hi
        (Res.map_eq_raised.2 (hpacket.trans (copyMatch_decoded_badDistance _ _ _ _ _ hsame hbad)))
    · obtain ⟨y, hy, hwindow, hcopied⟩ :=
        copyMatch_decoded_overflow dist r1 r2 r3 (repNext i.st) hsame hop hdict hcap hfull
      have hraised := hpacket.trans hy
      exact ⟨y, hraised, onCurrent_raised hi (Res.map_eq_raised.2 hraised), hwindow, hcopied⟩
  · have hsame := matchOperands_same hoperands
    have hmatch := matchOrEos_of_operands hoperands hd
    obtain rfl : x = j.withReps d i.rep0 i.rep1 i.rep2 (matchNext i.st) := hx
    refine ⟨fun hbad => ?_, fun hop hdict hcap hfull => ?_⟩
    · exact exec_matchOrEos_raised hi
        (hmatch.trans (Res.map_eq_raised.2 (copyMatch_decoded_badDistance _ _ _ _ _ hsame hbad)))
    · obtain ⟨y, hy, hwindow, hcopied⟩ :=
        copyMatch_decoded_overflow d i.rep0 i.rep1 i.rep2 (matchNext i.st) hsame hop hdict hcap hfull
      have hraised := hmatch.trans (Res.map_eq_raised.2 hy)
      obtain ⟨hrow, heos⟩ := exec_matchOrEos_raised hi hraised
      exact ⟨y, hraised, hrow, heos, hwindow, hcopied⟩

end Sys2Proof.Machine
end

section
/-! SUPPORT. The packet loop: what a completed packet leaves of `op` and `endReason`, that a larger bound on the loop
changes nothing, and the steps of a run. -/

namespace Sys2Proof.Machine

/-! ## What a completed packet leaves (R150, R164, R165) -/

/-- From `i`, which had room for a byte, a packet left `j`: the end marker ends the run and writes nothing, every other
packet writes at least a byte, within the output, and does not end the run (R155, R164). -/
def Inst.packetLeft (i : Inst) (ended : Bool) (j : Inst) : Prop :=
  if ended then j.endReason = .endMarker ∧ j.op = i.op
  else j.endReason = i.endReason ∧ i.op < j.op ∧ j.op ≤ i.destCapacity

theorem packetLeft_of_copy {i j : Inst} {d : Word} {n : Nat} (h : copyMatch d n i = .ok () j)
    (hroom : i.op < i.destCapacity) (hn : 1 ≤ n) : i.packetLeft false j := by
  obtain ⟨-, -, hfits, hwindow, hop, -⟩ := copyMatch_of_ok h hroom.le
  exact ⟨by rw [hwindow], by omega, by omega⟩

/-- What decoding changes is no part of what a packet leaves. -/
theorem packetLeft_of_sameButDecoder {i j k : Inst} {ended : Bool} (h : sameButDecoder i j)
    (hk : j.packetLeft ended k) : i.packetLeft ended k := by
  rw [h] at hk
  exact hk

theorem matchOrEos_left {i k : Inst} {ended : Bool} (h : matchOrEos i = .ok ended k) (hroom : i.op < i.destCapacity) :
    i.packetLeft ended k := by
  obtain ⟨⟨n, d⟩, j, hoperands, hcommit⟩ := Res.bind_eq_ok.1 h
  have hsame := matchOperands_same hoperands
  refine packetLeft_of_sameButDecoder hsame ?_
  split at hcommit
  · cases hcommit
    exact ⟨rfl, rfl⟩
  · obtain ⟨_, hcopy, rfl⟩ := Res.map_eq_ok.1 hcommit
    obtain ⟨hn, -⟩ := matchOperands_range hoperands
    exact packetLeft_of_copy (i := { j.pushRep d with st := matchNext j.st }) hcopy (by rw [hsame]; exact hroom)
      (by omega)

theorem longRepPacket_left {m : Fin 4} {i k : Inst} (h : longRepPacket m i = .ok () k)
    (hroom : i.op < i.destCapacity) : i.packetLeft false k := by
  obtain ⟨n, j, hlen, hcopy⟩ := Res.bind_eq_ok.1 h
  obtain ⟨r0, r1, r2, r3, hrot⟩ := rotateRep_eq_withReps i m
  have hsame := lenDecode_same hlen
  rw [hrot] at hsame
  obtain ⟨hn, -⟩ := lenDecode_range hlen
  have hleft := packetLeft_of_copy (i := { j with st := repNext i.st }) hcopy (by rw [hsame]; exact hroom) (by omega)
  exact packetLeft_of_sameButDecoder (i := i.withReps r0 r1 r2 r3 i.st) hsame hleft

theorem packetOf_left {k : PacketKind} {i j : Inst} {ended : Bool} (h : packetOf k i = .ok ended j)
    (hroom : i.op < i.destCapacity) : i.packetLeft ended j := by
  cases k with
  | lit =>
    obtain ⟨_, hlit, rfl⟩ := Res.map_eq_ok.1 h
    obtain ⟨b, i1, hdecode, hroom1, rfl⟩ := litPacket_eq_ok.1 hlit
    exact packetLeft_of_sameButDecoder (litDecode_same hdecode) ⟨rfl, Nat.lt_succ_self _, hroom1⟩
  | newMatch => exact matchOrEos_left h hroom
  | shortRep =>
    obtain ⟨_, hcopy, rfl⟩ := Res.map_eq_ok.1 h
    exact packetLeft_of_copy (i := { i with st := shortRepNext i.st }) hcopy hroom (le_refl 1)
  | longRep m =>
    obtain ⟨_, hrep, rfl⟩ := Res.map_eq_ok.1 h
    exact longRepPacket_left hrep hroom

theorem nextKind_same {i j : Inst} {k : PacketKind} (h : nextKind i = .ok k j) : sameButDecoder i j := by
  have hsame := runDec_same (kindDec i.st i.posState) i
  rwa [← nextKind, h] at hsame

theorem decodePacket_left {i j : Inst} {ended : Bool} (h : decodePacket i = .ok ended j)
    (hroom : i.op < i.destCapacity) : i.packetLeft ended j := by
  obtain ⟨k, i1, hkind, hpacket⟩ := Res.bind_eq_ok.1 h
  have hsame := nextKind_same hkind
  exact packetLeft_of_sameButDecoder hsame (packetOf_left hpacket (by rw [hsame]; exact hroom))

theorem decodePacket_sameCall {i j : Inst} {ended : Bool} (h : decodePacket i = .ok ended j) : sameCall i j := by
  obtain ⟨hcall, -⟩ := Appends.decodePacket i
  rwa [h] at hcall

/-! ## The loop, whatever its bound (R150, R164) -/

theorem packets_full {i : Inst} (n : Nat) (h : i.destCapacity ≤ i.op) : packets n i = .ok () i := by
  cases n with
  | zero => rfl
  | succ n => rw [packets, if_neg (Nat.not_lt.2 h)]

theorem packets_succ {i : Inst} (n : Nat) (h : i.op < i.destCapacity) : packets (n + 1) i =
    (decodePacket i).bind fun ended j => if ended then .ok () j else packets n j := by
  rw [packets, if_pos h]

/-- How the loop goes on is asked only where more of the same output is produced. -/
theorem decodePacket_bind_congr {i : Inst} (hroom : i.op < i.destCapacity) {F G : Inst → Res Unit}
    (h : ∀ j, j.destCapacity = i.destCapacity → i.op < j.op → F j = G j) :
    ((decodePacket i).bind fun ended j => if ended then .ok () j else F j) =
      (decodePacket i).bind fun ended j => if ended then .ok () j else G j := by
  cases hpacket : decodePacket i with
  | raised e j => rfl
  | ok ended j =>
    cases ended with
    | true => rfl
    | false =>
      obtain ⟨-, -, hcap, -⟩ := decodePacket_sameCall hpacket
      obtain ⟨-, hop, -⟩ := decodePacket_left hpacket hroom
      exact h j hcap hop

/-- Two bounds that suffice to fill the output give the same loop (log 26). -/
theorem packets_eq_of_le {m n : Nat} {i : Inst} (hm : i.destCapacity ≤ i.op + m) (hn : i.destCapacity ≤ i.op + n) :
    packets m i = packets n i := by
  induction m generalizing n i with
  | zero => rw [packets_full 0 hm, packets_full n hm]
  | succ m ih =>
    by_cases hroom : i.op < i.destCapacity
    · obtain ⟨n, rfl⟩ : ∃ k, n = k + 1 := Nat.exists_eq_add_one.2 (by omega)
      rw [packets_succ m hroom, packets_succ n hroom]
      exact decodePacket_bind_congr hroom fun j hcap hop => ih (by omega) (by omega)
    · rw [packets_full _ (Nat.le_of_not_lt hroom), packets_full _ (Nat.le_of_not_lt hroom)]

/-- Settles O50: with room left the bound allows a packet, and what it allows after that packet is enough. -/
theorem packetLoopRule : Obligations.PacketLoopRule := by
  intro i n hn
  by_cases hroom : i.op < i.destCapacity
  · obtain ⟨n, rfl⟩ : ∃ k, n = k + 1 := Nat.exists_eq_add_one.2 (by omega)
    rw [if_pos hroom, packets_succ n hroom]
    exact decodePacket_bind_congr hroom fun j hcap hop => packets_eq_of_le (by omega) (by omega)
  · rw [if_neg hroom, packets_full n (Nat.le_of_not_lt hroom)]

/-! ## The steps of a run (R150, R189) -/

theorem Inst.running_iff {i : Inst} : i.running = true ↔ i.op < i.destCapacity ∧ i.endReason = .outputFull := by
  simp [Inst.running]

section
variable {s : State} {i : Inst} (hi : s.current = some i) (hbusy : i.busy = true)
include hi hbusy

theorem step_nextKind_ok {k : PacketKind} {j : Inst} (hroom : i.op < i.destCapacity) (hend : i.endReason = .outputFull)
    (h : nextKind i = .ok k j) : step s = exec k.instr (s.putInst s.cur j) := by
  rw [step, fetch_running hi hbusy, fetchPacket, if_pos (Inst.running_iff.2 ⟨hroom, hend⟩), h]

theorem step_nextKind_raised {e : Err} {j : Inst} (hroom : i.op < i.destCapacity) (hend : i.endReason = .outputFull)
    (h : nextKind i = .raised e j) : step s = .next (s.trapped j e) := by
  rw [step, fetch_running hi hbusy, fetchPacket, if_pos (Inst.running_iff.2 ⟨hroom, hend⟩), h]
  exact congrArg Host.Outcome.next (takeException_current s j e)

theorem step_ended (hend : i.destCapacity ≤ i.op ∨ i.endReason = .endMarker) :
    step s = .next (decompressed s.cur s (sizeCheck i)) := by
  rw [step, fetch_running hi hbusy, fetchPacket, if_neg]
  rw [Inst.running_iff]
  rintro ⟨hroom, hfull⟩
  rcases hend with h | h
  · omega
  · rw [h] at hfull
    cases hfull

/-- A step with room left is one whole packet (log 23). -/
theorem step_decodePacket_ok {ended : Bool} {j : Inst} (hroom : i.op < i.destCapacity)
    (hend : i.endReason = .outputFull) (h : decodePacket i = .ok ended j) : step s = .next (s.after j .none) := by
  obtain ⟨k, i1, hkind, hpacket⟩ := Res.bind_eq_ok.1 h
  rw [step_nextKind_ok hi hbusy hroom hend hkind, exec_kind,
    onCurrent_ok (s.current_putInst i1) (Res.map_eq_ok.2 ⟨ended, hpacket, rfl⟩)]
  exact congrArg Host.Outcome.next (s.after_putInst i1 j .none)

theorem step_decodePacket_raised {e : Err} {j : Inst} (hroom : i.op < i.destCapacity)
    (hend : i.endReason = .outputFull) (h : decodePacket i = .raised e j) : step s = .next (s.trapped j e) := by
  rcases Res.bind_eq_raised.1 h with hkind | ⟨k, i1, hkind, hpacket⟩
  · exact step_nextKind_raised hi hbusy hroom hend hkind
  · rw [step_nextKind_ok hi hbusy hroom hend hkind, exec_kind,
      onCurrent_raised (s.current_putInst i1) (Res.map_eq_raised.2 hpacket)]
    exact congrArg Host.Outcome.next (s.trapped_putInst i1 j e)

end

theorem step_idle {s : State} (hrun : s.noRun) (hrows : s.rows = []) (hport : s.port = []) : step s = .next s := by
  rw [step, fetch_noRun hrun, fetchIdle_of_noRows hrows, fetchRequest, hport]

/-- Settles O9: the fetch of a run by whether the loop goes on, the exact-size check by its two outcomes. -/
theorem stepRunsPacket : Obligations.StepRunsPacket := by
  refine fun s => ⟨step_idle, fun i hi hbusy => ⟨fun hroom hend => ⟨fun k j => step_nextKind_ok hi hbusy hroom hend,
    fun e j => step_nextKind_raised hi hbusy hroom hend⟩, fun hend => ⟨fun ⟨hip, hop⟩ => ?_, fun hbad => ?_⟩⟩⟩
  · rw [step_ended hi hbusy hend, sizeCheck_pass hip hop]
    rfl
  · rw [step_ended hi hbusy hend, sizeCheck_fail hbad]
    exact congrArg Host.Outcome.next (takeException_current s i .formatMismatch)

/-! ## Packet by packet to the end of the command (R187, R205) -/

/-- The end of the command overwrites what a packet before it left. -/
theorem decompressed_after (s : State) (j : Inst) (v : Value) (r : Res Nat) :
    decompressed s.cur (s.after j v) r = decompressed s.cur s r := by
  cases r with
  | ok w k => simp [decompressed, State.after]
  | raised e k => simp [decompressed, takeException_putInst, State.after]

theorem run_succ_of_next {M : Host.Core} {s t : M.State} (k : Nat) (h : M.step s = .next t) :
    M.run (k + 1) s = M.run k t := by
  rw [Host.Core.run, h]

theorem core_run_succ {s t : State} (k : Nat) (h : step s = .next t) :
    Host.Core.run core (k + 1) s = Host.Core.run core k t := run_succ_of_next (M := core) k h

theorem core_run_one {s t : State} (h : step s = .next t) : Host.Core.run core 1 s = .next t := core_run_succ 0 h

theorem steps_reach_packets (n : Nat) {s : State} {i : Inst} (hi : s.current = some i) (hbusy : i.busy = true)
    (hend : i.endReason = .outputFull) (hn : i.destCapacity ≤ i.op + n) :
    ∃ k, Host.Core.run core k s = .next (decompressed s.cur s ((packets n i).bind fun _ j => sizeCheck j)) := by
  induction n generalizing s i with
  | zero => exact ⟨1, core_run_one (step_ended hi hbusy (.inl hn))⟩
  | succ n ih =>
    by_cases hroom : i.op < i.destCapacity
    · rw [packets_succ n hroom]
      cases hpacket : decodePacket i with
      | raised e j =>
        have hstep := step_decodePacket_raised hi hbusy hroom hend hpacket
        exact ⟨1, (core_run_one hstep).trans (congrArg Host.Outcome.next (takeException_current s j e).symm)⟩
      | ok ended j =>
        have hstep := step_decodePacket_ok hi hbusy hroom hend hpacket
        obtain ⟨-, -, hcap, hrunning, -⟩ := decodePacket_sameCall hpacket
        have hbusy' : j.busy = true := hrunning.trans hbusy
        cases ended with
        | true =>
          obtain ⟨hmarker, -⟩ := decodePacket_left hpacket hroom
          have hcheck := step_ended (s.current_after j .none) hbusy' (.inr hmarker)
          exact ⟨2, by rw [core_run_succ 1 hstep, core_run_one hcheck, State.after_cur, decompressed_after]; rfl⟩
        | false =>
          obtain ⟨hreason, hop, -⟩ := decodePacket_left hpacket hroom
          obtain ⟨k, hk⟩ := ih (s.current_after j .none) hbusy' (hreason.trans hend) (by omega)
          exact ⟨k + 1, by rw [core_run_succ k hstep, hk, State.after_cur, decompressed_after]; rfl⟩
    · have hfull := Nat.le_of_not_lt hroom
      rw [packets_full _ hfull]
      exact ⟨1, core_run_one (step_ended hi hbusy (.inl hfull))⟩

/-- Settles O52: each step is one packet of the loop until the loop has ended, then the exact-size check. -/
theorem packetStepsAreRun : Obligations.PacketStepsAreRun := fun _ i hi hbusy hend =>
  steps_reach_packets i.destCapacity hi hbusy hend (Nat.le_add_left _ _)

end Sys2Proof.Machine
end

section
/-! SUPPORT. RUN: how it ends, and a stream of zeros, on which every decision answers 0. -/

namespace Sys2Proof.Machine

/-! ## RUN after RESET (R150, R241) -/

section
variable {s : State} {i : Inst} (hi : s.current = some i) (hreset : i.atReset = true)
include hi hreset

theorem exec_run_reset : exec .run s = onCurrent (fun j => ranOf (runInst s.params.initByte0 j)) s :=
  onReset_eq hi hreset

theorem exec_run_ok {k : Inst} (h : runInst s.params.initByte0 i = .ok () k) :
    exec .run s = .next (s.after k (.ran k.op k.ip k.endReason)) :=
  (exec_run_reset hi hreset).trans (onCurrent_ok hi (by rw [h]; rfl))

theorem exec_run_raised {e : Err} {k : Inst} (h : runInst s.params.initByte0 i = .raised e k) :
    exec .run s = .next (s.trapped k e) :=
  (exec_run_reset hi hreset).trans (onCurrent_raised hi (by rw [h]; rfl))

/-- RUN that completed did so with the result of its loop, and returned the cursors and the reason it left. -/
theorem exec_run_after {j : Inst} {op ip : Nat} {why : EndReason}
    (h : exec .run s = .next (s.after j (.ran op ip why))) :
    runInst s.params.initByte0 i = .ok () j ∧ op = j.op ∧ ip = j.ip ∧ why = j.endReason := by
  rw [exec_run_reset hi hreset, onCurrent_after hi] at h
  cases hrun : runInst s.params.initByte0 i with
  | raised e k =>
    rw [hrun] at h
    cases h
  | ok u k =>
    rw [hrun] at h
    cases h
    exact ⟨rfl, rfl, rfl, rfl⟩

end

theorem runInst_of_rcInit {pol : InitByte0Policy} {i j : Inst} (h : rcInit pol i = .ok () j) :
    runInst pol i = packets j.destCapacity { j with endReason := .outputFull } := by
  rw [runInst, h, Res.bind_ok]

/-! ## How the loop ends (R165) -/

/-- The loop ends with the output full, or at an end marker before that. -/
theorem packets_endReason {n : Nat} {i j : Inst} (h : packets n i = .ok () j) (hop : i.op ≤ i.destCapacity)
    (hn : i.destCapacity ≤ i.op + n) (hend : i.endReason = .outputFull) :
    j.destCapacity = i.destCapacity ∧ (j.endReason = .outputFull ∧ j.op = i.destCapacity ∨
      j.endReason = .endMarker ∧ j.op < i.destCapacity) := by
  induction n generalizing i with
  | zero =>
    cases h
    exact ⟨rfl, .inl ⟨hend, Nat.le_antisymm hop hn⟩⟩
  | succ n ih =>
    by_cases hroom : i.op < i.destCapacity
    · rw [packets_succ n hroom] at h
      obtain ⟨ended, k, hpacket, hrest⟩ := Res.bind_eq_ok.1 h
      obtain ⟨-, -, hcap, -⟩ := decodePacket_sameCall hpacket
      cases ended with
      | true =>
        cases hrest
        obtain ⟨hmarker, hsameOp⟩ := decodePacket_left hpacket hroom
        exact ⟨hcap, .inr ⟨hmarker, hsameOp ▸ hroom⟩⟩
      | false =>
        obtain ⟨hreason, hmore, hle⟩ := decodePacket_left hpacket hroom
        rw [← hcap]
        exact ih hrest (hcap ▸ hle) (by omega) (hreason.trans hend)
    · rw [packets_full _ (Nat.le_of_not_lt hroom)] at h
      cases h
      exact ⟨rfl, .inl ⟨hend, Nat.le_antisymm hop (Nat.le_of_not_lt hroom)⟩⟩

theorem runInst_endReason {pol : InitByte0Policy} {i k : Inst} (h : runInst pol i = .ok () k) (hop : i.op = 0) :
    k.destCapacity = i.destCapacity ∧ (k.endReason = .outputFull ∧ k.op = i.destCapacity ∨
      k.endReason = .endMarker ∧ k.op < i.destCapacity) := by
  obtain ⟨_, j, hinit, hpackets⟩ := Res.bind_eq_ok.1 h
  obtain ⟨-, hsame, -, -⟩ := rcInit_ok hinit
  have hcap : j.destCapacity = i.destCapacity := by rw [hsame]
  have hopj : j.op = 0 := hsame.op.trans hop
  rw [← hcap]
  exact packets_endReason (i := { j with endReason := .outputFull }) hpackets (by simp only [hopj]; omega)
    (Nat.le_add_left _ _) rfl

/-! ## A stream of zeros -/

/-- A range decoder that stands on a stream of zeros: `code` 0, `range` normalised, the counters in range, and zeros in
the stream (R11, R12, R92). -/
def Inst.onZeros (i : Inst) : Prop :=
  i.code = 0 ∧ 0x1000000 ≤ i.range.toNat ∧ probsIn (1847 + 768 * 256) i.probs ∧ ∀ a, a < i.srcLen → i.srcByte a = 0

/-- NORMALIZE shifts a zero into a `code` of 0 (R97). -/
theorem normalize_zero {i : Inst} (hcode : i.code = 0) (hin : i.ip < i.srcLen) (hbyte : i.srcByte i.ip = 0) :
    ∃ j, normalize i = .ok () j ∧ j.code = 0 := by
  by_cases hrange : 0x1000000 ≤ i.range.toNat
  · exact ⟨i, normalize_id hrange, hcode⟩
  · refine ⟨_, normalize_shift (Nat.lt_of_not_le hrange) hin, ?_⟩
    simp only [hcode, hbyte]
    decide

/-- A `code` of 0 is in the interval of the decision 0: of an adaptive decision because its bound is no less than
`8192 * 31`, of a direct one because half the range is not 0 (R93, R94). -/
theorem decision_zero (q : Query) {i : Inst} (h : i.onZeros) (hin : i.ip < i.srcLen) :
    ∃ j, decision q i = .ok false j ∧ j.code = 0 := by
  obtain ⟨hcode, hrange, hprobs, hbytes⟩ := h
  have hzero : i.code.toNat = 0 := by rw [hcode]; rfl
  cases q with
  | adaptive c =>
    have hbound : 0 < (boundOf i.range (i.prob c)).toNat := by
      rw [boundOf_toNat]
      obtain ⟨hprob, -⟩ := probsIn_prob hprobs c
      exact Nat.mul_pos (by omega) (by omega)
    rcases decodeBit_cases c i with ⟨-, hdecision⟩ | ⟨hle, -⟩
    · obtain ⟨j, hj, hjcode⟩ := normalize_zero (i := { i with
        range := boundOf i.range (i.prob c)
        probs := ProbFile.write i.probs c (probAfter (i.prob c) false) }) hcode hin (hbytes _ hin)
      exact ⟨j, by rw [decision, hdecision, hj]; rfl, hjcode⟩
    · omega
  | direct =>
    rcases directBit_cases i with ⟨hle, -⟩ | ⟨-, hdecision⟩
    · omega
    · obtain ⟨j, hj, hjcode⟩ := normalize_zero (i := { i with range := i.range >>> 1 }) hcode hin (hbytes _ hin)
      exact ⟨j, by rw [decision, hdecision, hj]; rfl, hjcode⟩

theorem srcByte_of_sameButDecoder {i j : Inst} (h : sameButDecoder i j) (a : Nat) : j.srcByte a = i.srcByte a := by
  rw [h]
  rfl

/-- On a stream of zeros every decision answers 0, and the decoder still stands on zeros. -/
theorem decision_onZeros (q : Query) {i : Inst} (h : i.onZeros) (hin : i.ip < i.srcLen) :
    ∃ j, decision q i = .ok false j ∧ j.onZeros ∧ sameButDecoder i j ∧ j.ip ≤ i.ip + 1 := by
  obtain ⟨j, hj, hjcode⟩ := decision_zero q h hin
  obtain ⟨-, hrange, hprobs, hbytes⟩ := h
  have hdecodes := decision_decodes q i
  have hprobs' := decision_probsIn hprobs fun c (_ : q = .adaptive c) => counterIndex_lt c
  rw [hj] at hdecodes hprobs'
  obtain ⟨hsame, -, hip, -⟩ := hdecodes
  have hlen : j.srcLen = i.srcLen := by rw [hsame]
  refine ⟨j, hj, ⟨hjcode, decision_range hrange (fun c _ => probsIn_prob hprobs c) hj, hprobs', fun a ha => ?_⟩, hsame,
    hip⟩
  rw [srcByte_of_sameButDecoder hsame]
  exact hbytes a (hlen ▸ ha)

/-- A program on a stream of zeros answers what it reads from zeros. -/
theorem runDec_onZeros {α : Type} {d : Dec α} {n : Nat} {a : α} (hread : d.read (List.replicate n false) = some (a, []))
    {i : Inst} (h : i.onZeros) (hin : i.ip + n ≤ i.srcLen) :
    ∃ j, runDec d i = .ok a j ∧ j.onZeros ∧ sameButDecoder i j ∧ j.ip ≤ i.ip + n := by
  induction d generalizing n i with
  | done b =>
    rw [Dec.read, Option.some.injEq, Prod.mk.injEq] at hread
    obtain ⟨rfl, -⟩ := hread
    exact ⟨i, rfl, h, .refl i, Nat.le_add_right _ _⟩
  | ask q k ih =>
    cases n with
    | zero => cases hread
    | succ n =>
      obtain ⟨j, hj, hzeros, hsame, hip⟩ := decision_onZeros q h (by omega)
      have hlen : j.srcLen = i.srcLen := by rw [hsame]
      obtain ⟨l, hl, hzeros', hsame', hip'⟩ := ih false hread hzeros (by omega)
      exact ⟨l, by rw [runDec, hj]; exact hl, hzeros', hsame.trans hsame', by omega⟩

theorem kindDec_read_zero (st : StateIndex) (ps : PosState) : (kindDec st ps).read [false] = some (.lit, []) := rfl

theorem plainDec_read_zeros (ctx : Fin 256) : (plainDec ctx).read (List.replicate 8 false) = some (0, []) := rfl

/-- In state 0 the packet read from zeros is the literal 0, and it leaves state 0 (R112, R153, R163). -/
theorem decodePacket_onZeros {i : Inst} (h : i.onZeros) (hst : i.st = 0) (hin : i.ip + 9 ≤ i.srcLen)
    (hroom : i.op < i.destCapacity) :
    ∃ j, decodePacket i = .ok false j ∧ j.onZeros ∧ sameButDecoder (i.appended 0) j ∧ j.ip ≤ i.ip + 9 := by
  obtain ⟨j, hkind, hzeros, hsame, hip⟩ := runDec_onZeros (kindDec_read_zero i.st i.posState) (n := 1) h (by omega)
  have hlen : j.srcLen = i.srcLen := by rw [hsame]
  have hstj : j.st = 0 := by rw [hsame]; exact hst
  obtain ⟨k, hliteral, hzeros', hsame', hip'⟩ := runDec_onZeros (plainDec_read_zeros j.litContext) hzeros (by omega)
  have hdecode : litDecode j = .ok 0 k := (litDecode_of_lt (by rw [hstj]; decide)).trans hliteral
  have hpacket : decodePacket i = (litPacket j).map fun _ => false := by
    rw [decodePacket, nextKind, hkind, Res.bind_ok, packetOf]
  rw [litPacket_ok hdecode (by rw [hsame]; exact hroom), hstj] at hpacket
  refine ⟨_, hpacket, hzeros', ?_, hip'.trans (by omega)⟩
  rw [sameButDecoder, hsame', hsame]
  simp only [Inst.appended, hst]
  rfl

/-- The loop on a stream of zeros fills the output with zeros. -/
theorem packets_onZeros (n : Nat) {i : Inst} (h : i.onZeros) (hst : i.st = 0) (hin : i.ip + 9 * n ≤ i.srcLen)
    (hn : i.op + n = i.destCapacity) (hout : ∀ a, a < i.op → Memory.read i.out a = some 0) :
    ∃ j, packets n i = .ok () j ∧ j.op = i.destCapacity ∧ j.ip ≤ i.ip + 9 * n ∧ j.st = 0 ∧
      j.endReason = i.endReason ∧ ∀ a, a < i.destCapacity → Memory.read j.out a = some 0 := by
  induction n generalizing i with
  | zero => exact ⟨i, rfl, hn, Nat.le_refl _, hst, rfl, fun a ha => hout a (by omega)⟩
  | succ n ih =>
    have hroom : i.op < i.destCapacity := by omega
    obtain ⟨j, hj, hzeros, hsame, hip⟩ := decodePacket_onZeros h hst (by omega) hroom
    have hlen : j.srcLen = i.srcLen := by rw [hsame]; rfl
    have hcap : j.destCapacity = i.destCapacity := by rw [hsame]; rfl
    have hop : j.op = i.op + 1 := by rw [hsame]; rfl
    have hreason : j.endReason = i.endReason := by rw [hsame]; rfl
    have hwritten : ∀ a, a < j.op → Memory.read j.out a = some 0 := by
      intro a ha
      rw [hsame]
      by_cases hlast : a = i.op
      · exact hlast ▸ Table.get_set_same _ _ _
      · exact (Table.get_set_other _ _ hlast).trans (hout a (by omega))
    obtain ⟨k, hk, hkop, hkip, hkst, hkreason, hkout⟩ :=
      ih hzeros (by rw [hsame]; exact hst) (by omega) (by omega) hwritten
    rw [hcap] at hkop hkout
    exact ⟨k, by rw [packets_succ n hroom, hj]; exact hk, hkop, by omega, hkst, hkreason.trans hreason, hkout⟩

/-! ## RUN on state alone -/

/-- RC_INIT on a stream of zeros. -/
theorem rcInit_onZeros (pol : InitByte0Policy) {i : Inst} (hprobs : i.probs = []) (hin : i.ip + 5 ≤ i.srcLen)
    (hbytes : ∀ a, a < i.srcLen → i.srcByte a = 0) :
    ∃ j, rcInit pol i = .ok () j ∧ j.onZeros ∧ sameButDecoder i j ∧ j.ip = i.ip + 5 := by
  obtain ⟨j, hsame, hip, hcode, hinit⟩ := rcInit_five pol hin
  rw [if_neg fun hreject => hreject.2 (hbytes 0 (by omega))] at hinit
  obtain ⟨hrange, -, hprobs', -⟩ := rcInit_ok hinit
  have hlen : j.srcLen = i.srcLen := by rw [hsame]
  refine ⟨j, hinit, ⟨BitVec.eq_of_toNat_eq ?_, by rw [hrange]; decide, ?_, fun a ha => ?_⟩, hsame, hip⟩
  · rw [hcode, hbytes _ (by omega), hbytes _ (by omega), hbytes _ (by omega), hbytes _ (by omega)]
    rfl
  · rw [hprobs', hprobs]
    exact ⟨rfl, nofun⟩
  · rw [srcByte_of_sameButDecoder hsame]
    exact hbytes a (hlen ▸ ha)

/-- With no capacity RUN is RC_INIT, and the output is full (D17). -/
theorem runInst_noCapacity {pol : InitByte0Policy} {i : Inst} (hin : i.ip + 5 ≤ i.srcLen) (hcap : i.destCapacity = 0)
    (haccept : pol = .ignore ∨ i.srcByte 0 = 0) :
    ∃ j, runInst pol i = .ok () j ∧ sameButDecoder { i with endReason := .outputFull } j ∧ j.probs = i.probs ∧
      j.ip = i.ip + 5 := by
  obtain ⟨j, -, -, -, hinit⟩ := rcInit_five pol hin
  rw [if_neg fun h => haccept.elim (fun e => by rw [h.1] at e; cases e) h.2] at hinit
  obtain ⟨-, hsame, hprobs, hip⟩ := rcInit_ok hinit
  have hcapj : j.destCapacity = 0 := by rw [hsame]; exact hcap
  refine ⟨{ j with endReason := .outputFull }, ?_, ?_, hprobs, hip⟩
  · rw [runInst_of_rcInit hinit, hcapj]
    rfl
  · rw [hsame]
    rfl

/-- RUN from the start of the output on a stream of zeros. -/
theorem runInst_onZeros (pol : InitByte0Policy) {i : Inst} (hprobs : i.probs = []) (hst : i.st = 0) (hop : i.op = 0)
    (hbytes : ∀ a, a < i.srcLen → i.srcByte a = 0) (hin : i.ip + 5 + 9 * i.destCapacity ≤ i.srcLen) :
    ∃ j, runInst pol i = .ok () j ∧ j.op = i.destCapacity ∧ j.ip ≤ i.ip + 5 + 9 * i.destCapacity ∧ j.st = 0 ∧
      j.endReason = .outputFull ∧ ∀ a, a < i.destCapacity → Memory.read j.out a = some 0 := by
  obtain ⟨j, hinit, hzeros, hsame, hip⟩ := rcInit_onZeros pol hprobs (by omega) hbytes
  have hcap : j.destCapacity = i.destCapacity := by rw [hsame]
  have hlen : j.srcLen = i.srcLen := by rw [hsame]
  have hopj : j.op = 0 := hsame.op.trans hop
  rw [runInst_of_rcInit hinit, ← hcap, ← hip]
  exact packets_onZeros j.destCapacity (i := { j with endReason := .outputFull }) hzeros (by rw [hsame]; exact hst)
    (by simp only; omega) (by simp only; omega) fun a ha => absurd ha (by simp only [hopj]; omega)

/-- Settles O51: RUN is RC_INIT and the loop; the loop ends full or at a marker; and on zeros every packet is the
literal 0. -/
theorem runRule : Obligations.RunRule := by
  refine fun s i hi => ⟨fun hnot => onReset_notReset hi hnot, fun hreset => ?_⟩
  obtain ⟨hprobs, -, -, -, -, hst, -, hop, hip⟩ := i.atReset_iff.1 hreset
  refine ⟨fun j k hinit hpackets => ?_, fun e j hinit => ?_, fun e j k hinit hpackets => ?_, fun j op ip why hrun => ?_,
    fun hin hcap haccept => ?_, fun hbytes hin => ?_⟩
  · exact exec_run_ok hi hreset ((runInst_of_rcInit hinit).trans hpackets)
  · exact exec_run_raised hi hreset (by rw [runInst, hinit, Res.bind_raised])
  · exact exec_run_raised hi hreset ((runInst_of_rcInit hinit).trans hpackets)
  · obtain ⟨hloop, rfl, rfl, rfl⟩ := exec_run_after hi hreset hrun
    obtain ⟨hcap, hend⟩ := runInst_endReason hloop hop
    exact ⟨rfl, rfl, rfl, hcap, hend⟩
  · obtain ⟨j, hrun, hsame, hprobs', hip'⟩ := runInst_noCapacity (by omega) hcap haccept
    rw [hip, Nat.zero_add] at hip'
    have hopj : j.op = 0 := hsame.op.trans hop
    have hreason : j.endReason = .outputFull := by rw [hsame]
    refine ⟨j, ?_, hip', hprobs'.trans hprobs, hsame⟩
    rw [exec_run_ok hi hreset hrun, hopj, hip', hreason]
  · obtain ⟨j, hrun, hjop, hjip, hjst, hreason, hout⟩ := runInst_onZeros s.params.initByte0 hprobs hst hop hbytes (by omega)
    refine ⟨j, ?_, hjop, by omega, hjst, hout⟩
    rw [exec_run_ok hi hreset hrun, hjop, hreason]

end Sys2Proof.Machine
end

section
/-! SUPPORT. Where CREATE traps; and a DECOMPRESS of any bytes: the errors a run can raise, that it starts fit to
run on, and what a run that passes the exact-size check has read and written. -/

namespace Sys2Proof.Machine

/-! ## Where CREATE traps (R182, R183, R205) -/

theorem propertiesOk_of_smallDict {lc lp pb : Nat} {d : Word} (h : d.toNat < 4096) :
    propertiesOk .reject lc lp pb d = false := by
  have hsmall : ¬ Config.dictMin ≤ d.toNat := Nat.not_le.2 h
  simp [propertiesOk, hsmall]

theorem execCreate_rejected {s : State} {lc lp pb : Nat} {d : Word}
    (hok : propertiesOk s.params.dictMin lc lp pb d = false) :
    exec (.create lc lp pb d) s = .next (takeException .invalidProperties none s) := by
  simp only [exec, execCreate, hok, Bool.false_eq_true, if_false]

theorem execCreate_unallocated {s : State} {lc lp pb : Nat} {d : Word}
    (hok : propertiesOk s.params.dictMin lc lp pb d = true) (halloc : s.allocAnswer = false) :
    exec (.create lc lp pb d) s = .next (takeException .allocationFailed none s.allocDrawn) := by
  simp only [exec, execCreate, hok, halloc, if_true, Bool.false_eq_true, if_false]

/-- Settles O55: a small dictionary under `reject` fails the validation, before the environment is asked; on properties
that pass it, the environment's refusal decides. -/
theorem createTraps : Obligations.CreateTraps := by
  refine fun s lc lp pb d hlc hlp hpb hsum => ⟨fun hpol hsmall => ?_, fun hdict halloc => ?_⟩
  · have hbad : propertiesOk s.params.dictMin lc lp pb d = false := by rw [hpol]; exact propertiesOk_of_smallDict hsmall
    exact execCreate_rejected hbad
  · exact execCreate_unallocated (propertiesOk_of_legal hlc hlp hpb hsum hdict) halloc

/-! ## The errors of a run (R200, R204, R207, R208) -/

/-- The errors that the bytes of a stream can cause. -/
def Err.ofStream (e : Err) : Prop :=
  e = .inputExhausted ∨ e = .distanceOutOfRange ∨ e = .outputOverflow ∨ e = .formatMismatch

/-- An operation raises, if at all, an error of the stream. -/
def StreamErrors {α : Type} (r : Res α) : Prop := ∀ e j, r = .raised e j → e.ofStream

namespace StreamErrors

theorem ok {α : Type} (a : α) (i : Inst) : StreamErrors (.ok a i) := fun _ _ h => nomatch h

theorem raised {α : Type} {e : Err} (h : e.ofStream) (i : Inst) : StreamErrors (.raised (α := α) e i) := by
  rintro _ _ ⟨⟩
  exact h

theorem bind {α β : Type} {r : Res α} {f : α → Inst → Res β} (h : StreamErrors r)
    (hf : ∀ a j, StreamErrors (f a j)) : StreamErrors (r.bind f) := fun e j hr =>
  (Res.bind_eq_raised.1 hr).elim (h e j) fun ⟨a, k, _, hk⟩ => hf a k e j hk

theorem map {α β : Type} {r : Res α} (f : α → β) (h : StreamErrors r) : StreamErrors (r.map f) := fun e j hr =>
  h e j (Res.map_eq_raised.1 hr)

theorem runDec {α : Type} (d : Dec α) (i : Inst) : StreamErrors (Machine.runDec d i) := fun _ _ h =>
  .inl (runDec_exhausted h).1

theorem rcInit (pol : InitByte0Policy) (i : Inst) : StreamErrors (Machine.rcInit pol i) := fun _ _ h =>
  (rcInit_raised h).elim (fun hexhausted => .inl hexhausted.1) fun hbyte => .inr (.inr (.inr hbyte.1))

theorem litDecode (i : Inst) : StreamErrors (Machine.litDecode i) := fun _ _ h =>
  (litDecode_raised h).elim (fun hexhausted => .inl hexhausted.1) fun hreach => .inr (.inl hreach.1)

theorem putByte (b : Byte) (i : Inst) : StreamErrors (Machine.putByte b i) := by
  by_cases hroom : i.op < i.destCapacity
  · rw [putByte_ok b hroom]
    exact ok () _
  · rw [putByte_raised b (Nat.le_of_not_lt hroom)]
    exact raised (.inr (.inr (.inl rfl))) i

theorem copyLoop (d : Word) (n : Nat) (i : Inst) : StreamErrors (Machine.copyLoop d n i) := by
  induction n generalizing i with
  | zero => exact ok () i
  | succ n ih => exact (putByte (i.back d) i).bind fun _ j => ih j

theorem copyMatch (d : Word) (n : Nat) (i : Inst) : StreamErrors (Machine.copyMatch d n i) := by
  cases hbad : i.badDistance d with
  | true =>
    rw [copyMatch_badDistance n (Inst.badDistance_true.1 hbad)]
    exact raised (.inr (.inl rfl)) i
  | false =>
    obtain ⟨hop, hdict⟩ := Inst.badDistance_false.1 hbad
    rw [copyMatch_of_reach n hop hdict]
    exact copyLoop d n i

theorem matchOrEos (i : Inst) : StreamErrors (Machine.matchOrEos i) := by
  refine (runDec _ i).bind fun nd j => ?_
  split
  · exact ok _ _
  · exact (copyMatch _ _ _).map _

theorem packetOf (k : PacketKind) (i : Inst) : StreamErrors (Machine.packetOf k i) := by
  cases k with
  | lit => exact ((litDecode i).bind fun b j => (putByte b j).bind fun _ _ => ok _ _).map _
  | newMatch => exact matchOrEos i
  | shortRep => exact (copyMatch _ _ _).map _
  | longRep k => exact ((runDec _ _).bind fun n j => copyMatch _ n _).map _

theorem decodePacket (i : Inst) : StreamErrors (Machine.decodePacket i) := (runDec _ i).bind packetOf

theorem packets (n : Nat) (i : Inst) : StreamErrors (Machine.packets n i) := by
  induction n generalizing i with
  | zero => exact ok () i
  | succ n ih =>
    by_cases hroom : i.op < i.destCapacity
    · rw [packets_succ n hroom]
      refine (decodePacket i).bind fun ended j => ?_
      split
      · exact ok () j
      · exact ih j
    · rw [packets_full _ (Nat.le_of_not_lt hroom)]
      exact ok () i

theorem runInst (pol : InitByte0Policy) (i : Inst) : StreamErrors (Machine.runInst pol i) :=
  (rcInit pol i).bind fun _ _ => packets _ _

theorem sizeCheck (i : Inst) : StreamErrors (Machine.sizeCheck i) := by
  by_cases hexact : i.ip = i.srcLen ∧ i.op = i.destCapacity
  · rw [sizeCheck_pass hexact.1 hexact.2]
    exact ok _ _
  · rw [sizeCheck_fail (not_and_or.1 hexact)]
    exact raised (.inr (.inr (.inr rfl))) i

theorem decompressInst (pol : InitByte0Policy) (src : List Byte) (cap ep : Nat) (i : Inst) :
    StreamErrors (Machine.decompressInst pol src cap ep i) :=
  (runInst pol _).bind fun _ => sizeCheck

end StreamErrors

/-! ## A run that completed -/

theorem repLegal_zero (i : Inst) : i.repLegal 0 :=
  ⟨Nat.lt_of_lt_of_le (by decide) (Nat.le_max_right _ _), .inl rfl⟩

/-- At its RESET values, with `range` normalised, an instance is fit to run on (R29, R186). -/
theorem atReset_runLegal {i : Inst} (hreset : i.atReset = true) {r : Word} (hr : 0x1000000 ≤ r.toNat) :
    Inst.runLegal { i with range := r } := by
  obtain ⟨-, hrep0, hrep1, hrep2, hrep3, hst, hprev, hop, -⟩ := i.atReset_iff.1 hreset
  have hzero : ∀ d, d = 0 → Inst.repLegal { i with range := r } d := fun d hd => hd ▸ repLegal_zero _
  refine ⟨hr, fun a ha => absurd (hop ▸ ha) (Nat.not_lt_zero a), ?_,
    ⟨hzero _ hrep0, hzero _ hrep1, hzero _ hrep2, hzero _ hrep3⟩, fun hmatched => ?_⟩
  · simp only [hprev, hop, if_true]
  · exact absurd (hst ▸ hmatched) (by decide)

/-- A run that completes from the RESET values is fit to run on: RC_INIT normalises `range`, and every packet keeps it
so (R11, R90, R150). -/
theorem runInst_runLegal {pol : InitByte0Policy} {i k : Inst} (hq : i.quiet) (hreset : i.atReset = true)
    (h : runInst pol i = .ok () k) : k.runLegal := by
  obtain ⟨_, j, hinit, hpackets⟩ := Res.bind_eq_ok.1 h
  obtain ⟨hrange, hsame, -, -⟩ := rcInit_ok hinit
  have hqj := (keeps_rcInit pol i hq).1
  rw [hinit] at hqj
  have hstart : j.runLegal :=
    runLegal_of_decoder (i := { i with range := 0xFFFFFFFF }) hsame (by rw [hrange]; decide)
      (atReset_runLegal hreset (by decide))
  exact packets_runLegal (i := { j with endReason := .outputFull }) hqj hstart hpackets

/-- The exact-size check passes at the end of both buffers only (R189). -/
theorem sizeCheck_eq_ok {i j : Inst} {w : Nat} : sizeCheck i = .ok w j ↔
    (i.ip = i.srcLen ∧ i.op = i.destCapacity) ∧ w = i.op ∧ j = { i with busy := false, status := .ok } := by
  by_cases hexact : i.ip = i.srcLen ∧ i.op = i.destCapacity
  · rw [sizeCheck_pass hexact.1 hexact.2]
    simp [hexact, eq_comm]
  · rw [sizeCheck_fail (not_and_or.1 hexact)]
    simp [hexact]

/-- A DECOMPRESS that ends Ok has consumed the whole stream, met no end marker, and written every byte of OUT below the
capacity (R165, R189, R246). -/
theorem decompressInst_exact {pol : InitByte0Policy} {src : List Byte} {cap ep w : Nat} {i j : Inst}
    (hprops : i.propsLegal) (h : decompressInst pol src cap ep i = .ok w j) :
    w = cap ∧ j.destCapacity = cap ∧ j.ip = src.length ∧ j.op = cap ∧ j.endReason = .outputFull ∧
      ∀ a, a < cap → ∃ b, Memory.read j.out a = some b := by
  obtain ⟨_, k, hrun, hcheck⟩ := Res.bind_eq_ok.1 h
  obtain ⟨⟨hip, hop⟩, rfl, rfl⟩ := sizeCheck_eq_ok.1 hcheck
  obtain ⟨-, ⟨-, hlen, -⟩, -⟩ := Appends.runInst pol (i.begun src cap ep)
  rw [hrun] at hlen
  obtain ⟨hcap, hend⟩ := runInst_endReason hrun rfl
  have hfull : k.op = cap := hop.trans hcap
  obtain ⟨-, hwritten, -⟩ := runInst_runLegal (begun_quiet hprops src cap ep) (resetInst_atReset _) hrun
  refine ⟨hfull, hcap, hip.trans hlen, hfull, ?_, fun a ha => Option.isSome_iff_exists.1 (hwritten a (hfull ▸ ha))⟩
  rcases hend with ⟨hreason, -⟩ | ⟨-, hshort⟩
  · exact hreason
  · exact absurd hfull (Nat.ne_of_lt hshort)

/-- OUT lists nothing at or beyond the capacity (R40, R47). -/
theorem Inst.quiet.out_none {i : Inst} (h : i.quiet) {a : Nat} (ha : i.destCapacity ≤ a) :
    Memory.read i.out a = none := by
  obtain ⟨-, -, -, -, -, -, hout⟩ := h
  cases hread : Memory.read i.out a with
  | none => rfl
  | some b => exact absurd (hout a (by rw [hread]; rfl)) (Nat.not_lt.2 ha)

/-- Settles O59: a DECOMPRESS always ends; Ok by the exact-size check on a legal run, else with an error of the stream
and nothing known of OUT. -/
theorem corruptionSafety : Obligations.CorruptionSafety := by
  intro s n i src cap hi ⟨hprops, _⟩ hb hsrc hcap
  have hquiet := decompressInst_quiet hprops s.params.initByte0 src cap s.draws
  have hsame := decompressInst_sameProps s.params.initByte0 src cap s.draws i
  rw [decompress_live hi hb hsrc hcap]
  cases hr : decompressInst s.params.initByte0 src cap s.draws i with
  | ok w j =>
    rw [hr] at hquiet hsame
    obtain ⟨rfl, hdest, hip, hop, hend, hwritten⟩ := decompressInst_exact hprops hr
    have hready := decompressInst_ready hr
    exact ⟨_, j, rfl, Table.get_set_same _ _ _, hready, legal_of_idle hquiet hready, hsame,
      fun m hm => Table.get_set_other _ _ hm, fun a ha => hquiet.out_none (hdest.trans_le ha),
      .inl ⟨decompressInst_ok_status hr, rfl, hip, hop, hend, hwritten⟩⟩
  | raised e j =>
    rw [hr] at hquiet hsame
    rw [decompressed_raised]
    exact ⟨_, _, rfl, Table.get_set_same _ _ _, rfl, abandoned_legal hquiet e (s.draws + 1), hsame,
      fun m hm => Table.get_set_other _ _ hm, fun a _ => rfl,
      .inr ⟨e, rfl, rfl, StreamErrors.decompressInst _ _ _ _ i e j hr⟩⟩

end Sys2Proof.Machine
end

section
/-! SUPPORT. The first packet of a stream: which decision makes a packet a LIT, and what the first one is asked of. -/

namespace Sys2Proof.Machine

/-! ## A packet is a LIT on its first decision (R65, R151) -/

/-- A packet is a LIT exactly when the decision at `isMatch` answers 0: a name that begins with 1 is another kind's. -/
theorem nextKind_lit_iff {i k : Inst} :
    nextKind i = .ok .lit k ↔ decodeBit (.isMatch i.st i.posState) i = .ok false k := by
  rw [nextKind, kindDec, runDec_bitDec_bind, Res.bind_eq_ok]
  constructor
  · rintro ⟨m, j, hbit, hrest⟩
    cases m with
    | false =>
      cases hrest
      exact hbit
    | true =>
      obtain ⟨w, hread, -⟩ := runDec_reads hrest
      have hname : true :: w = PacketKind.name .lit := (kindDec_spells (st := i.st) (ps := i.posState)).1 hread
      cases hname
  · exact fun hbit => ⟨false, k, hbit, rfl⟩

/-- Where the lower interval needs no normalisation, DECODEBIT completes with 0 exactly when `code` lies in it
(R93, R97). -/
theorem decodeBit_false_iff {c : Counter} {i : Inst} {bound : Nat} (h : bound = i.range.toNat / 2048 * (i.prob c).toNat)
    (hwide : 0x1000000 ≤ bound) : (∃ k, decodeBit c i = .ok false k) ↔ i.code.toNat < bound := by
  obtain ⟨hrange, -⟩ := decided_nat h
  rw [decodeBit_eq h]
  constructor
  · rintro ⟨k, hk⟩
    obtain ⟨_, _, hfalse⟩ := Res.map_eq_ok.1 hk
    exact Nat.lt_of_not_le (of_decide_eq_false hfalse)
  · intro hlt
    rw [if_pos hlt] at hrange
    rw [normalize_id (hwide.trans_eq hrange.symm), decide_eq_false (Nat.not_le.2 hlt)]
    exact ⟨_, rfl⟩

/-! ## What the first packet is asked of (R110, R151, R186) -/

theorem prob_of_unlisted {i : Inst} (h : i.probs = []) (c : Counter) : i.prob c = 1024 := by
  rw [Inst.prob, h]
  rfl

theorem litContext_first {i : Inst} (hprev : i.prev = 0) (hop : i.op = 0) : i.litContext = 0 := by
  simp [Inst.litContext, Inst.litContextNat, hprev, hop]

theorem posState_first {i : Inst} (hop : i.op = 0) : i.posState = 0 := by
  simp [Inst.posState, hop]

/-- Settles O25: at the start every counter is 1024 and `range` is 0xFFFFFFFF, so that the bound of the first decision is
0x1FFFFF * 1024 = 0x7FFFFC00, wide enough to need no normalisation. -/
theorem firstPacketRule : Obligations.FirstPacketRule := by
  intro pol i j src cap epoch hinit
  obtain ⟨hrange, hsame, hprobs, -⟩ := rcInit_ok hinit
  have hst : j.st = 0 := by rw [hsame]; rfl
  have hop : j.op = 0 := hsame.op
  have hprev : j.prev = 0 := by rw [hsame]; rfl
  have hps : j.posState = 0 := posState_first hop
  have hprob : j.prob (.isMatch 0 0) = 1024 := prob_of_unlisted hprobs _
  have hbound : 0x7FFFFC00 = j.range.toNat / 2048 * (j.prob (.isMatch 0 0)).toNat := by
    rw [hrange, hprob]
    rfl
  refine ⟨?_, litContext_first hprev hop, hps, hprob⟩
  simp only [nextKind_lit_iff, hst, hps]
  exact (decodeBit_false_iff hbound (by decide)).symm

end Sys2Proof.Machine
end
